-- ==== Sys2Proof/Word.lean ====
section
/-! DEFINITION. The word types of the Entropy Coding Engine: a command or response word is 32 bits with bit 0 least
significant (spec R11, R64, R90), a byte is 8 bits (R60). -/

namespace Sys2Proof

/-- A command word, a response's data word, a 32-bit register (R64, R90). -/
abbrev Word := BitVec 32

/-- One byte of a stream buffer (R60: "A byte is 8 bits"). -/
abbrev Byte := BitVec 8

end Sys2Proof
end

