-- ==== Sys2Proof/Syntax.lean ====
section
/-! DEFINITION. The 37 commands of the ECE command set, version 1 (spec R2, R93): one constructor per row of the opcode
table, in the table's order. Operand types have exactly the widths of R91's formats, so there is no ill-formed term. -/

namespace Sys2Proof

/-- The ordering mode `MFIN` takes and `MORD` holds (R32, R137, R138): 0 `CV`, 1 `V`, 2 `CI`, 3 `I`. -/
inductive OrdMode where
  /-- Ascending count, ties by ascending symbol value. -/
  | cv
  /-- Ascending symbol value. -/
  | v
  /-- Ascending count, ties by insertion order. -/
  | ci
  /-- Insertion order. -/
  | i
deriving DecidableEq, Repr

/-- The rANS state discipline `RAEI` and `RADI` take and `RA_MODE` holds (R41, R170): 0 `RAW`, 1 `STREAM`. -/
inductive RaMode where
  /-- No renormalisation, initial state 0. -/
  | raw
  /-- Byte renormalisation, initial state `MTOTAL * 2^32`. -/
  | stream
deriving DecidableEq, Repr

/-- A well-formed command (R93). `sym` operands are the raw 16-bit encoding of a signed symbol (R92). -/
inductive Instr where
  | nop
  | srst
  | eclr
  | rdcsr (addr : BitVec 8)
  | arg (imm : BitVec 16)
  | mclr
  | mcnt (sym : BitVec 16)
  | mload (sym : BitVec 16)
  | mfin (ord : OrdMode)
  | mtot
  | mivl (sym : BitVec 16)
  | msat (pos : BitVec 16)
  | iclr
  | ipush (byte : BitVec 8)
  | itrim (pad : BitVec 3)
  | oread
  | xfer
  | orwd
  | rcei
  | rce (sym : BitVec 16)
  | rcef
  | rcdi
  | rcd
  | rcdf
  | raei (mode : RaMode)
  | rae (sym : BitVec 16)
  | raef
  | radi (mode : RaMode)
  | rad
  | radf
  | hbld
  | hei
  | he (sym : BitVec 16)
  | hef
  | hdi
  | hd
  | hdf
deriving DecidableEq, Repr

end Sys2Proof
end

