-- ==== Sys2Proof/Decode.lean ====
section
/-! DEFINITION. The decoder and the encoder of the 32-bit command word (spec R90 to R95). Decoding is total: every word is
exactly one command or is ill-formed, with the reason named. -/

namespace Sys2Proof

/-- Why a word is ill-formed (R94). Each raises `IllegalCommandError` when such a word is executed. -/
inductive IllFormed where
  /-- The reserved byte `word[23:16]` is not 0. -/
  | rsvNotZero
  /-- The opcode is not in the table of R93. -/
  | reservedOpcode
  /-- A bit of `arg` that the command's format requires to be 0 is 1. -/
  | operandBitsNotZero
deriving DecidableEq, Repr

/-- `op = word[31:24]` (R90). -/
def opField (w : Word) : BitVec 8 := w.extractLsb' 24 8

/-- `rsv = word[23:16]` (R90). -/
def rsvField (w : Word) : BitVec 8 := w.extractLsb' 16 8

/-- `arg = word[15:0]` (R90). -/
def argField (w : Word) : BitVec 16 := w.extractLsb' 0 16

/-- The 2-bit operand `ord` of `MFIN` (R137). -/
def ordOfBits (b : BitVec 2) : OrdMode :=
  match b.toNat with
  | 0 => .cv
  | 1 => .v
  | 2 => .ci
  | _ => .i

/-- The number of an ordering mode (R32, R138). -/
def ordBits : OrdMode → BitVec 2
  | .cv => 0#2
  | .v => 1#2
  | .ci => 2#2
  | .i => 3#2

/-- The 1-bit operand `mode` of `RAEI` and `RADI` (R171, R176). -/
def modeOfBits (b : BitVec 1) : RaMode := if b = 0#1 then .raw else .stream

/-- The number of a rANS mode (R41). -/
def modeBits : RaMode → BitVec 1
  | .raw => 0#1
  | .stream => 1#1

/-- Format `N`: `arg` must be 0 (R91). -/
def fmtN (a : BitVec 16) (i : Instr) : Except IllFormed Instr :=
  if a = 0#16 then .ok i else .error .operandBitsNotZero

/-- Format `B`: `arg[15:8]` must be 0 (R91). -/
def fmtB (a : BitVec 16) (f : BitVec 8 → Instr) : Except IllFormed Instr :=
  if a.extractLsb' 8 8 = 0#8 then .ok (f (a.extractLsb' 0 8)) else .error .operandBitsNotZero

/-- Format `T`: `arg[15:3]` must be 0 (R91). -/
def fmtT (a : BitVec 16) (f : BitVec 3 → Instr) : Except IllFormed Instr :=
  if a.extractLsb' 3 13 = 0#13 then .ok (f (a.extractLsb' 0 3)) else .error .operandBitsNotZero

/-- Format `O`: `arg[15:2]` must be 0 (R91). -/
def fmtO (a : BitVec 16) (f : OrdMode → Instr) : Except IllFormed Instr :=
  if a.extractLsb' 2 14 = 0#14 then .ok (f (ordOfBits (a.extractLsb' 0 2))) else .error .operandBitsNotZero

/-- Format `M`: `arg[15:1]` must be 0 (R91). -/
def fmtM (a : BitVec 16) (f : RaMode → Instr) : Except IllFormed Instr :=
  if a.extractLsb' 1 15 = 0#15 then .ok (f (modeOfBits (a.extractLsb' 0 1))) else .error .operandBitsNotZero

/-- The opcode map of R93, with the operand of each format (formats `S` and `U` use all of `arg`). -/
def decodeOp (op : Nat) (a : BitVec 16) : Except IllFormed Instr :=
  match op with
  | 0x00 => fmtN a .nop
  | 0x01 => fmtN a .srst
  | 0x02 => fmtN a .eclr
  | 0x03 => fmtB a .rdcsr
  | 0x04 => .ok (.arg a)
  | 0x10 => fmtN a .mclr
  | 0x11 => .ok (.mcnt a)
  | 0x12 => .ok (.mload a)
  | 0x13 => fmtO a .mfin
  | 0x14 => fmtN a .mtot
  | 0x15 => .ok (.mivl a)
  | 0x16 => .ok (.msat a)
  | 0x20 => fmtN a .iclr
  | 0x21 => fmtB a .ipush
  | 0x22 => fmtT a .itrim
  | 0x23 => fmtN a .oread
  | 0x24 => fmtN a .xfer
  | 0x25 => fmtN a .orwd
  | 0x30 => fmtN a .rcei
  | 0x31 => .ok (.rce a)
  | 0x32 => fmtN a .rcef
  | 0x33 => fmtN a .rcdi
  | 0x34 => fmtN a .rcd
  | 0x35 => fmtN a .rcdf
  | 0x40 => fmtM a .raei
  | 0x41 => .ok (.rae a)
  | 0x42 => fmtN a .raef
  | 0x43 => fmtM a .radi
  | 0x44 => fmtN a .rad
  | 0x45 => fmtN a .radf
  | 0x50 => fmtN a .hbld
  | 0x51 => fmtN a .hei
  | 0x52 => .ok (.he a)
  | 0x53 => fmtN a .hef
  | 0x54 => fmtN a .hdi
  | 0x55 => fmtN a .hd
  | 0x56 => fmtN a .hdf
  | _ => .error .reservedOpcode

/-- The command a word selects, or why it is ill-formed (R94, R95). -/
def decode (w : Word) : Except IllFormed Instr :=
  if rsvField w = 0#8 then decodeOp (opField w).toNat (argField w) else .error .rsvNotZero

/-- The command read from an instruction of the opcode table whose bits are `w`: the low `nbits` bits of `w`, those above
them 0, as one 32-bit command word (R90: there is one length). The word reaches the decoder whole, so no byte order
enters (R64). -/
def decodeTableWord (nbits w : Nat) : Option Instr :=
  match decode (BitVec.ofNat 32 (w % 2 ^ nbits)) with
  | .ok i => some i
  | .error _ => none

/-- The opcode of each command (R93). -/
def opcode : Instr → BitVec 8
  | .nop => 0x00#8
  | .srst => 0x01#8
  | .eclr => 0x02#8
  | .rdcsr _ => 0x03#8
  | .arg _ => 0x04#8
  | .mclr => 0x10#8
  | .mcnt _ => 0x11#8
  | .mload _ => 0x12#8
  | .mfin _ => 0x13#8
  | .mtot => 0x14#8
  | .mivl _ => 0x15#8
  | .msat _ => 0x16#8
  | .iclr => 0x20#8
  | .ipush _ => 0x21#8
  | .itrim _ => 0x22#8
  | .oread => 0x23#8
  | .xfer => 0x24#8
  | .orwd => 0x25#8
  | .rcei => 0x30#8
  | .rce _ => 0x31#8
  | .rcef => 0x32#8
  | .rcdi => 0x33#8
  | .rcd => 0x34#8
  | .rcdf => 0x35#8
  | .raei _ => 0x40#8
  | .rae _ => 0x41#8
  | .raef => 0x42#8
  | .radi _ => 0x43#8
  | .rad => 0x44#8
  | .radf => 0x45#8
  | .hbld => 0x50#8
  | .hei => 0x51#8
  | .he _ => 0x52#8
  | .hef => 0x53#8
  | .hdi => 0x54#8
  | .hd => 0x55#8
  | .hdf => 0x56#8

/-- The operand field `arg` of each command, must-be-zero bits 0 (R91). -/
def operandField : Instr → BitVec 16
  | .rdcsr a => a.setWidth 16
  | .arg imm => imm
  | .mcnt sym => sym
  | .mload sym => sym
  | .mfin o => (ordBits o).setWidth 16
  | .mivl sym => sym
  | .msat pos => pos
  | .ipush b => b.setWidth 16
  | .itrim p => p.setWidth 16
  | .rce sym => sym
  | .raei m => (modeBits m).setWidth 16
  | .rae sym => sym
  | .radi m => (modeBits m).setWidth 16
  | .he sym => sym
  | .nop | .srst | .eclr | .mclr | .mtot | .iclr | .oread | .xfer | .orwd | .rcei | .rcef | .rcdi | .rcd | .rcdf
  | .raef | .rad | .radf | .hbld | .hei | .hef | .hdi | .hd | .hdf => 0#16

/-- A command word from its opcode and operand field, `rsv = 0` (R90). -/
def mkWord (op : BitVec 8) (a : BitVec 16) : Word := op ++ 0#8 ++ a

/-- The command word of a command (R90, R93): the word `ERRINFO` records when the command faults (R212). -/
def encode (i : Instr) : Word := mkWord (opcode i) (operandField i)

end Sys2Proof
end

