-- ==== Sys2Proof/Config.lean ====
section
/-! DEFINITION. The implementation parameters of spec R8, at the values R8 gives this hardware (log entry 8), the identity
constant of R24, and the loop bounds of the model's structural recursions. The spec leaves no value free (R241 and X6 of
93_implementation_defined.md name the only unspecified contents, the cells no command can read), so no free value stands here. -/

namespace Sys2Proof.Config

/-- `A_MAX`: the largest number of distinct symbols in the model memory (R8). -/
abbrev aMax : Nat := 512

/-- `TOTAL_MAX = 2^CNTW - 1`: the largest total (R8). -/
abbrev totalMax : Nat := 65535

/-- `BUF_CAP`: the capacity in bytes of each stream buffer (R8). -/
abbrev bufCap : Nat := 65536

/-- The number of node indices of the Huffman arena, `0..2*A_MAX-2` (R60 item 4). -/
abbrev arenaCap : Nat := 1023

/-- `RC_TOP = 2^RC_P - 1` (R8). -/
abbrev rcTop : Nat := 0xFFFFFFFF

/-- `RC_HALF = 2^(RC_P-1)` (R8). -/
abbrev rcHalf : Nat := 0x80000000

/-- `RC_QTR = 2^(RC_P-2)` (R8). -/
abbrev rcQtr : Nat := 0x40000000

/-- `RC_3QTR = 3 * 2^(RC_P-2)` (R8). -/
abbrev rc3Qtr : Nat := 0xC0000000

/-- `RA_K`: in STREAM mode the lower bound of the state is `MTOTAL * 2^RA_K` (R8). -/
abbrev raK : Nat := 32

/-- `RA_B`: the renormalisation radix, one byte (R8). -/
abbrev raB : Nat := 256

/-- `2^RA_W`: the first value the rANS state cannot hold (R8, R173). -/
abbrev raLimit : Nat := 2 ^ 64

/-- The constant the `ID` CSR reads, ASCII "ECE1" (R24). -/
abbrev idValue : Word := 0x45434531#32

/-- How many times the range renormalisation loop of R154 and R159 tests its cases before the model stops. The spec's
loop has no counter. From any `nl <= nh < 2^32` the width `nh - nl + 1` doubles each pass and no case holds above
`2^31`, so 32 passes and one last test always suffice (R154 shows at most 18 in reachable states); log entry 4. -/
abbrev rcTests : Nat := 33

/-- How many times the rANS encoder loop of R174 tests its condition before the model stops: a state below `2^64` is 0
after eight divisions by 256, so nine tests suffice whenever the symbol's count is not 0 (R174 shows at most 2
divisions in reachable states); log entry 4. -/
abbrev raTests : Nat := 9

end Sys2Proof.Config
end

