-- ==== Sys2Proof/Machine/State.lean ====
section
/-! DEFINITION. The complete state of the ECE (spec R20 to R52) as plain data, its reset value (R55), and the reasons a step
of the model can stop. -/

namespace Sys2Proof.Machine

/-- The session state `SESS` (R25). The values 7 to 14 "are never held" (log entry 9). -/
inductive Sess where
  | idle
  | rcEnc
  | rcDec
  | raEnc
  | raDec
  | hfEnc
  | hfDec
  | fault
deriving DecidableEq, Repr

/-- The ECE's error kinds (R210), each a NEXT state of the machine (fault entry, R214), never a stop of the model. -/
inductive Err where
  /-- Code 1: no symbols to model. -/
  | emptyInput
  /-- Code 2: a decode-time lookup fails. -/
  | corruptStream
  /-- Code 3: a symbol is absent from the model. -/
  | alphabetMismatch
  /-- Code 4: a table, counter or stream buffer is full. -/
  | capacity
  /-- Code 5: a RAW-mode rANS step would need more than 64 state bits. -/
  | stateOverflow
  /-- Code 6: the word is ill-formed, reserved or not legal in the current state. -/
  | illegalCommand
deriving DecidableEq, Repr

/-- The model state `MSTATE` (R29); value 3 is never held (log entry 9). -/
inductive ModelState where
  | empty
  | building
  | frozen
deriving DecidableEq, Repr

/-- A response `(err, data)` (R16, R97); `none` is code 0, "the command completed". -/
structure Response where
  err : Option Err
  data : Word
deriving DecidableEq, Repr

/-- What the host does at the ECE's inputs, in arrival order (R7, R240; log entries 1 and 2). -/
inductive HostEvent where
  /-- A command word at the command port (R90). -/
  | command (w : Word)
  /-- The pin `rst` is asserted, abandoning the command in execution if there is one (R240). -/
  | rst (abandoned : Option Word)
deriving DecidableEq, Repr

/-- One storage space of R60 as the list of its cells that hold a value, in one canonical form (`Cells.wf`): indices
strictly rising. An index that is not listed holds no value (R55: "A model should give the tables no value"; log entry 3). -/
abbrev Cells (α : Type) := List (Nat × α)

/-- A stream buffer: a byte space (R46, R49), its cells the host's `Host.Cell`. -/
abbrev Memory := Cells Byte

/-- Why the model stops where the ECE has no behaviour at all. No state the machine reaches meets any of them (the
obligation `InvariantStateAlwaysSteps` says so); each is SAFE: the model stops instead of inventing a value. -/
inductive Fault where
  /-- Raised by `readCell`: a cell that holds no value is read (R55: "a model error, not a hardware behaviour"; log entry 3).
  Safe. -/
  | noValue
  /-- Raised by `readCell` and `writeCell`: the index is outside the space (R60; log entry 5). Safe. -/
  | noSuchCell
  /-- Raised by `renormE`, `renormD`, `renormRE`, `mergeNodes`, `pathTo`: a loop the rules show to end has not ended
  (R251; log entry 4). Safe. -/
  | loopBound
  /-- Raised by `putByte`: a byte is written while `OBITLEN mod 8 != 0`, where R67 does not define it (log
  entry 6). Safe. -/
  | unalignedPutByte
  /-- Raised by `code`: the tree has no leaf for the ordinal, so `CODE(k)` does not exist (R192; log entry 12). Safe. -/
  | notInTree
deriving DecidableEq, Repr

/-- Why the model gives an instruction no meaning. -/
inductive Refusal where
  /-- Raised by an arm of `exec` that has no meaning yet. Safe: nothing can be concluded of the instruction. No arm of
  this model uses it. -/
  | notModelled (mnemonic : String)
deriving DecidableEq, Repr

/-- "The complete state of the ECE" (R20), and the two ports (log entry 1). -/
structure State where
  /-- `SESS` (R25). -/
  sess : Sess
  /-- `ERR` (R26); `none` is code 0. -/
  err : Option Err
  /-- `ERRINFO` (R27). -/
  errinfo : Word
  /-- `ARG` (R22). -/
  arg : BitVec 16
  /-- `SYMCNT` (R52). -/
  symcnt : Word
  /-- `MSTATE` (R29). -/
  mstate : ModelState
  /-- `MN` (R30). -/
  mn : BitVec 10
  /-- `MTOTAL` (R31). -/
  mtotal : BitVec 16
  /-- `MORD` (R32). -/
  mord : OrdMode
  /-- `MT_SYM` by slot (R33). -/
  mtSym : Cells (BitVec 16)
  /-- `MT_CNT` by slot (R33). -/
  mtCnt : Cells (BitVec 16)
  /-- `ORDER` by ordinal (R34). -/
  order : Cells (BitVec 9)
  /-- `CLOW` by ordinal (R34). -/
  clow : Cells (BitVec 16)
  /-- `RC_LOW` (R36). -/
  rcLow : Word
  /-- `RC_HIGH`, inclusive (R36). -/
  rcHigh : Word
  /-- `RC_PEND` (R37). -/
  rcPend : Word
  /-- `RC_VALUE` (R38). -/
  rcValue : Word
  /-- `RA_STATE` (R40). -/
  raState : BitVec 64
  /-- `RA_MODE` (R41). -/
  raMode : RaMode
  /-- `HT_VALID` (R42). -/
  htValid : Bool
  /-- `HT_ROOT` (R43). -/
  htRoot : BitVec 10
  /-- `HT_NN` (R43). -/
  htNn : BitVec 10
  /-- `HN_FREQ` by node (R44). -/
  hnFreq : Cells (BitVec 16)
  /-- `HN_LEFT` by node (R44). -/
  hnLeft : Cells (BitVec 10)
  /-- `HN_RIGHT` by node (R44). -/
  hnRight : Cells (BitVec 10)
  /-- `HN_LEAF` by node (R44). -/
  hnLeaf : Cells Bool
  /-- `HN_ORD` by node (R44). -/
  hnOrd : Cells (BitVec 9)
  /-- `OBUF` (R46). -/
  obuf : Memory
  /-- `OBITLEN` (R46). -/
  obitlen : Word
  /-- `ORDP` (R48). -/
  ordp : Word
  /-- `IBUF` (R49). -/
  ibuf : Memory
  /-- `ILEN` (R49). -/
  ilen : Word
  /-- `IPAD` (R50). -/
  ipad : BitVec 3
  /-- `IBP` (R51). -/
  ibp : Word
  /-- `IRP` (R51). -/
  irp : Word
  /-- What the host does next at the ECE's inputs, first event first (the model's own field, log entry 1). -/
  inbox : List HostEvent
  /-- The responses given, oldest first (the model's own field, log entry 1). -/
  outbox : List Response
deriving DecidableEq, Repr

/-- The state after hardware reset (R55, R241), nothing at the input port and no response given yet. -/
def State.reset : State where
  sess := .idle
  err := none
  errinfo := 0#32
  arg := 0#16
  symcnt := 0#32
  mstate := .empty
  mn := 0#10
  mtotal := 0#16
  mord := .cv
  mtSym := []
  mtCnt := []
  order := []
  clow := []
  rcLow := 0#32
  rcHigh := 0xFFFFFFFF#32
  rcPend := 0#32
  rcValue := 0#32
  raState := 0#64
  raMode := .raw
  htValid := false
  htRoot := 0#10
  htNn := 0#10
  hnFreq := []
  hnLeft := []
  hnRight := []
  hnLeaf := []
  hnOrd := []
  obuf := []
  obitlen := 0#32
  ordp := 0#32
  ibuf := []
  ilen := 0#32
  ipad := 0#3
  ibp := 0#32
  irp := 0#32
  inbox := []
  outbox := []

end Sys2Proof.Machine
end

