-- ==== Sys2Proof/Machine/Operands.lean ====
section
/-! DEFINITION. Operand assembly, the numbers the registers of named values read as, and the integer helpers of the spec's
notation (R11 to R13, R25, R26, R29, R32, R41, R92, R210). -/

namespace Sys2Proof.Machine

/-- `cdiv(a, b) = (a + b - 1) / b`, ceiling division (R13). -/
def cdiv (a b : Nat) : Nat := (a + b - 1) / b

/-- `signed16(v)` (R12): a symbol as an integer, -32768..32767. -/
def signed16 (v : BitVec 16) : Int := v.toInt

/-- `sext_32` of a symbol's 16-bit encoding, as decode commands respond (R12, R92). -/
def sext32 (v : BitVec 16) : Word := v.signExtend 32

/-- `zext_32` of a register of `n <= 32` bits (R12, R53). -/
def zext32 {n : Nat} (v : BitVec n) : Word := v.setWidth 32

/-- A non-negative integer as a 32-bit response or register value; each rule shows that it fits (R10). In
a state no run reaches a larger one is cut to 32 bits, as every such write is to its register's width (log entry 7). -/
def word (n : Nat) : Word := BitVec.ofNat 32 n

/-- `MIVL`'s response `{high[15:0], low[15:0]}` (R92, R140). -/
def packInterval (high low : Nat) : Word := BitVec.ofNat 16 high ++ BitVec.ofNat 16 low

/-- The number `SESS` reads as (R25). -/
def sessBits : Sess → BitVec 4
  | .idle => 0#4
  | .rcEnc => 1#4
  | .rcDec => 2#4
  | .raEnc => 3#4
  | .raDec => 4#4
  | .hfEnc => 5#4
  | .hfDec => 6#4
  | .fault => 15#4

/-- The 4-bit error code of `ERR` and of a response's `err` (R26, R210). -/
def errBits : Option Err → BitVec 4
  | none => 0#4
  | some .emptyInput => 1#4
  | some .corruptStream => 2#4
  | some .alphabetMismatch => 3#4
  | some .capacity => 4#4
  | some .stateOverflow => 5#4
  | some .illegalCommand => 6#4

/-- The number `MSTATE` reads as (R29). -/
def mstateBits : ModelState → BitVec 2
  | .empty => 0#2
  | .building => 1#2
  | .frozen => 2#2

end Sys2Proof.Machine
end

