-- ==== Sys2Proof/Machine/Flags.lean ====
section
/-! DEFINITION. The derived status of the ECE: the values the spec computes from registers and does not store (R28, R47,
R50, R213). The ECE has no condition codes (R28). -/

namespace Sys2Proof.Machine

/-- The output pin `fault_o`, "1 exactly when `ERR != 0`" (R28, R213). -/
def State.faultO (s : State) : Bool := s.err.isSome

/-- `OLEN = (OBITLEN + 7) / 8` (R47). -/
def State.olen (s : State) : Nat := (s.obitlen.toNat + 7) / 8

/-- `OPAD = (8 - (OBITLEN mod 8)) mod 8` (R47). -/
def State.opad (s : State) : Nat := (8 - s.obitlen.toNat % 8) % 8

/-- `IBITLEN = 8*ILEN - IPAD` (R50). -/
def State.ibitlen (s : State) : Nat := 8 * s.ilen.toNat - s.ipad.toNat

/-- `T`, short for `MTOTAL` as an integer (43_range.md, 44_rans.md). -/
def State.total (s : State) : Nat := s.mtotal.toNat

end Sys2Proof.Machine
end

