-- ==== Sys2Proof/Machine/Ops.lean ====
section
/-! DEFINITION. The shared operations: cells of the storage spaces (R60), the stream primitives (R66 to R70, R126), fault
entry and the common prologue of every command (R214, R216, R219), and reset (R240). -/

namespace Sys2Proof.Machine

/-! ### Cells -/

/-- The value a cell holds, `none` when it holds none. -/
def Cells.find {α : Type} : Cells α → Nat → Option α
  | [], _ => none
  | (a, v) :: rest, i => if a = i then some v else Cells.find rest i

/-- The cells after a write, indices kept strictly rising. -/
def Cells.put {α : Type} : Cells α → Nat → α → Cells α
  | [], i, v => [(i, v)]
  | (a, w) :: rest, i, v =>
    if i < a then (i, v) :: (a, w) :: rest
    else if i = a then (i, v) :: rest
    else (a, w) :: Cells.put rest i v

/-- The canonical form: indices strictly rising, so that equal contents are equal data. -/
abbrev Cells.wf {α : Type} (m : Cells α) : Prop := m.Pairwise (fun a b => a.1 < b.1)

/-- The canonical form of a stream buffer. An unlisted byte reads as no value, so no listed entry repeats it. -/
abbrev Memory.wf (m : Memory) : Prop := Cells.wf m

/-- How a command's body ends without a result: it raises one of the ECE's errors (R15), or the model stops. -/
inductive Stop where
  | raised (e : Err)
  | stopped (f : Fault)
deriving DecidableEq, Repr

/-- A computation on local copies (R15): a result, or how it ended without one. -/
abbrev Comp (α : Type) := Except Stop α

/-- `raise e` inside a rule (R15). -/
def raised {α : Type} (e : Err) : Comp α := .error (.raised e)

/-- The model stops: the rules give no behaviour here (log entries 3 to 6). -/
def stopped {α : Type} (f : Fault) : Comp α := .error (.stopped f)

/-- `if c then raise e` before going on (R15). -/
def raiseIf (c : Prop) [Decidable c] (e : Err) : Comp Unit := if c then raised e else .ok ()

/-- Read of cell `i` of a space of `cap` cells. -/
def readCell {α : Type} (cap : Nat) (m : Cells α) (i : Nat) : Comp α :=
  if i < cap then
    match m.find i with
    | some v => .ok v
    | none => stopped .noValue
  else stopped .noSuchCell

/-- Write of cell `i` of a space of `cap` cells. -/
def writeCell {α : Type} (cap : Nat) (m : Cells α) (i : Nat) (v : α) : Comp (Cells α) :=
  if i < cap then .ok (m.put i v) else stopped .noSuchCell

/-! ### Stream primitives -/

/-- A byte with the bit at position `p` set to `b`. -/
def setBit (v : Byte) (p : Nat) (b : Bool) : Byte :=
  if b then v ||| (1#8 <<< p) else v &&& ~~~(1#8 <<< p)

/-- The byte the next output bit goes into: a new byte is 0 on a byte boundary (R66: "if `OBITLEN mod 8 = 0` then
`OBUF[OBITLEN / 8] <- 0`"). -/
def openByte (s : State) : Comp Byte :=
  if s.obitlen.toNat % 8 = 0 then .ok 0#8 else readCell Config.bufCap s.obuf (s.obitlen.toNat / 8)

/-- `PutBit(b)` (R66): the next output bit, most significant bit of a byte first (R61). -/
def putBit (b : Bool) (s : State) : Comp State := do
  let old ← openByte s
  let obuf ← writeCell Config.bufCap s.obuf (s.obitlen.toNat / 8) (setBit old (7 - s.obitlen.toNat % 8) b)
  .ok { s with obuf := obuf, obitlen := s.obitlen + 1#32 }

/-- `for b in bits: PutBit(b)`. -/
def putBits : List Bool → State → Comp State
  | [], s => .ok s
  | b :: bs, s => do
    let s1 ← putBit b s
    putBits bs s1

/-- `PutByte(v)`, defined when `OBITLEN mod 8 = 0` (R67; log entry 6). -/
def putByte (v : Byte) (s : State) : Comp State :=
  if s.obitlen.toNat % 8 = 0 then do
    let obuf ← writeCell Config.bufCap s.obuf (s.obitlen.toNat / 8) v
    .ok { s with obuf := obuf, obitlen := s.obitlen + 8#32 }
  else stopped .unalignedPutByte

/-- `for v in bytes: PutByte(v)`. -/
def putBytes : List Byte → State → Comp State
  | [], s => .ok s
  | v :: vs, s => do
    let s1 ← putByte v s
    putBytes vs s1

/-- Whether `n` more bits fit in the output buffer: the capacity check made before any of them is written (R66). -/
def State.room (s : State) (n : Nat) : Bool := s.obitlen.toNat + n ≤ 8 * Config.bufCap

/-- `GetBit(i)` (R68): input bit `i`, 0 at and past `IBITLEN`. No side effect. -/
def getBit (s : State) (i : Nat) : Comp Bool :=
  if i < s.ibitlen then do
    let v ← readCell Config.bufCap s.ibuf (i / 8)
    .ok (v.getLsbD (7 - i % 8))
  else .ok false

/-- `GetByteBack()` on the local cursor `rp` (R69): the byte and the lowered cursor. -/
def getByteBack (s : State) : Nat → Comp (Byte × Nat)
  | 0 => raised .corruptStream
  | rp + 1 => do
    let v ← readCell Config.bufCap s.ibuf rp
    .ok (v, rp)

/-- `OutByte(i)` (R70). -/
def outByte (s : State) (i : Nat) : Comp Byte := readCell Config.bufCap s.obuf i

/-- `ClearOut()` (R126). -/
def clearOut (s : State) : State := { s with obitlen := 0#32, ordp := 0#32 }

/-- `SYMCNT <- SYMCNT + 1 mod 2^32` (R52). -/
def countSymbol (s : State) : State := { s with symcnt := s.symcnt + 1#32 }

/-! ### Responses, fault entry, reset -/

/-- Gives the host a response (R16, R97). -/
def respond (err : Option Err) (data : Word) (s : State) : State :=
  { s with outbox := s.outbox ++ [⟨err, data⟩] }

/-- Fault entry (R214): `ERR <- code`, `ERRINFO <- command word`, `SESS <- FAULT`; nothing else. -/
def faultEntry (e : Err) (w : Word) (s : State) : State :=
  { s with err := some e, errinfo := w, sess := .fault }

/-- `raise e` of the command word `w` (R219): outside `FAULT` the fault entry and the response `(code, 0)`; in `FAULT`
the response `(6, 0)` and no other change. -/
def raiseError (e : Err) (w : Word) (s : State) : State :=
  if s.sess = .fault then respond (some .illegalCommand) 0#32 s else respond (some e) 0#32 (faultEntry e w s)

/-- Return from `FAULT`, and session abort, by `ECLR` (R112, R217). -/
def errorClear (s : State) : State := { s with err := none, errinfo := 0#32, sess := .idle }

/-- Every register takes its reset value (R55, R111, R240); what the host sends and has been sent is not the ECE's. -/
def resetRegisters (s : State) : State := { State.reset with inbox := s.inbox, outbox := s.outbox }

/-! ### The common prologue -/

/-- The six commands accepted in `FAULT` (R216, R219 step 1). -/
def acceptedInFault : Instr → Bool
  | .nop | .srst | .eclr | .rdcsr _ | .oread | .orwd => true
  | .arg _ | .mclr | .mcnt _ | .mload _ | .mfin _ | .mtot | .mivl _ | .msat _ | .iclr | .ipush _ | .itrim _ | .xfer
  | .rcei | .rce _ | .rcef | .rcdi | .rcd | .rcdf | .raei _ | .rae _ | .raef | .radi _ | .rad | .radf | .hbld | .hei
  | .he _ | .hef | .hdi | .hd | .hdf => false

/-- The processing of one well-formed command (R219): FAULT refusal, legality, then the body (its data checks and its
writes, on a local copy), then the response. `legal` is the command's row of R100. -/
def command (i : Instr) (legal : Bool) (body : State → Comp (Word × State)) (s : State) :
    Host.Outcome State Fault Refusal :=
  if s.sess = .fault ∧ acceptedInFault i = false then .next (respond (some .illegalCommand) 0#32 s)
  else if legal = false then .next (raiseError .illegalCommand (encode i) s)
  else
    match body s with
    | .ok (data, t) => .next (respond none data t)
    | .error (.raised e) => .next (raiseError e (encode i) s)
    | .error (.stopped f) => .fault f

/-- An ill-formed word (R94, R219): `IllegalCommandError`, in `FAULT` the response alone. -/
def illFormedWord (w : Word) (s : State) : State := raiseError .illegalCommand w s

end Sys2Proof.Machine
end

