-- ==== Sys2Proof/Machine/Lookup.lean ====
section
/-! DEFINITION. The lookup functions of the frozen model that every coder uses (spec R130, R131) and the CSR map (R53). -/

namespace Sys2Proof.Machine

/-- One ordinal of the CDF: `k`, `SYM(k)`, `CNT(k)` and `CLOW(k)` (R130). -/
structure Entry where
  k : Nat
  sym : BitVec 16
  cnt : Nat
  low : Nat
deriving DecidableEq, Repr

/-- `CHIGH(k) = CLOW[k] + CNT(k)` (R130). -/
def Entry.high (e : Entry) : Nat := e.low + e.cnt

/-- The accessors of R130 for ordinal `k`: `SYM(k) = MT_SYM[ORDER[k]]`, `CNT(k) = MT_CNT[ORDER[k]]`, `CLOW[k]`. -/
def entry (s : State) (k : Nat) : Comp Entry := do
  let slot ← readCell Config.aMax s.order k
  let sym ← readCell Config.aMax s.mtSym slot.toNat
  let cnt ← readCell Config.aMax s.mtCnt slot.toNat
  let low ← readCell Config.aMax s.clow k
  .ok ⟨k, sym, cnt.toNat, low.toNat⟩

/-- The first of the listed ordinals whose entry satisfies `p` (the scan of R131, D11). -/
def scanOrdinals (s : State) (p : Entry → Bool) : List Nat → Comp (Option Entry)
  | [] => .ok none
  | k :: ks => do
    let e ← entry s k
    if p e then .ok (some e) else scanOrdinals s p ks

/-- `ordinal(sym)` (R130): the entry of the symbol; a symbol the model does not hold raises `AlphabetMismatchError`. -/
def ordinal (s : State) (sym : BitVec 16) : Comp Entry := do
  match ← scanOrdinals s (fun e => e.sym = sym) (List.range s.mn.toNat) with
  | some e => .ok e
  | none => raised .alphabetMismatch

/-- `symbolAt(pos)` (R131): the entry with `CLOW(k) <= pos < CHIGH(k)`; none raises `CorruptStreamError`. -/
def symbolAt (s : State) (pos : Nat) : Comp Entry := do
  match ← scanOrdinals s (fun e => e.low ≤ pos ∧ pos < e.high) (List.range s.mn.toNat) with
  | some e => .ok e
  | none => raised .corruptStream

/-- The value of a mapped CSR, `none` for an unmapped address (R53); narrow registers read zero-extended. -/
def csr (s : State) (addr : BitVec 8) : Option Word :=
  match addr.toNat with
  | 0x00 => some Config.idValue
  | 0x01 => some (zext32 (sessBits s.sess))
  | 0x02 => some (zext32 (errBits s.err))
  | 0x03 => some s.errinfo
  | 0x04 => some (zext32 s.arg)
  | 0x06 => some (word Config.aMax)
  | 0x07 => some (word Config.bufCap)
  | 0x08 => some (zext32 (mstateBits s.mstate))
  | 0x09 => some (zext32 s.mn)
  | 0x0A => some (zext32 s.mtotal)
  | 0x0B => some (zext32 (ordBits s.mord))
  | 0x10 => some s.rcLow
  | 0x11 => some s.rcHigh
  | 0x12 => some s.rcPend
  | 0x13 => some s.rcValue
  | 0x18 => some (s.raState.extractLsb' 0 32)
  | 0x19 => some (s.raState.extractLsb' 32 32)
  | 0x1A => some (zext32 (modeBits s.raMode))
  | 0x20 => some (if s.htValid then 1#32 else 0#32)
  | 0x21 => some (zext32 s.htRoot)
  | 0x22 => some (zext32 s.htNn)
  | 0x28 => some (word s.olen)
  | 0x29 => some s.obitlen
  | 0x2A => some (word s.opad)
  | 0x2B => some s.ordp
  | 0x30 => some s.ilen
  | 0x31 => some (zext32 s.ipad)
  | 0x32 => some s.ibp
  | 0x33 => some s.irp
  | 0x38 => some s.symcnt
  | _ => none

end Sys2Proof.Machine
end

