-- ==== Sys2Proof/Machine/Bitstream.lean ====
section
/-! DEFINITION. The bitstream commands `ICLR`, `IPUSH`, `ITRIM`, `OREAD`, `XFER`, `ORWD` (spec R120 to R125). -/

namespace Sys2Proof.Machine

/-- The condition `SESS = IDLE` of R100. -/
def State.isIdle (s : State) : Bool := s.sess = .idle

/-- `ICLR` (R120): the input stream becomes empty; its bytes "are not erased but become unreachable". -/
def execIclr (s : State) : Host.Outcome State Fault Refusal :=
  command .iclr s.isIdle (fun t => .ok (0#32, { t with ilen := 0#32, ipad := 0#3, ibp := 0#32, irp := 0#32 })) s

/-- The body of `IPUSH imm8` (R121). -/
def ipushBody (byte : Byte) (s : State) : Comp (Word × State) := do
  raiseIf (s.ilen.toNat = Config.bufCap) .capacity
  let ibuf ← writeCell Config.bufCap s.ibuf s.ilen.toNat byte
  .ok (0#32, { s with ibuf := ibuf, ilen := s.ilen + 1#32 })

/-- `IPUSH imm8` (R121): appends one byte to the input stream. -/
def execIpush (byte : Byte) (s : State) : Host.Outcome State Fault Refusal :=
  command (.ipush byte) s.isIdle (ipushBody byte) s

/-- `ITRIM imm3` (R122): `IPAD <- imm3`; legal with `imm3 = 0` or a byte in the buffer. -/
def execItrim (pad : BitVec 3) (s : State) : Host.Outcome State Fault Refusal :=
  command (.itrim pad) (s.isIdle && (pad = 0#3 || 1 ≤ s.ilen.toNat)) (fun t => .ok (0#32, { t with ipad := pad })) s

/-- The body of `OREAD` (R123). -/
def oreadBody (s : State) : Comp (Word × State) := do
  let v ← outByte s s.ordp.toNat
  .ok (zext32 v, { s with ordp := s.ordp + 1#32 })

/-- `OREAD` (R123): the next output byte; legal in every `SESS`, with an unread byte. -/
def execOread (s : State) : Host.Outcome State Fault Refusal :=
  command .oread (s.ordp.toNat < s.olen) oreadBody s

/-- `for i in the listed indices: IBUF[i] <- OutByte(i)` (R124). -/
def copyOut : List Nat → State → Comp State
  | [], s => .ok s
  | i :: is, s => do
    let v ← outByte s i
    let ibuf ← writeCell Config.bufCap s.ibuf i v
    copyOut is { s with ibuf := ibuf }

/-- The body of `XFER` (R124). -/
def xferBody (s : State) : Comp (Word × State) := do
  let t ← copyOut (List.range s.olen) s
  .ok (0#32, clearOut { t with
    ilen := word s.olen, ipad := BitVec.ofNat 3 s.opad, ibp := 0#32, irp := 0#32 })

/-- `XFER` (R124): the output container becomes the input stream and the output stream becomes empty. -/
def execXfer (s : State) : Host.Outcome State Fault Refusal :=
  command .xfer s.isIdle xferBody s

/-- `ORWD` (R125): `ORDP <- 0`. -/
def execOrwd (s : State) : Host.Outcome State Fault Refusal :=
  command .orwd true (fun t => .ok (0#32, { t with ordp := 0#32 })) s

end Sys2Proof.Machine
end

