-- ==== Sys2Proof/Machine/Model.lean ====
section
/-! DEFINITION. The frequency-model commands `MCLR`, `MCNT`, `MLOAD`, `MFIN`, `MTOT`, `MIVL`, `MSAT` (spec R132 to R141). -/

namespace Sys2Proof.Machine

/-- The condition `MSTATE = FROZEN` of R100. -/
def State.isFrozen (s : State) : Bool := s.mstate = .frozen

/-- The condition of `MCNT`, `MLOAD` and `MFIN` in R100: `SESS = IDLE` and `MSTATE != FROZEN`. -/
def State.isOpenTable (s : State) : Bool := s.isIdle && !s.isFrozen

/-- The first of the listed slots that holds `sym` (R132). -/
def findSlot (s : State) (sym : BitVec 16) : List Nat → Comp (Option Nat)
  | [] => .ok none
  | i :: is => do
    let v ← readCell Config.aMax s.mtSym i
    if v = sym then .ok (some i) else findSlot s sym is

/-- `AddCount(sym, n)` (R132): both capacity checks, then the slot's count, `MTOTAL` and `MSTATE`. -/
def addCount (sym : BitVec 16) (n : Nat) (s : State) : Comp State := do
  raiseIf (Config.totalMax < s.total + n) .capacity
  match ← findSlot s sym (List.range s.mn.toNat) with
  | some i =>
    let c ← readCell Config.aMax s.mtCnt i
    let mtCnt ← writeCell Config.aMax s.mtCnt i (BitVec.ofNat 16 (c.toNat + n))
    .ok { s with mtCnt := mtCnt, mtotal := BitVec.ofNat 16 (s.total + n), mstate := .building }
  | none =>
    raiseIf (s.mn.toNat = Config.aMax) .capacity
    let mtSym ← writeCell Config.aMax s.mtSym s.mn.toNat sym
    let mtCnt ← writeCell Config.aMax s.mtCnt s.mn.toNat (BitVec.ofNat 16 n)
    .ok { s with
      mtSym := mtSym, mtCnt := mtCnt, mn := s.mn + 1#10, mtotal := BitVec.ofNat 16 (s.total + n), mstate := .building }

/-- One slot of the frequency table (R33). -/
structure Slot where
  idx : Nat
  sym : BitVec 16
  cnt : BitVec 16
deriving DecidableEq, Repr

/-- The listed slots, read from the table. -/
def readSlots (s : State) : List Nat → Comp (List Slot)
  | [] => .ok []
  | i :: is => do
    let sym ← readCell Config.aMax s.mtSym i
    let cnt ← readCell Config.aMax s.mtCnt i
    let rest ← readSlots s is
    .ok (⟨i, sym, cnt⟩ :: rest)

/-- `key(a) < key(b)` in the lexicographic order of R138's tuples; symbols compare as signed integers. -/
def keyBefore (o : OrdMode) (a b : Slot) : Bool :=
  match o with
  | .cv => a.cnt.toNat < b.cnt.toNat || (a.cnt = b.cnt && signed16 a.sym < signed16 b.sym)
  | .v => signed16 a.sym < signed16 b.sym
  | .ci => a.cnt.toNat < b.cnt.toNat || (a.cnt = b.cnt && a.idx < b.idx)
  | .i => a.idx < b.idx

/-- A slot put before the first slot its key precedes. -/
def insertSlot (o : OrdMode) (a : Slot) : List Slot → List Slot
  | [] => [a]
  | b :: bs => if keyBefore o a b then a :: b :: bs else b :: insertSlot o a bs

/-- The slots "sorted ascending by key_ord" (R137, R138). -/
def sortSlots (o : OrdMode) (l : List Slot) : List Slot := l.foldr (insertSlot o) []

/-- The loop of `MFIN` (R137) from ordinal `k` with the running sum `c`: `ORDER[k]`, `CLOW[k] <- c`, `c <- c + count`. -/
def writeCdf : List Slot → Nat → Nat → State → Comp State
  | [], _, _, s => .ok s
  | a :: rest, k, c, s => do
    let order ← writeCell Config.aMax s.order k (BitVec.ofNat 9 a.idx)
    let clow ← writeCell Config.aMax s.clow k (BitVec.ofNat 16 c)
    writeCdf rest (k + 1) (c + a.cnt.toNat) { s with order := order, clow := clow }

/-- `MCLR` (R134): the model and the tree flags; the cells stay where they are, out of reach. -/
def execMclr (s : State) : Host.Outcome State Fault Refusal :=
  command .mclr s.isIdle (fun t => .ok (0#32, { t with
    mstate := .empty, mn := 0#10, mtotal := 0#16, mord := .cv, htValid := false, htRoot := 0#10, htNn := 0#10 })) s

/-- `MCNT sym16` (R135): `AddCount(sym, 1)`. -/
def execMcnt (sym : BitVec 16) (s : State) : Host.Outcome State Fault Refusal :=
  command (.mcnt sym) s.isOpenTable (fun t => do let u ← addCount sym 1 t; .ok (0#32, u)) s

/-- `MLOAD sym16` (R136): `AddCount(sym, ARG)`, illegal with `ARG = 0`. -/
def execMload (sym : BitVec 16) (s : State) : Host.Outcome State Fault Refusal :=
  command (.mload sym) (s.isOpenTable && s.arg ≠ 0#16)
    (fun t => do let u ← addCount sym t.arg.toNat t; .ok (0#32, u)) s

/-- The body of `MFIN ord` (R137). -/
def mfinBody (o : OrdMode) (s : State) : Comp (Word × State) := do
  raiseIf (s.mstate = .empty) .emptyInput
  let slots ← readSlots s (List.range s.mn.toNat)
  let t ← writeCdf (sortSlots o slots) 0 0 s
  .ok (0#32, { t with mord := o, mstate := .frozen })

/-- `MFIN ord` (R137): freezes the table and derives the CDF. -/
def execMfin (o : OrdMode) (s : State) : Host.Outcome State Fault Refusal :=
  command (.mfin o) s.isOpenTable (mfinBody o) s

/-- `MTOT` (R139): responds `MTOTAL`. -/
def execMtot (s : State) : Host.Outcome State Fault Refusal :=
  command .mtot s.isFrozen (fun t => .ok (zext32 t.mtotal, t)) s

/-- `MIVL sym16` (R140): responds the symbol's interval. -/
def execMivl (sym : BitVec 16) (s : State) : Host.Outcome State Fault Refusal :=
  command (.mivl sym) s.isFrozen (fun t => do let e ← ordinal t sym; .ok (packInterval e.high e.low, t)) s

/-- `MSAT imm16` (R141): responds the symbol whose interval holds the position. -/
def execMsat (pos : BitVec 16) (s : State) : Host.Outcome State Fault Refusal :=
  command (.msat pos) s.isFrozen (fun t => do let e ← symbolAt t pos.toNat; .ok (sext32 e.sym, t)) s

end Sys2Proof.Machine
end

