-- ==== Sys2Proof/Machine/Range.lean ====
section
/-! DEFINITION. The arithmetic range coder: `RCEI`, `RCE`, `RCEF`, `RCDI`, `RCD`, `RCDF` (spec R151 to R160). -/

namespace Sys2Proof.Machine

/-- The condition of the init commands in R100: `SESS = IDLE` and `MSTATE = FROZEN`. -/
def State.canOpen (s : State) : Bool := s.isIdle && s.isFrozen

/-- `R = RC_HIGH - RC_LOW + 1` (R153). -/
def State.rcRange (s : State) : Nat := s.rcHigh.toNat - s.rcLow.toNat + 1

/-- `Narrow` (R153) of the interval that starts at `low` and is `r` wide, by `[cl, ch)` of total `t`: `(nl, nh)`.
The division rounds up (C1 of 90_conflicts.md). -/
def narrow (low r t cl ch : Nat) : Nat × Nat :=
  (low + cdiv (r * cl) t, low + cdiv (r * ch) t - 1)

/-- `Emit(b)` (R155): the decided bit, then the pending bits, all `1 - b`. -/
def emit (b : Bool) (pend : Nat) : List Bool := b :: List.replicate pend (!b)

/-- The result of `RenormE` (R154). -/
structure Renormed where
  nl : Nat
  nh : Nat
  pend : Nat
  out : List Bool
deriving DecidableEq, Repr

/-- `RenormE(nl, nh, pend)` (R154), the cases tested in the rule's order, at most `tests` times (log entry 4). -/
def renormE : Nat → Nat → Nat → Nat → List Bool → Comp Renormed
  | 0, _, _, _, _ => stopped .loopBound
  | tests + 1, nl, nh, pend, out =>
    if nh < Config.rcHalf then renormE tests (2 * nl) (2 * nh + 1) 0 (out ++ emit false pend)
    else if Config.rcHalf ≤ nl then
      renormE tests (2 * (nl - Config.rcHalf)) (2 * (nh - Config.rcHalf) + 1) 0 (out ++ emit true pend)
    else if Config.rcQtr ≤ nl ∧ nh < Config.rc3Qtr then
      if 0xFFFFFFFF < pend + 1 then raised .capacity
      else renormE tests (2 * (nl - Config.rcQtr)) (2 * (nh - Config.rcQtr) + 1) (pend + 1) out
    else .ok ⟨nl, nh, pend, out⟩

/-- The result of `RenormD` (R159). -/
structure RenormedD where
  nl : Nat
  nh : Nat
  v : Nat
  bp : Nat
deriving DecidableEq, Repr

/-- `RenormD(nl, nh, v, bp)` (R159): the same tests, the window `v` follows the registers and takes one input bit a pass. -/
def renormD (s : State) : Nat → Nat → Nat → Nat → Nat → Comp RenormedD
  | 0, _, _, _, _ => stopped .loopBound
  | tests + 1, nl, nh, v, bp =>
    if nh < Config.rcHalf then do
      let b ← getBit s bp
      renormD s tests (2 * nl) (2 * nh + 1) (2 * v + b.toNat) (bp + 1)
    else if Config.rcHalf ≤ nl then do
      let b ← getBit s bp
      renormD s tests (2 * (nl - Config.rcHalf)) (2 * (nh - Config.rcHalf) + 1) (2 * (v - Config.rcHalf) + b.toNat) (bp + 1)
    else if Config.rcQtr ≤ nl ∧ nh < Config.rc3Qtr then do
      let b ← getBit s bp
      renormD s tests (2 * (nl - Config.rcQtr)) (2 * (nh - Config.rcQtr) + 1) (2 * (v - Config.rcQtr) + b.toNat) (bp + 1)
    else .ok ⟨nl, nh, v, bp⟩

/-- The body of `RCEI` (R151). -/
def rceiBody (s : State) : Comp (Word × State) :=
  .ok (0#32, clearOut { s with
    rcLow := 0#32, rcHigh := word Config.rcTop, rcPend := 0#32, symcnt := 0#32, sess := .rcEnc })

/-- `RCEI` (R151): opens a range-encode session. -/
def execRcei (s : State) : Host.Outcome State Fault Refusal := command .rcei s.canOpen rceiBody s

/-- The body of `RCE sym16` (R152). -/
def rceBody (sym : BitVec 16) (s : State) : Comp (Word × State) := do
  let e ← ordinal s sym
  let n := narrow s.rcLow.toNat s.rcRange s.total e.low e.high
  let r ← renormE Config.rcTests n.1 n.2 s.rcPend.toNat []
  raiseIf (s.room r.out.length = false) .capacity
  let t ← putBits r.out s
  .ok (0#32, countSymbol { t with rcLow := word r.nl, rcHigh := word r.nh, rcPend := word r.pend })

/-- `RCE sym16` (R152): encodes one symbol. -/
def execRce (sym : BitVec 16) (s : State) : Host.Outcome State Fault Refusal :=
  command (.rce sym) (s.sess = .rcEnc) (rceBody sym) s

/-- The flush bits of `RCEF` (R156): one bit, then `RC_PEND + 1` complements. -/
def flushBits (s : State) : List Bool := emit (Config.rcQtr ≤ s.rcLow.toNat) (s.rcPend.toNat + 1)

/-- The body of `RCEF` (R156). -/
def rcefBody (s : State) : Comp (Word × State) := do
  raiseIf (s.room (flushBits s).length = false) .capacity
  let t ← putBits (flushBits s) s
  .ok (0#32, { t with rcPend := 0#32, sess := .idle })

/-- `RCEF` (R156): flushes and closes the session. -/
def execRcef (s : State) : Host.Outcome State Fault Refusal := command .rcef (s.sess = .rcEnc) rcefBody s

/-- The window of the listed input bits, first bit most significant (R157). -/
def loadWindow (s : State) : List Nat → Nat → Comp Nat
  | [], v => .ok v
  | i :: is, v => do
    let b ← getBit s i
    loadWindow s is (2 * v + b.toNat)

/-- The body of `RCDI` (R157). -/
def rcdiBody (s : State) : Comp (Word × State) := do
  let v ← loadWindow s (List.range 32) 0
  .ok (0#32, { s with
    rcLow := 0#32, rcHigh := word Config.rcTop, rcValue := word v, ibp := 32#32, symcnt := 0#32, sess := .rcDec })

/-- `RCDI` (R157): opens a range-decode session. -/
def execRcdi (s : State) : Host.Outcome State Fault Refusal := command .rcdi s.canOpen rcdiBody s

/-- `target` (R158), by floor division. -/
def rcTarget (s : State) : Nat := (s.rcValue.toNat - s.rcLow.toNat) * s.total / s.rcRange

/-- The body of `RCD` (R158). -/
def rcdBody (s : State) : Comp (Word × State) := do
  let e ← symbolAt s (rcTarget s)
  let n := narrow s.rcLow.toNat s.rcRange s.total e.low e.high
  let r ← renormD s Config.rcTests n.1 n.2 s.rcValue.toNat s.ibp.toNat
  .ok (sext32 e.sym, countSymbol { s with
    rcLow := word r.nl, rcHigh := word r.nh, rcValue := word r.v, ibp := word (min r.bp 0xFFFFFFFF) })

/-- `RCD` (R158): decodes one symbol. -/
def execRcd (s : State) : Host.Outcome State Fault Refusal := command .rcd (s.sess = .rcDec) rcdBody s

/-- `RCDF` (R160): closes the session. -/
def execRcdf (s : State) : Host.Outcome State Fault Refusal :=
  command .rcdf (s.sess = .rcDec) (fun t => .ok (0#32, { t with sess := .idle })) s

end Sys2Proof.Machine
end

