-- ==== Sys2Proof/Machine/Rans.lean ====
section
/-! DEFINITION. The rANS coder: `RAEI`, `RAE`, `RAEF`, `RADI`, `RAD`, `RADF` (spec R171 to R180). -/

namespace Sys2Proof.Machine

/-- `L = T * 2^32`, the lower bound of the STREAM state (R170). -/
def ransLow (t : Nat) : Nat := t * 2 ^ Config.raK

/-- The encode step `C(x, k)` (R173), for a symbol of count `c` and cumulative value `cum`. -/
def ransC (x c cum t : Nat) : Nat := x / c * t + cum + x % c

/-- The state part of the decode step `D(x)` (R178), for the ordinal with count `c` and cumulative value `cum`. -/
def ransD (x c cum t : Nat) : Nat := x / t * c + x % t - cum

/-- `RenormRE(x, k)` (R174): low bytes go out while `x >= xmax`, at most `tests` tests (log entry 4). -/
def renormRE (xmax : Nat) : Nat → Nat → List Byte → Comp (Nat × List Byte)
  | 0, _, _ => stopped .loopBound
  | tests + 1, x, out =>
    if xmax ≤ x then renormRE xmax tests (x / Config.raB) (out ++ [BitVec.ofNat 8 (x % Config.raB)])
    else .ok (x, out)

/-- `Replenish(x, rp)` (R179): input bytes come back while `x < L`. `rp` falls with every byte, so the recursion is on
it; at `rp = 0` `GetByteBack` raises `CorruptStreamError` (R69). -/
def replenish (s : State) (l : Nat) (x : Nat) : Nat → Comp (Nat × Nat)
  | 0 => if x < l then raised .corruptStream else .ok (x, 0)
  | rp + 1 =>
    if x < l then do
      let b ← getByteBack s (rp + 1)
      replenish s l (x * Config.raB + b.1.toNat) rp
    else .ok (x, rp + 1)

/-- `RA_STATE` at the start of an encode session (R171). -/
def ransInit (m : RaMode) (t : Nat) : Nat :=
  match m with
  | .raw => 0
  | .stream => ransLow t

/-- The body of `RAEI mode` (R171). -/
def raeiBody (m : RaMode) (s : State) : Comp (Word × State) :=
  .ok (0#32, clearOut { s with
    raMode := m, raState := BitVec.ofNat 64 (ransInit m s.total), symcnt := 0#32, sess := .raEnc })

/-- `RAEI mode` (R171): opens a rANS-encode session. -/
def execRaei (m : RaMode) (s : State) : Host.Outcome State Fault Refusal :=
  command (.raei m) s.canOpen (raeiBody m) s

/-- The renormalisation an encode step makes first: none in RAW mode, `RenormRE` in STREAM mode (R172). -/
def ransShift (s : State) (e : Entry) : Comp (Nat × List Byte) :=
  match s.raMode with
  | .raw => .ok (s.raState.toNat, [])
  | .stream => renormRE (e.cnt * 2 ^ (Config.raK + 8)) Config.raTests s.raState.toNat []

/-- The body of `RAE sym16` (R172). -/
def raeBody (sym : BitVec 16) (s : State) : Comp (Word × State) := do
  let e ← ordinal s sym
  let xo ← ransShift s e
  let x2 := ransC xo.1 e.cnt e.low s.total
  raiseIf (Config.raLimit ≤ x2) .stateOverflow
  raiseIf (s.room (8 * xo.2.length) = false) .capacity
  let t ← putBytes xo.2 s
  .ok (0#32, countSymbol { t with raState := BitVec.ofNat 64 x2 })

/-- `RAE sym16` (R172): one encode step. -/
def execRae (sym : BitVec 16) (s : State) : Host.Outcome State Fault Refusal :=
  command (.rae sym) (s.sess = .raEnc) (raeBody sym) s

/-- The 8 bytes of the state, least significant first (R63, R175). -/
def stateBytes (x : BitVec 64) : List Byte :=
  (List.range 8).map (fun i => BitVec.ofNat 8 (x.toNat / 2 ^ (8 * i) % 256))

/-- The body of `RAEF` (R175). -/
def raefBody (s : State) : Comp (Word × State) := do
  raiseIf (s.room 64 = false) .capacity
  let t ← putBytes (stateBytes s.raState) s
  .ok (0#32, { t with sess := .idle })

/-- `RAEF` (R175): writes the final state and closes the session. -/
def execRaef (s : State) : Host.Outcome State Fault Refusal := command .raef (s.sess = .raEnc) raefBody s

/-- `repeat n times: rp <- rp - 1; x <- x * 256 + IBUF[rp]` (R176). -/
def loadBack (s : State) : Nat → Nat → Nat → Comp (Nat × Nat)
  | 0, x, rp => .ok (x, rp)
  | n + 1, x, rp => do
    let b ← getByteBack s rp
    loadBack s n (x * 256 + b.1.toNat) b.2

/-- The body of `RADI mode` (R176). -/
def radiBody (m : RaMode) (s : State) : Comp (Word × State) := do
  raiseIf (s.ilen.toNat < 8) .corruptStream
  let xr ← loadBack s 8 0 s.ilen.toNat
  .ok (0#32, { s with
    irp := word xr.2, raState := BitVec.ofNat 64 xr.1, raMode := m, symcnt := 0#32, sess := .raDec })

/-- `RADI mode` (R176): opens a rANS-decode session. -/
def execRadi (m : RaMode) (s : State) : Host.Outcome State Fault Refusal :=
  command (.radi m) s.canOpen (radiBody m) s

/-- What a decode step reads back first: nothing in RAW mode, `Replenish` in STREAM mode (R177). -/
def ransRefill (s : State) : Comp (Nat × Nat) :=
  match s.raMode with
  | .raw => .ok (s.raState.toNat, s.irp.toNat)
  | .stream => replenish s (ransLow s.total) s.raState.toNat s.irp.toNat

/-- The body of `RAD` (R177): `Replenish` in STREAM mode, then `D` (R178). -/
def radBody (s : State) : Comp (Word × State) := do
  let xr ← ransRefill s
  let e ← symbolAt s (xr.1 % s.total)
  .ok (sext32 e.sym, countSymbol { s with
    raState := BitVec.ofNat 64 (ransD xr.1 e.cnt e.low s.total), irp := word xr.2 })

/-- `RAD` (R177): one decode step. -/
def execRad (s : State) : Host.Outcome State Fault Refusal := command .rad (s.sess = .raDec) radBody s

/-- `RADF` (R180): closes the session. -/
def execRadf (s : State) : Host.Outcome State Fault Refusal :=
  command .radf (s.sess = .raDec) (fun t => .ok (0#32, { t with sess := .idle })) s

end Sys2Proof.Machine
end

