-- ==== Sys2Proof/Machine/Huffman.lean ====
section
/-! DEFINITION. The Huffman coder: `HBLD`, `HEI`, `HE`, `HEF`, `HDI`, `HD`, `HDF` (spec R191 to R199). -/

namespace Sys2Proof.Machine

/-- The leaves of R191, in ordinal order. -/
def writeLeaves : List Nat → State → Comp State
  | [], s => .ok s
  | k :: ks, s => do
    let e ← entry s k
    let hnLeaf ← writeCell Config.arenaCap s.hnLeaf k true
    let hnOrd ← writeCell Config.arenaCap s.hnOrd k (BitVec.ofNat 9 k)
    let hnFreq ← writeCell Config.arenaCap s.hnFreq k (BitVec.ofNat 16 e.cnt)
    writeLeaves ks { s with hnLeaf := hnLeaf, hnOrd := hnOrd, hnFreq := hnFreq }

/-- The node with the smallest key `(HN_FREQ[.], index)` among `best` and the listed nodes (R191). -/
def minNode (s : State) : Nat → List Nat → Comp Nat
  | best, [] => .ok best
  | best, n :: ns => do
    let fb ← readCell Config.arenaCap s.hnFreq best
    let fn ← readCell Config.arenaCap s.hnFreq n
    if fn.toNat < fb.toNat ∨ (fn = fb ∧ n < best) then minNode s n ns else minNode s best ns

/-- Writes internal node `n` over its children `a` (left) and `b` (right) (R191). -/
def writeInternal (a b n : Nat) (s : State) : Comp State := do
  let fa ← readCell Config.arenaCap s.hnFreq a
  let fb ← readCell Config.arenaCap s.hnFreq b
  let hnLeaf ← writeCell Config.arenaCap s.hnLeaf n false
  let hnLeft ← writeCell Config.arenaCap s.hnLeft n (BitVec.ofNat 10 a)
  let hnRight ← writeCell Config.arenaCap s.hnRight n (BitVec.ofNat 10 b)
  let hnFreq ← writeCell Config.arenaCap s.hnFreq n (BitVec.ofNat 16 (fa.toNat + fb.toNat))
  .ok { s with hnLeaf := hnLeaf, hnLeft := hnLeft, hnRight := hnRight, hnFreq := hnFreq }

/-- The merge loop of R191 over the live nodes, `n` being the next index. Each merge shortens `live` by one, so as many
tests as there are live nodes suffice (log entry 4). It answers the state and the final `n`. -/
def mergeNodes : Nat → List Nat → Nat → State → Comp (State × Nat)
  | _, [], n, s => .ok (s, n)
  | _, [_], n, s => .ok (s, n)
  | 0, _ :: _ :: _, _, _ => stopped .loopBound
  | tests + 1, x :: y :: rest, n, s => do
    let live := x :: y :: rest
    let a ← minNode s x (y :: rest)
    match live.erase a with
    | [] => stopped .loopBound
    | z :: others => do
      let b ← minNode s z others
      let t ← writeInternal a b n s
      mergeNodes tests ((live.erase a).erase b ++ [n]) (n + 1) t

/-- The body of `HBLD` (R193): `BuildTree()` (R191), then `HT_VALID <- 1`. -/
def hbldBody (s : State) : Comp (Word × State) := do
  let mn := s.mn.toNat
  let t ← writeLeaves (List.range mn) s
  let un ← mergeNodes mn (List.range mn) mn t
  .ok (0#32, { un.1 with
    htNn := BitVec.ofNat 10 un.2, htRoot := BitVec.ofNat 10 (un.2 - 1), htValid := true })

/-- `HBLD` (R193): builds the tree of the frozen model. -/
def execHbld (s : State) : Host.Outcome State Fault Refusal := command .hbld s.canOpen hbldBody s

/-- The path from node `n` to the leaf of ordinal `k`, 0 for an edge to `HN_LEFT`, 1 for an edge to `HN_RIGHT`, if the
leaf stands under `n` (R192). The number is the depth the search may still go (log entry 4). -/
def pathTo (s : State) (k : Nat) : Nat → Nat → Comp (Option (List Bool))
  | 0, _ => stopped .loopBound
  | depth + 1, n => do
    let leaf ← readCell Config.arenaCap s.hnLeaf n
    if leaf then do
      let o ← readCell Config.arenaCap s.hnOrd n
      .ok (if o.toNat = k then some [] else none)
    else do
      let l ← readCell Config.arenaCap s.hnLeft n
      match ← pathTo s k depth l.toNat with
      | some p => .ok (some (false :: p))
      | none => do
        let r ← readCell Config.arenaCap s.hnRight n
        match ← pathTo s k depth r.toNat with
        | some p => .ok (some (true :: p))
        | none => .ok none

/-- `CODE(k)` (R192): the path from the root to leaf `k`, or the single bit 0 for the one-symbol alphabet. -/
def code (s : State) (k : Nat) : Comp (List Bool) :=
  if s.mn.toNat = 1 then .ok [false]
  else do
    match ← pathTo s k s.htNn.toNat s.htRoot.toNat with
    | some p => .ok p
    | none => stopped .notInTree

/-- The condition of `HEI` and `HDI` in R100: `SESS = IDLE`, `MSTATE = FROZEN`, `HT_VALID = 1`. -/
def State.canOpenTree (s : State) : Bool := s.canOpen && s.htValid

/-- `HEI` (R194): opens a Huffman-encode session. -/
def execHei (s : State) : Host.Outcome State Fault Refusal :=
  command .hei s.canOpenTree (fun t => .ok (0#32, clearOut { t with symcnt := 0#32, sess := .hfEnc })) s

/-- The body of `HE sym16` (R195). -/
def heBody (sym : BitVec 16) (s : State) : Comp (Word × State) := do
  let e ← ordinal s sym
  let bits ← code s e.k
  raiseIf (s.room bits.length = false) .capacity
  let t ← putBits bits s
  .ok (0#32, countSymbol t)

/-- `HE sym16` (R195): appends the symbol's code. -/
def execHe (sym : BitVec 16) (s : State) : Host.Outcome State Fault Refusal :=
  command (.he sym) (s.sess = .hfEnc) (heBody sym) s

/-- `HEF` (R196): closes the session; no bit is added. -/
def execHef (s : State) : Host.Outcome State Fault Refusal :=
  command .hef (s.sess = .hfEnc) (fun t => .ok (0#32, { t with sess := .idle })) s

/-- `HDI` (R197): opens a Huffman-decode session. -/
def execHdi (s : State) : Host.Outcome State Fault Refusal :=
  command .hdi s.canOpenTree (fun t => .ok (0#32, { t with ibp := 0#32, symcnt := 0#32, sess := .hfDec })) s

/-- The walk of `HD` (R198) from node `n` at bit `bp` with `left` stream bits unread: the leaf reached and the cursor. -/
def walk (s : State) : Nat → Nat → Nat → Comp (Nat × Nat)
  | left, n, bp => do
    let leaf ← readCell Config.arenaCap s.hnLeaf n
    if leaf then .ok (n, bp)
    else
      match left with
      | 0 => raised .corruptStream
      | left + 1 => do
        let b ← getBit s bp
        let child ← readCell Config.arenaCap (if b then s.hnRight else s.hnLeft) n
        walk s left child.toNat (bp + 1)

/-- The leaf `HD` reaches and the cursor after it (R198), with the one-symbol alphabet's single bit 0. -/
def decodePath (s : State) : Comp (Nat × Nat) := do
  let bp := s.ibp.toNat
  let root := s.htRoot.toNat
  let leaf ← readCell Config.arenaCap s.hnLeaf root
  if leaf then do
    raiseIf (s.ibitlen ≤ bp) .corruptStream
    let b ← getBit s bp
    raiseIf (b = true) .corruptStream
    .ok (root, bp + 1)
  else walk s (s.ibitlen - bp) root bp

/-- The body of `HD` (R198). -/
def hdBody (s : State) : Comp (Word × State) := do
  let nb ← decodePath s
  let o ← readCell Config.arenaCap s.hnOrd nb.1
  let e ← entry s o.toNat
  .ok (sext32 e.sym, countSymbol { s with ibp := word nb.2 })

/-- `HD` (R198): decodes one symbol. -/
def execHd (s : State) : Host.Outcome State Fault Refusal := command .hd (s.sess = .hfDec) hdBody s

/-- `HDF` (R199): closes the session. -/
def execHdf (s : State) : Host.Outcome State Fault Refusal :=
  command .hdf (s.sess = .hfDec) (fun t => .ok (0#32, { t with sess := .idle })) s

end Sys2Proof.Machine
end

