-- ==== Sys2Proof/Machine/System.lean ====
section
/-! DEFINITION. The system commands `NOP`, `SRST`, `ECLR`, `RDCSR`, `ARG` (spec R110 to R114). -/

namespace Sys2Proof.Machine

/-- `NOP` (R110): legal in every state, changes nothing, responds 0. -/
def execNop (s : State) : Host.Outcome State Fault Refusal :=
  command .nop true (fun t => .ok (0#32, t)) s

/-- `SRST` (R111): every register takes its reset value. -/
def execSrst (s : State) : Host.Outcome State Fault Refusal :=
  command .srst true (fun t => .ok (0#32, resetRegisters t)) s

/-- `ECLR` (R112): `ERR <- 0`, `ERRINFO <- 0`, `SESS <- IDLE`. -/
def execEclr (s : State) : Host.Outcome State Fault Refusal :=
  command .eclr true (fun t => .ok (0#32, errorClear t)) s

/-- `RDCSR imm8` (R113): responds the CSR's value; an unmapped address is illegal. -/
def execRdcsr (addr : BitVec 8) (s : State) : Host.Outcome State Fault Refusal :=
  command (.rdcsr addr) (csr s addr).isSome (fun t => .ok ((csr t addr).getD 0#32, t)) s

/-- `ARG imm16` (R114): `ARG <- imm16`. -/
def execArg (imm : BitVec 16) (s : State) : Host.Outcome State Fault Refusal :=
  command (.arg imm) true (fun t => .ok (0#32, { t with arg := imm })) s

end Sys2Proof.Machine
end

