-- ==== Sys2Proof/Machine/Dispatch.lean ====
section
/-! DEFINITION. The one dispatch from a decoded command to its meaning. -/

namespace Sys2Proof.Machine

def exec (i : Instr) (s : State) : Host.Outcome State Fault Refusal :=
  match i with
  | .nop => Sys2Proof.Machine.execNop s
  | .srst => Sys2Proof.Machine.execSrst s
  | .eclr => Sys2Proof.Machine.execEclr s
  | .rdcsr addr => Sys2Proof.Machine.execRdcsr addr s
  | .arg imm => Sys2Proof.Machine.execArg imm s
  | .mclr => Sys2Proof.Machine.execMclr s
  | .mcnt sym => Sys2Proof.Machine.execMcnt sym s
  | .mload sym => Sys2Proof.Machine.execMload sym s
  | .mfin ord => Sys2Proof.Machine.execMfin ord s
  | .mtot => Sys2Proof.Machine.execMtot s
  | .mivl sym => Sys2Proof.Machine.execMivl sym s
  | .msat pos => Sys2Proof.Machine.execMsat pos s
  | .iclr => Sys2Proof.Machine.execIclr s
  | .ipush byte => Sys2Proof.Machine.execIpush byte s
  | .itrim pad => Sys2Proof.Machine.execItrim pad s
  | .oread => Sys2Proof.Machine.execOread s
  | .xfer => Sys2Proof.Machine.execXfer s
  | .orwd => Sys2Proof.Machine.execOrwd s
  | .rcei => Sys2Proof.Machine.execRcei s
  | .rce sym => Sys2Proof.Machine.execRce sym s
  | .rcef => Sys2Proof.Machine.execRcef s
  | .rcdi => Sys2Proof.Machine.execRcdi s
  | .rcd => Sys2Proof.Machine.execRcd s
  | .rcdf => Sys2Proof.Machine.execRcdf s
  | .raei mode => Sys2Proof.Machine.execRaei mode s
  | .rae sym => Sys2Proof.Machine.execRae sym s
  | .raef => Sys2Proof.Machine.execRaef s
  | .radi mode => Sys2Proof.Machine.execRadi mode s
  | .rad => Sys2Proof.Machine.execRad s
  | .radf => Sys2Proof.Machine.execRadf s
  | .hbld => Sys2Proof.Machine.execHbld s
  | .hei => Sys2Proof.Machine.execHei s
  | .he sym => Sys2Proof.Machine.execHe sym s
  | .hef => Sys2Proof.Machine.execHef s
  | .hdi => Sys2Proof.Machine.execHdi s
  | .hd => Sys2Proof.Machine.execHd s
  | .hdf => Sys2Proof.Machine.execHdf s

end Sys2Proof.Machine
end

