-- ==== Sys2Proof/Machine/Inputs.lean ====
section
/-! DEFINITION. What the ECE does with each event at its inputs (spec R7, R90, R94, R240), which `step` calls. -/

namespace Sys2Proof.Machine

/-- One command word taken from the port (R90, R95): its command is executed, or it is ill-formed. -/
def execWord (w : Word) (s : State) : Host.Outcome State Fault Refusal :=
  match decode w with
  | .ok i => exec i s
  | .error _ => .next (illFormedWord w s)

/-- One event at the inputs. `rst` writes the reset values and gives no response, and the command it abandons has no
effect that remains (R240, X10). -/
def takeEvent (e : HostEvent) (s : State) : Host.Outcome State Fault Refusal :=
  match e with
  | .command w => execWord w s
  | .rst _ => .next (resetRegisters s)

/-- A command word at the front of the input port, on it as one 32-bit word (R64, R90; log entry 1). -/
def placeWord (w : Word) (s : State) : State := { s with inbox := .command w :: s.inbox }

end Sys2Proof.Machine
end

