-- ==== Sys2Proof/Machine/Step.lean ====
section
/-! DEFINITION. One step of the ECE: the next event of the host's is taken, "in the order the commands arrive" (spec R7,
R74). With nothing at the inputs the ECE waits and its state survives (R223; log entry 1). No time passes in
the model (R251; log entry 10). -/

namespace Sys2Proof.Machine

/-- The one step of the machine. -/
def step (s : State) : Host.Outcome State Fault Refusal :=
  match s.inbox with
  | [] => .next s
  | e :: rest => takeEvent e { s with inbox := rest }

/-- The state in which the next step takes and runs the command word whose low `nbits` bits are `w`'s. -/
def State.withFetchWord (s : State) (nbits w : Nat) : State := placeWord (BitVec.ofNat 32 (w % 2 ^ nbits)) s

end Sys2Proof.Machine
end

