-- ==== Sys2Proof/WellFormed.lean ====
section
/-! DEFINITION. When a 32-bit word is a well-formed command (spec R91, R94), said by the masks of R91 and the opcode map of
R93 and independently of the decoder. Every term of `Instr` is well formed because its operand types have the formats'
widths, so the checks are on words: the reserved byte, the opcode, the must-be-zero bits of the format. -/

namespace Sys2Proof

/-- The operand formats of R91. -/
inductive Format where
  | n
  | s
  | u
  | b
  | t
  | o
  | m
deriving DecidableEq, Repr

/-- The mask of the word that R91 gives each format. -/
def Format.mask : Format → Word
  | .n => 0xFFFFFFFF#32
  | .s => 0xFFFF0000#32
  | .u => 0xFFFF0000#32
  | .b => 0xFFFFFF00#32
  | .t => 0xFFFFFFF8#32
  | .o => 0xFFFFFFFC#32
  | .m => 0xFFFFFFFE#32

/-- The format of each opcode of R93, none for a reserved opcode (R94). -/
def formatOf (op : Nat) : Option Format :=
  if op ∈ [0x03, 0x21] then some .b
  else if op ∈ [0x04, 0x16] then some .u
  else if op ∈ [0x11, 0x12, 0x15, 0x31, 0x41, 0x52] then some .s
  else if op = 0x13 then some .o
  else if op = 0x22 then some .t
  else if op ∈ [0x40, 0x43] then some .m
  else if op ∈ [0x00, 0x01, 0x02, 0x10, 0x14, 0x20, 0x23, 0x24, 0x25, 0x30, 0x32, 0x33, 0x34, 0x35, 0x42, 0x44,
      0x45, 0x50, 0x51, 0x53, 0x54, 0x55, 0x56] then some .n
  else none

/-- A word is well formed when its opcode (bits 31..24) is in the table and, under its format's mask, it equals
`op << 24`: so `rsv = 0` and every must-be-zero operand bit is 0 (R91, R94). -/
def wellFormedWord (w : Word) : Bool :=
  match formatOf (w >>> 24).toNat with
  | none => false
  | some f => w &&& f.mask == (w >>> 24) <<< 24

end Sys2Proof
end

