-- ==== Sys2Proof/Safety.lean ====
section
/-! DEFINITION. What holds of every state the machine reaches: the invariants the spec states of the ECE's registers,
tables and buffers (R25, R26, R30 to R35, R39, R43, R44, R46 to R51, R181), in the terms the obligations use. -/

namespace Sys2Proof.Machine

/-! ### Terms of the statements -/

/-- A step that completes with the response `(0, data)` and the state `t` otherwise. -/
def State.done (s t : State) (data : Word) : Host.Outcome State Fault Refusal :=
  .next { t with outbox := s.outbox ++ [⟨none, data⟩] }

/-- A step that raises `e` for the command `i`: fault entry and the response `(code, 0)`, every other field as in `s`
(R214). -/
def State.failed (s : State) (e : Err) (i : Instr) : Host.Outcome State Fault Refusal :=
  .next { s with err := some e, errinfo := encode i, sess := .fault, outbox := s.outbox ++ [⟨some e, 0#32⟩] }

/-- A command answered with `(6, 0)` in `FAULT`, nothing else changed (R216). -/
def State.turnedAway (s : State) : Host.Outcome State Fault Refusal :=
  .next { s with outbox := s.outbox ++ [⟨some .illegalCommand, 0#32⟩] }

/-- The rows of the legality table R100 outside `FAULT` ("any" then always holds), written from the table apart from the
meanings. -/
def State.Legal (s : State) : Instr → Prop
  | .nop | .srst | .eclr | .arg _ | .orwd => True
  | .rdcsr a => a ∈ [0x00#8, 0x01#8, 0x02#8, 0x03#8, 0x04#8, 0x06#8, 0x07#8, 0x08#8, 0x09#8, 0x0A#8, 0x0B#8, 0x10#8,
      0x11#8, 0x12#8, 0x13#8, 0x18#8, 0x19#8, 0x1A#8, 0x20#8, 0x21#8, 0x22#8, 0x28#8, 0x29#8, 0x2A#8, 0x2B#8, 0x30#8,
      0x31#8, 0x32#8, 0x33#8, 0x38#8]
  | .mclr | .iclr | .ipush _ | .xfer => s.sess = .idle
  | .mcnt _ | .mfin _ => s.sess = .idle ∧ s.mstate ≠ .frozen
  | .mload _ => s.sess = .idle ∧ s.mstate ≠ .frozen ∧ s.arg ≠ 0#16
  | .mtot | .mivl _ | .msat _ => s.mstate = .frozen
  | .itrim p => s.sess = .idle ∧ (p = 0#3 ∨ 1 ≤ s.ilen.toNat)
  | .oread => s.ordp.toNat < s.olen
  | .rcei | .rcdi | .raei _ | .radi _ | .hbld => s.sess = .idle ∧ s.mstate = .frozen
  | .hei | .hdi => s.sess = .idle ∧ s.mstate = .frozen ∧ s.htValid = true
  | .rce _ | .rcef => s.sess = .rcEnc
  | .rcd | .rcdf => s.sess = .rcDec
  | .rae _ | .raef => s.sess = .raEnc
  | .rad | .radf => s.sess = .raDec
  | .he _ | .hef => s.sess = .hfEnc
  | .hd | .hdf => s.sess = .hfDec

/-- `n` times the command `MCNT sym`, its responses given. -/
def mcntTimes (sym : BitVec 16) : Nat → State → Option State
  | 0, s => some s
  | n + 1, s =>
    match exec (.mcnt sym) s with
    | .next t => mcntTimes sym n t
    | _ => none

/-- The data the listed commands respond in order, and the state after them, if each completes with `err = 0` (R97). -/
def runAll : List Instr → State → Option (List Word × State)
  | [], s => some ([], s)
  | i :: is, s =>
    match exec i s with
    | .next t =>
      match t.outbox.getLast? with
      | some ⟨none, d⟩ => (runAll is t).map fun r => (d :: r.1, r.2)
      | _ => none
    | _ => none

/-- Stream bit `j` of the output stream: bit `7 - (j mod 8)` of `OBUF[j / 8]` (R46); false where no byte holds a value. -/
def State.outBit (s : State) (j : Nat) : Bool := ((s.obuf.find (j / 8)).getD 0#8).getLsbD (7 - j % 8)

/-- The output stream, in stream order (R46). -/
def State.outBits (s : State) : List Bool := (List.range s.obitlen.toNat).map s.outBit

/-- Stream bit `j` of the input stream, 0 at and past `IBITLEN` (R61, R68). -/
def State.inBit (s : State) (j : Nat) : Bool :=
  decide (j < s.ibitlen) && ((s.ibuf.find (j / 8)).getD 0#8).getLsbD (7 - j % 8)

/-- Byte `i` of the input stream; 0 where no byte holds a value. -/
def State.inByte (s : State) (i : Nat) : Byte := (s.ibuf.find i).getD 0#8

/-- `MT_SYM[i]`; 0 where the cell holds no value. -/
def State.slotSym (s : State) (i : Nat) : BitVec 16 := (s.mtSym.find i).getD 0#16

/-- `MT_CNT[i]`; 0 where the cell holds no value. -/
def State.slotCnt (s : State) (i : Nat) : Nat := ((s.mtCnt.find i).getD 0#16).toNat

/-- `ORDER[k]`; 0 where the cell holds no value. -/
def State.slotOf (s : State) (k : Nat) : Nat := ((s.order.find k).getD 0#9).toNat

/-- `SYM(k)` (R130). -/
def State.symOf (s : State) (k : Nat) : BitVec 16 := s.slotSym (s.slotOf k)

/-- `CNT(k)` (R130). -/
def State.cntOf (s : State) (k : Nat) : Nat := s.slotCnt (s.slotOf k)

/-- `CLOW(k)` (R130); 0 where the cell holds no value. -/
def State.lowOf (s : State) (k : Nat) : Nat := ((s.clow.find k).getD 0#16).toNat

/-- `CHIGH(k)` (R130). -/
def State.highOf (s : State) (k : Nat) : Nat := s.lowOf k + s.cntOf k

/-- What the decode commands respond for the symbols of the listed ordinals (R92). -/
def State.responses (s : State) (ks : List Nat) : List Word := ks.map fun k => (s.symOf k).signExtend 32

/-- `HN_FREQ[n]`; 0 where the cell holds no value. -/
def State.freqOf (s : State) (n : Nat) : Nat := ((s.hnFreq.find n).getD 0#16).toNat

/-- `HN_LEFT[n]`; 0 where the cell holds no value. -/
def State.leftOf (s : State) (n : Nat) : Nat := ((s.hnLeft.find n).getD 0#10).toNat

/-- `HN_RIGHT[n]`; 0 where the cell holds no value. -/
def State.rightOf (s : State) (n : Nat) : Nat := ((s.hnRight.find n).getD 0#10).toNat

/-- The two models hold the same frequency table and CDF. -/
def State.SameModel (s t : State) : Prop :=
  s.mstate = t.mstate ∧ s.mn = t.mn ∧ s.mtotal = t.mtotal ∧ s.mord = t.mord ∧ s.mtSym = t.mtSym ∧ s.mtCnt = t.mtCnt ∧
  s.order = t.order ∧ s.clow = t.clow

/-- `RenormE` (R154) of the interval narrowed to ordinal `k` (R153), started with `pend` pending bits: what `RCE` of its
symbol appends and leaves, with `pend = RC_PEND` (R152). -/
def State.rceRenorm (s : State) (k pend : Nat) : Comp Renormed :=
  renormE Config.rcTests (narrow s.rcLow.toNat s.rcRange s.total (s.lowOf k) (s.highOf k)).1
    (narrow s.rcLow.toNat s.rcRange s.total (s.lowOf k) (s.highOf k)).2 pend []

/-- Node `m` is in `live` when internal node `n` is made (R191): it exists by then and no earlier internal node has it as
a child. -/
def State.LiveAt (s : State) (n m : Nat) : Prop :=
  m < n ∧ ∀ j < n, s.mn.toNat ≤ j → s.leftOf j ≠ m ∧ s.rightOf j ≠ m

/-- The key `(HN_FREQ[.], index)` of node `a` is not larger than that of node `b` (R191): lower frequency first, then lower
index. -/
def State.KeyLe (s : State) (a b : Nat) : Prop := s.freqOf a < s.freqOf b ∨ (s.freqOf a = s.freqOf b ∧ a ≤ b)

/-- The selection of R191, read off the finished arena: the left child of each internal node has the smallest key of the
nodes then live, the right child the smallest key of the others. -/
def State.MergesLeast (s : State) : Prop :=
  ∀ n < s.htNn.toNat, s.mn.toNat ≤ n →
    s.LiveAt n (s.leftOf n) ∧ s.LiveAt n (s.rightOf n) ∧ s.rightOf n ≠ s.leftOf n ∧
    ∀ m, s.LiveAt n m → s.KeyLe (s.leftOf n) m ∧ (m ≠ s.leftOf n → s.KeyLe (s.rightOf n) m)

/-- The two states hold the same code tree. -/
def State.SameTree (s t : State) : Prop :=
  s.htValid = t.htValid ∧ s.htRoot = t.htRoot ∧ s.htNn = t.htNn ∧ s.hnFreq = t.hnFreq ∧ s.hnLeft = t.hnLeft ∧
  s.hnRight = t.hnRight ∧ s.hnLeaf = t.hnLeaf ∧ s.hnOrd = t.hnOrd

/-- The output stream of `e`, with its padding, is the input stream of `d` (R62): "presented as input". -/
def State.Presents (e d : State) : Prop :=
  d.ilen.toNat = e.olen ∧ d.ipad.toNat = e.opad ∧ ∀ i < e.olen, d.inByte i = (e.obuf.find i).getD 0#8

/-- Every output byte outside the indices `lo..hi-1` is as it was, and so is the whole input buffer. -/
def State.OutputFrame (s t : State) (lo hi : Nat) : Prop :=
  (∀ a, a < lo ∨ hi ≤ a → t.obuf.find a = s.obuf.find a) ∧ t.ibuf = s.ibuf

/-- The slot record of slot `i` (R33), for the ordering keys of R138. -/
def State.slotAt (s : State) (i : Nat) : Slot := ⟨i, s.slotSym i, (s.mtCnt.find i).getD 0#16⟩

/-! ### Invariants -/

/-- "`ERR != 0` exactly when `SESS = FAULT`" (R26). -/
def State.ErrLatched (s : State) : Prop := s.err ≠ none ↔ s.sess = .fault

/-- A storage space in canonical form, no cell outside it (R60). -/
def SpaceOk {α : Type} (cap : Nat) (m : Cells α) : Prop := m.wf ∧ ∀ c ∈ m, c.1 < cap

/-- Every storage space is in canonical form with no cell outside it (R60). -/
def State.SpacesOk (s : State) : Prop :=
  SpaceOk Config.aMax s.mtSym ∧ SpaceOk Config.aMax s.mtCnt ∧ SpaceOk Config.aMax s.order ∧ SpaceOk Config.aMax s.clow ∧
  SpaceOk Config.arenaCap s.hnFreq ∧ SpaceOk Config.arenaCap s.hnLeft ∧ SpaceOk Config.arenaCap s.hnRight ∧
  SpaceOk Config.arenaCap s.hnLeaf ∧ SpaceOk Config.arenaCap s.hnOrd ∧
  SpaceOk Config.bufCap s.obuf ∧ SpaceOk Config.bufCap s.ibuf

/-- The output stream (R46 to R48): `OBITLEN` within the buffer, `ORDP` within `OLEN`, every byte below `OLEN` holds a
value, and the bits of the last byte past the last stream bit are 0. -/
def State.OutputOk (s : State) : Prop :=
  s.obitlen.toNat ≤ 8 * Config.bufCap ∧ s.ordp.toNat ≤ s.olen ∧ (∀ i < s.olen, (s.obuf.find i).isSome = true) ∧
  ∀ j < s.opad, s.outBit (s.obitlen.toNat + j) = false

/-- The input stream (R49 to R51): `ILEN` within the buffer, `IPAD = 0` when it is empty, `IRP` within it, and every byte
below `ILEN` holds a value. -/
def State.InputOk (s : State) : Prop :=
  s.ilen.toNat ≤ Config.bufCap ∧ (s.ilen = 0#32 → s.ipad = 0#3) ∧ s.irp.toNat ≤ s.ilen.toNat ∧
  ∀ i < s.ilen.toNat, (s.ibuf.find i).isSome = true

/-- The frequency table (R30 to R33): `MN` within the table and 0 exactly when `EMPTY`, `MORD = 0` unless `FROZEN`, the
valid slots hold distinct symbols with counts that are not 0, and `MTOTAL` is the sum of the counts. -/
def State.TableOk (s : State) : Prop :=
  s.mn.toNat ≤ Config.aMax ∧ (s.mn = 0#10 ↔ s.mstate = .empty) ∧ (s.mstate ≠ .frozen → s.mord = .cv) ∧
  (∀ i < s.mn.toNat, (s.mtSym.find i).isSome = true ∧ (s.mtCnt.find i).isSome = true ∧ s.slotCnt i ≠ 0) ∧
  (∀ i < s.mn.toNat, ∀ j < i, s.slotSym j ≠ s.slotSym i) ∧
  ((List.range s.mn.toNat).map s.slotCnt).sum = s.total

/-- The CDF of a frozen model (R34, R35): `ORDER` lists valid slots without repetition, in the order of the keys of R138,
and `CLOW[k]` is the sum of the counts of the ordinals before `k`. -/
def State.CdfOk (s : State) : Prop :=
  s.mstate = .frozen →
    (∀ k < s.mn.toNat, (s.order.find k).isSome = true ∧ s.slotOf k < s.mn.toNat ∧ (s.clow.find k).isSome = true ∧
      s.lowOf k = ((List.range k).map s.cntOf).sum) ∧
    ∀ k < s.mn.toNat, ∀ j < k, keyBefore s.mord (s.slotAt (s.slotOf j)) (s.slotAt (s.slotOf k)) = true

/-- A coder session runs on a frozen model, a Huffman session on a valid tree (R77, R100), a valid tree on a frozen model
(R42), and without one `HT_ROOT` and `HT_NN` are 0 (R43). -/
def State.SessionOk (s : State) : Prop :=
  (s.sess ≠ .idle → s.sess ≠ .fault → s.mstate = .frozen) ∧
  (s.sess = .hfEnc ∨ s.sess = .hfDec → s.htValid = true) ∧
  (s.htValid = true → s.mstate = .frozen) ∧
  (s.htValid = false → s.htRoot = 0#10 ∧ s.htNn = 0#10)

/-- The range registers of an open range session (R39). -/
def State.RangeOk (s : State) : Prop :=
  (s.sess = .rcEnc ∨ s.sess = .rcDec →
    s.rcLow.toNat ≤ s.rcHigh.toNat ∧
    ((s.rcLow.toNat < Config.rcQtr ∧ Config.rcHalf ≤ s.rcHigh.toNat) ∨
      (s.rcLow.toNat < Config.rcHalf ∧ Config.rc3Qtr ≤ s.rcHigh.toNat))) ∧
  (s.sess = .rcDec → s.rcLow.toNat ≤ s.rcValue.toNat ∧ s.rcValue.toNat ≤ s.rcHigh.toNat)

/-- An open rANS-encode session: the output stream is whole bytes (R65) and in STREAM mode `L <= RA_STATE < 256 * L`
(R181). -/
def State.RansOk (s : State) : Prop :=
  s.sess = .raEnc → s.obitlen.toNat % 8 = 0 ∧
    (s.raMode = .stream → ransLow s.total ≤ s.raState.toNat ∧ s.raState.toNat < 256 * ransLow s.total)

/-- The tree of a valid arena (R43, R44, R191): its size and root, the leaves in ordinal order, each internal node over
two different earlier nodes whose frequencies it sums, and every node but the root a child of a later one. -/
def State.TreeOk (s : State) : Prop :=
  s.htValid = true →
    s.htNn.toNat = 2 * s.mn.toNat - 1 ∧ s.htRoot.toNat = s.htNn.toNat - 1 ∧
    (∀ n < s.mn.toNat, s.hnLeaf.find n = some true ∧ s.hnOrd.find n = some (BitVec.ofNat 9 n) ∧
      (s.hnFreq.find n).isSome = true ∧ s.freqOf n = s.cntOf n) ∧
    (∀ n < s.htNn.toNat, s.mn.toNat ≤ n → s.hnLeaf.find n = some false ∧
      (s.hnLeft.find n).isSome = true ∧ (s.hnRight.find n).isSome = true ∧ (s.hnFreq.find n).isSome = true ∧
      s.leftOf n < n ∧ s.rightOf n < n ∧ s.leftOf n ≠ s.rightOf n ∧
      s.freqOf n = s.freqOf (s.leftOf n) + s.freqOf (s.rightOf n)) ∧
    ∀ n < s.htRoot.toNat, ∃ m < s.htNn.toNat, s.mn.toNat ≤ m ∧ (s.leftOf m = n ∨ s.rightOf m = n)

/-- The stream invariants. -/
def State.StreamsOk (s : State) : Prop := s.OutputOk ∧ s.InputOk

/-- The model invariant of R33 to R35. -/
def State.ModelOk (s : State) : Prop := s.TableOk ∧ s.CdfOk

/-- Every invariant the spec states of the machine's state. -/
def State.Inv (s : State) : Prop :=
  s.ErrLatched ∧ s.SpacesOk ∧ s.OutputOk ∧ s.InputOk ∧ s.ModelOk ∧ s.SessionOk ∧ s.RangeOk ∧ s.RansOk ∧ s.TreeOk

end Sys2Proof.Machine
end

