-- ==== Sys2Proof/Certificates/Slice0/Obligations.lean ====
section
/-! DEFINITION. The statements for the provers. `s.done t d` is the step that completes with the response `(0, d)` and the
state `t`; `s.failed e i` is the fault entry of `e` for the command `i`; `s.turnedAway` is the answer `(6, 0)` in `FAULT`
(Safety.lean). An equation `exec i s = s.done t d` with `t` written as an update of `s` is at once where the command
completes, its result and its frame. -/

open Sys2Proof Sys2Proof.Machine

/-! ### Encoding -/

/-- R90, R91, R93: decoding the word of a command gives the command, every operand at every value. -/
def Obligations.DecodeOfEncodeIsTheCommand : Prop := ∀ i : Instr, decode (encode i) = .ok i

/-- R95: every 32-bit word selects exactly one command, whose word it is, or is ill-formed. Well-formedness is said by the
masks of R91, apart from the decoder. -/
def Obligations.EveryWordIsOneCommandOrIllFormed : Prop :=
  ∀ w : Word,
    (wellFormedWord w = true → ∃ i, decode w = .ok i ∧ encode i = w ∧ ∀ j, encode j = w → j = i) ∧
    (wellFormedWord w = false → (∃ r, decode w = .error r) ∧ ∀ j, encode j ≠ w)

/-- Words of the spec's examples, one a family, decode to the commands they stand for. -/
def Obligations.ExampleWordsDecode : Prop :=
  decode 0x03000011#32 = .ok (.rdcsr 0x11#8) ∧ decode 0x1100FFFE#32 = .ok (.mcnt 0xFFFE#16) ∧
  decode 0x13000002#32 = .ok (.mfin .ci) ∧ decode 0x22000004#32 = .ok (.itrim 4#3) ∧
  decode 0x3100FFE0#32 = .ok (.rce 0xFFE0#16) ∧ decode 0x43000001#32 = .ok (.radi .stream) ∧
  decode 0x52000063#32 = .ok (.he 0x63#16) ∧ decode 0x7F000000#32 = .error .reservedOpcode ∧
  decode 0x00010000#32 = .error .rsvNotZero ∧ decode 0x22000008#32 = .error .operandBitsNotZero

/-! ### The step -/

/-- A step runs the decoded command: the word is taken from the port and `exec` acts on what is left. The port is the
model's own field (log entry 1). -/
def Obligations.StepRunsTheDecodedCommand : Prop :=
  ∀ (s : State) (w : Word) (rest : List HostEvent) (i : Instr),
    s.inbox = .command w :: rest → decode w = .ok i → step s = exec i { s with inbox := rest }

/-- R94, R219: an ill-formed word raises `IllegalCommandError` and has no other effect; in `FAULT` it is answered `(6, 0)`
and nothing changes. -/
def Obligations.IllFormedWordRaisesIllegalCommand : Prop :=
  ∀ (s : State) (w : Word) (rest : List HostEvent), s.inbox = .command w :: rest → wellFormedWord w = false →
    (s.sess ≠ .fault → step s = .next { s with
      inbox := rest, err := some .illegalCommand, errinfo := w, sess := .fault,
      outbox := s.outbox ++ [⟨some .illegalCommand, 0#32⟩] }) ∧
    (s.sess = .fault → step s = .next { s with
      inbox := rest, outbox := s.outbox ++ [⟨some .illegalCommand, 0#32⟩] })

/-- R240 and the model's choice for the port (log entries 1 and 2): with nothing at the inputs the state survives, and
`rst` writes the reset values and gives no response, whatever command it abandons. -/
def Obligations.IdleStepWaitsAndResetPinResets : Prop :=
  ∀ s : State, (s.inbox = [] → step s = .next s) ∧
    ∀ abandoned rest, s.inbox = .rst abandoned :: rest →
      step s = .next { State.reset with inbox := rest, outbox := s.outbox }

/-- R55: the value of every register after hardware reset and after `SRST`. The last clause, that no cell of a table or
buffer holds a value, is the model's choice (DESIGN CHOICE, log entry 3): R55 calls the contents unspecified. -/
def Obligations.ResetRegistersHoldTheSpecValues : Prop :=
  ∀ t : State,
    (t = State.reset ∨ (∃ s abandoned rest, s.inbox = .rst abandoned :: rest ∧ step s = .next t) ∨
      ∃ s, exec .srst s = .next t) →
    t.sess = .idle ∧ t.err = none ∧ t.errinfo = 0#32 ∧ t.arg = 0#16 ∧ t.symcnt = 0#32 ∧ t.mstate = .empty ∧ t.mn = 0#10 ∧
    t.mtotal = 0#16 ∧ t.mord = .cv ∧ t.rcLow = 0#32 ∧ t.rcHigh = 0xFFFFFFFF#32 ∧ t.rcPend = 0#32 ∧ t.rcValue = 0#32 ∧
    t.raState = 0#64 ∧ t.raMode = .raw ∧ t.htValid = false ∧ t.htRoot = 0#10 ∧ t.htNn = 0#10 ∧ t.obitlen = 0#32 ∧
    t.olen = 0 ∧ t.opad = 0 ∧ t.ordp = 0#32 ∧ t.ilen = 0#32 ∧ t.ipad = 0#3 ∧ t.ibp = 0#32 ∧ t.irp = 0#32 ∧
    t.faultO = false ∧
    ∀ a, t.mtSym.find a = none ∧ t.mtCnt.find a = none ∧ t.order.find a = none ∧ t.clow.find a = none ∧
      t.hnFreq.find a = none ∧ t.hnLeft.find a = none ∧ t.hnRight.find a = none ∧ t.hnLeaf.find a = none ∧
      t.hnOrd.find a = none ∧ t.obuf.find a = none ∧ t.ibuf.find a = none

/-! ### Errors and sessions, over all commands -/

/-- R97: every command word, well-formed or not, produces exactly one response, with `data = 0` when `err != 0`. -/
def Obligations.EveryCommandWordGetsOneResponse : Prop :=
  ∀ (s t : State) (w : Word) (rest : List HostEvent), s.inbox = .command w :: rest → step s = .next t →
    t.inbox = rest ∧ ∃ r : Response, t.outbox = s.outbox ++ [r] ∧ (r.err ≠ none → r.data = 0#32)

/-- R214, R215: a command answered with an error has changed only `ERR`, `ERRINFO` and `SESS`, and in `FAULT` nothing. -/
def Obligations.ErrorResponseMeansFaultEntryAlone : Prop :=
  ∀ (i : Instr) (s t : State) (e : Err) (d : Word), exec i s = .next t → t.outbox = s.outbox ++ [⟨some e, d⟩] →
    d = 0#32 ∧ t.faultO = (s.faultO || decide (s.sess ≠ .fault)) ∧
    (s.sess ≠ .fault → t = { s with err := some e, errinfo := encode i, sess := .fault, outbox := t.outbox }) ∧
    (s.sess = .fault → e = .illegalCommand ∧ t = { s with outbox := t.outbox })

/-- R216: in `FAULT` a command changes nothing but the response port, unless it is `SRST`, `ECLR`, `OREAD` or `ORWD`; the
latched `ERR` and `ERRINFO` are changed by `SRST` and `ECLR` alone. -/
def Obligations.FaultStateIsLeftOnlyByEclrAndSrst : Prop :=
  ∀ (i : Instr) (s t : State), s.sess = .fault → exec i s = .next t →
    (t ≠ { s with outbox := t.outbox } → i ∈ [.srst, .eclr, .oread, .orwd]) ∧
    (t.sess ≠ .fault ∨ t.err ≠ s.err ∨ t.errinfo ≠ s.errinfo → i ∈ [.srst, .eclr])

/-- R100: the legality table. Outside `FAULT` a command whose row fails raises `IllegalCommandError` and one whose row
holds does not; in `FAULT` a command whose column says no is answered `(6, 0)`, one whose column says yes only when its
row fails. -/
def Obligations.LegalityTableDecidesIllegalCommand : Prop :=
  ∀ (i : Instr) (s : State),
    (s.sess ≠ .fault →
      (¬ s.Legal i → exec i s = s.failed .illegalCommand i) ∧ (s.Legal i → exec i s ≠ s.failed .illegalCommand i)) ∧
    (s.sess = .fault →
      (i ∉ [.nop, .srst, .eclr, .oread, .orwd] → (∀ a, i ≠ .rdcsr a) → exec i s = s.turnedAway) ∧
      (i ∈ [.nop, .srst, .eclr, .oread, .orwd] ∨ (∃ a, i = .rdcsr a) →
        (¬ s.Legal i → exec i s = s.turnedAway) ∧ (s.Legal i → exec i s ≠ s.turnedAway)))

/-- R101: `SESS` changes only as the transition table says. -/
def Obligations.SessionChangesOnlyByTheTable : Prop :=
  ∀ (i : Instr) (s t : State), exec i s = .next t → t.sess ≠ s.sess →
    (i = .rcei ∧ s.sess = .idle ∧ t.sess = .rcEnc) ∨ (i = .rcef ∧ s.sess = .rcEnc ∧ t.sess = .idle) ∨
    (i = .rcdi ∧ s.sess = .idle ∧ t.sess = .rcDec) ∨ (i = .rcdf ∧ s.sess = .rcDec ∧ t.sess = .idle) ∨
    ((∃ m, i = .raei m) ∧ s.sess = .idle ∧ t.sess = .raEnc) ∨ (i = .raef ∧ s.sess = .raEnc ∧ t.sess = .idle) ∨
    ((∃ m, i = .radi m) ∧ s.sess = .idle ∧ t.sess = .raDec) ∨ (i = .radf ∧ s.sess = .raDec ∧ t.sess = .idle) ∨
    (i = .hei ∧ s.sess = .idle ∧ t.sess = .hfEnc) ∨ (i = .hef ∧ s.sess = .hfEnc ∧ t.sess = .idle) ∨
    (i = .hdi ∧ s.sess = .idle ∧ t.sess = .hfDec) ∨ (i = .hdf ∧ s.sess = .hfDec ∧ t.sess = .idle) ∨
    (s.sess ≠ .fault ∧ t.sess = .fault ∧ t.err ≠ none) ∨ (i = .eclr ∧ t.sess = .idle) ∨ (i = .srst ∧ t.sess = .idle)

/-- R29, R35: no command but `MCLR` and `SRST` changes a frozen model. -/
def Obligations.FrozenModelIsImmutable : Prop :=
  ∀ (i : Instr) (s t : State), s.mstate = .frozen → exec i s = .next t → i ≠ .mclr → i ≠ .srst → s.SameModel t

/-- R52: `SYMCNT` is set to 0 by the init commands, incremented modulo 2^32 by the symbol commands that complete, changed
by no other command but `SRST`, and no rule reads it: but for `RDCSR 0x38`, a command does the same whatever it holds. -/
def Obligations.SymcntCountsAndNoRuleReadsIt : Prop :=
  ∀ (i : Instr) (s t : State), exec i s = .next t →
    (∀ u d, exec i s = s.done u d →
      (i ∈ [.rcd, .rad, .hd] ∨ (∃ y, i = .rce y ∨ i = .rae y ∨ i = .he y) → t.symcnt = s.symcnt + 1#32) ∧
      (i ∈ [.srst, .rcei, .rcdi, .hei, .hdi] ∨ (∃ m, i = .raei m ∨ i = .radi m) → t.symcnt = 0#32) ∧
      (i ∉ [.rcd, .rad, .hd, .srst, .rcei, .rcdi, .hei, .hdi] → (∀ y, i ≠ .rce y ∧ i ≠ .rae y ∧ i ≠ .he y) →
        (∀ m, i ≠ .raei m ∧ i ≠ .radi m) → t.symcnt = s.symcnt)) ∧
    ((∀ u d, exec i s ≠ s.done u d) → t.symcnt = s.symcnt) ∧
    (i ≠ .rdcsr 0x38#8 → ∀ n, ∃ m, exec i { s with symcnt := n } = .next { t with symcnt := m })

/-! ### Invariants -/

/-- R26, R42, R43, R77: every step keeps `ERR != 0` exactly when `SESS = FAULT`, coder sessions on frozen models, and
Huffman sessions on valid trees. -/
def Obligations.StepKeepsLatchAndSessions : Prop :=
  ∀ s t : State, s.ErrLatched ∧ s.SessionOk → step s = .next t → t.ErrLatched ∧ t.SessionOk

/-- R60: every step keeps every storage space in canonical form and within its indices. -/
def Obligations.StepKeepsSpaces : Prop := ∀ s t : State, s.SpacesOk → step s = .next t → t.SpacesOk

/-- R46 to R51: every step keeps the two streams' lengths, cursors, padding and valid bytes. -/
def Obligations.StepKeepsStreams : Prop := ∀ s t : State, s.StreamsOk → step s = .next t → t.StreamsOk

/-- R30 to R35: every step keeps the frequency table and the CDF consistent. -/
def Obligations.StepKeepsModel : Prop := ∀ s t : State, s.ModelOk → step s = .next t → t.ModelOk

/-- R25 to R51, R181: a state that meets every invariant always takes a step, never a stop of the model, and the next
state meets them. -/
def Obligations.InvariantStateAlwaysSteps : Prop := ∀ s : State, s.Inv → ∃ t, step s = .next t ∧ t.Inv

/-- The reset state meets every invariant. -/
def Obligations.ResetStateMeetsTheInvariant : Prop := State.reset.Inv

/-! ### System commands -/

/-- R110, R111, R112, R114, R125: `NOP`, `SRST`, `ECLR` and `ORWD` complete in every state, `ARG` in every `SESS` but
`FAULT`, where it is refused. The ports are the host's and `SRST` leaves them (log entry 1). -/
def Obligations.NopSrstEclrOrwdArgComplete : Prop :=
  ∀ s : State, exec .nop s = s.done s 0#32 ∧
    exec .srst s = s.done { State.reset with inbox := s.inbox } 0#32 ∧
    exec .eclr s = s.done { s with err := none, errinfo := 0#32, sess := .idle } 0#32 ∧
    exec .orwd s = s.done { s with ordp := 0#32 } 0#32 ∧
    ∀ imm : BitVec 16, (s.sess ≠ .fault → exec (.arg imm) s = s.done { s with arg := imm } 0#32) ∧
      (s.sess = .fault → exec (.arg imm) s = s.turnedAway)

/-- R53, R113, and the numbers R25, R26, R29, R32, R41 give the named values: `RDCSR` responds the register at each mapped
address, zero-extended, and changes nothing; an unmapped address is illegal. -/
def Obligations.RdcsrReadsTheCsrMap : Prop :=
  (∀ s : State,
    (∀ p ∈ [(0x00#8, 0x45434531#32), (0x01#8, (sessBits s.sess).setWidth 32), (0x02#8, (errBits s.err).setWidth 32),
        (0x03#8, s.errinfo), (0x04#8, s.arg.setWidth 32), (0x06#8, 512#32), (0x07#8, 65536#32),
        (0x08#8, (mstateBits s.mstate).setWidth 32), (0x09#8, s.mn.setWidth 32), (0x0A#8, s.mtotal.setWidth 32),
        (0x0B#8, (ordBits s.mord).setWidth 32), (0x10#8, s.rcLow), (0x11#8, s.rcHigh), (0x12#8, s.rcPend),
        (0x13#8, s.rcValue), (0x18#8, s.raState.extractLsb' 0 32), (0x19#8, s.raState.extractLsb' 32 32),
        (0x1A#8, (modeBits s.raMode).setWidth 32), (0x20#8, (BitVec.ofBool s.htValid).setWidth 32),
        (0x21#8, s.htRoot.setWidth 32), (0x22#8, s.htNn.setWidth 32),
        (0x28#8, BitVec.ofNat 32 ((s.obitlen.toNat + 7) / 8)), (0x29#8, s.obitlen),
        (0x2A#8, BitVec.ofNat 32 ((8 - s.obitlen.toNat % 8) % 8)), (0x2B#8, s.ordp), (0x30#8, s.ilen),
        (0x31#8, s.ipad.setWidth 32), (0x32#8, s.ibp), (0x33#8, s.irp), (0x38#8, s.symcnt)],
      exec (.rdcsr p.1) s = s.done s p.2) ∧
    ∀ a, ¬ s.Legal (.rdcsr a) →
      exec (.rdcsr a) s = if s.sess = .fault then s.turnedAway else s.failed .illegalCommand (.rdcsr a)) ∧
  [Sess.idle, .rcEnc, .rcDec, .raEnc, .raDec, .hfEnc, .hfDec, .fault].map sessBits = [0, 1, 2, 3, 4, 5, 6, 15] ∧
  [none, some Err.emptyInput, some .corruptStream, some .alphabetMismatch, some .capacity, some .stateOverflow,
    some .illegalCommand].map errBits = [0, 1, 2, 3, 4, 5, 6] ∧
  [ModelState.empty, .building, .frozen].map mstateBits = [0, 1, 2] ∧
  [OrdMode.cv, .v, .ci, .i].map ordBits = [0, 1, 2, 3] ∧ [RaMode.raw, .stream].map modeBits = [0, 1]

/-! ### Bitstream commands -/

/-- R120, R122, R134: `ICLR`, `ITRIM` and `MCLR` in `IDLE`. -/
def Obligations.IclrItrimMclrComplete : Prop :=
  ∀ s : State, s.sess = .idle →
    exec .iclr s = s.done { s with ilen := 0#32, ipad := 0#3, ibp := 0#32, irp := 0#32 } 0#32 ∧
    exec .mclr s = s.done { s with
      mstate := .empty, mn := 0#10, mtotal := 0#16, mord := .cv, htValid := false, htRoot := 0#10,
      htNn := 0#10 } 0#32 ∧
    ∀ p : BitVec 3, (p = 0#3 ∨ 1 ≤ s.ilen.toNat → exec (.itrim p) s = s.done { s with ipad := p } 0#32) ∧
      (p ≠ 0#3 → s.ilen = 0#32 → exec (.itrim p) s = s.failed .illegalCommand (.itrim p))

/-- R121: `IPUSH` in `IDLE` appends its byte and touches no other; on a full buffer it raises `CapacityError`. -/
def Obligations.IpushAppendsAByte : Prop :=
  ∀ (s : State) (b : Byte), s.sess = .idle →
    (s.ilen.toNat < Config.bufCap → ∃ t : State, exec (.ipush b) s = s.done t 0#32 ∧
      t = { s with ibuf := t.ibuf, ilen := s.ilen + 1#32 } ∧ t.ibuf.find s.ilen.toNat = some b ∧
      ∀ a, a ≠ s.ilen.toNat → t.ibuf.find a = s.ibuf.find a) ∧
    (s.ilen.toNat = Config.bufCap → exec (.ipush b) s = s.failed .capacity (.ipush b))

/-- R123, R70: in every `SESS`, `OREAD` with an unread byte responds it, bit 7 the earliest stream bit, bits past
`OBITLEN` 0, and advances `ORDP`. -/
def Obligations.OreadRespondsTheNextByte : Prop :=
  ∀ s : State, s.OutputOk → s.ordp.toNat < s.olen → ∃ v : Byte,
    exec .oread s = s.done { s with ordp := s.ordp + 1#32 } (v.setWidth 32) ∧
    ∀ j < 8, v.getLsbD (7 - j) = (decide (8 * s.ordp.toNat + j < s.obitlen.toNat) && s.outBit (8 * s.ordp.toNat + j))

/-- R124, R62: `XFER` in `IDLE` makes the whole output container the input stream, bit for bit, and empties the output. -/
def Obligations.XferMovesTheContainer : Prop :=
  ∀ s : State, s.OutputOk → s.sess = .idle → ∃ t : State, exec .xfer s = s.done t 0#32 ∧
    t = { s with
      ibuf := t.ibuf, ilen := BitVec.ofNat 32 s.olen, ipad := BitVec.ofNat 3 s.opad, ibp := 0#32, irp := 0#32,
      obitlen := 0#32, ordp := 0#32 } ∧
    t.ibitlen = s.obitlen.toNat ∧ (∀ j < s.obitlen.toNat, t.inBit j = s.outBit j) ∧
    (∀ a < s.olen, t.ibuf.find a = s.obuf.find a) ∧ ∀ a, s.olen ≤ a → t.ibuf.find a = s.ibuf.find a

/-- R67: `PutByte(v)` on a byte boundary, with room, writes `OBUF[OBITLEN / 8] <- v` and advances `OBITLEN` by 8, and equals
the eight `PutBit` calls of its bits, bit 7 first. -/
def Obligations.PutByteIsEightPutBits : Prop :=
  ∀ (s : State) (v : Byte), s.obitlen.toNat % 8 = 0 → s.obitlen.toNat + 8 ≤ 8 * Config.bufCap →
    ∃ t : State, putByte v s = .ok t ∧ t = { s with obuf := t.obuf, obitlen := s.obitlen + 8#32 } ∧
      t.obuf.find (s.obitlen.toNat / 8) = some v ∧
      (∀ a, a ≠ s.obitlen.toNat / 8 → t.obuf.find a = s.obuf.find a) ∧
      putBits ((List.range 8).map fun j => v.getLsbD (7 - j)) s = .ok t

/-! ### Frequency model -/

/-- R132, R135, R136: `MCNT` (one) and `MLOAD` (`ARG`) of a symbol the table holds add to its slot's count and to
`MTOTAL`, and to nothing else. -/
def Obligations.AddingAPresentSymbol : Prop :=
  ∀ (s : State) (i : Nat) (cmd : Instr) (n : Nat), s.TableOk → s.sess = .idle → s.mstate ≠ .frozen → i < s.mn.toNat →
    ((cmd = .mcnt (s.slotSym i) ∧ n = 1) ∨ (cmd = .mload (s.slotSym i) ∧ n = s.arg.toNat ∧ s.arg ≠ 0#16)) →
    (s.total + n ≤ 65535 → ∃ t : State, exec cmd s = s.done t 0#32 ∧
      t = { s with mtCnt := t.mtCnt, mtotal := BitVec.ofNat 16 (s.total + n), mstate := .building } ∧
      t.slotCnt i = s.slotCnt i + n ∧ ∀ j, j ≠ i → t.mtCnt.find j = s.mtCnt.find j) ∧
    (65535 < s.total + n → exec cmd s = s.failed .capacity cmd)

/-- R132, R135, R136: `MCNT` and `MLOAD` of a new symbol take the next free slot; a full table or total raises
`CapacityError`. -/
def Obligations.AddingANewSymbol : Prop :=
  ∀ (s : State) (sym : BitVec 16) (cmd : Instr) (n : Nat), s.TableOk → s.sess = .idle → s.mstate ≠ .frozen →
    (∀ i < s.mn.toNat, s.slotSym i ≠ sym) →
    ((cmd = .mcnt sym ∧ n = 1) ∨ (cmd = .mload sym ∧ n = s.arg.toNat ∧ s.arg ≠ 0#16)) →
    (s.total + n ≤ 65535 → s.mn.toNat < 512 → ∃ t : State, exec cmd s = s.done t 0#32 ∧
      t = { s with
        mtSym := t.mtSym, mtCnt := t.mtCnt, mn := s.mn + 1#10, mtotal := BitVec.ofNat 16 (s.total + n),
        mstate := .building } ∧
      t.slotSym s.mn.toNat = sym ∧ t.slotCnt s.mn.toNat = n ∧
      ∀ j, j ≠ s.mn.toNat → t.mtSym.find j = s.mtSym.find j ∧ t.mtCnt.find j = s.mtCnt.find j) ∧
    (65535 < s.total + n ∨ s.mn.toNat = 512 → exec cmd s = s.failed .capacity cmd)

/-- R136: "`MLOAD s` with `ARG = n` equals `n` times `MCNT s`" (but for the number of responses). -/
def Obligations.MloadIsRepeatedMcnt : Prop :=
  ∀ (s t : State) (sym : BitVec 16), s.TableOk → exec (.mload sym) s = s.done t 0#32 →
    ∃ u, mcntTimes sym s.arg.toNat s = some u ∧ { u with outbox := [] } = { t with outbox := [] }

/-- R137, R138, R35: `MFIN` of a table with a symbol freezes it with `ORDER` sorted by the mode's key and `CLOW` its running
sum; an empty table raises `EmptyInputError`. -/
def Obligations.MfinSortsAndSums : Prop :=
  ∀ (s : State) (o : OrdMode), s.TableOk → s.sess = .idle →
    (s.mstate = .building → ∃ t : State, exec (.mfin o) s = s.done t 0#32 ∧
      t = { s with order := t.order, clow := t.clow, mord := o, mstate := .frozen } ∧ t.CdfOk ∧
      ∀ a, s.mn.toNat ≤ a → t.order.find a = s.order.find a ∧ t.clow.find a = s.clow.find a) ∧
    (s.mstate = .empty → exec (.mfin o) s = s.failed .emptyInput (.mfin o))

/-- R35, R131: the intervals of a frozen model partition `[0, MTOTAL)`. -/
def Obligations.CdfPartitionsTheTotal : Prop :=
  ∀ s : State, s.ModelOk → s.mstate = .frozen →
    1 ≤ s.mn.toNat ∧ 1 ≤ s.total ∧ s.lowOf 0 = 0 ∧ (∀ k, k + 1 < s.mn.toNat → s.lowOf (k + 1) = s.highOf k) ∧
    s.highOf (s.mn.toNat - 1) = s.total ∧
    ∀ pos, (pos < s.total → ∃ k < s.mn.toNat, s.lowOf k ≤ pos ∧ pos < s.highOf k) ∧
      ∀ j < s.mn.toNat, ∀ k < s.mn.toNat, s.lowOf j ≤ pos → pos < s.highOf j → s.lowOf k ≤ pos → pos < s.highOf k → j = k

/-- R142 (c): for the orderings `CV` and `V` the CDF depends only on the set of (symbol, count) pairs. -/
def Obligations.ValueOrderingsIgnoreInsertionOrder : Prop :=
  ∀ (s t u v : State) (o : OrdMode), (o = .cv ∨ o = .v) → s.TableOk → t.TableOk → s.mn = t.mn →
    (∀ sym n, (∃ i < s.mn.toNat, s.slotSym i = sym ∧ s.slotCnt i = n) ↔
      ∃ i < t.mn.toNat, t.slotSym i = sym ∧ t.slotCnt i = n) →
    exec (.mfin o) s = s.done u 0#32 → exec (.mfin o) t = t.done v 0#32 →
    ∀ k < s.mn.toNat, u.symOf k = v.symOf k ∧ u.cntOf k = v.cntOf k ∧ u.lowOf k = v.lowOf k

/-- R139, R140, R141: the three lookups of a frozen model, outside `FAULT`. -/
def Obligations.ModelLookupsRespond : Prop :=
  ∀ (s : State), s.ModelOk → s.mstate = .frozen → s.sess ≠ .fault →
    exec .mtot s = s.done s (s.mtotal.setWidth 32) ∧
    (∀ k < s.mn.toNat, exec (.mivl (s.symOf k)) s =
      s.done s (BitVec.ofNat 16 (s.highOf k) ++ BitVec.ofNat 16 (s.lowOf k))) ∧
    (∀ pos : BitVec 16, (∀ k < s.mn.toNat, s.lowOf k ≤ pos.toNat → pos.toNat < s.highOf k →
        exec (.msat pos) s = s.done s ((s.symOf k).signExtend 32)) ∧
      (s.total ≤ pos.toNat → exec (.msat pos) s = s.failed .corruptStream (.msat pos)))

/-- R130: a symbol the frozen model does not hold raises `AlphabetMismatchError` in `MIVL` and in every encoder. -/
def Obligations.AbsentSymbolRaisesAlphabetMismatch : Prop :=
  ∀ (s : State) (sym : BitVec 16), s.ModelOk → s.mstate = .frozen → (∀ k < s.mn.toNat, s.symOf k ≠ sym) →
    (s.sess ≠ .fault → exec (.mivl sym) s = s.failed .alphabetMismatch (.mivl sym)) ∧
    (s.sess = .rcEnc → exec (.rce sym) s = s.failed .alphabetMismatch (.rce sym)) ∧
    (s.sess = .raEnc → exec (.rae sym) s = s.failed .alphabetMismatch (.rae sym)) ∧
    (s.sess = .hfEnc → exec (.he sym) s = s.failed .alphabetMismatch (.he sym))

/-! ### Sessions -/

/-- R151, R171, R194, R197, and R160, R180, R196, R199: the init commands that read no stream, on a frozen model (with a
tree for Huffman), and the commands that only close a session. -/
def Obligations.SessionsOpenAndClose : Prop :=
  (∀ s : State, s.sess = .idle → s.mstate = .frozen →
    exec .rcei s = s.done { s with
      rcLow := 0#32, rcHigh := 0xFFFFFFFF#32, rcPend := 0#32, symcnt := 0#32, obitlen := 0#32, ordp := 0#32,
      sess := .rcEnc } 0#32 ∧
    exec (.raei .raw) s = s.done { s with
      raMode := .raw, raState := 0#64, symcnt := 0#32, obitlen := 0#32, ordp := 0#32, sess := .raEnc } 0#32 ∧
    exec (.raei .stream) s = s.done { s with
      raMode := .stream, raState := BitVec.ofNat 64 (s.total * 2 ^ 32), symcnt := 0#32, obitlen := 0#32, ordp := 0#32,
      sess := .raEnc } 0#32 ∧
    (s.htValid = true →
      exec .hei s = s.done { s with symcnt := 0#32, obitlen := 0#32, ordp := 0#32, sess := .hfEnc } 0#32 ∧
      exec .hdi s = s.done { s with ibp := 0#32, symcnt := 0#32, sess := .hfDec } 0#32)) ∧
  ∀ s : State, (s.sess = .rcDec → exec .rcdf s = s.done { s with sess := .idle } 0#32) ∧
    (s.sess = .raDec → exec .radf s = s.done { s with sess := .idle } 0#32) ∧
    (s.sess = .hfEnc → exec .hef s = s.done { s with sess := .idle } 0#32) ∧
    (s.sess = .hfDec → exec .hdf s = s.done { s with sess := .idle } 0#32)

/-- R152, R154, R156, R172, R175, R195: each command that writes the output stream raises `CapacityError` when the bits it
would write do not fit, and writes nothing; so does `RCE` when the straddle passes of its renormalisation, `q.pend` of
them, would take `RC_PEND` past `2^32 - 1`. -/
def Obligations.FullOutputBufferRaisesCapacity : Prop :=
  ∀ s : State,
    (s.sess = .rcEnc → 8 * Config.bufCap < s.obitlen.toNat + s.rcPend.toNat + 2 → exec .rcef s = s.failed .capacity .rcef) ∧
    (s.sess = .raEnc → 8 * Config.bufCap < s.obitlen.toNat + 64 → exec .raef s = s.failed .capacity .raef) ∧
    (s.Inv → s.sess = .hfEnc → ∀ k < s.mn.toNat, ∀ bits, code s k = .ok bits →
      8 * Config.bufCap < s.obitlen.toNat + bits.length → exec (.he (s.symOf k)) s = s.failed .capacity (.he (s.symOf k))) ∧
    (s.Inv → s.sess = .rcEnc → ∀ k < s.mn.toNat,
      (∀ r, s.rceRenorm k s.rcPend.toNat = .ok r → 8 * Config.bufCap < s.obitlen.toNat + r.out.length →
        exec (.rce (s.symOf k)) s = s.failed .capacity (.rce (s.symOf k))) ∧
      (∀ q, s.rceRenorm k 0 = .ok q → q.out = [] → 2 ^ 32 ≤ s.rcPend.toNat + q.pend →
        exec (.rce (s.symOf k)) s = s.failed .capacity (.rce (s.symOf k)))) ∧
    (s.Inv → s.sess = .raEnc → s.raMode = .stream → ∀ k < s.mn.toNat, ∀ y bytes,
      renormRE (s.cntOf k * 2 ^ 40) Config.raTests s.raState.toNat [] = .ok (y, bytes) →
      8 * Config.bufCap < s.obitlen.toNat + 8 * bytes.length →
      exec (.rae (s.symOf k)) s = s.failed .capacity (.rae (s.symOf k)))

/-! ### Range coder -/

/-- R153: with the ceiling, `floor(d*T/R)` lies in `[cl, ch)` exactly when `d` lies in the narrowed interval. -/
def Obligations.CeilingNarrowingInvertsTheTarget : Prop :=
  ∀ r t cl ch d : Nat, 0 < r → 0 < t →
    ((cl ≤ d * t / r ∧ d * t / r < ch) ↔ (cdiv (r * cl) t ≤ d ∧ d < cdiv (r * ch) t))

/-- R153, R161: narrowing stays inside the interval and keeps it non-empty, adjacent ordinals get adjacent sub-intervals,
and the ends are kept. -/
def Obligations.NarrowNestsAndTiles : Prop :=
  ∀ low r t cl ch : Nat, 0 < t → t < r → cl < ch → ch ≤ t →
    low ≤ (narrow low r t cl ch).1 ∧ (narrow low r t cl ch).1 ≤ (narrow low r t cl ch).2 ∧
    (narrow low r t cl ch).2 ≤ low + r - 1 ∧ (narrow low r t 0 ch).1 = low ∧ (narrow low r t cl t).2 = low + r - 1 ∧
    ∀ ch', ch < ch' → (narrow low r t ch ch').1 = (narrow low r t cl ch).2 + 1

/-- R152, R154, R39: `RCE` of a symbol of the model whose bits fit narrows, renormalises and appends, and the interval
invariant holds again. The renormalisation ends without an error unless it takes `RC_PEND` past `2^32 - 1`, as it does only
when it emits no bit, and then within 18 passes. -/
def Obligations.RceNarrowsRenormalisesAndAppends : Prop :=
  ∀ (s : State) (k : Nat), s.Inv → s.sess = .rcEnc → k < s.mn.toNat →
    (∀ r, s.rceRenorm k s.rcPend.toNat = .ok r → s.obitlen.toNat + r.out.length ≤ 8 * Config.bufCap →
      ∃ t : State, exec (.rce (s.symOf k)) s = s.done t 0#32 ∧
        t = { s with
          rcLow := BitVec.ofNat 32 r.nl, rcHigh := BitVec.ofNat 32 r.nh, rcPend := BitVec.ofNat 32 r.pend,
          symcnt := s.symcnt + 1#32, obuf := t.obuf, obitlen := t.obitlen } ∧
        r.nl < 2 ^ 32 ∧ r.nh < 2 ^ 32 ∧ r.pend < 2 ^ 32 ∧ t.outBits = s.outBits ++ r.out ∧
        s.OutputFrame t (s.obitlen.toNat / 8) t.olen ∧ t.RangeOk) ∧
    ∃ q, s.rceRenorm k 0 = .ok q ∧ q.out.length + q.pend ≤ 18 ∧
      (q.out ≠ [] ∨ s.rcPend.toNat + q.pend < 2 ^ 32 →
        ∃ r, s.rceRenorm k s.rcPend.toNat = .ok r ∧ r.out.length ≤ s.rcPend.toNat + 18)

/-- R156: `RCEF` with room flushes one bit and `RC_PEND + 1` complements, and closes the session. -/
def Obligations.RcefFlushesAndCloses : Prop :=
  ∀ s : State, s.OutputOk → s.sess = .rcEnc → s.obitlen.toNat + s.rcPend.toNat + 2 ≤ 8 * Config.bufCap →
    ∃ t : State, exec .rcef s = s.done t 0#32 ∧
      t = { s with rcPend := 0#32, sess := .idle, obuf := t.obuf, obitlen := t.obitlen } ∧
      t.outBits = s.outBits ++ (decide (2 ^ 30 ≤ s.rcLow.toNat) ::
        List.replicate (s.rcPend.toNat + 1) (!decide (2 ^ 30 ≤ s.rcLow.toNat))) ∧
      s.OutputFrame t (s.obitlen.toNat / 8) t.olen

/-- R157: `RCDI` on a frozen model loads stream bits 0 to 31, bit 0 into bit 31, zeros past the end. -/
def Obligations.RcdiLoadsTheWindow : Prop :=
  ∀ s : State, s.InputOk → s.sess = .idle → s.mstate = .frozen → ∃ v : Word,
    exec .rcdi s = s.done { s with
      rcLow := 0#32, rcHigh := 0xFFFFFFFF#32, rcValue := v, ibp := 32#32, symcnt := 0#32, sess := .rcDec } 0#32 ∧
    ∀ j < 32, v.getLsbD (31 - j) = s.inBit j

/-- R158, C7: in a range-decode session `RCD` never faults: it responds the symbol whose interval holds the target, and
the interval invariant holds again. -/
def Obligations.RcdAlwaysDecodesASymbol : Prop :=
  ∀ s : State, s.Inv → s.sess = .rcDec → ∃ (k : Nat) (q : RenormedD) (t : State), k < s.mn.toNat ∧
    s.lowOf k ≤ (s.rcValue.toNat - s.rcLow.toNat) * s.total / s.rcRange ∧
    (s.rcValue.toNat - s.rcLow.toNat) * s.total / s.rcRange < s.highOf k ∧
    renormD s Config.rcTests (narrow s.rcLow.toNat s.rcRange s.total (s.lowOf k) (s.highOf k)).1
      (narrow s.rcLow.toNat s.rcRange s.total (s.lowOf k) (s.highOf k)).2 s.rcValue.toNat s.ibp.toNat = .ok q ∧
    exec .rcd s = s.done t ((s.symOf k).signExtend 32) ∧
    t = { s with
      rcLow := BitVec.ofNat 32 q.nl, rcHigh := BitVec.ofNat 32 q.nh, rcValue := BitVec.ofNat 32 q.v,
      ibp := BitVec.ofNat 32 (min q.bp 0xFFFFFFFF), symcnt := s.symcnt + 1#32 } ∧
    q.nl < 2 ^ 32 ∧ q.nh < 2 ^ 32 ∧ q.v < 2 ^ 32 ∧ t.RangeOk

/-- R158, R162: a decoder with the encoder's model and interval, its window inside the sub-interval of the symbol just
encoded, responds that symbol and its interval becomes the encoder's. -/
def Obligations.RcdFollowsRce : Prop :=
  ∀ (e d e' : State) (k : Nat), e.Inv → d.Inv → e.sess = .rcEnc → d.sess = .rcDec → e.SameModel d →
    d.rcLow = e.rcLow → d.rcHigh = e.rcHigh → k < e.mn.toNat →
    (narrow e.rcLow.toNat e.rcRange e.total (e.lowOf k) (e.highOf k)).1 ≤ d.rcValue.toNat →
    d.rcValue.toNat ≤ (narrow e.rcLow.toNat e.rcRange e.total (e.lowOf k) (e.highOf k)).2 →
    exec (.rce (e.symOf k)) e = e.done e' 0#32 →
    ∃ d' : State, exec .rcd d = d.done d' ((e.symOf k).signExtend 32) ∧ d'.rcLow = e'.rcLow ∧ d'.rcHigh = e'.rcHigh

/-- R162: for every sequence of symbols of the model, the container the encoder writes, presented as input to a
decoder with the same model, makes it respond the sequence, and after each symbol the decoder's interval is the encoder's. -/
def Obligations.RangeCoderRoundTrip : Prop :=
  ∀ (s e d : State) (ks : List Nat) (data : List Word), s.Inv → s.sess = .idle → s.mstate = .frozen →
    (∀ k ∈ ks, k < s.mn.toNat) →
    runAll (.rcei :: ks.map (fun k => .rce (s.symOf k)) ++ [.rcef]) s = some (data, e) →
    d.Inv → d.sess = .idle → s.SameModel d → e.Presents d →
    ∀ n ≤ ks.length, ∃ (sent : List Word) (e' d' : State),
      runAll (.rcei :: (ks.take n).map fun k => .rce (s.symOf k)) s = some (sent, e') ∧
      runAll (.rcdi :: List.replicate n .rcd) d = some (0#32 :: s.responses (ks.take n), d') ∧
      d'.rcLow = e'.rcLow ∧ d'.rcHigh = e'.rcHigh

/-! ### rANS coder -/

/-- R178: `D(C(x, k)) = (k, x)`: the decode step finds the interval the encode step used and gives the state back. -/
def Obligations.RansDecodeStepInvertsEncodeStep : Prop :=
  ∀ x c cum t : Nat, 0 < c → cum + c ≤ t →
    cum ≤ ransC x c cum t % t ∧ ransC x c cum t % t < cum + c ∧ ransD (ransC x c cum t) c cum t = x ∧ x ≤ ransC x c cum t

/-- R172, R173: in RAW mode `RAE` steps the state, writes no byte, and raises `StateOverflowError` where the result needs
more than 64 bits. -/
def Obligations.RaeRawStepsTheState : Prop :=
  ∀ (s : State) (k : Nat), s.Inv → s.sess = .raEnc → s.raMode = .raw → k < s.mn.toNat →
    (s.raState.toNat / s.cntOf k * s.total + s.lowOf k + s.raState.toNat % s.cntOf k < 2 ^ 64 →
      exec (.rae (s.symOf k)) s = s.done { s with
        raState := BitVec.ofNat 64 (s.raState.toNat / s.cntOf k * s.total + s.lowOf k + s.raState.toNat % s.cntOf k),
        symcnt := s.symcnt + 1#32 } 0#32) ∧
    (2 ^ 64 ≤ s.raState.toNat / s.cntOf k * s.total + s.lowOf k + s.raState.toNat % s.cntOf k →
      exec (.rae (s.symOf k)) s = s.failed .stateOverflow (.rae (s.symOf k)))

/-- R172, R174, R181: in STREAM mode `RAE` never overflows: the renormalisation shifts out at most two bytes, and where
these fit they are written, in order, and the state is in `[L, 256*L)` again. -/
def Obligations.RaeStreamStaysNormalised : Prop :=
  ∀ (s : State) (k : Nat), s.Inv → s.sess = .raEnc → s.raMode = .stream → k < s.mn.toNat →
    ∃ (y : Nat) (bytes : List Byte),
      renormRE (s.cntOf k * 2 ^ 40) Config.raTests s.raState.toNat [] = .ok (y, bytes) ∧ bytes.length ≤ 2 ∧
      s.cntOf k * 2 ^ 32 ≤ y ∧ y < s.cntOf k * 2 ^ 40 ∧
      (s.obitlen.toNat + 8 * bytes.length ≤ 8 * Config.bufCap →
        ∃ t : State, exec (.rae (s.symOf k)) s = s.done t 0#32 ∧
          t = { s with raState := t.raState, symcnt := s.symcnt + 1#32, obuf := t.obuf, obitlen := t.obitlen } ∧
          t.raState.toNat = ransC y (s.cntOf k) (s.lowOf k) s.total ∧
          s.total * 2 ^ 32 ≤ t.raState.toNat ∧ t.raState.toNat < 256 * (s.total * 2 ^ 32) ∧
          t.obitlen.toNat = s.obitlen.toNat + 8 * bytes.length ∧
          (∀ j < bytes.length, t.obuf.find (s.olen + j) = bytes[j]?) ∧ s.OutputFrame t s.olen t.olen)

/-- R174, R179: `Replenish` reads back exactly the bytes `RenormRE` shifted out and gives the state back. -/
def Obligations.ReplenishUndoesTheShift : Prop :=
  ∀ (s : State) (t c x y n : Nat) (out : List Byte), 0 < c → c ≤ t → t ≤ 65535 →
    ransLow t ≤ x → x < 256 * ransLow t → renormRE (c * 2 ^ 40) Config.raTests x [] = .ok (y, out) →
    (∀ j < out.length, s.ibuf.find (n + j) = out[j]?) → n + out.length ≤ Config.bufCap →
    replenish s (ransLow t) y (n + out.length) = .ok (x, n)

/-- R175, R63: `RAEF` with room writes the 8 state bytes, least significant first, and closes the session. -/
def Obligations.RaefWritesTheState : Prop :=
  ∀ s : State, s.sess = .raEnc → s.obitlen.toNat % 8 = 0 → s.obitlen.toNat + 64 ≤ 8 * Config.bufCap →
    ∃ t : State, exec .raef s = s.done t 0#32 ∧
      t = { s with sess := .idle, obuf := t.obuf, obitlen := s.obitlen + 64#32 } ∧
      (∀ j < 8, t.obuf.find (s.olen + j) = some (s.raState.extractLsb' (8 * j) 8)) ∧
      s.OutputFrame t s.olen (s.olen + 8)

/-- R176: `RADI` on a frozen model takes the last 8 input bytes as the state, the last one most significant; a stream
shorter than that raises `CorruptStreamError`. -/
def Obligations.RadiLoadsTheState : Prop :=
  ∀ (s : State) (m : RaMode), s.InputOk → s.sess = .idle → s.mstate = .frozen →
    (8 ≤ s.ilen.toNat → ∃ x : BitVec 64,
      exec (.radi m) s = s.done { s with
        irp := s.ilen - 8#32, raState := x, raMode := m, symcnt := 0#32, sess := .raDec } 0#32 ∧
      ∀ j < 8, x.extractLsb' (8 * j) 8 = s.inByte (s.ilen.toNat - 8 + j)) ∧
    (s.ilen.toNat < 8 → exec (.radi m) s = s.failed .corruptStream (.radi m))

/-- R177, R178, R179: `RAD` steps back from the state `ransRefill` gives and responds the symbol of its slot; where the
refill runs out of bytes it raises `CorruptStreamError`, and nothing else happens to a refill. The refill is nothing in RAW
mode or from `L` up; below `L` in STREAM mode it takes one byte back and goes on, and runs out with no byte left. -/
def Obligations.RadDecodesOneSymbol : Prop :=
  ∀ s : State, s.Inv → s.sess = .raDec →
    (∀ x rp, ransRefill s = .ok (x, rp) → ∃ k < s.mn.toNat,
      s.lowOf k ≤ x % s.total ∧ x % s.total < s.highOf k ∧
      exec .rad s = s.done { s with
        raState := BitVec.ofNat 64 (x / s.total * s.cntOf k + x % s.total - s.lowOf k), irp := BitVec.ofNat 32 rp,
        symcnt := s.symcnt + 1#32 } ((s.symOf k).signExtend 32)) ∧
    (ransRefill s = raised .corruptStream → exec .rad s = s.failed .corruptStream .rad) ∧
    ((∃ x rp, ransRefill s = .ok (x, rp)) ∨ ransRefill s = raised .corruptStream) ∧
    (s.raMode = .raw ∨ s.total * 2 ^ 32 ≤ s.raState.toNat → ransRefill s = .ok (s.raState.toNat, s.irp.toNat)) ∧
    (s.raMode = .stream → s.raState.toNat < s.total * 2 ^ 32 → s.irp = 0#32 →
      ransRefill s = raised .corruptStream ∧ exec .rad s = s.failed .corruptStream .rad) ∧
    (s.raMode = .stream → s.raState.toNat < s.total * 2 ^ 32 → 1 ≤ s.irp.toNat →
      ransRefill s = ransRefill { s with
        raState := BitVec.ofNat 64 (s.raState.toNat * 256 + (s.inByte (s.irp.toNat - 1)).toNat), irp := s.irp - 1#32 })

/-- R182: for every sequence of symbols of the model encoded in reverse, in both modes, the container the encoder writes,
presented as input, makes the decoder respond the sequence, and what is left at the end. -/
def Obligations.RansRoundTrip : Prop :=
  ∀ (s e d : State) (m : RaMode) (ks : List Nat) (data : List Word), s.Inv → s.sess = .idle → s.mstate = .frozen →
    (∀ k ∈ ks, k < s.mn.toNat) →
    runAll (.raei m :: ks.reverse.map (fun k => .rae (s.symOf k)) ++ [.raef]) s = some (data, e) →
    d.Inv → d.sess = .idle → s.SameModel d → e.Presents d →
    ∃ v, runAll (.radi m :: List.replicate ks.length .rad) d = some (0#32 :: s.responses ks, v) ∧
      (m = .raw → v.raState = 0#64 ∧ v.irp = v.ilen - 8#32) ∧
      (m = .stream → replenish v (s.total * 2 ^ 32) v.raState.toNat v.irp.toNat = .ok (s.total * 2 ^ 32, 0) ∧
        ∀ k, ks.getLast? = some k → s.total < s.cntOf k * 256 → v.raState.toNat = s.total * 2 ^ 32 ∧ v.irp = 0#32)

/-! ### Huffman coder -/

/-- R191: the selection takes a node with the smallest key (frequency, index). -/
def Obligations.MinNodePicksTheLeastKey : Prop :=
  ∀ (s : State) (best m : Nat) (ns : List Nat), minNode s best ns = .ok m →
    m ∈ best :: ns ∧ ∀ n ∈ best :: ns, ns ≠ [] →
      s.freqOf m < s.freqOf n ∨ (s.freqOf m = s.freqOf n ∧ m ≤ n)

/-- R193, R191, R43, R44: `HBLD` in `IDLE` on a frozen model builds a tree of `2*MN - 1` nodes over the ordinals, the sums
in its internal nodes, the root's frequency `MTOTAL`; each internal node joins the two live nodes of least key, the least
on the left. -/
def Obligations.HbldBuildsTheTree : Prop :=
  ∀ s : State, s.Inv → s.sess = .idle → s.mstate = .frozen → ∃ t : State, exec .hbld s = s.done t 0#32 ∧
    t = { s with
      hnFreq := t.hnFreq, hnLeft := t.hnLeft, hnRight := t.hnRight, hnLeaf := t.hnLeaf, hnOrd := t.hnOrd,
      htNn := t.htNn, htRoot := t.htRoot, htValid := true } ∧
    t.TreeOk ∧ t.MergesLeast ∧ t.freqOf t.htRoot.toNat = s.total

/-- R195, R192: the code of a symbol of the model is not empty and has at most `MN - 1` bits (one bit for the one-symbol
alphabet), and where it fits `HE` of the symbol appends it. -/
def Obligations.HeAppendsTheCode : Prop :=
  ∀ (s : State) (k : Nat), s.Inv → s.sess = .hfEnc → k < s.mn.toNat →
    ∃ bits : List Bool, code s k = .ok bits ∧ bits ≠ [] ∧ bits.length ≤ max 1 (s.mn.toNat - 1) ∧
      (s.obitlen.toNat + bits.length ≤ 8 * Config.bufCap →
        ∃ t : State, exec (.he (s.symOf k)) s = s.done t 0#32 ∧
          t = { s with symcnt := s.symcnt + 1#32, obuf := t.obuf, obitlen := t.obitlen } ∧
          t.outBits = s.outBits ++ bits ∧ s.OutputFrame t (s.obitlen.toNat / 8) t.olen)

/-- R200 (a): no code is a prefix of the code of another ordinal. -/
def Obligations.HuffmanCodesArePrefixFree : Prop :=
  ∀ (s : State) (j k : Nat) (a b : List Bool), s.Inv → s.htValid = true → j < s.mn.toNat → k < s.mn.toNat → j ≠ k →
    code s j = .ok a → code s k = .ok b → ¬ a <+: b

/-- R198, R200 (b): `HD` on an input that goes on with the code of ordinal `k` responds its symbol and consumes the
code. -/
def Obligations.HdDecodesACode : Prop :=
  ∀ (s : State) (k : Nat) (bits : List Bool), s.Inv → s.sess = .hfDec → k < s.mn.toNat → code s k = .ok bits →
    s.ibp.toNat + bits.length ≤ s.ibitlen → (∀ j < bits.length, bits[j]? = some (s.inBit (s.ibp.toNat + j))) →
    exec .hd s = s.done { s with ibp := BitVec.ofNat 32 (s.ibp.toNat + bits.length), symcnt := s.symcnt + 1#32 }
      ((s.symOf k).signExtend 32)

/-- R200 (b): for every sequence of symbols of the model, the container the encoder writes, presented as input with its
padding, makes the decoder respond the sequence and end at the end of the stream; one more `HD` raises
`CorruptStreamError`. -/
def Obligations.HuffmanRoundTrip : Prop :=
  ∀ (s e d : State) (ks : List Nat) (data : List Word), s.Inv → s.sess = .idle → s.mstate = .frozen → s.htValid = true →
    (∀ k ∈ ks, k < s.mn.toNat) →
    runAll (.hei :: ks.map (fun k => .he (s.symOf k)) ++ [.hef]) s = some (data, e) →
    d.Inv → d.sess = .idle → s.SameModel d → s.SameTree d → e.Presents d →
    ∃ v, runAll (.hdi :: List.replicate ks.length .hd) d = some (0#32 :: s.responses ks, v) ∧
      v.ibp.toNat = v.ibitlen ∧ exec .hd v = v.failed .corruptStream .hd

/-- R198, R200 (c): `HD` on a stream that ends inside a code raises `CorruptStreamError`, `IBP` unchanged; so does the bit
1 of a one-symbol alphabet. -/
def Obligations.HdOnATruncatedStreamIsCorrupt : Prop :=
  ∀ (s : State) (k : Nat) (bits : List Bool), s.Inv → s.sess = .hfDec → k < s.mn.toNat → code s k = .ok bits →
    (s.ibitlen < s.ibp.toNat + bits.length →
      (∀ j, s.ibp.toNat + j < s.ibitlen → bits[j]? = some (s.inBit (s.ibp.toNat + j))) →
      exec .hd s = s.failed .corruptStream .hd) ∧
    (s.mn = 1#10 → s.ibp.toNat < s.ibitlen → s.inBit s.ibp.toNat = true → exec .hd s = s.failed .corruptStream .hd)
end

