-- ==== Sys2Proof/Laws/Cells.lean ====
section
/-! SUPPORT. What the cells of a storage space do: a read after a write, the canonical form kept by every write, and all
that `readCell` and `writeCell` can answer. -/

namespace Sys2Proof.Machine

variable {α : Type}

@[simp] theorem Cells.find_nil (i : Nat) : Cells.find ([] : Cells α) i = none := rfl

theorem Cells.find_cons (a : Nat) (v : α) (m : Cells α) (i : Nat) :
    Cells.find ((a, v) :: m) i = if a = i then some v else Cells.find m i := rfl

/-- A read after a write to the same cell gives the value written. -/
@[simp] theorem Cells.find_put_same (m : Cells α) (i : Nat) (v : α) : (m.put i v).find i = some v := by
  induction m with
  | nil => simp [Cells.put, Cells.find]
  | cons c m ih =>
    obtain ⟨a, w⟩ := c
    unfold Cells.put
    split
    · simp [Cells.find]
    · split
      · simp [Cells.find]
      · next h => simp [Cells.find, Ne.symm h, ih]

/-- A write leaves every other cell alone. -/
theorem Cells.find_put_other (m : Cells α) {i j : Nat} (v : α) (h : j ≠ i) : (m.put i v).find j = m.find j := by
  induction m with
  | nil => simp [Cells.put, Cells.find, Ne.symm h]
  | cons c m ih =>
    obtain ⟨a, w⟩ := c
    unfold Cells.put
    split
    · simp [Cells.find, Ne.symm h]
    · split
      · next h2 => subst h2; simp [Cells.find, Ne.symm h]
      · simp [Cells.find, ih]

theorem Cells.find_put (m : Cells α) (i j : Nat) (v : α) :
    (m.put i v).find j = if j = i then some v else m.find j := by
  split
  · next h => subst h; simp
  · next h => exact Cells.find_put_other m v h

/-- The second of two writes to one cell is the one that stands. -/
theorem Cells.put_put_same (m : Cells α) (i : Nat) (v w : α) : (m.put i w).put i v = m.put i v := by
  induction m with
  | nil => simp [Cells.put]
  | cons c m ih =>
    obtain ⟨a, u⟩ := c
    by_cases h1 : i < a
    · simp [Cells.put, h1]
    · by_cases h2 : i = a
      · subst h2; simp [Cells.put]
      · simp [Cells.put, h1, h2, ih]

/-- The indices of the cells after a write are those before it and the one written. -/
theorem Cells.mem_put {m : Cells α} {i : Nat} {v : α} {c : Nat × α} (h : c ∈ m.put i v) : c = (i, v) ∨ c ∈ m := by
  induction m with
  | nil => simpa [Cells.put] using h
  | cons d m ih =>
    obtain ⟨a, w⟩ := d
    unfold Cells.put at h
    split at h
    · simpa using h
    · split at h
      · simp only [List.mem_cons] at h ⊢
        exact h.imp id Or.inr
      · simp only [List.mem_cons] at h ⊢
        rcases h with h | h
        · exact .inr (.inl h)
        · exact (ih h).imp id Or.inr

/-- A write keeps the canonical form. -/
theorem Cells.wf_put {m : Cells α} (h : m.wf) (i : Nat) (v : α) : (m.put i v).wf := by
  induction m with
  | nil => simp [Cells.put, Cells.wf]
  | cons d m ih =>
    obtain ⟨a, w⟩ := d
    unfold Cells.wf at h ih
    rw [List.pairwise_cons] at h
    obtain ⟨h1, h2⟩ := h
    unfold Cells.put Cells.wf
    split
    · next hi =>
      rw [List.pairwise_cons, List.pairwise_cons]
      refine ⟨fun c hc => ?_, h1, h2⟩
      rcases List.mem_cons.1 hc with rfl | hc
      · exact hi
      · exact lt_trans hi (h1 c hc)
    · split
      · next hi =>
        subst hi
        exact List.pairwise_cons.2 ⟨fun c hc => h1 c hc, h2⟩
      · next hi hne =>
        refine List.pairwise_cons.2 ⟨fun c hc => ?_, ih h2⟩
        rcases Cells.mem_put hc with rfl | hc
        · simp only; omega
        · exact h1 c hc

/-- A write at an index within the space leaves no cell outside it. -/
theorem Cells.put_lt {m : Cells α} {cap i : Nat} (h : ∀ c ∈ m, c.1 < cap) (hi : i < cap) (v : α) :
    ∀ c ∈ m.put i v, c.1 < cap := by
  intro c hc
  rcases Cells.mem_put hc with rfl | hc
  · exact hi
  · exact h c hc

/-- Everything a read can answer: the value the cell holds, or a stop. -/
theorem readCell_ok {cap : Nat} {m : Cells α} {i : Nat} {v : α} :
    readCell cap m i = .ok v ↔ i < cap ∧ m.find i = some v := by
  unfold readCell stopped
  split
  · split <;> simp_all
  · simp_all

theorem readCell_error {cap : Nat} {m : Cells α} {i : Nat} {e : Stop} (h : readCell cap m i = .error e) :
    (e = .stopped .noSuchCell ∧ cap ≤ i) ∨ (e = .stopped .noValue ∧ m.find i = none) := by
  unfold readCell stopped at h
  split at h
  · split at h
    · cases h
    · cases h; exact .inr ⟨rfl, by assumption⟩
  · cases h; exact .inl ⟨rfl, by omega⟩

/-- A read of a cell that holds a value, in its space. -/
theorem readCell_of_find {cap : Nat} {m : Cells α} {i : Nat} {v : α} (hi : i < cap) (h : m.find i = some v) :
    readCell cap m i = .ok v := readCell_ok.2 ⟨hi, h⟩

/-- Everything a write can answer: the cells with the value put, or a stop. -/
theorem writeCell_ok {cap : Nat} {m n : Cells α} {i : Nat} {v : α} :
    writeCell cap m i v = .ok n ↔ i < cap ∧ n = m.put i v := by
  unfold writeCell stopped
  split <;> simp_all [eq_comm]

theorem writeCell_error {cap : Nat} {m : Cells α} {i : Nat} {v : α} {e : Stop} (h : writeCell cap m i v = .error e) :
    e = .stopped .noSuchCell ∧ cap ≤ i := by
  unfold writeCell stopped at h
  split at h
  · cases h
  · cases h; exact ⟨rfl, by omega⟩

theorem writeCell_of_lt {cap : Nat} (m : Cells α) {i : Nat} (v : α) (hi : i < cap) :
    writeCell cap m i v = .ok (m.put i v) := writeCell_ok.2 ⟨hi, rfl⟩

/-- Every write that succeeds keeps the canonical form and the bound of the space. -/
theorem writeCell_keeps {cap : Nat} {m n : Cells α} {i : Nat} {v : α} (h : writeCell cap m i v = .ok n)
    (hw : m.wf) (hc : ∀ c ∈ m, c.1 < cap) : n.wf ∧ ∀ c ∈ n, c.1 < cap := by
  obtain ⟨hi, rfl⟩ := writeCell_ok.1 h
  exact ⟨Cells.wf_put hw i v, Cells.put_lt hc hi v⟩

/-- The buffers after reset have the canonical form. -/
theorem reset_buffers_wf : Memory.wf State.reset.obuf ∧ Memory.wf State.reset.ibuf :=
  ⟨List.Pairwise.nil, List.Pairwise.nil⟩

end Sys2Proof.Machine
end

