-- ==== Sys2Proof/Laws/State.lean ====
section
/-! SUPPORT. One lemma per field for each named update of the state, so that no later proof unfolds one. -/

namespace Sys2Proof.Machine

/-! ### `clearOut`: R126 -/

@[simp] theorem clearOut_sess (s : State) : (clearOut s).sess = s.sess := rfl
@[simp] theorem clearOut_err (s : State) : (clearOut s).err = s.err := rfl
@[simp] theorem clearOut_errinfo (s : State) : (clearOut s).errinfo = s.errinfo := rfl
@[simp] theorem clearOut_arg (s : State) : (clearOut s).arg = s.arg := rfl
@[simp] theorem clearOut_symcnt (s : State) : (clearOut s).symcnt = s.symcnt := rfl
@[simp] theorem clearOut_mstate (s : State) : (clearOut s).mstate = s.mstate := rfl
@[simp] theorem clearOut_mn (s : State) : (clearOut s).mn = s.mn := rfl
@[simp] theorem clearOut_mtotal (s : State) : (clearOut s).mtotal = s.mtotal := rfl
@[simp] theorem clearOut_mord (s : State) : (clearOut s).mord = s.mord := rfl
@[simp] theorem clearOut_mtSym (s : State) : (clearOut s).mtSym = s.mtSym := rfl
@[simp] theorem clearOut_mtCnt (s : State) : (clearOut s).mtCnt = s.mtCnt := rfl
@[simp] theorem clearOut_order (s : State) : (clearOut s).order = s.order := rfl
@[simp] theorem clearOut_clow (s : State) : (clearOut s).clow = s.clow := rfl
@[simp] theorem clearOut_rcLow (s : State) : (clearOut s).rcLow = s.rcLow := rfl
@[simp] theorem clearOut_rcHigh (s : State) : (clearOut s).rcHigh = s.rcHigh := rfl
@[simp] theorem clearOut_rcPend (s : State) : (clearOut s).rcPend = s.rcPend := rfl
@[simp] theorem clearOut_rcValue (s : State) : (clearOut s).rcValue = s.rcValue := rfl
@[simp] theorem clearOut_raState (s : State) : (clearOut s).raState = s.raState := rfl
@[simp] theorem clearOut_raMode (s : State) : (clearOut s).raMode = s.raMode := rfl
@[simp] theorem clearOut_htValid (s : State) : (clearOut s).htValid = s.htValid := rfl
@[simp] theorem clearOut_htRoot (s : State) : (clearOut s).htRoot = s.htRoot := rfl
@[simp] theorem clearOut_htNn (s : State) : (clearOut s).htNn = s.htNn := rfl
@[simp] theorem clearOut_hnFreq (s : State) : (clearOut s).hnFreq = s.hnFreq := rfl
@[simp] theorem clearOut_hnLeft (s : State) : (clearOut s).hnLeft = s.hnLeft := rfl
@[simp] theorem clearOut_hnRight (s : State) : (clearOut s).hnRight = s.hnRight := rfl
@[simp] theorem clearOut_hnLeaf (s : State) : (clearOut s).hnLeaf = s.hnLeaf := rfl
@[simp] theorem clearOut_hnOrd (s : State) : (clearOut s).hnOrd = s.hnOrd := rfl
@[simp] theorem clearOut_obuf (s : State) : (clearOut s).obuf = s.obuf := rfl
@[simp] theorem clearOut_obitlen (s : State) : (clearOut s).obitlen = 0#32 := rfl
@[simp] theorem clearOut_ordp (s : State) : (clearOut s).ordp = 0#32 := rfl
@[simp] theorem clearOut_ibuf (s : State) : (clearOut s).ibuf = s.ibuf := rfl
@[simp] theorem clearOut_ilen (s : State) : (clearOut s).ilen = s.ilen := rfl
@[simp] theorem clearOut_ipad (s : State) : (clearOut s).ipad = s.ipad := rfl
@[simp] theorem clearOut_ibp (s : State) : (clearOut s).ibp = s.ibp := rfl
@[simp] theorem clearOut_irp (s : State) : (clearOut s).irp = s.irp := rfl
@[simp] theorem clearOut_inbox (s : State) : (clearOut s).inbox = s.inbox := rfl
@[simp] theorem clearOut_outbox (s : State) : (clearOut s).outbox = s.outbox := rfl

/-! ### `countSymbol`: R52 -/

@[simp] theorem countSymbol_sess (s : State) : (countSymbol s).sess = s.sess := rfl
@[simp] theorem countSymbol_err (s : State) : (countSymbol s).err = s.err := rfl
@[simp] theorem countSymbol_errinfo (s : State) : (countSymbol s).errinfo = s.errinfo := rfl
@[simp] theorem countSymbol_arg (s : State) : (countSymbol s).arg = s.arg := rfl
@[simp] theorem countSymbol_symcnt (s : State) : (countSymbol s).symcnt = s.symcnt + 1#32 := rfl
@[simp] theorem countSymbol_mstate (s : State) : (countSymbol s).mstate = s.mstate := rfl
@[simp] theorem countSymbol_mn (s : State) : (countSymbol s).mn = s.mn := rfl
@[simp] theorem countSymbol_mtotal (s : State) : (countSymbol s).mtotal = s.mtotal := rfl
@[simp] theorem countSymbol_mord (s : State) : (countSymbol s).mord = s.mord := rfl
@[simp] theorem countSymbol_mtSym (s : State) : (countSymbol s).mtSym = s.mtSym := rfl
@[simp] theorem countSymbol_mtCnt (s : State) : (countSymbol s).mtCnt = s.mtCnt := rfl
@[simp] theorem countSymbol_order (s : State) : (countSymbol s).order = s.order := rfl
@[simp] theorem countSymbol_clow (s : State) : (countSymbol s).clow = s.clow := rfl
@[simp] theorem countSymbol_rcLow (s : State) : (countSymbol s).rcLow = s.rcLow := rfl
@[simp] theorem countSymbol_rcHigh (s : State) : (countSymbol s).rcHigh = s.rcHigh := rfl
@[simp] theorem countSymbol_rcPend (s : State) : (countSymbol s).rcPend = s.rcPend := rfl
@[simp] theorem countSymbol_rcValue (s : State) : (countSymbol s).rcValue = s.rcValue := rfl
@[simp] theorem countSymbol_raState (s : State) : (countSymbol s).raState = s.raState := rfl
@[simp] theorem countSymbol_raMode (s : State) : (countSymbol s).raMode = s.raMode := rfl
@[simp] theorem countSymbol_htValid (s : State) : (countSymbol s).htValid = s.htValid := rfl
@[simp] theorem countSymbol_htRoot (s : State) : (countSymbol s).htRoot = s.htRoot := rfl
@[simp] theorem countSymbol_htNn (s : State) : (countSymbol s).htNn = s.htNn := rfl
@[simp] theorem countSymbol_hnFreq (s : State) : (countSymbol s).hnFreq = s.hnFreq := rfl
@[simp] theorem countSymbol_hnLeft (s : State) : (countSymbol s).hnLeft = s.hnLeft := rfl
@[simp] theorem countSymbol_hnRight (s : State) : (countSymbol s).hnRight = s.hnRight := rfl
@[simp] theorem countSymbol_hnLeaf (s : State) : (countSymbol s).hnLeaf = s.hnLeaf := rfl
@[simp] theorem countSymbol_hnOrd (s : State) : (countSymbol s).hnOrd = s.hnOrd := rfl
@[simp] theorem countSymbol_obuf (s : State) : (countSymbol s).obuf = s.obuf := rfl
@[simp] theorem countSymbol_obitlen (s : State) : (countSymbol s).obitlen = s.obitlen := rfl
@[simp] theorem countSymbol_ordp (s : State) : (countSymbol s).ordp = s.ordp := rfl
@[simp] theorem countSymbol_ibuf (s : State) : (countSymbol s).ibuf = s.ibuf := rfl
@[simp] theorem countSymbol_ilen (s : State) : (countSymbol s).ilen = s.ilen := rfl
@[simp] theorem countSymbol_ipad (s : State) : (countSymbol s).ipad = s.ipad := rfl
@[simp] theorem countSymbol_ibp (s : State) : (countSymbol s).ibp = s.ibp := rfl
@[simp] theorem countSymbol_irp (s : State) : (countSymbol s).irp = s.irp := rfl
@[simp] theorem countSymbol_inbox (s : State) : (countSymbol s).inbox = s.inbox := rfl
@[simp] theorem countSymbol_outbox (s : State) : (countSymbol s).outbox = s.outbox := rfl

/-! ### `respond`: R16 -/

@[simp] theorem respond_sess (e : Option Err) (d : Word) (s : State) : (respond e d s).sess = s.sess := rfl
@[simp] theorem respond_err (e : Option Err) (d : Word) (s : State) : (respond e d s).err = s.err := rfl
@[simp] theorem respond_errinfo (e : Option Err) (d : Word) (s : State) : (respond e d s).errinfo = s.errinfo := rfl
@[simp] theorem respond_arg (e : Option Err) (d : Word) (s : State) : (respond e d s).arg = s.arg := rfl
@[simp] theorem respond_symcnt (e : Option Err) (d : Word) (s : State) : (respond e d s).symcnt = s.symcnt := rfl
@[simp] theorem respond_mstate (e : Option Err) (d : Word) (s : State) : (respond e d s).mstate = s.mstate := rfl
@[simp] theorem respond_mn (e : Option Err) (d : Word) (s : State) : (respond e d s).mn = s.mn := rfl
@[simp] theorem respond_mtotal (e : Option Err) (d : Word) (s : State) : (respond e d s).mtotal = s.mtotal := rfl
@[simp] theorem respond_mord (e : Option Err) (d : Word) (s : State) : (respond e d s).mord = s.mord := rfl
@[simp] theorem respond_mtSym (e : Option Err) (d : Word) (s : State) : (respond e d s).mtSym = s.mtSym := rfl
@[simp] theorem respond_mtCnt (e : Option Err) (d : Word) (s : State) : (respond e d s).mtCnt = s.mtCnt := rfl
@[simp] theorem respond_order (e : Option Err) (d : Word) (s : State) : (respond e d s).order = s.order := rfl
@[simp] theorem respond_clow (e : Option Err) (d : Word) (s : State) : (respond e d s).clow = s.clow := rfl
@[simp] theorem respond_rcLow (e : Option Err) (d : Word) (s : State) : (respond e d s).rcLow = s.rcLow := rfl
@[simp] theorem respond_rcHigh (e : Option Err) (d : Word) (s : State) : (respond e d s).rcHigh = s.rcHigh := rfl
@[simp] theorem respond_rcPend (e : Option Err) (d : Word) (s : State) : (respond e d s).rcPend = s.rcPend := rfl
@[simp] theorem respond_rcValue (e : Option Err) (d : Word) (s : State) : (respond e d s).rcValue = s.rcValue := rfl
@[simp] theorem respond_raState (e : Option Err) (d : Word) (s : State) : (respond e d s).raState = s.raState := rfl
@[simp] theorem respond_raMode (e : Option Err) (d : Word) (s : State) : (respond e d s).raMode = s.raMode := rfl
@[simp] theorem respond_htValid (e : Option Err) (d : Word) (s : State) : (respond e d s).htValid = s.htValid := rfl
@[simp] theorem respond_htRoot (e : Option Err) (d : Word) (s : State) : (respond e d s).htRoot = s.htRoot := rfl
@[simp] theorem respond_htNn (e : Option Err) (d : Word) (s : State) : (respond e d s).htNn = s.htNn := rfl
@[simp] theorem respond_hnFreq (e : Option Err) (d : Word) (s : State) : (respond e d s).hnFreq = s.hnFreq := rfl
@[simp] theorem respond_hnLeft (e : Option Err) (d : Word) (s : State) : (respond e d s).hnLeft = s.hnLeft := rfl
@[simp] theorem respond_hnRight (e : Option Err) (d : Word) (s : State) : (respond e d s).hnRight = s.hnRight := rfl
@[simp] theorem respond_hnLeaf (e : Option Err) (d : Word) (s : State) : (respond e d s).hnLeaf = s.hnLeaf := rfl
@[simp] theorem respond_hnOrd (e : Option Err) (d : Word) (s : State) : (respond e d s).hnOrd = s.hnOrd := rfl
@[simp] theorem respond_obuf (e : Option Err) (d : Word) (s : State) : (respond e d s).obuf = s.obuf := rfl
@[simp] theorem respond_obitlen (e : Option Err) (d : Word) (s : State) : (respond e d s).obitlen = s.obitlen := rfl
@[simp] theorem respond_ordp (e : Option Err) (d : Word) (s : State) : (respond e d s).ordp = s.ordp := rfl
@[simp] theorem respond_ibuf (e : Option Err) (d : Word) (s : State) : (respond e d s).ibuf = s.ibuf := rfl
@[simp] theorem respond_ilen (e : Option Err) (d : Word) (s : State) : (respond e d s).ilen = s.ilen := rfl
@[simp] theorem respond_ipad (e : Option Err) (d : Word) (s : State) : (respond e d s).ipad = s.ipad := rfl
@[simp] theorem respond_ibp (e : Option Err) (d : Word) (s : State) : (respond e d s).ibp = s.ibp := rfl
@[simp] theorem respond_irp (e : Option Err) (d : Word) (s : State) : (respond e d s).irp = s.irp := rfl
@[simp] theorem respond_inbox (e : Option Err) (d : Word) (s : State) : (respond e d s).inbox = s.inbox := rfl
@[simp] theorem respond_outbox (e : Option Err) (d : Word) (s : State) : (respond e d s).outbox = s.outbox ++ [⟨e, d⟩] := rfl

/-! ### `faultEntry`: R214 -/

@[simp] theorem faultEntry_sess (e : Err) (w : Word) (s : State) : (faultEntry e w s).sess = .fault := rfl
@[simp] theorem faultEntry_err (e : Err) (w : Word) (s : State) : (faultEntry e w s).err = some e := rfl
@[simp] theorem faultEntry_errinfo (e : Err) (w : Word) (s : State) : (faultEntry e w s).errinfo = w := rfl
@[simp] theorem faultEntry_arg (e : Err) (w : Word) (s : State) : (faultEntry e w s).arg = s.arg := rfl
@[simp] theorem faultEntry_symcnt (e : Err) (w : Word) (s : State) : (faultEntry e w s).symcnt = s.symcnt := rfl
@[simp] theorem faultEntry_mstate (e : Err) (w : Word) (s : State) : (faultEntry e w s).mstate = s.mstate := rfl
@[simp] theorem faultEntry_mn (e : Err) (w : Word) (s : State) : (faultEntry e w s).mn = s.mn := rfl
@[simp] theorem faultEntry_mtotal (e : Err) (w : Word) (s : State) : (faultEntry e w s).mtotal = s.mtotal := rfl
@[simp] theorem faultEntry_mord (e : Err) (w : Word) (s : State) : (faultEntry e w s).mord = s.mord := rfl
@[simp] theorem faultEntry_mtSym (e : Err) (w : Word) (s : State) : (faultEntry e w s).mtSym = s.mtSym := rfl
@[simp] theorem faultEntry_mtCnt (e : Err) (w : Word) (s : State) : (faultEntry e w s).mtCnt = s.mtCnt := rfl
@[simp] theorem faultEntry_order (e : Err) (w : Word) (s : State) : (faultEntry e w s).order = s.order := rfl
@[simp] theorem faultEntry_clow (e : Err) (w : Word) (s : State) : (faultEntry e w s).clow = s.clow := rfl
@[simp] theorem faultEntry_rcLow (e : Err) (w : Word) (s : State) : (faultEntry e w s).rcLow = s.rcLow := rfl
@[simp] theorem faultEntry_rcHigh (e : Err) (w : Word) (s : State) : (faultEntry e w s).rcHigh = s.rcHigh := rfl
@[simp] theorem faultEntry_rcPend (e : Err) (w : Word) (s : State) : (faultEntry e w s).rcPend = s.rcPend := rfl
@[simp] theorem faultEntry_rcValue (e : Err) (w : Word) (s : State) : (faultEntry e w s).rcValue = s.rcValue := rfl
@[simp] theorem faultEntry_raState (e : Err) (w : Word) (s : State) : (faultEntry e w s).raState = s.raState := rfl
@[simp] theorem faultEntry_raMode (e : Err) (w : Word) (s : State) : (faultEntry e w s).raMode = s.raMode := rfl
@[simp] theorem faultEntry_htValid (e : Err) (w : Word) (s : State) : (faultEntry e w s).htValid = s.htValid := rfl
@[simp] theorem faultEntry_htRoot (e : Err) (w : Word) (s : State) : (faultEntry e w s).htRoot = s.htRoot := rfl
@[simp] theorem faultEntry_htNn (e : Err) (w : Word) (s : State) : (faultEntry e w s).htNn = s.htNn := rfl
@[simp] theorem faultEntry_hnFreq (e : Err) (w : Word) (s : State) : (faultEntry e w s).hnFreq = s.hnFreq := rfl
@[simp] theorem faultEntry_hnLeft (e : Err) (w : Word) (s : State) : (faultEntry e w s).hnLeft = s.hnLeft := rfl
@[simp] theorem faultEntry_hnRight (e : Err) (w : Word) (s : State) : (faultEntry e w s).hnRight = s.hnRight := rfl
@[simp] theorem faultEntry_hnLeaf (e : Err) (w : Word) (s : State) : (faultEntry e w s).hnLeaf = s.hnLeaf := rfl
@[simp] theorem faultEntry_hnOrd (e : Err) (w : Word) (s : State) : (faultEntry e w s).hnOrd = s.hnOrd := rfl
@[simp] theorem faultEntry_obuf (e : Err) (w : Word) (s : State) : (faultEntry e w s).obuf = s.obuf := rfl
@[simp] theorem faultEntry_obitlen (e : Err) (w : Word) (s : State) : (faultEntry e w s).obitlen = s.obitlen := rfl
@[simp] theorem faultEntry_ordp (e : Err) (w : Word) (s : State) : (faultEntry e w s).ordp = s.ordp := rfl
@[simp] theorem faultEntry_ibuf (e : Err) (w : Word) (s : State) : (faultEntry e w s).ibuf = s.ibuf := rfl
@[simp] theorem faultEntry_ilen (e : Err) (w : Word) (s : State) : (faultEntry e w s).ilen = s.ilen := rfl
@[simp] theorem faultEntry_ipad (e : Err) (w : Word) (s : State) : (faultEntry e w s).ipad = s.ipad := rfl
@[simp] theorem faultEntry_ibp (e : Err) (w : Word) (s : State) : (faultEntry e w s).ibp = s.ibp := rfl
@[simp] theorem faultEntry_irp (e : Err) (w : Word) (s : State) : (faultEntry e w s).irp = s.irp := rfl
@[simp] theorem faultEntry_inbox (e : Err) (w : Word) (s : State) : (faultEntry e w s).inbox = s.inbox := rfl
@[simp] theorem faultEntry_outbox (e : Err) (w : Word) (s : State) : (faultEntry e w s).outbox = s.outbox := rfl

/-! ### `errorClear`: R112 -/

@[simp] theorem errorClear_sess (s : State) : (errorClear s).sess = .idle := rfl
@[simp] theorem errorClear_err (s : State) : (errorClear s).err = none := rfl
@[simp] theorem errorClear_errinfo (s : State) : (errorClear s).errinfo = 0#32 := rfl
@[simp] theorem errorClear_arg (s : State) : (errorClear s).arg = s.arg := rfl
@[simp] theorem errorClear_symcnt (s : State) : (errorClear s).symcnt = s.symcnt := rfl
@[simp] theorem errorClear_mstate (s : State) : (errorClear s).mstate = s.mstate := rfl
@[simp] theorem errorClear_mn (s : State) : (errorClear s).mn = s.mn := rfl
@[simp] theorem errorClear_mtotal (s : State) : (errorClear s).mtotal = s.mtotal := rfl
@[simp] theorem errorClear_mord (s : State) : (errorClear s).mord = s.mord := rfl
@[simp] theorem errorClear_mtSym (s : State) : (errorClear s).mtSym = s.mtSym := rfl
@[simp] theorem errorClear_mtCnt (s : State) : (errorClear s).mtCnt = s.mtCnt := rfl
@[simp] theorem errorClear_order (s : State) : (errorClear s).order = s.order := rfl
@[simp] theorem errorClear_clow (s : State) : (errorClear s).clow = s.clow := rfl
@[simp] theorem errorClear_rcLow (s : State) : (errorClear s).rcLow = s.rcLow := rfl
@[simp] theorem errorClear_rcHigh (s : State) : (errorClear s).rcHigh = s.rcHigh := rfl
@[simp] theorem errorClear_rcPend (s : State) : (errorClear s).rcPend = s.rcPend := rfl
@[simp] theorem errorClear_rcValue (s : State) : (errorClear s).rcValue = s.rcValue := rfl
@[simp] theorem errorClear_raState (s : State) : (errorClear s).raState = s.raState := rfl
@[simp] theorem errorClear_raMode (s : State) : (errorClear s).raMode = s.raMode := rfl
@[simp] theorem errorClear_htValid (s : State) : (errorClear s).htValid = s.htValid := rfl
@[simp] theorem errorClear_htRoot (s : State) : (errorClear s).htRoot = s.htRoot := rfl
@[simp] theorem errorClear_htNn (s : State) : (errorClear s).htNn = s.htNn := rfl
@[simp] theorem errorClear_hnFreq (s : State) : (errorClear s).hnFreq = s.hnFreq := rfl
@[simp] theorem errorClear_hnLeft (s : State) : (errorClear s).hnLeft = s.hnLeft := rfl
@[simp] theorem errorClear_hnRight (s : State) : (errorClear s).hnRight = s.hnRight := rfl
@[simp] theorem errorClear_hnLeaf (s : State) : (errorClear s).hnLeaf = s.hnLeaf := rfl
@[simp] theorem errorClear_hnOrd (s : State) : (errorClear s).hnOrd = s.hnOrd := rfl
@[simp] theorem errorClear_obuf (s : State) : (errorClear s).obuf = s.obuf := rfl
@[simp] theorem errorClear_obitlen (s : State) : (errorClear s).obitlen = s.obitlen := rfl
@[simp] theorem errorClear_ordp (s : State) : (errorClear s).ordp = s.ordp := rfl
@[simp] theorem errorClear_ibuf (s : State) : (errorClear s).ibuf = s.ibuf := rfl
@[simp] theorem errorClear_ilen (s : State) : (errorClear s).ilen = s.ilen := rfl
@[simp] theorem errorClear_ipad (s : State) : (errorClear s).ipad = s.ipad := rfl
@[simp] theorem errorClear_ibp (s : State) : (errorClear s).ibp = s.ibp := rfl
@[simp] theorem errorClear_irp (s : State) : (errorClear s).irp = s.irp := rfl
@[simp] theorem errorClear_inbox (s : State) : (errorClear s).inbox = s.inbox := rfl
@[simp] theorem errorClear_outbox (s : State) : (errorClear s).outbox = s.outbox := rfl

/-! ### `resetRegisters`: R55 -/

@[simp] theorem resetRegisters_sess (s : State) : (resetRegisters s).sess = .idle := rfl
@[simp] theorem resetRegisters_err (s : State) : (resetRegisters s).err = none := rfl
@[simp] theorem resetRegisters_errinfo (s : State) : (resetRegisters s).errinfo = 0#32 := rfl
@[simp] theorem resetRegisters_arg (s : State) : (resetRegisters s).arg = 0#16 := rfl
@[simp] theorem resetRegisters_symcnt (s : State) : (resetRegisters s).symcnt = 0#32 := rfl
@[simp] theorem resetRegisters_mstate (s : State) : (resetRegisters s).mstate = .empty := rfl
@[simp] theorem resetRegisters_mn (s : State) : (resetRegisters s).mn = 0#10 := rfl
@[simp] theorem resetRegisters_mtotal (s : State) : (resetRegisters s).mtotal = 0#16 := rfl
@[simp] theorem resetRegisters_mord (s : State) : (resetRegisters s).mord = .cv := rfl
@[simp] theorem resetRegisters_mtSym (s : State) : (resetRegisters s).mtSym = [] := rfl
@[simp] theorem resetRegisters_mtCnt (s : State) : (resetRegisters s).mtCnt = [] := rfl
@[simp] theorem resetRegisters_order (s : State) : (resetRegisters s).order = [] := rfl
@[simp] theorem resetRegisters_clow (s : State) : (resetRegisters s).clow = [] := rfl
@[simp] theorem resetRegisters_rcLow (s : State) : (resetRegisters s).rcLow = 0#32 := rfl
@[simp] theorem resetRegisters_rcHigh (s : State) : (resetRegisters s).rcHigh = 0xFFFFFFFF#32 := rfl
@[simp] theorem resetRegisters_rcPend (s : State) : (resetRegisters s).rcPend = 0#32 := rfl
@[simp] theorem resetRegisters_rcValue (s : State) : (resetRegisters s).rcValue = 0#32 := rfl
@[simp] theorem resetRegisters_raState (s : State) : (resetRegisters s).raState = 0#64 := rfl
@[simp] theorem resetRegisters_raMode (s : State) : (resetRegisters s).raMode = .raw := rfl
@[simp] theorem resetRegisters_htValid (s : State) : (resetRegisters s).htValid = false := rfl
@[simp] theorem resetRegisters_htRoot (s : State) : (resetRegisters s).htRoot = 0#10 := rfl
@[simp] theorem resetRegisters_htNn (s : State) : (resetRegisters s).htNn = 0#10 := rfl
@[simp] theorem resetRegisters_hnFreq (s : State) : (resetRegisters s).hnFreq = [] := rfl
@[simp] theorem resetRegisters_hnLeft (s : State) : (resetRegisters s).hnLeft = [] := rfl
@[simp] theorem resetRegisters_hnRight (s : State) : (resetRegisters s).hnRight = [] := rfl
@[simp] theorem resetRegisters_hnLeaf (s : State) : (resetRegisters s).hnLeaf = [] := rfl
@[simp] theorem resetRegisters_hnOrd (s : State) : (resetRegisters s).hnOrd = [] := rfl
@[simp] theorem resetRegisters_obuf (s : State) : (resetRegisters s).obuf = [] := rfl
@[simp] theorem resetRegisters_obitlen (s : State) : (resetRegisters s).obitlen = 0#32 := rfl
@[simp] theorem resetRegisters_ordp (s : State) : (resetRegisters s).ordp = 0#32 := rfl
@[simp] theorem resetRegisters_ibuf (s : State) : (resetRegisters s).ibuf = [] := rfl
@[simp] theorem resetRegisters_ilen (s : State) : (resetRegisters s).ilen = 0#32 := rfl
@[simp] theorem resetRegisters_ipad (s : State) : (resetRegisters s).ipad = 0#3 := rfl
@[simp] theorem resetRegisters_ibp (s : State) : (resetRegisters s).ibp = 0#32 := rfl
@[simp] theorem resetRegisters_irp (s : State) : (resetRegisters s).irp = 0#32 := rfl
@[simp] theorem resetRegisters_inbox (s : State) : (resetRegisters s).inbox = s.inbox := rfl
@[simp] theorem resetRegisters_outbox (s : State) : (resetRegisters s).outbox = s.outbox := rfl

/-! ### Raising an error (R219) -/

theorem raiseError_of_fault {s : State} (h : s.sess = .fault) (e : Err) (w : Word) :
    raiseError e w s = respond (some .illegalCommand) 0#32 s := by simp [raiseError, h]

theorem raiseError_of_not_fault {s : State} (h : s.sess ≠ .fault) (e : Err) (w : Word) :
    raiseError e w s = respond (some e) 0#32 (faultEntry e w s) := by simp [raiseError, h]

@[simp] theorem raiseError_inbox (e : Err) (w : Word) (s : State) : (raiseError e w s).inbox = s.inbox := by
  unfold raiseError; split <;> rfl

theorem raiseError_outbox (e : Err) (w : Word) (s : State) :
    (raiseError e w s).outbox = s.outbox ++ [⟨some (if s.sess = .fault then .illegalCommand else e), 0#32⟩] := by
  unfold raiseError; split <;> rfl

end Sys2Proof.Machine
end

