-- ==== Sys2Proof/Laws/Command.lean ====
section
/-! SUPPORT. Said once: how a computation on local copies sequences, and all that the prologue of a command (spec R219)
can answer. Proofs about an instruction cite these instead of unfolding `command`. -/

namespace Sys2Proof.Machine

@[simp] theorem Comp.bind_ok {α β : Type} (a : α) (f : α → Comp β) : ((.ok a : Comp α) >>= f) = f a := rfl

@[simp] theorem Comp.bind_error {α β : Type} (e : Stop) (f : α → Comp β) : ((.error e : Comp α) >>= f) = .error e := rfl

/-- A sequence that ends with a result has had its first part end with one. -/
theorem Comp.bind_eq_ok {α β : Type} {x : Comp α} {f : α → Comp β} {b : β} :
    (x >>= f) = .ok b ↔ ∃ a, x = .ok a ∧ f a = .ok b := by
  cases x <;> simp

/-- How a sequence ends without a result. -/
theorem Comp.bind_eq_error {α β : Type} {x : Comp α} {f : α → Comp β} {e : Stop} :
    (x >>= f) = .error e ↔ x = .error e ∨ ∃ a, x = .ok a ∧ f a = .error e := by
  cases x <;> simp

theorem raiseIf_ok {c : Prop} [Decidable c] {e : Err} {u : Unit} : raiseIf c e = .ok u ↔ ¬ c := by
  unfold raiseIf raised; split <;> simp_all

theorem raiseIf_error {c : Prop} [Decidable c] {e : Err} {x : Stop} :
    raiseIf c e = .error x ↔ c ∧ x = .raised e := by
  unfold raiseIf raised; split <;> simp_all [eq_comm]

/-- Everything a command can answer with a next state: the refusal in `FAULT`, the illegal command, the error its body
raises, or its body's own effect with its response. -/
theorem command_next {i : Instr} {legal : Bool} {body : State → Comp (Word × State)} {s t : State}
    (h : command i legal body s = .next t) :
    (s.sess = .fault ∧ acceptedInFault i = false ∧ t = respond (some .illegalCommand) 0#32 s) ∨
    ((s.sess ≠ .fault ∨ acceptedInFault i = true) ∧ legal = false ∧ t = raiseError .illegalCommand (encode i) s) ∨
    ((s.sess ≠ .fault ∨ acceptedInFault i = true) ∧ legal = true ∧
      ∃ e, body s = .error (.raised e) ∧ t = raiseError e (encode i) s) ∨
    ((s.sess ≠ .fault ∨ acceptedInFault i = true) ∧ legal = true ∧
      ∃ d u, body s = .ok (d, u) ∧ t = respond none d u) := by
  unfold command at h
  split at h
  · next h1 => cases h; exact .inl ⟨h1.1, h1.2, rfl⟩
  · next h1 =>
    have h1' : s.sess ≠ .fault ∨ acceptedInFault i = true := by
      by_cases hs : s.sess = .fault
      · exact .inr (by simpa [hs] using h1)
      · exact .inl hs
    split at h
    · next h2 => cases h; exact .inr (.inl ⟨h1', h2, rfl⟩)
    · next h2 =>
      have h2' : legal = true := by simpa using h2
      split at h
      · next d u hb => cases h; exact .inr (.inr (.inr ⟨h1', h2', d, u, hb, rfl⟩))
      · next e hb => cases h; exact .inr (.inr (.inl ⟨h1', h2', e, hb, rfl⟩))
      · cases h

/-- A command stops the model only where its body does. -/
theorem command_fault {i : Instr} {legal : Bool} {body : State → Comp (Word × State)} {s : State} {f : Fault}
    (h : command i legal body s = .fault f) : legal = true ∧ body s = .error (.stopped f) := by
  unfold command at h
  split at h
  · cases h
  · split at h
    · cases h
    · next h2 =>
      split at h
      · cases h
      · cases h
      · next hb => cases h; exact ⟨by simpa using h2, hb⟩

/-- A command never refuses. -/
theorem command_not_refused {i : Instr} {legal : Bool} {body : State → Comp (Word × State)} {s : State} {r : Refusal} :
    command i legal body s ≠ .refused r := by
  unfold command
  split
  · simp
  · split
    · simp
    · split <;> simp

/-- A legal command outside `FAULT` whose body ends with a result completes. -/
theorem command_of_ok {i : Instr} {legal : Bool} {body : State → Comp (Word × State)} {s u : State} {d : Word}
    (hs : s.sess ≠ .fault ∨ acceptedInFault i = true) (hl : legal = true) (hb : body s = .ok (d, u)) :
    command i legal body s = .next (respond none d u) := by
  unfold command
  rw [if_neg (by rcases hs with hs | hs <;> simp [hs]), if_neg (by simp [hl]), hb]

/-- A legal command outside `FAULT` whose body raises an error takes the fault entry. -/
theorem command_of_raised {i : Instr} {legal : Bool} {body : State → Comp (Word × State)} {s : State} {e : Err}
    (hs : s.sess ≠ .fault ∨ acceptedInFault i = true) (hl : legal = true) (hb : body s = .error (.raised e)) :
    command i legal body s = .next (raiseError e (encode i) s) := by
  unfold command
  rw [if_neg (by rcases hs with hs | hs <;> simp [hs]), if_neg (by simp [hl]), hb]

/-- A command that fails its row of the legality table (R100). -/
theorem command_of_illegal {i : Instr} {legal : Bool} {body : State → Comp (Word × State)} {s : State}
    (hs : s.sess ≠ .fault ∨ acceptedInFault i = true) (hl : legal = false) :
    command i legal body s = .next (raiseError .illegalCommand (encode i) s) := by
  unfold command
  rw [if_neg (by rcases hs with hs | hs <;> simp [hs]), if_pos hl]

/-- A command that is not accepted in `FAULT` (R216). -/
theorem command_of_refused_in_fault {i : Instr} {legal : Bool} {body : State → Comp (Word × State)} {s : State}
    (hs : s.sess = .fault) (ha : acceptedInFault i = false) :
    command i legal body s = .next (respond (some .illegalCommand) 0#32 s) := by
  unfold command
  rw [if_pos ⟨hs, ha⟩]

end Sys2Proof.Machine
end

