-- ==== Sys2Proof/Laws/Streams.lean ====
section
/-! SUPPORT. Said once: all that each stream primitive (spec R66 to R70) can do, with its frame. -/

namespace Sys2Proof.Machine

/-! ### Bits of a byte -/

/-- Setting one bit of a byte leaves the others alone. -/
theorem getLsbD_setBit (v : Byte) (p q : Nat) (b : Bool) (hp : p < 8) (hq : q < 8) :
    (setBit v p b).getLsbD q = if q = p then b else v.getLsbD q := by
  have h1 : ∀ p < 8, ∀ q < 8, ((1#8 <<< p).getLsbD q) = decide (q = p) := by decide
  unfold setBit
  cases b
  · simp only [Bool.false_eq_true, if_false, BitVec.getLsbD_and, BitVec.getLsbD_not, h1 p hp q hq]
    by_cases h : q = p <;> simp [h, hq]
  · simp only [if_true, BitVec.getLsbD_or, h1 p hp q hq]
    by_cases h : q = p <;> simp [h]

/-! ### `PutBit` -/

/-- Everything the byte for the next bit can be. -/
theorem openByte_ok {s : State} {v : Byte} : openByte s = .ok v ↔
    (s.obitlen.toNat % 8 = 0 ∧ v = 0#8) ∨
    (s.obitlen.toNat % 8 ≠ 0 ∧ s.obitlen.toNat / 8 < Config.bufCap ∧ s.obuf.find (s.obitlen.toNat / 8) = some v) := by
  unfold openByte
  by_cases h : s.obitlen.toNat % 8 = 0
  · simp only [h, if_true, Except.ok.injEq, true_and, ne_eq, not_true, false_and, or_false, eq_comm]
  · simp only [h, if_false, readCell_ok, false_and, ne_eq, not_false_eq_true, true_and, false_or]

/-- Everything `PutBit` can answer with: the bit stands in its byte, the byte's later bits are as the byte held them (0 in a
new byte), and nothing else changes. -/
theorem putBit_ok {b : Bool} {s t : State} (h : putBit b s = .ok t) :
    s.obitlen.toNat / 8 < Config.bufCap ∧ ∃ old : Byte,
      (s.obitlen.toNat % 8 = 0 ∧ old = 0#8 ∨ s.obitlen.toNat % 8 ≠ 0 ∧ s.obuf.find (s.obitlen.toNat / 8) = some old) ∧
      t = { s with
        obuf := s.obuf.put (s.obitlen.toNat / 8) (setBit old (7 - s.obitlen.toNat % 8) b),
        obitlen := s.obitlen + 1#32 } := by
  obtain ⟨old, h1, h2⟩ := Comp.bind_eq_ok.1 h
  obtain ⟨m, h3, h4⟩ := Comp.bind_eq_ok.1 h2
  obtain ⟨hi, rfl⟩ := writeCell_ok.1 h3
  refine ⟨hi, old, ?_, (Except.ok.inj h4).symm⟩
  exact (openByte_ok.1 h1).imp id fun h => ⟨h.1, h.2.2⟩

/-- `PutBit` ends with a result when its byte is inside the buffer and, off a byte boundary, holds a value. -/
theorem putBit_total (b : Bool) {s : State} (hi : s.obitlen.toNat / 8 < Config.bufCap)
    (ho : s.obitlen.toNat % 8 ≠ 0 → (s.obuf.find (s.obitlen.toNat / 8)).isSome = true) : ∃ t, putBit b s = .ok t := by
  unfold putBit openByte
  by_cases h0 : s.obitlen.toNat % 8 = 0
  · simp [h0, writeCell_of_lt _ _ hi]
  · obtain ⟨v, hv⟩ := Option.isSome_iff_exists.1 (ho h0)
    simp [h0, readCell_of_find hi hv, writeCell_of_lt _ _ hi]

/-- `PutBit` raises no error of the ECE: its capacity check is the caller's. -/
theorem putBit_error {b : Bool} {s : State} {e : Stop} (h : putBit b s = .error e) :
    e = .stopped .noSuchCell ∨ e = .stopped .noValue := by
  rcases Comp.bind_eq_error.1 h with h1 | ⟨old, -, h2⟩
  · unfold openByte at h1
    split at h1
    · cases h1
    · exact (readCell_error h1).imp And.left And.left
  · rcases Comp.bind_eq_error.1 h2 with h3 | ⟨m, -, h4⟩
    · exact .inl (writeCell_error h3).1
    · cases h4

/-- The bits `PutBit` leaves in the byte it writes. -/
theorem putBit_byte {b : Bool} {s t : State} (h : putBit b s = .ok t) :
    ∃ v, t.obuf.find (s.obitlen.toNat / 8) = some v ∧ v.getLsbD (7 - s.obitlen.toNat % 8) = b ∧
      ∀ j < s.obitlen.toNat % 8, ∀ old, s.obuf.find (s.obitlen.toNat / 8) = some old →
        v.getLsbD (7 - j) = old.getLsbD (7 - j) := by
  obtain ⟨-, old, ho, rfl⟩ := putBit_ok h
  refine ⟨_, Cells.find_put_same _ _ _, ?_, fun j hj o hf => ?_⟩
  · rw [getLsbD_setBit _ _ _ _ (by omega) (by omega), if_pos rfl]
  · rw [getLsbD_setBit _ _ _ _ (by omega) (by omega), if_neg (by omega)]
    rcases ho with ⟨h0, -⟩ | ⟨-, hv⟩
    · omega
    · rw [hf] at hv; cases hv; rfl

/-- The frame of `PutBit`. -/
theorem putBit_frame {b : Bool} {s t : State} (h : putBit b s = .ok t) :
    t = { s with obuf := t.obuf, obitlen := s.obitlen + 1#32 } ∧
    ∀ a, a ≠ s.obitlen.toNat / 8 → t.obuf.find a = s.obuf.find a := by
  obtain ⟨-, old, -, rfl⟩ := putBit_ok h
  exact ⟨rfl, fun a ha => Cells.find_put_other _ _ ha⟩

/-! ### `for b in bits: PutBit(b)` -/

@[simp] theorem putBits_nil (s : State) : putBits [] s = .ok s := rfl

theorem putBits_cons_ok {b : Bool} {bs : List Bool} {s t : State} :
    putBits (b :: bs) s = .ok t ↔ ∃ u, putBit b s = .ok u ∧ putBits bs u = .ok t := Comp.bind_eq_ok

theorem putBits_append_ok {as bs : List Bool} {s t : State} :
    putBits (as ++ bs) s = .ok t ↔ ∃ u, putBits as s = .ok u ∧ putBits bs u = .ok t := by
  induction as generalizing s with
  | nil => simp
  | cons a as ih =>
    rw [List.cons_append, putBits_cons_ok]
    simp only [putBits_cons_ok, ih]
    constructor
    · rintro ⟨u, h1, v, h2, h3⟩; exact ⟨v, ⟨u, h1, h2⟩, h3⟩
    · rintro ⟨v, ⟨u, h1, h2⟩, h3⟩; exact ⟨u, h1, v, h2, h3⟩

/-- `OBITLEN` after appended bits, while they fit. -/
theorem obitlen_add {n k : Nat} {w : Word} (hw : w.toNat = n) (h : n + k ≤ 8 * Config.bufCap) :
    (w + BitVec.ofNat 32 k).toNat = n + k := by
  rw [BitVec.toNat_add, BitVec.toNat_ofNat, hw]
  unfold Config.bufCap at h
  omega

/-- The frame of appending bits: only the output buffer from the byte of the first bit on, and `OBITLEN`, change. -/
theorem putBits_frame {bs : List Bool} {s t : State} (hr : s.obitlen.toNat + bs.length ≤ 8 * Config.bufCap)
    (h : putBits bs s = .ok t) :
    t = { s with obuf := t.obuf, obitlen := s.obitlen + BitVec.ofNat 32 bs.length } ∧
    ∀ a, a < s.obitlen.toNat / 8 ∨ (s.obitlen.toNat + bs.length + 7) / 8 ≤ a → t.obuf.find a = s.obuf.find a := by
  induction bs generalizing s with
  | nil => cases h; exact ⟨by simp, fun _ _ => rfl⟩
  | cons b bs ih =>
    obtain ⟨u, h1, h2⟩ := putBits_cons_ok.1 h
    obtain ⟨hu, hf⟩ := putBit_frame h1
    have hl : u.obitlen = s.obitlen + 1#32 := by rw [hu]
    rw [List.length_cons] at hr ⊢
    have hn : u.obitlen.toNat = s.obitlen.toNat + 1 := by rw [hl]; exact obitlen_add rfl (by omega)
    obtain ⟨ht, hg⟩ := ih (by omega) h2
    refine ⟨?_, fun a ha => ?_⟩
    · rw [ht, hu, BitVec.add_assoc]
      simp only [BitVec.ofNat_add, BitVec.add_comm]
    · rw [hg a (by omega), hf a (by omega)]

/-! ### `PutByte` -/

/-- Everything `PutByte` can answer with. -/
theorem putByte_ok {v : Byte} {s t : State} :
    putByte v s = .ok t ↔ s.obitlen.toNat % 8 = 0 ∧ s.obitlen.toNat / 8 < Config.bufCap ∧
      t = { s with obuf := s.obuf.put (s.obitlen.toNat / 8) v, obitlen := s.obitlen + 8#32 } := by
  unfold putByte
  by_cases h0 : s.obitlen.toNat % 8 = 0
  · simp only [h0, if_true, Comp.bind_eq_ok, writeCell_ok, true_and]
    constructor
    · rintro ⟨m, ⟨hi, rfl⟩, h⟩; exact ⟨hi, (Except.ok.inj h).symm⟩
    · rintro ⟨hi, rfl⟩; exact ⟨_, ⟨hi, rfl⟩, rfl⟩
  · simp [h0, stopped]

@[simp] theorem putBytes_nil (s : State) : putBytes [] s = .ok s := rfl

theorem putBytes_cons_ok {v : Byte} {vs : List Byte} {s t : State} :
    putBytes (v :: vs) s = .ok t ↔ ∃ u, putByte v s = .ok u ∧ putBytes vs u = .ok t := Comp.bind_eq_ok

/-- All that writing bytes can do: the bytes stand in order from `OBITLEN / 8` on, `OBITLEN` grows by 8 a byte, and nothing
else changes. -/
theorem putBytes_ok {vs : List Byte} {s t : State} (hr : s.obitlen.toNat + 8 * vs.length ≤ 8 * Config.bufCap)
    (h : putBytes vs s = .ok t) :
    t = { s with obuf := t.obuf, obitlen := s.obitlen + BitVec.ofNat 32 (8 * vs.length) } ∧
    (∀ j < vs.length, t.obuf.find (s.obitlen.toNat / 8 + j) = vs[j]?) ∧
    ∀ a, a < s.obitlen.toNat / 8 ∨ s.obitlen.toNat / 8 + vs.length ≤ a → t.obuf.find a = s.obuf.find a := by
  induction vs generalizing s with
  | nil => cases h; exact ⟨by simp, fun j hj => by simp at hj, fun _ _ => rfl⟩
  | cons v vs ih =>
    obtain ⟨u, h1, h2⟩ := putBytes_cons_ok.1 h
    obtain ⟨h0, -, hu⟩ := putByte_ok.1 h1
    rw [List.length_cons] at hr
    have hl : u.obitlen = s.obitlen + 8#32 := by rw [hu]
    have ho : u.obuf = s.obuf.put (s.obitlen.toNat / 8) v := by rw [hu]
    have hn : u.obitlen.toNat = s.obitlen.toNat + 8 := by rw [hl]; exact obitlen_add rfl (by omega)
    have hd : u.obitlen.toNat / 8 = s.obitlen.toNat / 8 + 1 := by omega
    obtain ⟨ht, hb, hg⟩ := ih (by omega) h2
    rw [hd] at hb hg
    refine ⟨?_, fun j hj => ?_, fun a ha => ?_⟩
    · rw [ht, hu, List.length_cons, BitVec.add_assoc, Nat.mul_add, Nat.add_comm (8 * vs.length)]
      simp only [BitVec.ofNat_add]
    · cases j with
      | zero => rw [Nat.add_zero, hg _ (.inl (by omega)), ho, Cells.find_put_same]; rfl
      | succ j =>
        rw [List.length_cons] at hj
        have := hb j (by omega)
        rw [show s.obitlen.toNat / 8 + (j + 1) = s.obitlen.toNat / 8 + 1 + j by omega, this]
        simp
    · rw [List.length_cons] at ha
      rw [hg a (by omega), ho, Cells.find_put_other _ _ (by omega)]

/-- Writing bytes ends with a result on a byte boundary, while they fit. -/
theorem putBytes_total (vs : List Byte) {s : State} (h0 : s.obitlen.toNat % 8 = 0)
    (hr : s.obitlen.toNat + 8 * vs.length ≤ 8 * Config.bufCap) : ∃ t, putBytes vs s = .ok t := by
  induction vs generalizing s with
  | nil => exact ⟨s, rfl⟩
  | cons v vs ih =>
    rw [List.length_cons] at hr
    have hu : putByte v s = .ok { s with obuf := s.obuf.put (s.obitlen.toNat / 8) v, obitlen := s.obitlen + 8#32 } :=
      putByte_ok.2 ⟨h0, by omega, rfl⟩
    have hn : (s.obitlen + 8#32).toNat = s.obitlen.toNat + 8 := obitlen_add (k := 8) rfl (by omega)
    obtain ⟨t, ht⟩ := ih (s := { s with obuf := s.obuf.put (s.obitlen.toNat / 8) v, obitlen := s.obitlen + 8#32 })
      (by simp only; omega) (by simp only; omega)
    exact ⟨t, putBytes_cons_ok.2 ⟨_, hu, ht⟩⟩

/-! ### Reading the input stream -/

/-- Everything `GetBit` can answer with (R68). -/
theorem getBit_ok {s : State} {i : Nat} {b : Bool} :
    getBit s i = .ok b ↔ (s.ibitlen ≤ i ∧ b = false) ∨
      (i < s.ibitlen ∧ ∃ v, i / 8 < Config.bufCap ∧ s.ibuf.find (i / 8) = some v ∧ v.getLsbD (7 - i % 8) = b) := by
  unfold getBit
  by_cases h : i < s.ibitlen
  · simp only [h, if_true, Comp.bind_eq_ok, readCell_ok, Except.ok.injEq, true_and, Nat.not_le.2 h, false_and, false_or]
    constructor
    · rintro ⟨v, ⟨h1, h2⟩, h3⟩; exact ⟨v, h1, h2, h3⟩
    · rintro ⟨v, h1, h2, h3⟩; exact ⟨v, ⟨h1, h2⟩, h3⟩
  · simp [h, Nat.le_of_not_lt h, eq_comm]

/-- `GetBit` raises no error of the ECE. -/
theorem getBit_error {s : State} {i : Nat} {e : Stop} (h : getBit s i = .error e) :
    i < s.ibitlen ∧ (e = .stopped .noSuchCell ∨ e = .stopped .noValue) := by
  unfold getBit at h
  split at h
  · next hi =>
    rcases Comp.bind_eq_error.1 h with h1 | ⟨v, -, h2⟩
    · exact ⟨hi, (readCell_error h1).imp And.left And.left⟩
    · cases h2
  · cases h

/-- Everything `GetByteBack` can answer with (R69). -/
theorem getByteBack_ok {s : State} {rp rq : Nat} {v : Byte} :
    getByteBack s rp = .ok (v, rq) ↔ rp = rq + 1 ∧ rq < Config.bufCap ∧ s.ibuf.find rq = some v := by
  cases rp with
  | zero => simp [getByteBack, raised]
  | succ rp =>
    simp only [getByteBack, Comp.bind_eq_ok, readCell_ok, Except.ok.injEq, Prod.mk.injEq, Nat.add_right_cancel_iff]
    constructor
    · rintro ⟨w, ⟨h1, h2⟩, rfl, rfl⟩; exact ⟨rfl, h1, h2⟩
    · rintro ⟨rfl, h1, h2⟩; exact ⟨v, ⟨h1, h2⟩, rfl, rfl⟩

/-- `GetByteBack` with no byte left raises `CorruptStreamError`. -/
@[simp] theorem getByteBack_zero (s : State) : getByteBack s 0 = raised .corruptStream := rfl

/-- Everything `OutByte` can answer with (R70). -/
theorem outByte_ok {s : State} {i : Nat} {v : Byte} :
    outByte s i = .ok v ↔ i < Config.bufCap ∧ s.obuf.find i = some v := readCell_ok

end Sys2Proof.Machine
end

