-- ==== Sys2Proof/Laws/Bitstream.lean ====
section
/-! SUPPORT. Said once: all that the copy loop of `XFER` (spec R124) can do. -/

namespace Sys2Proof.Machine

/-- Each listed output byte stands in the input buffer at the same index, and nothing else changes. -/
theorem copyOut_ok {l : List Nat} {s t : State} (h : copyOut l s = .ok t) :
    t = { s with ibuf := t.ibuf } ∧ (∀ i ∈ l, (s.obuf.find i).isSome = true ∧ t.ibuf.find i = s.obuf.find i) ∧
    ∀ i, i ∉ l → t.ibuf.find i = s.ibuf.find i := by
  induction l generalizing s with
  | nil => cases h; exact ⟨rfl, fun i hi => (by cases hi), fun _ _ => rfl⟩
  | cons k ks ih =>
    obtain ⟨v, hv, h⟩ := Comp.bind_eq_ok.1 h
    obtain ⟨m, hm, h⟩ := Comp.bind_eq_ok.1 h
    obtain ⟨-, rfl⟩ := writeCell_ok.1 hm
    have hv := (outByte_ok.1 hv).2
    obtain ⟨g1, g2, g3⟩ := ih h
    refine ⟨by rw [g1], fun i hi => ?_, fun i hi => ?_⟩
    · by_cases hk : i ∈ ks
      · exact g2 i hk
      · obtain rfl : i = k := (List.mem_cons.1 hi).resolve_right hk
        rw [g3 i hk, hv]
        exact ⟨rfl, Cells.find_put_same _ _ _⟩
    · obtain ⟨h1, h2⟩ := not_or.1 (fun h => hi (List.mem_cons.2 h))
      rw [g3 i h2]
      exact Cells.find_put_other _ _ h1

/-- The copy ends with a result where every listed output byte holds a value. -/
theorem copyOut_total {l : List Nat} {s : State}
    (h : ∀ i ∈ l, i < Config.bufCap ∧ (s.obuf.find i).isSome = true) : ∃ t, copyOut l s = .ok t := by
  induction l generalizing s with
  | nil => exact ⟨s, rfl⟩
  | cons k ks ih =>
    obtain ⟨h1, h2⟩ := h k List.mem_cons_self
    obtain ⟨v, hv⟩ := Option.isSome_iff_exists.1 h2
    unfold copyOut
    rw [outByte_ok.2 ⟨h1, hv⟩, Comp.bind_ok, writeCell_of_lt _ _ h1, Comp.bind_ok]
    exact ih fun i hi => h i (List.mem_cons_of_mem _ hi)

end Sys2Proof.Machine
end

