-- ==== Sys2Proof/Laws/Encoding.lean ====
section
/-! SUPPORT. The fields of a command word built by `mkWord` (spec R90). -/

namespace Sys2Proof

theorem getLsbD_mkWord (op : BitVec 8) (a : BitVec 16) (i : Nat) :
    (mkWord op a).getLsbD i = if i < 16 then a.getLsbD i else if i < 24 then false else op.getLsbD (i - 24) := by
  unfold mkWord
  rw [BitVec.getLsbD_append]
  split
  · rfl
  · rw [BitVec.getLsbD_append]
    by_cases h : i < 24
    · rw [if_pos (by omega), if_pos h, BitVec.getLsbD_zero]
    · rw [if_neg (by omega), if_neg h, show i - 16 - 8 = i - 24 by omega]

@[simp] theorem opField_mkWord (op : BitVec 8) (a : BitVec 16) : opField (mkWord op a) = op := by
  refine BitVec.eq_of_getLsbD_eq fun i hi => ?_
  rw [opField, BitVec.getLsbD_extractLsb', getLsbD_mkWord, if_neg (by omega), if_neg (by omega),
    show 24 + i - 24 = i by omega]
  simp [hi]

@[simp] theorem rsvField_mkWord (op : BitVec 8) (a : BitVec 16) : rsvField (mkWord op a) = 0#8 := by
  refine BitVec.eq_of_getLsbD_eq fun i hi => ?_
  rw [rsvField, BitVec.getLsbD_extractLsb', getLsbD_mkWord, if_neg (by omega), if_pos (by omega)]
  simp

@[simp] theorem argField_mkWord (op : BitVec 8) (a : BitVec 16) : argField (mkWord op a) = a := by
  refine BitVec.eq_of_getLsbD_eq fun i hi => ?_
  rw [argField, BitVec.getLsbD_extractLsb', getLsbD_mkWord, if_pos (by omega), Nat.zero_add]
  simp [hi]

/-- A word whose reserved byte is 0 is its other two fields. -/
theorem eq_mkWord_of_rsv {w : Word} (h : rsvField w = 0#8) : w = mkWord (opField w) (argField w) := by
  refine BitVec.eq_of_getLsbD_eq fun i hi => ?_
  rw [getLsbD_mkWord, opField, argField, BitVec.getLsbD_extractLsb', BitVec.getLsbD_extractLsb']
  by_cases h1 : i < 16
  · simp [h1]
  · by_cases h2 : i < 24
    · have hb := congrArg (fun v => v.getLsbD (i - 16)) h
      simp only [rsvField, BitVec.getLsbD_extractLsb', BitVec.getLsbD_zero, show 16 + (i - 16) = i by omega] at hb
      simpa [h1, h2, show i - 16 < 8 by omega] using hb
    · simp [h1, h2, show i - 24 < 8 by omega, show 24 + (i - 24) = i by omega]

@[simp] theorem ordOfBits_ordBits (o : OrdMode) : ordOfBits (ordBits o) = o := by cases o <;> rfl

@[simp] theorem modeOfBits_modeBits (m : RaMode) : modeOfBits (modeBits m) = m := by cases m <;> rfl

theorem ordBits_ordOfBits (b : BitVec 2) : ordBits (ordOfBits b) = b := by revert b; decide

theorem modeBits_modeOfBits (b : BitVec 1) : modeBits (modeOfBits b) = b := by revert b; decide

end Sys2Proof
end

