-- ==== Sys2Proof/Laws/Lookup.lean ====
section
/-! SUPPORT. Said once: all that the lookup functions of the frozen model (spec R130, R131) can answer. -/

namespace Sys2Proof.Machine

/-- Everything the accessors of an ordinal can answer with. -/
theorem entry_ok {s : State} {k : Nat} {e : Entry} :
    entry s k = .ok e ↔ ∃ (slot : BitVec 9) (cnt low : BitVec 16),
      (k < Config.aMax ∧ s.order.find k = some slot) ∧
      (slot.toNat < Config.aMax ∧ s.mtSym.find slot.toNat = some e.sym) ∧
      (slot.toNat < Config.aMax ∧ s.mtCnt.find slot.toNat = some cnt) ∧
      (k < Config.aMax ∧ s.clow.find k = some low) ∧ e = ⟨k, e.sym, cnt.toNat, low.toNat⟩ := by
  unfold entry
  simp only [Comp.bind_eq_ok, readCell_ok, Except.ok.injEq]
  constructor
  · rintro ⟨slot, h1, sym, h2, cnt, h3, low, h4, rfl⟩
    exact ⟨slot, cnt, low, h1, h2, h3, h4, rfl⟩
  · rintro ⟨slot, cnt, low, h1, h2, h3, h4, h5⟩
    exact ⟨slot, h1, e.sym, h2, cnt, h3, low, h4, h5.symm⟩

/-- The accessors raise no error of the ECE. -/
theorem entry_error {s : State} {k : Nat} {x : Stop} (h : entry s k = .error x) :
    x = .stopped .noSuchCell ∨ x = .stopped .noValue := by
  have key : ∀ {β : Type} {cap : Nat} {m : Cells β} {i : Nat}, readCell cap m i = .error x →
      x = .stopped .noSuchCell ∨ x = .stopped .noValue := fun h => (readCell_error h).imp And.left And.left
  unfold entry at h
  rcases Comp.bind_eq_error.1 h with h | ⟨_, _, h⟩
  · exact key h
  rcases Comp.bind_eq_error.1 h with h | ⟨_, _, h⟩
  · exact key h
  rcases Comp.bind_eq_error.1 h with h | ⟨_, _, h⟩
  · exact key h
  rcases Comp.bind_eq_error.1 h with h | ⟨_, _, h⟩
  · exact key h
  · cases h

/-- The entry of ordinal `k` says so. -/
theorem entry_k {s : State} {k : Nat} {e : Entry} (h : entry s k = .ok e) : e.k = k := by
  obtain ⟨_, _, _, _, _, _, _, he⟩ := entry_ok.1 h
  rw [he]

theorem scanOrdinals_cons_ok {s : State} {p : Entry → Bool} {k : Nat} {ks : List Nat} {r : Option Entry} :
    scanOrdinals s p (k :: ks) = .ok r ↔
      ∃ e, entry s k = .ok e ∧ ((p e = true ∧ r = some e) ∨ (p e = false ∧ scanOrdinals s p ks = .ok r)) := by
  rw [scanOrdinals, Comp.bind_eq_ok]
  refine exists_congr fun e => and_congr_right fun _ => ?_
  cases p e <;> simp [eq_comm]

/-- Everything the scan can find: the first of the listed ordinals whose entry satisfies the test. -/
theorem scanOrdinals_some {s : State} {p : Entry → Bool} {l : List Nat} {e : Entry}
    (h : scanOrdinals s p l = .ok (some e)) :
    e.k ∈ l ∧ entry s e.k = .ok e ∧ p e = true ∧
      ∃ l1 l2, l = l1 ++ e.k :: l2 ∧ ∀ j ∈ l1, ∃ d, entry s j = .ok d ∧ p d = false := by
  induction l with
  | nil => cases h
  | cons k ks ih =>
    obtain ⟨d, hd, h⟩ := scanOrdinals_cons_ok.1 h
    have hk := entry_k hd
    rcases h with ⟨hp, he⟩ | ⟨hp, h⟩
    · cases he
      rw [hk]
      exact ⟨List.mem_cons_self, hd, hp, [], ks, rfl, fun _ hj => by cases hj⟩
    · obtain ⟨h1, h2, h3, l1, l2, h4, h5⟩ := ih h
      refine ⟨List.mem_cons_of_mem _ h1, h2, h3, k :: l1, l2, by rw [h4]; rfl, fun j hj => ?_⟩
      rcases List.mem_cons.1 hj with rfl | hj
      · exact ⟨d, hd, hp⟩
      · exact h5 j hj

/-- What a scan that finds nothing says of every listed ordinal. -/
theorem scanOrdinals_none {s : State} {p : Entry → Bool} {l : List Nat} :
    scanOrdinals s p l = .ok none ↔ ∀ k ∈ l, ∃ e, entry s k = .ok e ∧ p e = false := by
  induction l with
  | nil => simp [scanOrdinals]
  | cons k ks ih =>
    rw [scanOrdinals_cons_ok, List.forall_mem_cons, ← ih]
    constructor
    · rintro ⟨e, h1, ⟨-, h2⟩ | ⟨h2, h3⟩⟩
      · cases h2
      · exact ⟨⟨e, h1, h2⟩, h3⟩
    · rintro ⟨⟨e, h1, h2⟩, h3⟩
      exact ⟨e, h1, .inr ⟨h2, h3⟩⟩

/-- A scan over ordinals whose accessors all answer ends with a result. -/
theorem scanOrdinals_total {s : State} {p : Entry → Bool} {l : List Nat} (h : ∀ k ∈ l, ∃ e, entry s k = .ok e) :
    ∃ r, scanOrdinals s p l = .ok r := by
  induction l with
  | nil => exact ⟨none, rfl⟩
  | cons k ks ih =>
    obtain ⟨e, he⟩ := h k List.mem_cons_self
    obtain ⟨r, hr⟩ := ih fun j hj => h j (List.mem_cons_of_mem _ hj)
    cases hp : p e
    · exact ⟨r, scanOrdinals_cons_ok.2 ⟨e, he, .inr ⟨hp, hr⟩⟩⟩
    · exact ⟨some e, scanOrdinals_cons_ok.2 ⟨e, he, .inl ⟨hp, rfl⟩⟩⟩

/-- Everything `ordinal` can answer with. -/
theorem ordinal_ok {s : State} {sym : BitVec 16} {e : Entry} (h : ordinal s sym = .ok e) :
    e.k < s.mn.toNat ∧ entry s e.k = .ok e ∧ e.sym = sym := by
  obtain ⟨r, h1, h2⟩ := Comp.bind_eq_ok.1 h
  cases r with
  | none => cases h2
  | some d =>
    cases h2
    obtain ⟨hm, he, hp, -⟩ := scanOrdinals_some h1
    exact ⟨List.mem_range.1 hm, he, by simpa using hp⟩

/-- Everything `symbolAt` can answer with. -/
theorem symbolAt_ok {s : State} {pos : Nat} {e : Entry} (h : symbolAt s pos = .ok e) :
    e.k < s.mn.toNat ∧ entry s e.k = .ok e ∧ e.low ≤ pos ∧ pos < e.high := by
  obtain ⟨r, h1, h2⟩ := Comp.bind_eq_ok.1 h
  cases r with
  | none => cases h2
  | some d =>
    cases h2
    obtain ⟨hm, he, hp, -⟩ := scanOrdinals_some h1
    simp only [decide_eq_true_eq] at hp
    exact ⟨List.mem_range.1 hm, he, hp.1, hp.2⟩

/-- Where the accessors of every ordinal answer, a symbol that one of them has is found. -/
theorem ordinal_total {s : State} {sym : BitVec 16} (h : ∀ k < s.mn.toNat, ∃ e, entry s k = .ok e) :
    (∃ e, ordinal s sym = .ok e) ∨
    (ordinal s sym = raised .alphabetMismatch ∧ ∀ k < s.mn.toNat, ∃ e, entry s k = .ok e ∧ e.sym ≠ sym) := by
  obtain ⟨r, hr⟩ := scanOrdinals_total (s := s) (p := fun e => e.sym = sym) (l := List.range s.mn.toNat)
    fun k hk => h k (List.mem_range.1 hk)
  unfold ordinal
  cases r with
  | some e => exact .inl ⟨e, by rw [hr]; rfl⟩
  | none =>
    refine .inr ⟨by rw [hr]; rfl, fun k hk => ?_⟩
    obtain ⟨e, he, hp⟩ := scanOrdinals_none.1 hr k (List.mem_range.2 hk)
    exact ⟨e, he, by simpa using hp⟩

/-- Where the accessors of every ordinal answer, a position is found or lies outside every interval. -/
theorem symbolAt_total {s : State} {pos : Nat} (h : ∀ k < s.mn.toNat, ∃ e, entry s k = .ok e) :
    (∃ e, symbolAt s pos = .ok e) ∨
    (symbolAt s pos = raised .corruptStream ∧
      ∀ k < s.mn.toNat, ∃ e, entry s k = .ok e ∧ ¬ (e.low ≤ pos ∧ pos < e.high)) := by
  obtain ⟨r, hr⟩ := scanOrdinals_total (s := s) (p := fun e => e.low ≤ pos ∧ pos < e.high) (l := List.range s.mn.toNat)
    fun k hk => h k (List.mem_range.1 hk)
  unfold symbolAt
  cases r with
  | some e => exact .inl ⟨e, by rw [hr]; rfl⟩
  | none =>
    refine .inr ⟨by rw [hr]; rfl, fun k hk => ?_⟩
    obtain ⟨e, he, hp⟩ := scanOrdinals_none.1 hr k (List.mem_range.2 hk)
    exact ⟨e, he, by simpa using hp⟩

/-- The lookups read the model tables alone. -/
theorem entry_congr {s t : State} (ho : s.order = t.order) (hs : s.mtSym = t.mtSym) (hc : s.mtCnt = t.mtCnt)
    (hl : s.clow = t.clow) (k : Nat) : entry s k = entry t k := by
  unfold entry; rw [ho, hs, hc, hl]

end Sys2Proof.Machine
end

