-- ==== Sys2Proof/Laws/Huffman.lean ====
section
/-! SUPPORT. Said once: all that the operations of the Huffman coder (spec R191, R192, R198) can do, with their frames. -/

namespace Sys2Proof.Machine

/-! ### Building the tree -/

/-- All that writing the leaves can do: each listed node becomes the leaf of its ordinal with its count. -/
theorem writeLeaves_ok {l : List Nat} (hl : l.Nodup) {s t : State} (h : writeLeaves l s = .ok t) :
    t = { s with hnLeaf := t.hnLeaf, hnOrd := t.hnOrd, hnFreq := t.hnFreq } ∧
    (∀ k ∈ l, t.hnLeaf.find k = some true ∧ t.hnOrd.find k = some (BitVec.ofNat 9 k) ∧
      ∃ e, entry s k = .ok e ∧ t.hnFreq.find k = some (BitVec.ofNat 16 e.cnt)) ∧
    ∀ k, k ∉ l → t.hnLeaf.find k = s.hnLeaf.find k ∧ t.hnOrd.find k = s.hnOrd.find k ∧ t.hnFreq.find k = s.hnFreq.find k := by
  induction l generalizing s with
  | nil => cases h; exact ⟨rfl, fun k hk => (by cases hk), fun _ _ => ⟨rfl, rfl, rfl⟩⟩
  | cons k ks ih =>
    obtain ⟨hk, hks⟩ := List.nodup_cons.1 hl
    obtain ⟨e, he, h⟩ := Comp.bind_eq_ok.1 h
    obtain ⟨m1, h1, h⟩ := Comp.bind_eq_ok.1 h
    obtain ⟨m2, h2, h⟩ := Comp.bind_eq_ok.1 h
    obtain ⟨m3, h3, h⟩ := Comp.bind_eq_ok.1 h
    obtain ⟨-, rfl⟩ := writeCell_ok.1 h1
    obtain ⟨-, rfl⟩ := writeCell_ok.1 h2
    obtain ⟨-, rfl⟩ := writeCell_ok.1 h3
    obtain ⟨g1, g2, g3⟩ := ih hks h
    refine ⟨by rw [g1], fun j hj => ?_, fun j hj => ?_⟩
    · rcases List.mem_cons.1 hj with rfl | hj
      · obtain ⟨f1, f2, f3⟩ := g3 j hk
        rw [f1, f2, f3]
        exact ⟨Cells.find_put_same _ _ _, Cells.find_put_same _ _ _, e, he, Cells.find_put_same _ _ _⟩
      · obtain ⟨f1, f2, d, f3, f4⟩ := g2 j hj
        exact ⟨f1, f2, d, f3, f4⟩
    · obtain ⟨hj1, hj2⟩ := not_or.1 (fun h => hj (List.mem_cons.2 h))
      obtain ⟨f1, f2, f3⟩ := g3 j hj2
      rw [f1, f2, f3]
      exact ⟨Cells.find_put_other _ _ hj1, Cells.find_put_other _ _ hj1, Cells.find_put_other _ _ hj1⟩

/-- The node selected is one of those looked at. -/
theorem minNode_mem {s : State} {best m : Nat} {ns : List Nat} (h : minNode s best ns = .ok m) : m ∈ best :: ns := by
  induction ns generalizing best with
  | nil => cases h; exact List.mem_cons_self
  | cons n ns ih =>
    obtain ⟨fb, -, h⟩ := Comp.bind_eq_ok.1 h
    obtain ⟨fn, -, h⟩ := Comp.bind_eq_ok.1 h
    have hm : m ∈ n :: ns ∨ m ∈ best :: ns := by
      split at h
      · exact .inl (ih h)
      · exact .inr (ih h)
    rcases hm with hm | hm <;> rcases List.mem_cons.1 hm with rfl | hm <;> simp [*]

/-- The selection answers wherever every node's frequency can be read. -/
theorem minNode_total {s : State} {best : Nat} {ns : List Nat}
    (h : ∀ n ∈ best :: ns, n < Config.arenaCap ∧ (s.hnFreq.find n).isSome = true) : ∃ m, minNode s best ns = .ok m := by
  induction ns generalizing best with
  | nil => exact ⟨best, rfl⟩
  | cons n ns ih =>
    obtain ⟨h1, h2⟩ := h best List.mem_cons_self
    obtain ⟨h3, h4⟩ := h n (List.mem_cons_of_mem _ List.mem_cons_self)
    obtain ⟨fb, hb⟩ := Option.isSome_iff_exists.1 h2
    obtain ⟨fn, hn⟩ := Option.isSome_iff_exists.1 h4
    unfold minNode
    simp only [readCell_of_find h1 hb, readCell_of_find h3 hn, Comp.bind_ok]
    split
    · exact ih fun k hk => h k (List.mem_cons_of_mem _ hk)
    · refine ih fun k hk => h k ?_
      rcases List.mem_cons.1 hk with rfl | hk
      · exact List.mem_cons_self
      · exact List.mem_cons_of_mem _ (List.mem_cons_of_mem _ hk)

/-- Everything the writing of an internal node can answer with. -/
theorem writeInternal_ok {a b n : Nat} {s t : State} (h : writeInternal a b n s = .ok t) :
    n < Config.arenaCap ∧ ∃ fa fb : BitVec 16, s.hnFreq.find a = some fa ∧ s.hnFreq.find b = some fb ∧
      t = { s with
        hnLeaf := s.hnLeaf.put n false, hnLeft := s.hnLeft.put n (BitVec.ofNat 10 a),
        hnRight := s.hnRight.put n (BitVec.ofNat 10 b),
        hnFreq := s.hnFreq.put n (BitVec.ofNat 16 (fa.toNat + fb.toNat)) } := by
  obtain ⟨fa, ha, h⟩ := Comp.bind_eq_ok.1 h
  obtain ⟨fb, hb, h⟩ := Comp.bind_eq_ok.1 h
  obtain ⟨m1, h1, h⟩ := Comp.bind_eq_ok.1 h
  obtain ⟨m2, h2, h⟩ := Comp.bind_eq_ok.1 h
  obtain ⟨m3, h3, h⟩ := Comp.bind_eq_ok.1 h
  obtain ⟨m4, h4, h⟩ := Comp.bind_eq_ok.1 h
  obtain ⟨hn, rfl⟩ := writeCell_ok.1 h1
  obtain ⟨-, rfl⟩ := writeCell_ok.1 h2
  obtain ⟨-, rfl⟩ := writeCell_ok.1 h3
  obtain ⟨-, rfl⟩ := writeCell_ok.1 h4
  exact ⟨hn, fa, fb, (readCell_ok.1 ha).2, (readCell_ok.1 hb).2, (Except.ok.inj h).symm⟩

/-- All that one pass of the merge loop can do: the selections it makes, the node it writes, the live nodes it leaves. -/
theorem mergeNodes_pass {tests n m x y : Nat} {rest : List Nat} {s u : State}
    (h : mergeNodes (tests + 1) (x :: y :: rest) n s = .ok (u, m)) :
    ∃ a b z others t, minNode s x (y :: rest) = .ok a ∧ (x :: y :: rest).erase a = z :: others ∧
      minNode s z others = .ok b ∧ writeInternal a b n s = .ok t ∧
      mergeNodes tests (((x :: y :: rest).erase a).erase b ++ [n]) (n + 1) t = .ok (u, m) := by
  unfold mergeNodes at h
  obtain ⟨a, ha, h⟩ := Comp.bind_eq_ok.1 h
  split at h
  · cases h
  · next z others he =>
    obtain ⟨b, hb, h⟩ := Comp.bind_eq_ok.1 h
    obtain ⟨t, ht, h⟩ := Comp.bind_eq_ok.1 h
    exact ⟨a, b, z, others, t, ha, he, hb, ht, h⟩

/-- The merge loop writes only nodes from `n` on, one for each node but one that was live. -/
theorem mergeNodes_ok {tests n m : Nat} {live : List Nat} {s u : State} (h : mergeNodes tests live n s = .ok (u, m)) :
    u = { s with hnLeaf := u.hnLeaf, hnLeft := u.hnLeft, hnRight := u.hnRight, hnFreq := u.hnFreq } ∧
    m = n + (live.length - 1) ∧
    ∀ a, a < n ∨ m ≤ a → u.hnLeaf.find a = s.hnLeaf.find a ∧ u.hnLeft.find a = s.hnLeft.find a ∧
      u.hnRight.find a = s.hnRight.find a ∧ u.hnFreq.find a = s.hnFreq.find a := by
  induction tests generalizing live n s with
  | zero =>
    match live, h with
    | [], h => cases h; exact ⟨rfl, rfl, fun _ _ => ⟨rfl, rfl, rfl, rfl⟩⟩
    | [_], h => cases h; exact ⟨rfl, rfl, fun _ _ => ⟨rfl, rfl, rfl, rfl⟩⟩
    | _ :: _ :: _, h => cases h
  | succ tests ih =>
    match live, h with
    | [], h => cases h; exact ⟨rfl, rfl, fun _ _ => ⟨rfl, rfl, rfl, rfl⟩⟩
    | [_], h => cases h; exact ⟨rfl, rfl, fun _ _ => ⟨rfl, rfl, rfl, rfl⟩⟩
    | x :: y :: rest, h =>
      obtain ⟨a, b, z, others, t, ha, he, hb, ht, h⟩ := mergeNodes_pass h
      replace ha := minNode_mem ha
      replace hb : b ∈ (x :: y :: rest).erase a := he ▸ minNode_mem hb
      obtain ⟨-, fa, fb, -, -, rfl⟩ := writeInternal_ok ht
      obtain ⟨g1, g2, g3⟩ := ih h
      have hlen : (((x :: y :: rest).erase a).erase b ++ [n]).length = rest.length + 1 := by
        rw [List.length_append, List.length_erase_of_mem hb, List.length_erase_of_mem ha]; simp
      rw [hlen] at g2
      refine ⟨by rw [g1], by rw [g2]; simp only [List.length_cons]; omega, fun c hc => ?_⟩
      obtain ⟨f1, f2, f3, f4⟩ := g3 c (by omega)
      rw [f1, f2, f3, f4]
      have hne : c ≠ n := by omega
      exact ⟨Cells.find_put_other _ _ hne, Cells.find_put_other _ _ hne, Cells.find_put_other _ _ hne,
        Cells.find_put_other _ _ hne⟩

/-! ### Paths -/

/-- The path `p` leads from node `n` down to node `m`: 0 to the left child, 1 to the right one. -/
def Leads (s : State) : Nat → List Bool → Nat → Prop
  | n, [], m => n = m
  | n, b :: p, m => s.hnLeaf.find n = some false ∧
      ∃ c : BitVec 10, (if b then s.hnRight else s.hnLeft).find n = some c ∧ Leads s c.toNat p m

/-- A path leads to one node. -/
theorem Leads.unique {s : State} {p : List Bool} {n m k : Nat} (h1 : Leads s n p m) (h2 : Leads s n p k) : m = k := by
  induction p generalizing n with
  | nil => exact h1.symm.trans h2
  | cons b p ih =>
    obtain ⟨-, c, hc, h1⟩ := h1
    obtain ⟨-, d, hd, h2⟩ := h2
    rw [hc] at hd; cases hd
    exact ih h1 h2

/-- No path goes on below a leaf. -/
theorem Leads.prefix_eq {s : State} {p q : List Bool} {n m k : Nat} (h1 : Leads s n p m) (hm : s.hnLeaf.find m = some true)
    (h2 : Leads s n q k) (hp : p <+: q) : p = q := by
  induction p generalizing n q with
  | nil =>
    cases q with
    | nil => rfl
    | cons b q =>
      obtain ⟨hn, -⟩ := h2
      rw [show n = m from h1, hm] at hn; cases hn
  | cons b p ih =>
    cases q with
    | nil => simp at hp
    | cons d q =>
      obtain ⟨rfl, hpq⟩ := List.cons_prefix_cons.1 hp
      obtain ⟨-, c, hc, h1⟩ := h1
      obtain ⟨-, e, he, h2⟩ := h2
      rw [hc] at he; cases he
      rw [ih h1 h2 hpq]

/-- A path that the search finds leads to the leaf of the ordinal, within the depth it may go. -/
theorem pathTo_some {s : State} {k depth n : Nat} {p : List Bool} (h : pathTo s k depth n = .ok (some p)) :
    p.length < depth ∧ ∃ m, Leads s n p m ∧ s.hnLeaf.find m = some true ∧
      ∃ o : BitVec 9, s.hnOrd.find m = some o ∧ o.toNat = k := by
  induction depth generalizing n p with
  | zero => cases h
  | succ depth ih =>
    obtain ⟨leaf, h1, h⟩ := Comp.bind_eq_ok.1 h
    have h1 := (readCell_ok.1 h1).2
    cases leaf with
    | true =>
      obtain ⟨o, h2, h⟩ := Comp.bind_eq_ok.1 h
      have h2 := (readCell_ok.1 h2).2
      simp only [Except.ok.injEq] at h
      split at h
      · next ho => cases h; exact ⟨Nat.succ_pos _, n, rfl, h1, o, h2, ho⟩
      · cases h
    | false =>
      obtain ⟨l, h2, h⟩ := Comp.bind_eq_ok.1 h
      have h2 := (readCell_ok.1 h2).2
      obtain ⟨r, h3, h⟩ := Comp.bind_eq_ok.1 h
      cases r with
      | some q =>
        cases h
        obtain ⟨g1, m, g2, g3⟩ := ih h3
        exact ⟨Nat.succ_lt_succ g1, m, ⟨h1, l, h2, g2⟩, g3⟩
      | none =>
        obtain ⟨r, h4, h⟩ := Comp.bind_eq_ok.1 h
        have h4 := (readCell_ok.1 h4).2
        obtain ⟨q, h5, h⟩ := Comp.bind_eq_ok.1 h
        cases q with
        | none => cases h
        | some q =>
          cases h
          obtain ⟨g1, m, g2, g3⟩ := ih h5
          exact ⟨Nat.succ_lt_succ g1, m, ⟨h1, r, h4, g2⟩, g3⟩

/-- Everything the walk of `HD` can answer with: it has read a path that leads to a leaf. -/
theorem walk_ok {s : State} {left n bp m bq : Nat} (h : walk s left n bp = .ok (m, bq)) :
    s.hnLeaf.find m = some true ∧ ∃ p, Leads s n p m ∧ bq = bp + p.length ∧ p.length ≤ left ∧
      ∀ j b, p[j]? = some b → getBit s (bp + j) = .ok b := by
  induction left generalizing n bp with
  | zero =>
    unfold walk at h
    obtain ⟨leaf, h1, h⟩ := Comp.bind_eq_ok.1 h
    cases leaf with
    | true => cases h; exact ⟨(readCell_ok.1 h1).2, [], rfl, rfl, le_rfl, by simp⟩
    | false => cases h
  | succ left ih =>
    unfold walk at h
    obtain ⟨leaf, h1, h⟩ := Comp.bind_eq_ok.1 h
    cases leaf with
    | true => cases h; exact ⟨(readCell_ok.1 h1).2, [], rfl, rfl, Nat.zero_le _, by simp⟩
    | false =>
      obtain ⟨b, h2, h⟩ := Comp.bind_eq_ok.1 h
      obtain ⟨c, h3, h⟩ := Comp.bind_eq_ok.1 h
      obtain ⟨g1, p, g2, g3, g4, g5⟩ := ih h
      refine ⟨g1, b :: p, ⟨(readCell_ok.1 h1).2, c, (readCell_ok.1 h3).2, g2⟩, ?_, Nat.succ_le_succ g4, fun j d hj => ?_⟩
      · rw [g3, List.length_cons]; omega
      · cases j with
        | zero => simp only [List.getElem?_cons_zero, Option.some.injEq] at hj; subst hj; exact h2
        | succ j =>
          rw [show bp + (j + 1) = bp + 1 + j by omega]
          exact g5 j d (by simpa using hj)

/-- The walk stops the model or raises `CorruptStreamError`, no other error. -/
theorem walk_raised {s : State} {left n bp : Nat} {e : Err} (h : walk s left n bp = .error (.raised e)) :
    e = .corruptStream := by
  have key : ∀ {β : Type} {cap : Nat} {m : Cells β} {i : Nat}, readCell cap m i ≠ .error (.raised e) := by
    intro β cap m i hc
    rcases readCell_error hc with ⟨hc, -⟩ | ⟨hc, -⟩ <;> cases hc
  induction left generalizing n bp with
  | zero =>
    unfold walk at h
    rcases Comp.bind_eq_error.1 h with h | ⟨leaf, -, h⟩
    · exact absurd h key
    · cases leaf <;> cases h; rfl
  | succ left ih =>
    unfold walk at h
    rcases Comp.bind_eq_error.1 h with h | ⟨leaf, -, h⟩
    · exact absurd h key
    · cases leaf with
      | true => cases h
      | false =>
        rcases Comp.bind_eq_error.1 h with h | ⟨b, -, h⟩
        · rcases (getBit_error h).2 with h | h <;> cases h
        · rcases Comp.bind_eq_error.1 h with h | ⟨c, -, h⟩
          · exact absurd h key
          · exact ih h

end Sys2Proof.Machine
end

