-- ==== Sys2Proof/Laws/Model.lean ====
section
/-! SUPPORT. Said once: all that the operations of the frequency model (spec R132, R137, R138) can do, with their frames. -/

namespace Sys2Proof.Machine

theorem findSlot_cons_ok {s : State} {sym : BitVec 16} {i : Nat} {is : List Nat} {r : Option Nat} :
    findSlot s sym (i :: is) = .ok r ↔ ∃ v, (i < Config.aMax ∧ s.mtSym.find i = some v) ∧
      ((v = sym ∧ r = some i) ∨ (v ≠ sym ∧ findSlot s sym is = .ok r)) := by
  rw [findSlot, Comp.bind_eq_ok]
  refine exists_congr fun v => ?_
  rw [readCell_ok]
  refine and_congr_right fun _ => ?_
  by_cases h : v = sym <;> simp [h, eq_comm]

/-- The slot a search finds is listed and holds the symbol. -/
theorem findSlot_some {s : State} {sym : BitVec 16} {l : List Nat} {i : Nat} (h : findSlot s sym l = .ok (some i)) :
    i ∈ l ∧ i < Config.aMax ∧ s.mtSym.find i = some sym := by
  induction l with
  | nil => cases h
  | cons j js ih =>
    obtain ⟨v, ⟨h1, h2⟩, h3⟩ := findSlot_cons_ok.1 h
    rcases h3 with ⟨rfl, h4⟩ | ⟨-, h4⟩
    · cases h4; exact ⟨List.mem_cons_self, h1, h2⟩
    · obtain ⟨h5, h6⟩ := ih h4
      exact ⟨List.mem_cons_of_mem _ h5, h6⟩

/-- A search that finds nothing has read another symbol in every listed slot. -/
theorem findSlot_none {s : State} {sym : BitVec 16} {l : List Nat} :
    findSlot s sym l = .ok none ↔ ∀ i ∈ l, i < Config.aMax ∧ ∃ v, s.mtSym.find i = some v ∧ v ≠ sym := by
  induction l with
  | nil => simp [findSlot]
  | cons i is ih =>
    rw [findSlot_cons_ok, List.forall_mem_cons, ih]
    constructor
    · rintro ⟨v, ⟨h1, h2⟩, ⟨-, h3⟩ | ⟨h3, h4⟩⟩
      · cases h3
      · exact ⟨⟨h1, v, h2, h3⟩, h4⟩
    · rintro ⟨⟨h1, v, h2, h3⟩, h4⟩
      exact ⟨v, ⟨h1, h2⟩, .inr ⟨h3, h4⟩⟩

/-- Everything `AddCount` can answer with: a valid slot's count grown, or the next free slot taken. -/
theorem addCount_ok {sym : BitVec 16} {n : Nat} {s t : State} (h : addCount sym n s = .ok t) :
    s.total + n ≤ Config.totalMax ∧
    ((∃ i c, i < s.mn.toNat ∧ i < Config.aMax ∧ s.mtSym.find i = some sym ∧ s.mtCnt.find i = some c ∧
        t = { s with
          mtCnt := s.mtCnt.put i (BitVec.ofNat 16 (c.toNat + n)), mtotal := BitVec.ofNat 16 (s.total + n),
          mstate := .building }) ∨
      ((∀ i < s.mn.toNat, ∃ v, s.mtSym.find i = some v ∧ v ≠ sym) ∧ s.mn.toNat < Config.aMax ∧
        t = { s with
          mtSym := s.mtSym.put s.mn.toNat sym, mtCnt := s.mtCnt.put s.mn.toNat (BitVec.ofNat 16 n), mn := s.mn + 1#10,
          mtotal := BitVec.ofNat 16 (s.total + n), mstate := .building })) := by
  obtain ⟨u, h1, h2⟩ := Comp.bind_eq_ok.1 h
  have h1 := raiseIf_ok.1 h1
  obtain ⟨r, h3, h4⟩ := Comp.bind_eq_ok.1 h2
  refine ⟨Nat.le_of_not_lt h1, ?_⟩
  cases r with
  | some i =>
    obtain ⟨c, hc, h5⟩ := Comp.bind_eq_ok.1 h4
    obtain ⟨m, hm, h6⟩ := Comp.bind_eq_ok.1 h5
    obtain ⟨-, rfl⟩ := writeCell_ok.1 hm
    obtain ⟨hi, hlt, hs⟩ := findSlot_some h3
    exact .inl ⟨i, c, List.mem_range.1 hi, hlt, hs, (readCell_ok.1 hc).2, (Except.ok.inj h6).symm⟩
  | none =>
    obtain ⟨v, -, h5⟩ := Comp.bind_eq_ok.1 h4
    obtain ⟨m, hm, h6⟩ := Comp.bind_eq_ok.1 h5
    obtain ⟨m', hm', h7⟩ := Comp.bind_eq_ok.1 h6
    obtain ⟨hlt, rfl⟩ := writeCell_ok.1 hm
    obtain ⟨-, rfl⟩ := writeCell_ok.1 hm'
    exact .inr ⟨fun i hi => (findSlot_none.1 h3 i (List.mem_range.2 hi)).2, hlt, (Except.ok.inj h7).symm⟩

theorem readSlots_cons_ok {s : State} {i : Nat} {is : List Nat} {r : List Slot} :
    readSlots s (i :: is) = .ok r ↔ ∃ sym cnt rest, (i < Config.aMax ∧ s.mtSym.find i = some sym) ∧
      (i < Config.aMax ∧ s.mtCnt.find i = some cnt) ∧ readSlots s is = .ok rest ∧ r = ⟨i, sym, cnt⟩ :: rest := by
  rw [readSlots]
  simp only [Comp.bind_eq_ok, readCell_ok, Except.ok.injEq]
  constructor
  · rintro ⟨sym, h1, cnt, h2, rest, h3, rfl⟩; exact ⟨sym, cnt, rest, h1, h2, h3, rfl⟩
  · rintro ⟨sym, cnt, rest, h1, h2, h3, rfl⟩; exact ⟨sym, h1, cnt, h2, rest, h3, rfl⟩

/-- The slots read are the listed ones, in order. -/
theorem readSlots_idx {s : State} {l : List Nat} {r : List Slot} (h : readSlots s l = .ok r) :
    r.map Slot.idx = l ∧ ∀ a ∈ r, s.mtSym.find a.idx = some a.sym ∧ s.mtCnt.find a.idx = some a.cnt := by
  induction l generalizing r with
  | nil => cases h; simp
  | cons i is ih =>
    obtain ⟨sym, cnt, rest, h1, h2, h3, rfl⟩ := readSlots_cons_ok.1 h
    obtain ⟨h4, h5⟩ := ih h3
    exact ⟨by simp [h4], List.forall_mem_cons.2 ⟨⟨h1.2, h2.2⟩, h5⟩⟩

/-! ### The sort -/

theorem insertSlot_perm (o : OrdMode) (a : Slot) (l : List Slot) : (insertSlot o a l).Perm (a :: l) := by
  induction l with
  | nil => exact .refl _
  | cons b bs ih =>
    unfold insertSlot
    split
    · exact .refl _
    · exact (ih.cons b).trans (.swap a b bs)

/-- Sorting loses no slot and adds none. -/
theorem sortSlots_perm (o : OrdMode) (l : List Slot) : (sortSlots o l).Perm l := by
  induction l with
  | nil => exact .refl _
  | cons a l ih => exact (insertSlot_perm o a _).trans (ih.cons a)

/-- The keys of every mode are compared transitively. -/
theorem keyBefore_trans {o : OrdMode} {a b c : Slot} (h1 : keyBefore o a b = true) (h2 : keyBefore o b c = true) :
    keyBefore o a c = true := by
  cases o <;> simp only [keyBefore, Bool.or_eq_true, Bool.and_eq_true, decide_eq_true_eq] at *
  · rcases h1 with h1 | ⟨h1, h3⟩ <;> rcases h2 with h2 | ⟨h2, h4⟩
    · exact .inl (h1.trans h2)
    · rw [h2] at h1; exact .inl h1
    · rw [h1]; exact .inl h2
    · exact .inr ⟨h1.trans h2, h3.trans h4⟩
  · exact h1.trans h2
  · rcases h1 with h1 | ⟨h1, h3⟩ <;> rcases h2 with h2 | ⟨h2, h4⟩
    · exact .inl (h1.trans h2)
    · rw [h2] at h1; exact .inl h1
    · rw [h1]; exact .inl h2
    · exact .inr ⟨h1.trans h2, h3.trans h4⟩
  · exact h1.trans h2

/-- No key comes before itself. -/
theorem keyBefore_irrefl (o : OrdMode) (a : Slot) : keyBefore o a a = false := by cases o <;> simp [keyBefore]

/-- Of two slots with different indices and symbols, one comes before the other, in every mode. -/
theorem keyBefore_total (o : OrdMode) {a b : Slot} (hi : a.idx ≠ b.idx) (hs : a.sym ≠ b.sym) :
    keyBefore o a b = true ∨ keyBefore o b a = true := by
  have hsym : signed16 a.sym ≠ signed16 b.sym := fun h => hs (BitVec.eq_of_toInt_eq h)
  have hcnt : a.cnt = b.cnt ↔ a.cnt.toNat = b.cnt.toNat := BitVec.toNat_inj.symm
  cases o <;> simp only [keyBefore, Bool.or_eq_true, Bool.and_eq_true, decide_eq_true_eq]
  · have : b.cnt = a.cnt ↔ a.cnt.toNat = b.cnt.toNat := by rw [eq_comm]; exact hcnt
    rw [hcnt, this]; omega
  · omega
  · have : b.cnt = a.cnt ↔ a.cnt.toNat = b.cnt.toNat := by rw [eq_comm]; exact hcnt
    rw [hcnt, this]; omega
  · omega

theorem insertSlot_sorted {o : OrdMode} {a : Slot} {l : List Slot} (h : l.Pairwise fun x y => keyBefore o x y = true)
    (ha : ∀ b ∈ l, keyBefore o a b = true ∨ keyBefore o b a = true) :
    (insertSlot o a l).Pairwise fun x y => keyBefore o x y = true := by
  induction l with
  | nil => simp [insertSlot]
  | cons b bs ih =>
    obtain ⟨h1, h2⟩ := List.pairwise_cons.1 h
    unfold insertSlot
    split
    · next hb =>
      refine List.pairwise_cons.2 ⟨fun c hc => ?_, h⟩
      rcases List.mem_cons.1 hc with rfl | hc
      · exact hb
      · exact keyBefore_trans hb (h1 c hc)
    · next hb =>
      refine List.pairwise_cons.2 ⟨fun c hc => ?_, ih h2 fun c hc => ha c (List.mem_cons_of_mem _ hc)⟩
      rcases List.mem_cons.1 ((insertSlot_perm o a bs).subset hc) with rfl | hc
      · exact (ha b List.mem_cons_self).resolve_left hb
      · exact h1 c hc

/-- Slots whose keys all differ come out in strictly rising order of the keys. -/
theorem sortSlots_sorted {o : OrdMode} {l : List Slot}
    (h : l.Pairwise fun a b => keyBefore o a b = true ∨ keyBefore o b a = true) :
    (sortSlots o l).Pairwise fun x y => keyBefore o x y = true := by
  induction l with
  | nil => exact List.Pairwise.nil
  | cons a l ih =>
    obtain ⟨h1, h2⟩ := List.pairwise_cons.1 h
    exact insertSlot_sorted (ih h2) fun b hb => h1 b ((sortSlots_perm o l).subset hb)

/-! ### The loop of `MFIN` -/

/-- All that the loop of `MFIN` can do: ordinal `k + j` gets the `j`-th slot and the sum of the counts before it, and
nothing else changes. -/
theorem writeCdf_ok {l : List Slot} {k c : Nat} {s t : State} (h : writeCdf l k c s = .ok t) :
    t = { s with order := t.order, clow := t.clow } ∧
    (∀ j a, l[j]? = some a → k + j < Config.aMax ∧ t.order.find (k + j) = some (BitVec.ofNat 9 a.idx) ∧
      t.clow.find (k + j) = some (BitVec.ofNat 16 (c + ((l.take j).map fun b => b.cnt.toNat).sum))) ∧
    ∀ a, a < k ∨ k + l.length ≤ a → t.order.find a = s.order.find a ∧ t.clow.find a = s.clow.find a := by
  induction l generalizing k c s with
  | nil => cases h; exact ⟨rfl, fun j a hj => by simp at hj, fun _ _ => ⟨rfl, rfl⟩⟩
  | cons b bs ih =>
    obtain ⟨o, h1, h2⟩ := Comp.bind_eq_ok.1 h
    obtain ⟨m, h3, h4⟩ := Comp.bind_eq_ok.1 h2
    obtain ⟨hk, rfl⟩ := writeCell_ok.1 h1
    obtain ⟨-, rfl⟩ := writeCell_ok.1 h3
    obtain ⟨g1, g2, g3⟩ := ih h4
    refine ⟨by rw [g1], fun j a hj => ?_, fun a ha => ?_⟩
    · cases j with
      | zero =>
        simp only [List.getElem?_cons_zero, Option.some.injEq] at hj
        subst hj
        obtain ⟨g4, g5⟩ := g3 k (.inl (by omega))
        refine ⟨hk, ?_, ?_⟩
        · rw [Nat.add_zero, g4]; exact Cells.find_put_same _ _ _
        · rw [Nat.add_zero, g5]; simp
      | succ j =>
        obtain ⟨g4, g5, g6⟩ := g2 j a (by simpa using hj)
        rw [show k + (j + 1) = k + 1 + j by omega]
        refine ⟨g4, g5, ?_⟩
        rw [g6]
        simp [Nat.add_assoc]
    · rw [List.length_cons] at ha
      obtain ⟨g4, g5⟩ := g3 a (by omega)
      rw [g4, g5]
      exact ⟨Cells.find_put_other _ _ (by omega), Cells.find_put_other _ _ (by omega)⟩

/-- The loop of `MFIN` ends with a result inside the tables. -/
theorem writeCdf_total {l : List Slot} {k c : Nat} {s : State} (h : k + l.length ≤ Config.aMax) :
    ∃ t, writeCdf l k c s = .ok t := by
  induction l generalizing k c s with
  | nil => exact ⟨s, rfl⟩
  | cons b bs ih =>
    rw [List.length_cons] at h
    unfold writeCdf
    simp only [writeCell_of_lt _ _ (show k < Config.aMax by omega), Comp.bind_ok]
    exact ih (by omega)

end Sys2Proof.Machine
end

