-- ==== Sys2Proof/Laws/PerInstr.lean ====
section
/-! SUPPORT. The per-instruction family `EncodesFields`: a command's word carries its opcode, a zero reserved byte and its
operand field (spec R90, R91). -/

namespace Sys2Proof.Laws

/-- The three fields of the command's word. -/
def EncodesFields.Statement (i : Instr) : Prop :=
  opField (encode i) = opcode i ∧ rsvField (encode i) = 0#8 ∧ argField (encode i) = operandField i

theorem encode_fields (i : Instr) : EncodesFields.Statement i := by
  simp [EncodesFields.Statement, encode]

theorem EncodesFields.nop : EncodesFields.Statement .nop := encode_fields _
theorem EncodesFields.srst : EncodesFields.Statement .srst := encode_fields _
theorem EncodesFields.eclr : EncodesFields.Statement .eclr := encode_fields _
theorem EncodesFields.rdcsr (a : BitVec 8) : EncodesFields.Statement (.rdcsr a) := encode_fields _
theorem EncodesFields.arg (a : BitVec 16) : EncodesFields.Statement (.arg a) := encode_fields _
theorem EncodesFields.mclr : EncodesFields.Statement .mclr := encode_fields _
theorem EncodesFields.mcnt (a : BitVec 16) : EncodesFields.Statement (.mcnt a) := encode_fields _
theorem EncodesFields.mload (a : BitVec 16) : EncodesFields.Statement (.mload a) := encode_fields _
theorem EncodesFields.mfin (a : OrdMode) : EncodesFields.Statement (.mfin a) := encode_fields _
theorem EncodesFields.mtot : EncodesFields.Statement .mtot := encode_fields _
theorem EncodesFields.mivl (a : BitVec 16) : EncodesFields.Statement (.mivl a) := encode_fields _
theorem EncodesFields.msat (a : BitVec 16) : EncodesFields.Statement (.msat a) := encode_fields _
theorem EncodesFields.iclr : EncodesFields.Statement .iclr := encode_fields _
theorem EncodesFields.ipush (a : BitVec 8) : EncodesFields.Statement (.ipush a) := encode_fields _
theorem EncodesFields.itrim (a : BitVec 3) : EncodesFields.Statement (.itrim a) := encode_fields _
theorem EncodesFields.oread : EncodesFields.Statement .oread := encode_fields _
theorem EncodesFields.xfer : EncodesFields.Statement .xfer := encode_fields _
theorem EncodesFields.orwd : EncodesFields.Statement .orwd := encode_fields _
theorem EncodesFields.rcei : EncodesFields.Statement .rcei := encode_fields _
theorem EncodesFields.rce (a : BitVec 16) : EncodesFields.Statement (.rce a) := encode_fields _
theorem EncodesFields.rcef : EncodesFields.Statement .rcef := encode_fields _
theorem EncodesFields.rcdi : EncodesFields.Statement .rcdi := encode_fields _
theorem EncodesFields.rcd : EncodesFields.Statement .rcd := encode_fields _
theorem EncodesFields.rcdf : EncodesFields.Statement .rcdf := encode_fields _
theorem EncodesFields.raei (a : RaMode) : EncodesFields.Statement (.raei a) := encode_fields _
theorem EncodesFields.rae (a : BitVec 16) : EncodesFields.Statement (.rae a) := encode_fields _
theorem EncodesFields.raef : EncodesFields.Statement .raef := encode_fields _
theorem EncodesFields.radi (a : RaMode) : EncodesFields.Statement (.radi a) := encode_fields _
theorem EncodesFields.rad : EncodesFields.Statement .rad := encode_fields _
theorem EncodesFields.radf : EncodesFields.Statement .radf := encode_fields _
theorem EncodesFields.hbld : EncodesFields.Statement .hbld := encode_fields _
theorem EncodesFields.hei : EncodesFields.Statement .hei := encode_fields _
theorem EncodesFields.he (a : BitVec 16) : EncodesFields.Statement (.he a) := encode_fields _
theorem EncodesFields.hef : EncodesFields.Statement .hef := encode_fields _
theorem EncodesFields.hdi : EncodesFields.Statement .hdi := encode_fields _
theorem EncodesFields.hd : EncodesFields.Statement .hd := encode_fields _
theorem EncodesFields.hdf : EncodesFields.Statement .hdf := encode_fields _

end Sys2Proof.Laws
end

