-- ==== Sys2Proof/Laws/Range.lean ====
section
/-! SUPPORT. Said once: all that the renormalisation loops and the window load of the range coder (spec R153 to R159) can
do: where they end, that they end, and that the decoder's loop keeps step with the encoder's. -/

namespace Sys2Proof.Machine

/-- What ceiling division is. -/
theorem cdiv_le_iff {a t d : Nat} (ht : 0 < t) : cdiv a t ≤ d ↔ a ≤ d * t := by
  unfold cdiv
  rw [← Nat.lt_succ_iff, Nat.div_lt_iff_lt_mul ht, Nat.succ_mul]
  omega

/-- The lower end of a narrowed interval. -/
@[simp] theorem narrow_fst (low r t cl ch : Nat) : (narrow low r t cl ch).1 = low + cdiv (r * cl) t := rfl

/-- The upper end of a narrowed interval, inclusive. -/
@[simp] theorem narrow_snd (low r t cl ch : Nat) : (narrow low r t cl ch).2 = low + cdiv (r * ch) t - 1 := rfl

@[simp] theorem emit_length (b : Bool) (pend : Nat) : (emit b pend).length = pend + 1 := by simp [emit]

/-- The interval is one at which the loop of R154 ends. -/
def Settled (nl nh : Nat) : Prop :=
  ¬ nh < Config.rcHalf ∧ ¬ Config.rcHalf ≤ nl ∧ ¬ (Config.rcQtr ≤ nl ∧ nh < Config.rc3Qtr)

/-- Everything `RenormE` can answer with: a settled interval inside 32 bits, and the earlier bits kept. -/
theorem renormE_ok {tests nl nh pend : Nat} {out : List Bool} {r : Renormed} (h1 : nl ≤ nh) (h2 : nh < 2 ^ 32)
    (h : renormE tests nl nh pend out = .ok r) :
    r.nl ≤ r.nh ∧ r.nh < 2 ^ 32 ∧ Settled r.nl r.nh ∧ (r.pend ≤ pend ∨ r.pend ≤ 0xFFFFFFFF) ∧ ∃ w, r.out = out ++ w := by
  induction tests generalizing nl nh pend out with
  | zero => cases h
  | succ tests ih =>
    unfold renormE at h
    simp only [Config.rcHalf, Config.rcQtr, Config.rc3Qtr] at h
    split at h
    · obtain ⟨g1, g2, g3, g4, w, g5⟩ := ih (by omega) (by omega) h
      exact ⟨g1, g2, g3, by omega, _, by rw [g5, List.append_assoc]⟩
    · split at h
      · obtain ⟨g1, g2, g3, g4, w, g5⟩ := ih (by omega) (by omega) h
        exact ⟨g1, g2, g3, by omega, _, by rw [g5, List.append_assoc]⟩
      · split at h
        · split at h
          · cases h
          · obtain ⟨g1, g2, g3, g4, w, g5⟩ := ih (by omega) (by omega) h
            exact ⟨g1, g2, g3, by omega, w, g5⟩
        · next c1 c2 c3 =>
          cases h
          exact ⟨h1, h2, ⟨c1, c2, c3⟩, .inl le_rfl, [], (List.append_nil _).symm⟩

/-- `RenormE` never runs out of tests: the width doubles every pass, and above `2^31` no case holds. -/
theorem renormE_total {tests nl nh pend : Nat} {out : List Bool} (h1 : nl ≤ nh) (h2 : nh < 2 ^ 32)
    (hw : 2 ^ 32 ≤ (nh - nl + 1) * 2 ^ tests) :
    (∃ r, renormE (tests + 1) nl nh pend out = .ok r) ∨ renormE (tests + 1) nl nh pend out = raised .capacity := by
  induction tests generalizing nl nh pend out with
  | zero =>
    unfold renormE
    simp only [Config.rcHalf, Config.rcQtr, Config.rc3Qtr]
    rw [if_neg (by omega), if_neg (by omega), if_neg (by omega)]
    exact .inl ⟨_, rfl⟩
  | succ tests ih =>
    rw [Nat.pow_succ] at hw
    rw [renormE]
    simp only [Config.rcHalf, Config.rcQtr, Config.rc3Qtr]
    have key : ∀ b : Nat, b ≤ nl → 2 ^ 32 ≤ (2 * (nh - b) + 1 - 2 * (nl - b) + 1) * 2 ^ tests := by
      intro b hb
      rw [show 2 * (nh - b) + 1 - 2 * (nl - b) + 1 = (nh - nl + 1) * 2 by omega]
      calc 2 ^ 32 ≤ (nh - nl + 1) * (2 ^ tests * 2) := hw
        _ = _ := by ring
    split
    · exact ih (by omega) (by omega) (by simpa using key 0 (Nat.zero_le _))
    · split
      · exact ih (by omega) (by omega) (key _ (by omega))
      · split
        · split
          · exact .inr rfl
          · exact ih (by omega) (by omega) (key _ (by omega))
        · exact .inl ⟨_, rfl⟩

/-- Everything `RenormD` can answer with: a settled interval inside 32 bits that still holds the window. -/
theorem renormD_ok {s : State} {tests nl nh v bp : Nat} {q : RenormedD} (h1 : nl ≤ v) (h2 : v ≤ nh) (h3 : nh < 2 ^ 32)
    (h : renormD s tests nl nh v bp = .ok q) :
    q.nl ≤ q.v ∧ q.v ≤ q.nh ∧ q.nh < 2 ^ 32 ∧ Settled q.nl q.nh ∧ bp ≤ q.bp ∧ q.bp ≤ bp + tests := by
  induction tests generalizing nl nh v bp with
  | zero => cases h
  | succ tests ih =>
    unfold renormD at h
    simp only [Config.rcHalf, Config.rcQtr, Config.rc3Qtr] at h
    have hb : ∀ b : Bool, b.toNat ≤ 1 := by decide
    split at h
    · obtain ⟨b, -, h⟩ := Comp.bind_eq_ok.1 h
      have := hb b
      obtain ⟨g1, g2, g3, g4, g5, g6⟩ := ih (by omega) (by omega) (by omega) h
      exact ⟨g1, g2, g3, g4, by omega, by omega⟩
    · split at h
      · obtain ⟨b, -, h⟩ := Comp.bind_eq_ok.1 h
        have := hb b
        obtain ⟨g1, g2, g3, g4, g5, g6⟩ := ih (by omega) (by omega) (by omega) h
        exact ⟨g1, g2, g3, g4, by omega, by omega⟩
      · split at h
        · obtain ⟨b, -, h⟩ := Comp.bind_eq_ok.1 h
          have := hb b
          obtain ⟨g1, g2, g3, g4, g5, g6⟩ := ih (by omega) (by omega) (by omega) h
          exact ⟨g1, g2, g3, g4, by omega, by omega⟩
        · next c1 c2 c3 =>
          cases h
          exact ⟨h1, h2, h3, ⟨c1, c2, c3⟩, Nat.le_refl _, Nat.le_add_right _ _⟩

/-- `RenormD` never runs out of tests, where every input bit can be read. -/
theorem renormD_total {s : State} (hs : ∀ i, ∃ b, getBit s i = .ok b) {tests nl nh v bp : Nat} (h1 : nl ≤ nh)
    (h2 : nh < 2 ^ 32) (hw : 2 ^ 32 ≤ (nh - nl + 1) * 2 ^ tests) : ∃ q, renormD s (tests + 1) nl nh v bp = .ok q := by
  induction tests generalizing nl nh v bp with
  | zero =>
    unfold renormD
    simp only [Config.rcHalf, Config.rcQtr, Config.rc3Qtr]
    rw [if_neg (by omega), if_neg (by omega), if_neg (by omega)]
    exact ⟨_, rfl⟩
  | succ tests ih =>
    rw [Nat.pow_succ] at hw
    rw [renormD]
    simp only [Config.rcHalf, Config.rcQtr, Config.rc3Qtr]
    have key : ∀ b : Nat, b ≤ nl → 2 ^ 32 ≤ (2 * (nh - b) + 1 - 2 * (nl - b) + 1) * 2 ^ tests := by
      intro b hb
      rw [show 2 * (nh - b) + 1 - 2 * (nl - b) + 1 = (nh - nl + 1) * 2 by omega]
      calc 2 ^ 32 ≤ (nh - nl + 1) * (2 ^ tests * 2) := hw
        _ = _ := by ring
    obtain ⟨b, hb⟩ := hs bp
    split
    · rw [hb, Comp.bind_ok]
      exact ih (by omega) (by omega) (by simpa using key 0 (Nat.zero_le _))
    · split
      · rw [hb, Comp.bind_ok]
        exact ih (by omega) (by omega) (key _ (by omega))
      · split
        · rw [hb, Comp.bind_ok]
          exact ih (by omega) (by omega) (key _ (by omega))
        · exact ⟨_, rfl⟩

/-- R159: the decoder's loop takes the same branches as the encoder's: it leaves the same interval, and takes one input bit
for every bit the encoder emits or leaves pending. -/
theorem renormD_follows_renormE {s : State} {tests nl nh pend v bp : Nat} {out : List Bool} {r : Renormed} {q : RenormedD}
    (hr : renormE tests nl nh pend out = .ok r) (hq : renormD s tests nl nh v bp = .ok q) :
    q.nl = r.nl ∧ q.nh = r.nh ∧ q.bp + (out.length + pend) = bp + (r.out.length + r.pend) := by
  induction tests generalizing nl nh pend v bp out with
  | zero => cases hr
  | succ tests ih =>
    unfold renormE at hr
    unfold renormD at hq
    split at hr
    · next c => 
      rw [if_pos c] at hq
      obtain ⟨b, -, hq⟩ := Comp.bind_eq_ok.1 hq
      obtain ⟨g1, g2, g3⟩ := ih hr hq
      rw [List.length_append, emit_length] at g3
      exact ⟨g1, g2, by omega⟩
    · next c =>
      rw [if_neg c] at hq
      split at hr
      · next c =>
        rw [if_pos c] at hq
        obtain ⟨b, -, hq⟩ := Comp.bind_eq_ok.1 hq
        obtain ⟨g1, g2, g3⟩ := ih hr hq
        rw [List.length_append, emit_length] at g3
        exact ⟨g1, g2, by omega⟩
      · next c =>
        rw [if_neg c] at hq
        split at hr
        · next c =>
          rw [if_pos c] at hq
          split at hr
          · cases hr
          · obtain ⟨b, -, hq⟩ := Comp.bind_eq_ok.1 hq
            obtain ⟨g1, g2, g3⟩ := ih hr hq
            exact ⟨g1, g2, by omega⟩
        · next c =>
          rw [if_neg c] at hq
          cases hr; cases hq
          exact ⟨rfl, rfl, rfl⟩

/-- All that the window load can answer with: the earlier window shifted up by the listed bits. -/
theorem loadWindow_ok {s : State} {l : List Nat} {v w : Nat} (h : loadWindow s l v = .ok w) :
    v * 2 ^ l.length ≤ w ∧ w < (v + 1) * 2 ^ l.length := by
  induction l generalizing v with
  | nil => cases h; simp
  | cons i is ih =>
    obtain ⟨b, -, h⟩ := Comp.bind_eq_ok.1 h
    obtain ⟨h1, h2⟩ := ih h
    have hb : b.toNat ≤ 1 := by cases b <;> decide
    rw [List.length_cons, Nat.pow_succ]
    constructor
    · calc v * (2 ^ is.length * 2) = 2 * v * 2 ^ is.length := by ring
        _ ≤ (2 * v + b.toNat) * 2 ^ is.length := Nat.mul_le_mul_right _ (by omega)
        _ ≤ w := h1
    · calc w < (2 * v + b.toNat + 1) * 2 ^ is.length := h2
        _ ≤ (2 * v + 2) * 2 ^ is.length := Nat.mul_le_mul_right _ (by omega)
        _ = (v + 1) * (2 ^ is.length * 2) := by ring

end Sys2Proof.Machine
end

