-- ==== Sys2Proof/Laws/Rans.lean ====
section
/-! SUPPORT. Said once: all that the loops of the rANS coder (spec R174, R176, R179) can do. -/

namespace Sys2Proof.Machine

/-- Everything `RenormRE` can answer with: the state below the bound, shifted down by the bytes that went out. -/
theorem renormRE_ok {xmax tests x y : Nat} {out bytes : List Byte} (h : renormRE xmax tests x out = .ok (y, bytes)) :
    y < xmax ∧ ∃ w, bytes = out ++ w ∧ y = x / 256 ^ w.length := by
  induction tests generalizing x out with
  | zero => cases h
  | succ tests ih =>
    unfold renormRE at h
    split at h
    · obtain ⟨h1, w, h2, h3⟩ := ih h
      refine ⟨h1, BitVec.ofNat 8 (x % Config.raB) :: w, by rw [h2, List.append_assoc]; rfl, ?_⟩
      rw [h3, List.length_cons, Nat.pow_succ', Nat.div_div_eq_div_mul]
    · next c => cases h; exact ⟨Nat.lt_of_not_le c, [], (List.append_nil _).symm, by simp⟩

/-- `RenormRE` never runs out of tests. -/
theorem renormRE_total {xmax tests x : Nat} {out : List Byte} (h : x < xmax * 256 ^ tests) :
    ∃ r, renormRE xmax (tests + 1) x out = .ok r := by
  induction tests generalizing x out with
  | zero => exact ⟨_, by rw [renormRE, if_neg (by omega)]⟩
  | succ tests ih =>
    rw [renormRE]
    split
    · exact ih (by rw [Nat.div_lt_iff_lt_mul (by decide)]; rw [Nat.pow_succ] at h; rwa [Nat.mul_assoc])
    · exact ⟨_, rfl⟩

/-- A refill that is not needed reads nothing. -/
theorem replenish_of_le {s : State} {l x : Nat} (h : l ≤ x) (rp : Nat) : replenish s l x rp = .ok (x, rp) := by
  cases rp <;> simp [replenish, Nat.not_lt.2 h]

/-- A refill that is needed and finds no byte. -/
theorem replenish_zero {s : State} {l x : Nat} (h : x < l) : replenish s l x 0 = raised .corruptStream := by
  simp [replenish, h]

/-- A refill that is needed takes the byte below the cursor into the low end of the state. -/
theorem replenish_succ {s : State} {l x rp : Nat} {v : Byte} (h : x < l) (hr : rp < Config.bufCap)
    (hv : s.ibuf.find rp = some v) : replenish s l x (rp + 1) = replenish s l (x * 256 + v.toNat) rp := by
  rw [replenish, if_pos h, getByteBack_ok.2 ⟨rfl, hr, hv⟩]
  rfl

/-- Everything the refill can answer with. -/
theorem replenish_ok {s : State} {l x y rp rq : Nat} (h : replenish s l x rp = .ok (y, rq)) :
    l ≤ y ∧ rq ≤ rp ∧ x * 256 ^ (rp - rq) ≤ y ∧ y < (x + 1) * 256 ^ (rp - rq) := by
  induction rp generalizing x with
  | zero =>
    unfold replenish at h
    split at h
    · cases h
    · cases h; simp; omega
  | succ rp ih =>
    unfold replenish at h
    split at h
    · obtain ⟨b, -, h⟩ := Comp.bind_eq_ok.1 h
      obtain ⟨h1, h2, h3, h4⟩ := ih h
      have hb := b.1.isLt
      unfold Config.raB at h3 h4
      rw [show rp + 1 - rq = rp - rq + 1 by omega, Nat.pow_succ']
      refine ⟨h1, by omega, ?_, ?_⟩
      · calc x * (256 * 256 ^ (rp - rq)) = x * 256 * 256 ^ (rp - rq) := by ring
          _ ≤ (x * 256 + b.1.toNat) * 256 ^ (rp - rq) := Nat.mul_le_mul_right _ (by omega)
          _ ≤ y := h3
      · calc y < (x * 256 + b.1.toNat + 1) * 256 ^ (rp - rq) := h4
          _ ≤ (x * 256 + 256) * 256 ^ (rp - rq) := Nat.mul_le_mul_right _ (by omega)
          _ = (x + 1) * (256 * 256 ^ (rp - rq)) := by ring
    · cases h; simp; omega

/-- Everything the load of the state's bytes can answer with: the cursor moved down by the bytes read, the state shifted
up by as many. -/
theorem loadBack_ok {s : State} {n x y rp rq : Nat} (h : loadBack s n x rp = .ok (y, rq)) :
    rp = rq + n ∧ x * 256 ^ n ≤ y ∧ y < (x + 1) * 256 ^ n := by
  induction n generalizing x rp with
  | zero => cases h; simp
  | succ n ih =>
    obtain ⟨⟨b, rm⟩, hb, h⟩ := Comp.bind_eq_ok.1 h
    obtain ⟨h1, h2, h3⟩ := ih h
    obtain ⟨rfl, -, -⟩ := getByteBack_ok.1 hb
    have := b.isLt
    simp only at h1 h2 h3
    rw [Nat.pow_succ']
    refine ⟨by omega, ?_, ?_⟩
    · calc x * (256 * 256 ^ n) = x * 256 * 256 ^ n := by ring
        _ ≤ (x * 256 + b.toNat) * 256 ^ n := Nat.mul_le_mul_right _ (by omega)
        _ ≤ y := h2
    · calc y < (x * 256 + b.toNat + 1) * 256 ^ n := h3
        _ ≤ (x * 256 + 256) * 256 ^ n := Nat.mul_le_mul_right _ (by omega)
        _ = (x + 1) * (256 * 256 ^ n) := by ring

/-- The state's bytes are eight. -/
@[simp] theorem stateBytes_length (x : BitVec 64) : (stateBytes x).length = 8 := by simp [stateBytes]

end Sys2Proof.Machine
end

