-- ==== Sys2Proof/Machine/Pseudo.lean ====
section
/-! DEFINITION. The pseudo-instructions of the assembler syntax and their expansions (spec R99). -/

namespace Sys2Proof.Machine

/-- The ten pseudo-instructions of R99; symbols as their 16-bit encodings. -/
inductive Pseudo where
  | madd (sym n : BitVec 16)
  | mbuild (ord : OrdMode) (syms : List (BitVec 16))
  | rcenc (syms : List (BitVec 16))
  | rcdec (n : Nat)
  | raenc (mode : RaMode) (syms : List (BitVec 16))
  | radec (mode : RaMode) (n : Nat)
  | henc (syms : List (BitVec 16))
  | hdec (n : Nat)
  | rdstate
  | input (pad : BitVec 3) (bytes : List Byte)
deriving DecidableEq, Repr

/-- The expansion of each pseudo-instruction (R99). `RAENC` feeds the symbols in reverse. -/
def Pseudo.expand : Pseudo → List Instr
  | .madd sym n => [.arg n, .mload sym]
  | .mbuild ord syms => .mclr :: syms.map .mcnt ++ [.mfin ord]
  | .rcenc syms => .rcei :: syms.map .rce ++ [.rcef]
  | .rcdec n => .rcdi :: List.replicate n .rcd ++ [.rcdf]
  | .raenc mode syms => .raei mode :: syms.reverse.map .rae ++ [.raef]
  | .radec mode n => .radi mode :: List.replicate n .rad ++ [.radf]
  | .henc syms => .hei :: syms.map .he ++ [.hef]
  | .hdec n => .hdi :: List.replicate n .hd ++ [.hdf]
  | .rdstate => [.rdcsr 0x18#8, .rdcsr 0x19#8]
  | .input pad bytes => .iclr :: bytes.map .ipush ++ [.itrim pad]

end Sys2Proof.Machine
end

