-- ==== Sys2Proof/Machine/Assembler.lean ====
section
/-! DEFINITION. The assembler syntax (spec R98, R99): one line of text to the commands it stands for. The spec leaves the
white space, the letters of hexadecimal digits and the blank line open; log entry 11 says what this file does. -/

namespace Sys2Proof.Machine

/-- A decimal digit's value. -/
def decDigit (c : Char) : Option Nat :=
  if 48 ≤ c.toNat ∧ c.toNat ≤ 57 then some (c.toNat - 48) else none

/-- A hexadecimal digit's value, either case (log entry 11). -/
def hexDigit (c : Char) : Option Nat :=
  if 65 ≤ c.toNat ∧ c.toNat ≤ 70 then some (c.toNat - 55)
  else if 97 ≤ c.toNat ∧ c.toNat ≤ 102 then some (c.toNat - 87)
  else decDigit c

/-- A number in base `b` from its digits, most significant first; there is at least one digit. -/
def digits (digit : Char → Option Nat) (b : Nat) : List Char → Option Nat
  | [] => none
  | c :: cs => cs.foldl (fun acc d => acc.bind fun n => (digit d).map (b * n + ·)) (digit c)

/-- An operand's number: "a decimal integer with optional minus sign, or `0x` hexadecimal" (R98). -/
inductive Literal where
  | dec (n : Int)
  | hex (n : Nat)
deriving DecidableEq, Repr

/-- Reads an operand's number (R98). -/
def readLiteral : List Char → Option Literal
  | '0' :: 'x' :: cs => (digits hexDigit 16 cs).map .hex
  | '-' :: cs => (digits decDigit 10 cs).map fun n => .dec (-(n : Int))
  | cs => (digits decDigit 10 cs).map fun n => .dec n

/-- A symbol operand: -32768..32767, or `0x0000`..`0xFFFF` as the raw field (R98). -/
def readSym (cs : List Char) : Option (BitVec 16) :=
  match readLiteral cs with
  | some (.dec n) => if -32768 ≤ n ∧ n ≤ 32767 then some (BitVec.ofInt 16 n) else none
  | some (.hex n) => if n ≤ 0xFFFF then some (BitVec.ofNat 16 n) else none
  | none => none

/-- An unsigned operand of at most `top` (R98). -/
def readNat (top : Nat) (cs : List Char) : Option Nat :=
  match readLiteral cs with
  | some (.dec n) => if 0 ≤ n ∧ n ≤ top then some n.toNat else none
  | some (.hex n) => if n ≤ top then some n else none
  | none => none

/-- An ordering operand: 0..3 or its name (R98). -/
def readOrd (cs : List Char) : Option OrdMode :=
  if cs = ['C', 'V'] then some .cv
  else if cs = ['V'] then some .v
  else if cs = ['C', 'I'] then some .ci
  else if cs = ['I'] then some .i
  else (readNat 3 cs).map fun n => ordOfBits (BitVec.ofNat 2 n)

/-- A rANS mode operand: 0..1 or its name (R98). -/
def readMode (cs : List Char) : Option RaMode :=
  if cs = ['R', 'A', 'W'] then some .raw
  else if cs = ['S', 'T', 'R', 'E', 'A', 'M'] then some .stream
  else (readNat 1 cs).map fun n => modeOfBits (BitVec.ofNat 1 n)

/-- A command without operand. -/
def opNone (i : Instr) : List (List Char) → Option (List Instr)
  | [] => some [i]
  | _ => none

/-- A command with the one operand that `read` reads. -/
def opOne {α : Type} (read : List Char → Option α) (f : α → Instr) : List (List Char) → Option (List Instr)
  | [cs] => (read cs).map fun a => [f a]
  | _ => none

/-- Every operand read by `read`. -/
def readAll {α : Type} (read : List Char → Option α) : List (List Char) → Option (List α)
  | [] => some []
  | cs :: rest => (read cs).bind fun a => (readAll read rest).map (a :: ·)

/-- A pseudo-instruction with a first operand and a list (R99). -/
def opHeadList {α β : Type} (readHead : List Char → Option α) (read : List Char → Option β) (f : α → List β → Pseudo) :
    List (List Char) → Option (List Instr)
  | [] => none
  | cs :: rest => (readHead cs).bind fun a => (readAll read rest).map fun bs => (f a bs).expand

/-- An 8-bit operand (format `B`). -/
def readByte (cs : List Char) : Option (BitVec 8) := (readNat 255 cs).map (BitVec.ofNat 8)

/-- A 16-bit unsigned operand (format `U`). -/
def readImm (cs : List Char) : Option (BitVec 16) := (readNat 65535 cs).map (BitVec.ofNat 16)

/-- A 3-bit operand (format `T`). -/
def readPad (cs : List Char) : Option (BitVec 3) := (readNat 7 cs).map (BitVec.ofNat 3)

/-- A repetition count; R99 gives no bound and this reads up to 2^32 - 1 (log entry 11). -/
def readCount (cs : List Char) : Option Nat := readNat 0xFFFFFFFF cs

/-- The mnemonics of R93 and R99, each with how its operands are read. -/
def mnemonics : List (String × (List (List Char) → Option (List Instr))) :=
  [("NOP", opNone .nop), ("SRST", opNone .srst), ("ECLR", opNone .eclr), ("RDCSR", opOne readByte .rdcsr),
   ("ARG", opOne readImm .arg), ("MCLR", opNone .mclr), ("MCNT", opOne readSym .mcnt), ("MLOAD", opOne readSym .mload),
   ("MFIN", opOne readOrd .mfin), ("MTOT", opNone .mtot), ("MIVL", opOne readSym .mivl), ("MSAT", opOne readImm .msat)] ++
  [("ICLR", opNone .iclr), ("IPUSH", opOne readByte .ipush), ("ITRIM", opOne readPad .itrim), ("OREAD", opNone .oread),
   ("XFER", opNone .xfer), ("ORWD", opNone .orwd), ("RCEI", opNone .rcei), ("RCE", opOne readSym .rce),
   ("RCEF", opNone .rcef), ("RCDI", opNone .rcdi), ("RCD", opNone .rcd), ("RCDF", opNone .rcdf)] ++
  [("RAEI", opOne readMode .raei), ("RAE", opOne readSym .rae), ("RAEF", opNone .raef), ("RADI", opOne readMode .radi),
   ("RAD", opNone .rad), ("RADF", opNone .radf), ("HBLD", opNone .hbld), ("HEI", opNone .hei), ("HE", opOne readSym .he),
   ("HEF", opNone .hef), ("HDI", opNone .hdi), ("HD", opNone .hd), ("HDF", opNone .hdf)] ++
  [("MADD", fun l => match l with
      | [s, n] => (readSym s).bind fun s => (readImm n).map fun n => (Pseudo.madd s n).expand
      | _ => none),
   ("MBUILD", opHeadList readOrd readSym .mbuild),
   ("RCENC", fun l => (readAll readSym l).map fun ss => (Pseudo.rcenc ss).expand),
   ("RCDEC", fun l => match l with
      | [n] => (readCount n).map fun n => (Pseudo.rcdec n).expand
      | _ => none),
   ("RAENC", opHeadList readMode readSym .raenc),
   ("RADEC", fun l => match l with
      | [m, n] => (readMode m).bind fun m => (readCount n).map fun n => (Pseudo.radec m n).expand
      | _ => none),
   ("HENC", fun l => (readAll readSym l).map fun ss => (Pseudo.henc ss).expand),
   ("HDEC", fun l => match l with
      | [n] => (readCount n).map fun n => (Pseudo.hdec n).expand
      | _ => none),
   ("RDSTATE", fun l => match l with
      | [] => some Pseudo.rdstate.expand
      | _ => none),
   ("INPUT", opHeadList readPad readByte .input)]

/-- Space and tab (log entry 11). -/
def isBlank (c : Char) : Bool := c = ' ' || c = '\t'

/-- A text without the blanks at its two ends. -/
def trim (cs : List Char) : List Char := ((cs.dropWhile isBlank).reverse.dropWhile isBlank).reverse

/-- The pieces of a text between commas, trimmed; the blank text has none. -/
def pieces (cs : List Char) : List (List Char) :=
  if trim cs = [] then []
  else
    let step := fun (c : Char) (acc : List (List Char)) =>
      match acc with
      | [] => [[c]]
      | p :: ps => if c = ',' then [] :: p :: ps else (c :: p) :: ps
    (cs.foldr step [[]]).map trim

/-- One line of assembler text (R98): comment from `;`, mnemonic, operands; `none` if it is not a line of the syntax. A
blank line stands for no command (log entry 11). -/
def assembleLine (line : List Char) : Option (List Instr) :=
  let text := trim (line.takeWhile (· ≠ ';'))
  if text = [] then some []
  else
    let name := text.takeWhile (fun c => !isBlank c)
    match mnemonics.find? (fun p => p.1.toList = name) with
    | none => none
    | some p => p.2 (pieces (text.drop name.length))

/-- The words the assembler emits for a line (R98: `(op << 24) | field`). -/
def assembleWords (line : List Char) : Option (List Word) := (assembleLine line).map fun is => is.map encode

end Sys2Proof.Machine
end

