-- ==== Sys2Proof/Tests/Slice0.lean ====
section
/-! SUPPORT. The model's own tests, each a named theorem: the decoding of words written out from the spec's encodings, the
words the well-formedness check refuses, single steps with the spec's worked examples and vectors (95_test_vectors.md), and
for each obligation with hypotheses a concrete state and operands that meet all of them together (`witness_…`). -/

namespace Sys2Proof.Tests

open Sys2Proof Sys2Proof.Machine

/-! ### Decoding: every opcode's word, written out from R91 and R93 -/

theorem test_decode_system :
    decode 0x00000000#32 = .ok .nop ∧ decode 0x01000000#32 = .ok .srst ∧ decode 0x02000000#32 = .ok .eclr ∧
    decode 0x03000011#32 = .ok (.rdcsr 0x11#8) ∧ decode 0x04008001#32 = .ok (.arg 0x8001#16) := by decide

theorem test_decode_model :
    decode 0x10000000#32 = .ok .mclr ∧ decode 0x1100FFFE#32 = .ok (.mcnt 0xFFFE#16) ∧
    decode 0x12008004#32 = .ok (.mload 0x8004#16) ∧ decode 0x13000000#32 = .ok (.mfin .cv) ∧
    decode 0x13000001#32 = .ok (.mfin .v) ∧ decode 0x13000002#32 = .ok (.mfin .ci) ∧
    decode 0x13000003#32 = .ok (.mfin .i) ∧ decode 0x14000000#32 = .ok .mtot ∧
    decode 0x1500FFE0#32 = .ok (.mivl 0xFFE0#16) ∧ decode 0x1600FFFF#32 = .ok (.msat 0xFFFF#16) := by decide

theorem test_decode_bitstream :
    decode 0x20000000#32 = .ok .iclr ∧ decode 0x210000A2#32 = .ok (.ipush 0xA2#8) ∧
    decode 0x22000004#32 = .ok (.itrim 4#3) ∧ decode 0x23000000#32 = .ok .oread ∧ decode 0x24000000#32 = .ok .xfer ∧
    decode 0x25000000#32 = .ok .orwd := by decide

theorem test_decode_range :
    decode 0x30000000#32 = .ok .rcei ∧ decode 0x3100FFE0#32 = .ok (.rce 0xFFE0#16) ∧ decode 0x32000000#32 = .ok .rcef ∧
    decode 0x33000000#32 = .ok .rcdi ∧ decode 0x34000000#32 = .ok .rcd ∧ decode 0x35000000#32 = .ok .rcdf := by decide

theorem test_decode_rans :
    decode 0x40000000#32 = .ok (.raei .raw) ∧ decode 0x40000001#32 = .ok (.raei .stream) ∧
    decode 0x41000105#32 = .ok (.rae 0x0105#16) ∧ decode 0x42000000#32 = .ok .raef ∧
    decode 0x43000000#32 = .ok (.radi .raw) ∧ decode 0x43000001#32 = .ok (.radi .stream) ∧
    decode 0x44000000#32 = .ok .rad ∧ decode 0x45000000#32 = .ok .radf := by decide

theorem test_decode_huffman :
    decode 0x50000000#32 = .ok .hbld ∧ decode 0x51000000#32 = .ok .hei ∧ decode 0x52000063#32 = .ok (.he 0x63#16) ∧
    decode 0x53000000#32 = .ok .hef ∧ decode 0x54000000#32 = .ok .hdi ∧ decode 0x55000000#32 = .ok .hd ∧
    decode 0x56000000#32 = .ok .hdf := by decide

theorem test_encode_operands :
    encode (.mcnt 0xFFFE#16) = 0x1100FFFE#32 ∧ encode (.ipush 0xA2#8) = 0x210000A2#32 ∧
    encode (.itrim 7#3) = 0x22000007#32 ∧ encode (.mfin .i) = 0x13000003#32 ∧ encode (.radi .stream) = 0x43000001#32 ∧
    encode (.rdcsr 0x38#8) = 0x03000038#32 := by decide

/-! ### Well-formedness: each check refuses a word that breaks it alone (R91, R94) -/

theorem test_wellformed_accepts : wellFormedWord 0x1100FFFE#32 = true ∧ wellFormedWord 0x22000007#32 = true := by decide

/-- The reserved byte. -/
theorem test_wellformed_rsv : wellFormedWord 0x1101FFFE#32 = false ∧ decode 0x1180FFFE#32 = .error .rsvNotZero := by decide

/-- A reserved opcode between two families, and above the last. -/
theorem test_wellformed_opcode :
    wellFormedWord 0x05000000#32 = false ∧ wellFormedWord 0x57000000#32 = false ∧
    decode 0xFF000000#32 = .error .reservedOpcode := by decide

/-- A must-be-zero operand bit of each format: `N`, `B`, `T`, `O`, `M`. -/
theorem test_wellformed_operand :
    wellFormedWord 0x00000001#32 = false ∧ wellFormedWord 0x21000100#32 = false ∧ wellFormedWord 0x22000008#32 = false ∧
    wellFormedWord 0x13000004#32 = false ∧ wellFormedWord 0x40000002#32 = false ∧
    decode 0x43008001#32 = .error .operandBitsNotZero := by decide

/-! ### Assembler text (R98, R99) -/

theorem test_assemble_mcnt : assembleWords "MCNT -2".toList = some [0x1100FFFE#32] := by decide

theorem test_assemble_radec :
    assembleWords "RADEC 1, 2 ; decode".toList =
      some [0x43000001#32, 0x44000000#32, 0x44000000#32, 0x45000000#32] := by decide

/-! ### Small states -/

/-- The next state of a step, if it has one. -/
def nx (o : Host.Outcome State Fault Refusal) : Option State :=
  match o with
  | .next t => some t
  | _ => none

theorem next_of_nx {o : Host.Outcome State Fault Refusal} {t : State} (h : nx o = some t) : o = .next t := by
  cases o <;> simp_all [nx]

/-- What a test looks at in the next state. -/
def sees {α : Type} (i : Instr) (s : State) (f : State → α) : Option α := (nx (exec i s)).map f

/-- The response a command gives. -/
def answer (i : Instr) (s : State) : Option Response := (sees i s fun t => t.outbox.getLast?).join

/-- The frozen model of the spec's scenario 1 in ordering `CV` (vector V2). -/
def scenario1 : State := { State.reset with
  mstate := .frozen, mn := 6#10, mtotal := 16#16,
  mtSym := [(0, 0#16), (1, 0xFFE0#16), (2, 3#16), (3, 0xFFFE#16), (4, 0xFFF6#16), (5, 0xFFFF#16)],
  mtCnt := [(0, 7#16), (1, 2#16), (2, 2#16), (3, 3#16), (4, 1#16), (5, 1#16)],
  order := [(0, 4#9), (1, 5#9), (2, 1#9), (3, 2#9), (4, 3#9), (5, 0#9)],
  clow := [(0, 0#16), (1, 1#16), (2, 2#16), (3, 4#16), (4, 6#16), (5, 9#16)] }

/-- Scenario 1 with its Huffman tree (vector V4). -/
def tree1 : State := { scenario1 with
  htValid := true, htRoot := 10#10, htNn := 11#10,
  hnFreq := [(0, 1#16), (1, 1#16), (2, 2#16), (3, 2#16), (4, 3#16), (5, 7#16), (6, 2#16), (7, 4#16), (8, 5#16),
    (9, 9#16), (10, 16#16)],
  hnLeft := [(6, 0#10), (7, 2#10), (8, 6#10), (9, 7#10), (10, 5#10)],
  hnRight := [(6, 1#10), (7, 3#10), (8, 4#10), (9, 8#10), (10, 9#10)],
  hnLeaf := [(0, true), (1, true), (2, true), (3, true), (4, true), (5, true), (6, false), (7, false), (8, false),
    (9, false), (10, false)],
  hnOrd := [(0, 0#9), (1, 1#9), (2, 2#9), (3, 3#9), (4, 4#9), (5, 5#9)] }

/-- The frozen model of program P1: -2 in [0, 1), 1 in [1, 3). -/
def model3 : State := { State.reset with
  mstate := .frozen, mn := 2#10, mtotal := 3#16,
  mtSym := [(0, 1#16), (1, 0xFFFE#16)], mtCnt := [(0, 2#16), (1, 1#16)],
  order := [(0, 1#9), (1, 0#9)], clow := [(0, 0#16), (1, 1#16)] }

/-- The table of program P1 before `MFIN`. -/
def table3 : State := { State.reset with
  mstate := .building, mn := 2#10, mtotal := 3#16,
  mtSym := [(0, 1#16), (1, 0xFFFE#16)], mtCnt := [(0, 2#16), (1, 1#16)] }

/-- `model3` with its tree: node 2 over the two leaves. -/
def tree3 : State := { model3 with
  htValid := true, htRoot := 2#10, htNn := 3#10, hnFreq := [(0, 1#16), (1, 2#16), (2, 3#16)], hnLeft := [(2, 0#10)],
  hnRight := [(2, 1#10)], hnLeaf := [(0, true), (1, true), (2, false)], hnOrd := [(0, 0#9), (1, 1#9)] }

/-! ### One step: system -/

/-- R110. -/
theorem test_nop : answer .nop scenario1 = some ⟨none, 0#32⟩ := by decide

/-- R111's example: in `FAULT` with `ERR = 2`. -/
theorem test_srst :
    sees .srst { scenario1 with sess := .fault, err := some .corruptStream, rcHigh := 5#32 }
      (fun t => (t.sess, t.err, t.mstate, t.rcHigh)) = some (.idle, none, .empty, 0xFFFFFFFF#32) := by decide

/-- R112's example. -/
theorem test_eclr :
    sees .eclr { scenario1 with sess := .fault, err := some .corruptStream, errinfo := 0x55000000#32 }
      (fun t => (t.sess, t.err, t.errinfo, t.mstate)) = some (.idle, none, 0#32, .frozen) := by decide

/-- R113's examples. -/
theorem test_rdcsr : answer (.rdcsr 0x11#8) State.reset = some ⟨none, 0xFFFFFFFF#32⟩ ∧
    answer (.rdcsr 0x05#8) State.reset = some ⟨some .illegalCommand, 0#32⟩ := by decide

/-- `RA_STATE` is read low word first (vector V6). -/
theorem test_rdcsr_state : answer (.rdcsr 0x18#8) { State.reset with raState := 0x20F6157F76#64 } =
      some ⟨none, 0xF6157F76#32⟩ ∧
    answer (.rdcsr 0x19#8) { State.reset with raState := 0x20F6157F76#64 } = some ⟨none, 0x20#32⟩ := by decide

/-- R114's example, and R216: `ARG` is refused in `FAULT`. -/
theorem test_arg : sees (.arg 7#16) State.reset (fun t => t.arg) = some 7#16 ∧
    sees (.arg 7#16) { State.reset with sess := .fault, err := some .capacity } (fun t => (t.arg, t.err, t.outbox)) =
      some (0#16, some .capacity, [⟨some .illegalCommand, 0#32⟩]) := by decide

/-! ### One step: bitstream -/

/-- R120's example. -/
theorem test_iclr : sees .iclr { State.reset with ilen := 5#32, ipad := 3#3, ibp := 9#32, irp := 2#32 }
    (fun t => (t.ilen, t.ipad, t.ibp, t.irp)) = some (0#32, 0#3, 0#32, 0#32) := by decide

/-- R121's example. -/
theorem test_ipush : sees (.ipush 0xA2#8) State.reset (fun t => (t.ibuf, t.ilen)) = some ([(0, 0xA2#8)], 1#32) := by decide

theorem test_ipush_full : answer (.ipush 0xA2#8) { State.reset with ilen := 65536#32 } = some ⟨some .capacity, 0#32⟩ := by
  decide

/-- R122's example. -/
theorem test_itrim : sees (.itrim 4#3) { State.reset with ilen := 5#32 } (fun t => (t.ipad, t.ibitlen)) =
    some (4#3, 36) := by decide

/-- R122: no byte to trim. -/
theorem test_itrim_empty : answer (.itrim 1#3) State.reset = some ⟨some .illegalCommand, 0#32⟩ := by decide

/-- R123's example (program P3). -/
theorem test_oread :
    sees .oread { State.reset with obuf := [(0, 0x2C#8)], obitlen := 6#32 } (fun t => (t.ordp, t.outbox)) =
      some (1#32, [⟨none, 0x2C#32⟩]) := by decide

/-- R124's example. -/
theorem test_xfer :
    sees .xfer { State.reset with
      obuf := [(0, 0xA2#8), (1, 0x33#8), (2, 0x13#8), (3, 0x10#8), (4, 0xA8#8)], obitlen := 37#32, ordp := 2#32 }
      (fun t => (t.ibuf, t.ilen, t.ipad, t.obitlen, t.ordp)) =
    some ([(0, 0xA2#8), (1, 0x33#8), (2, 0x13#8), (3, 0x10#8), (4, 0xA8#8)], 5#32, 3#3, 0#32, 0#32) := by decide

/-- R125's example. -/
theorem test_orwd : sees .orwd { State.reset with ordp := 5#32 } (fun t => t.ordp) = some 0#32 := by decide

/-! ### One step: frequency model -/

/-- R134's example. -/
theorem test_mclr : sees .mclr tree1 (fun t => (t.mstate, t.mn, t.mtotal, t.htValid, t.htRoot)) =
    some (.empty, 0#10, 0#16, false, 0#10) := by decide

/-- R135: a second slot. -/
theorem test_mcnt :
    sees (.mcnt 0xFFFE#16) { State.reset with
      mstate := .building, mn := 1#10, mtotal := 2#16, mtSym := [(0, 1#16)], mtCnt := [(0, 2#16)] }
      (fun t => (t.mn, t.mtotal, t.mtSym, t.mtCnt)) =
    some (2#10, 3#16, [(0, 1#16), (1, 0xFFFE#16)], [(0, 2#16), (1, 1#16)]) := by decide

/-- Vector V12 (b). -/
theorem test_mcnt_total :
    sees (.mcnt 1#16) { State.reset with
      mstate := .building, mn := 1#10, mtotal := 65535#16, mtSym := [(0, 1#16)], mtCnt := [(0, 65535#16)] }
      (fun t => (t.err, t.errinfo, t.mtotal)) = some (some .capacity, 0x11000001#32, 65535#16) := by decide

/-- R136's example. -/
theorem test_mload : sees (.mload 4#16) { State.reset with arg := 7#16 } (fun t => (t.mtSym, t.mtCnt, t.mtotal, t.arg)) =
    some ([(0, 4#16)], [(0, 7#16)], 7#16, 7#16) := by decide

/-- R136: a zero count. -/
theorem test_mload_zero : answer (.mload 4#16) State.reset = some ⟨some .illegalCommand, 0#32⟩ := by decide

/-- R137's example (vector V2). -/
theorem test_mfin :
    sees (.mfin .cv) { scenario1 with mstate := .building, order := [], clow := [] } (fun t => (t.mstate, t.order, t.clow)) =
      some (.frozen, scenario1.order, scenario1.clow) := by decide

/-- Vector V11: an empty model. -/
theorem test_mfin_empty : answer (.mfin .cv) State.reset = some ⟨some .emptyInput, 0#32⟩ := by decide

/-- R139's example. -/
theorem test_mtot : answer .mtot scenario1 = some ⟨none, 16#32⟩ := by decide

/-- R140's examples. -/
theorem test_mivl : answer (.mivl 0#16) scenario1 = some ⟨none, 0x00100009#32⟩ ∧
    answer (.mivl 0xFFE0#16) scenario1 = some ⟨none, 0x00040002#32⟩ := by decide

/-- R141's examples. -/
theorem test_msat : answer (.msat 8#16) scenario1 = some ⟨none, 0xFFFFFFFE#32⟩ ∧
    answer (.msat 16#16) scenario1 = some ⟨some .corruptStream, 0#32⟩ := by decide

/-! ### One step: range coder -/

/-- R151. -/
theorem test_rcei : sees .rcei { model3 with rcPend := 4#32, obitlen := 9#32, symcnt := 3#32 }
    (fun t => (t.sess, t.rcHigh, t.rcPend, t.obitlen, t.symcnt)) = some (.rcEnc, 0xFFFFFFFF#32, 0#32, 0#32, 0#32) := by decide

/-- Program P1, step 8. -/
theorem test_rce :
    sees (.rce 1#16) { model3 with sess := .rcEnc, rcLow := 0x55555556#32 }
      (fun t => (t.rcLow, t.rcHigh, t.obitlen, t.obuf)) = some (0x1C71C71E#32, 0xFFFFFFFF#32, 1#32, [(0, 0x80#8)]) := by
  decide

/-- Program P1, step 9. -/
theorem test_rce_low :
    sees (.rce 0xFFFE#16) { model3 with sess := .rcEnc, rcLow := 0x1C71C71E#32, obitlen := 1#32, obuf := [(0, 0x80#8)] }
      (fun t => (t.rcLow, t.rcHigh, t.obitlen, t.obuf)) = some (0x38E38E3C#32, 0xD097B427#32, 2#32, [(0, 0x80#8)]) := by
  decide

/-- Program P1, step 10. -/
theorem test_rcef :
    sees .rcef { model3 with sess := .rcEnc, rcLow := 0x38E38E3C#32, obitlen := 2#32, obuf := [(0, 0x80#8)] }
      (fun t => (t.sess, t.obitlen, t.obuf)) = some (.idle, 4#32, [(0, 0x90#8)]) := by decide

/-- R157's example, with zeros past the end. -/
theorem test_rcdi :
    sees .rcdi { model3 with ilen := 3#32, ipad := 2#3, ibuf := [(0, 0xA2#8), (1, 0x33#8), (2, 0x13#8)] }
      (fun t => (t.sess, t.rcValue, t.ibp)) = some (.rcDec, 0xA2331000#32, 32#32) := by decide

/-- Program P1, step 14. -/
theorem test_rcd :
    sees .rcd { model3 with
      sess := .rcDec, rcLow := 0x55555556#32, rcValue := 0x90000000#32, ibp := 32#32, ilen := 1#32, ipad := 4#3,
      ibuf := [(0, 0x90#8)] } (fun t => (t.rcLow, t.rcHigh, t.rcValue, t.ibp, t.outbox)) =
    some (0x1C71C71E#32, 0xFFFFFFFF#32, 0x20000000#32, 33#32, [⟨none, 1#32⟩]) := by decide

/-- R160's example. -/
theorem test_rcdf : sees .rcdf { model3 with sess := .rcDec } (fun t => t.sess) = some .idle := by decide

/-! ### One step: rANS coder -/

/-- R171's example. -/
theorem test_raei : sees (.raei .stream) scenario1 (fun t => (t.raState, t.raMode, t.sess)) =
    some (0x1000000000#64, .stream, .raEnc) := by decide

/-- The model of program P4: (0, 5, 0), (1, 2, 5), (2, 1, 7). -/
def model8 : State := { State.reset with
  mstate := .frozen, mn := 3#10, mtotal := 8#16, mord := .v, mtSym := [(0, 0#16), (1, 1#16), (2, 2#16)],
  mtCnt := [(0, 5#16), (1, 2#16), (2, 1#16)], order := [(0, 0#9), (1, 1#9), (2, 2#9)],
  clow := [(0, 0#16), (1, 5#16), (2, 7#16)] }

/-- Program P4, step 14: one renormalisation byte. -/
theorem test_rae :
    sees (.rae 1#16) { model8 with sess := .raEnc, raMode := .stream, raState := 0x4189374BCF1#64 }
      (fun t => (t.raState, t.obuf, t.obitlen)) = some (0x10624DD2F5#64, [(0, 0xF1#8)], 8#32) := by decide

/-- The state of vector V12 (a), on the model of program P1: RAW mode overflows. -/
theorem test_rae_overflow :
    sees (.rae 1#16) { model3 with sess := .raEnc, raState := 0xFFFC0005FFFC0001#64 }
      (fun t => (t.err, t.raState)) = some (some .stateOverflow, 0xFFFC0005FFFC0001#64) := by decide

/-- R175's example. -/
theorem test_raef :
    sees .raef { scenario1 with sess := .raEnc, raState := 0x20F6157F76#64 } (fun t => (t.obuf, t.obitlen, t.sess)) =
      some ([(0, 0x76#8), (1, 0x7F#8), (2, 0x15#8), (3, 0xF6#8), (4, 0x20#8), (5, 0#8), (6, 0#8), (7, 0#8)], 64#32,
        .idle) := by decide

/-- R176's example. -/
theorem test_radi :
    sees (.radi .stream) { scenario1 with
      ilen := 12#32, ibuf := [(0, 0xDA#8), (1, 0xCD#8), (2, 0xA0#8), (3, 0xB5#8), (4, 0xBF#8), (5, 0xA7#8), (6, 0x1E#8),
        (7, 0x28#8), (8, 0xC1#8), (9, 0#8), (10, 0#8), (11, 0#8)] } (fun t => (t.raState, t.irp, t.sess)) =
      some (0xC1281EA7BF#64, 4#32, .raDec) := by decide

/-- Vector V11: fewer than 8 bytes. -/
theorem test_radi_short : answer (.radi .stream) scenario1 = some ⟨some .corruptStream, 0#32⟩ := by decide

/-- Program P4, step 34: the byte is read first. -/
theorem test_rad :
    sees .rad { model8 with
      sess := .raDec, raMode := .stream, raState := 0x4189374BC#64, irp := 1#32, ilen := 9#32, ibuf := [(0, 0xF1#8)] }
      (fun t => (t.raState, t.irp, t.outbox)) = some (0x28F5C28F617#64, 0#32, [⟨none, 0#32⟩]) := by decide

/-- Program P4, step 40. -/
theorem test_rad_end :
    sees .rad { model8 with sess := .raDec, raMode := .stream, raState := 0x500000000#64 }
      (fun t => (t.err, t.raState, t.errinfo)) = some (some .corruptStream, 0x500000000#64, 0x44000000#32) := by decide

/-- R180's example. -/
theorem test_radf : sees .radf { scenario1 with sess := .raDec } (fun t => t.sess) = some .idle := by decide

/-! ### One step: Huffman coder -/

/-- Vector V4: the arena of scenario 1. -/
theorem test_hbld : sees .hbld scenario1 (fun t => (t.hnFreq, t.hnLeft, t.hnRight, t.htRoot, t.htNn)) =
    some (tree1.hnFreq, tree1.hnLeft, tree1.hnRight, 10#10, 11#10) := by decide

/-- R194's example. -/
theorem test_hei : sees .hei { tree1 with obitlen := 4#32 } (fun t => (t.sess, t.obitlen)) = some (.hfEnc, 0#32) := by decide

/-- R195's example: `HE -32` after `HE 0`. -/
theorem test_he :
    sees (.he 0xFFE0#16) { tree1 with sess := .hfEnc, obitlen := 1#32, obuf := [(0, 0#8)] } (fun t => (t.obitlen, t.obuf)) =
      some (4#32, [(0, 0x40#8)]) := by decide

/-- Vector V18 (c): an absent symbol. -/
theorem test_he_absent : answer (.he 0x63#16) { tree1 with sess := .hfEnc } = some ⟨some .alphabetMismatch, 0#32⟩ := by
  decide

/-- R196. -/
theorem test_hef : sees .hef { tree1 with sess := .hfEnc, obitlen := 3#32 } (fun t => (t.sess, t.obitlen)) =
    some (.idle, 3#32) := by decide

/-- R197's example. -/
theorem test_hdi : sees .hdi { tree1 with ibp := 7#32 } (fun t => (t.sess, t.ibp)) = some (.hfDec, 0#32) := by decide

/-- R198's example: the second `HD` reads `100`. -/
theorem test_hd :
    sees .hd { tree1 with sess := .hfDec, ibp := 1#32, ilen := 1#32, ibuf := [(0, 0x4B#8)] } (fun t => (t.ibp, t.outbox)) =
      some (4#32, [⟨none, 0xFFFFFFE0#32⟩]) := by decide

/-- Vector V4: the stream ends inside a code. -/
theorem test_hd_truncated :
    sees .hd { tree1 with sess := .hfDec, ibp := 5#32, ilen := 1#32, ibuf := [(0, 0x4E#8)] } (fun t => (t.ibp, t.err)) =
      some (5#32, some .corruptStream) := by decide

/-- R199's example. -/
theorem test_hdf : sees .hdf { tree1 with sess := .hfDec } (fun t => t.sess) = some .idle := by decide

/-! ### One step at the port -/

/-- Vector V15: a reserved opcode. -/
theorem test_step_ill_formed :
    (nx (step (State.reset.withFetchWord 32 0x7F000000))).map (fun t => (t.sess, t.err, t.errinfo, t.inbox)) =
      some (.fault, some .illegalCommand, 0x7F000000#32, []) := by decide

theorem test_step_word :
    (nx (step (State.reset.withFetchWord 32 0x0400FFFF))).map (fun t => (t.arg, t.outbox, t.inbox)) =
      some (0xFFFF#16, [⟨none, 0#32⟩], []) := by decide

/-! ### Witnesses: states that meet the hypotheses of the obligations -/

theorem runs {i : Instr} {s : State} (h : (nx (exec i s)).isSome = true) : ∃ t, exec i s = .next t := by
  cases hx : exec i s <;> simp_all [nx]

/-- The cells `i ↦ f i` for `i < n`. -/
def table {α : Type} (n : Nat) (f : Nat → α) : Cells α := (List.range n).map fun i => (i, f i)

theorem find_map {α : Type} (f : Nat → α) {l : List Nat} {i : Nat} (h : i ∈ l) :
    Cells.find (l.map fun j => (j, f j)) i = some (f i) := by
  induction l with
  | nil => cases h
  | cons k ks ih =>
    rw [List.map_cons, Cells.find_cons]
    by_cases hk : k = i
    · rw [if_pos hk, hk]
    · rw [if_neg hk]; exact ih ((List.mem_cons.1 h).resolve_left (Ne.symm hk))

theorem find_table {α : Type} {n : Nat} (f : Nat → α) {i : Nat} (h : i < n) : (table n f).find i = some (f i) :=
  find_map f (List.mem_range.2 h)

theorem table_space {α : Type} {n cap : Nat} (f : Nat → α) (h : n ≤ cap) : SpaceOk cap (table n f) := by
  refine ⟨List.pairwise_map.2 List.pairwise_lt_range, fun c hc => ?_⟩
  obtain ⟨i, hi, rfl⟩ := List.mem_map.1 hc
  exact Nat.lt_of_lt_of_le (List.mem_range.1 hi) h

/-- The state with `n` zero bits in the output stream. -/
def filledBits (s : State) (n : Nat) : State :=
  { s with obuf := table ((n + 7) / 8) fun _ => 0#8, obitlen := BitVec.ofNat 32 n, ordp := 0#32 }

/-- The state with `n` zero bytes in the output stream. -/
def filled (s : State) (n : Nat) : State := filledBits s (8 * n)

theorem filledBits_obitlen (s : State) {n : Nat} (h : n ≤ 524288) : (filledBits s n).obitlen.toNat = n := by
  simp only [filledBits, BitVec.toNat_ofNat]; omega

theorem filled_obitlen (s : State) {n : Nat} (h : n ≤ 65536) : (filled s n).obitlen.toNat = 8 * n :=
  filledBits_obitlen s (by omega)

theorem filledBits_output (s : State) {n : Nat} (h : n ≤ 524288) : (filledBits s n).OutputOk := by
  have hb := filledBits_obitlen s h
  have hf : ∀ i < (n + 7) / 8, (filledBits s n).obuf.find i = some 0#8 := fun i hi =>
    find_table (fun _ => 0#8) hi
  refine ⟨by unfold Config.bufCap; omega, Nat.zero_le _, fun i hi => ?_, fun j hj => ?_⟩
  · unfold State.olen at hi
    rw [hb] at hi
    rw [hf i hi]; rfl
  · unfold State.opad at hj
    rw [hb] at hj ⊢
    rw [State.outBit, hf _ (by omega)]
    simp

theorem filled_output (s : State) {n : Nat} (h : n ≤ 65536) : (filled s n).OutputOk := filledBits_output s (by omega)

/-- A nearly full output buffer breaks no invariant. -/
theorem filledBits_inv {s : State} (h : s.Inv) {n : Nat} (hn : n ≤ 524288) (hs : s.sess = .raEnc → n % 8 = 0) :
    (filledBits s n).Inv := by
  obtain ⟨h1, ⟨a, b, c, d, e, f, g, i, j, -, k⟩, -, h4, h5, h6, h7, h8, h9⟩ := h
  have hb := filledBits_obitlen s hn
  exact ⟨h1, ⟨a, b, c, d, e, f, g, i, j, table_space _ (by unfold Config.bufCap; omega), k⟩, filledBits_output s hn, h4, h5, h6, h7,
    fun he => ⟨by rw [hb]; exact hs he, (h8 he).2⟩, h9⟩

theorem filled_inv {s : State} (h : s.Inv) {n : Nat} (hn : n ≤ 65536) : (filled s n).Inv :=
  filledBits_inv h (by omega) fun _ => by omega

/-- A table of `n` symbols, each counted once. -/
def counted (n : Nat) : State := { State.reset with
  mstate := .building, mn := BitVec.ofNat 10 n, mtotal := BitVec.ofNat 16 n, mtSym := table n (BitVec.ofNat 16),
  mtCnt := table n fun _ => 1#16 }

theorem counted_sym {n i : Nat} (h : i < n) : (counted n).slotSym i = BitVec.ofNat 16 i := by
  rw [State.slotSym, show (counted n).mtSym = table n (BitVec.ofNat 16) from rfl, find_table _ h]; rfl

theorem counted_cnt {n i : Nat} (h : i < n) : (counted n).slotCnt i = 1 := by
  rw [State.slotCnt, show (counted n).mtCnt = table n fun _ => 1#16 from rfl, find_table _ h]; rfl

theorem counted_mn {n : Nat} (h : n ≤ 512) : (counted n).mn.toNat = n := by
  simp only [counted, BitVec.toNat_ofNat]; omega

theorem counted_ok {n : Nat} (h1 : 1 ≤ n) (h2 : n ≤ 512) : (counted n).TableOk := by
  have hm := counted_mn h2
  refine ⟨by rw [hm]; exact h2, ⟨fun h => ?_, fun h => by cases h⟩, fun _ => rfl, fun i hi => ?_, fun i hi j hj => ?_, ?_⟩
  · rw [h] at hm; simp at hm; omega
  · rw [hm] at hi
    rw [show (counted n).mtSym = table n (BitVec.ofNat 16) from rfl, find_table _ hi,
      show (counted n).mtCnt = table n fun _ => 1#16 from rfl, find_table _ hi, counted_cnt hi]
    exact ⟨rfl, rfl, by decide⟩
  · rw [hm] at hi
    rw [counted_sym hi, counted_sym (by omega)]
    intro he
    have := congrArg BitVec.toNat he
    simp only [BitVec.toNat_ofNat] at this
    omega
  · rw [hm, List.map_congr_left fun i hi => counted_cnt (List.mem_range.1 hi)]
    simp only [List.map_const', List.length_range, List.sum_replicate, State.total, counted, BitVec.toNat_ofNat, smul_eq_mul]
    omega

/-! A check of every invariant that the kernel can run. -/

def decErrLatched (s : State) : Decidable s.ErrLatched := by delta State.ErrLatched; infer_instance
def decSpacesOk (s : State) : Decidable s.SpacesOk := by delta State.SpacesOk SpaceOk; infer_instance
def decOutputOk (s : State) : Decidable s.OutputOk := by delta State.OutputOk; infer_instance
def decInputOk (s : State) : Decidable s.InputOk := by delta State.InputOk; infer_instance
def decTableOk (s : State) : Decidable s.TableOk := by delta State.TableOk; infer_instance
def decCdfOk (s : State) : Decidable s.CdfOk := by delta State.CdfOk; infer_instance
def decSessionOk (s : State) : Decidable s.SessionOk := by delta State.SessionOk; infer_instance
def decRangeOk (s : State) : Decidable s.RangeOk := by delta State.RangeOk; infer_instance
def decRansOk (s : State) : Decidable s.RansOk := by delta State.RansOk; infer_instance
def decTreeOk (s : State) : Decidable s.TreeOk := by delta State.TreeOk; infer_instance

def invCheck (s : State) : Bool :=
  @decide _ (decErrLatched s) && @decide _ (decSpacesOk s) && @decide _ (decOutputOk s) && @decide _ (decInputOk s) &&
  @decide _ (decTableOk s) && @decide _ (decCdfOk s) && @decide _ (decSessionOk s) && @decide _ (decRangeOk s) &&
  @decide _ (decRansOk s) && @decide _ (decTreeOk s)

theorem inv_of_check {s : State} (h : invCheck s = true) : s.Inv := by
  simp only [invCheck, Bool.and_eq_true, and_assoc] at h
  obtain ⟨h1, h2, h3, h4, h5, h6, h7, h8, h9, h10⟩ := h
  exact ⟨@of_decide_eq_true _ (decErrLatched s) h1, @of_decide_eq_true _ (decSpacesOk s) h2,
    @of_decide_eq_true _ (decOutputOk s) h3, @of_decide_eq_true _ (decInputOk s) h4,
    ⟨@of_decide_eq_true _ (decTableOk s) h5, @of_decide_eq_true _ (decCdfOk s) h6⟩,
    @of_decide_eq_true _ (decSessionOk s) h7, @of_decide_eq_true _ (decRangeOk s) h8,
    @of_decide_eq_true _ (decRansOk s) h9, @of_decide_eq_true _ (decTreeOk s) h10⟩

/-! The sessions on the model of program P1. -/

def rcEnc3 : State := { tree3 with sess := .rcEnc }
def rcDec3 : State := { tree3 with sess := .rcDec, rcValue := 0x90000000#32, ibp := 32#32 }
def raEnc3 : State := { tree3 with sess := .raEnc, raState := 0x5555555555555555#64 }
def raStream3 : State := { tree3 with sess := .raEnc, raMode := .stream, raState := 0x2FFFFFFFFFF#64 }
def raDec3 : State := { tree3 with sess := .raDec, raState := 7#64 }
def raRefill3 : State := { tree3 with
  sess := .raDec, raMode := .stream, raState := 0x2FFFFFFFF#64, ilen := 1#32, ibuf := [(0, 0xF1#8)], irp := 1#32 }
def hfEnc3 : State := { tree3 with sess := .hfEnc }
def hfDec3 : State := { tree3 with sess := .hfDec, ilen := 1#32, ibuf := [(0, 0x40#8)], ibp := 7#32 }

/-- One symbol, 5 counted three times, with its tree (vector V10), and the input bits 010. -/
def single : State := { State.reset with
  sess := .hfDec, mstate := .frozen, mn := 1#10, mtotal := 3#16, mtSym := [(0, 5#16)], mtCnt := [(0, 3#16)],
  order := [(0, 0#9)], clow := [(0, 0#16)], htValid := true, htRoot := 0#10, htNn := 1#10, hnFreq := [(0, 3#16)],
  hnLeaf := [(0, true)], hnOrd := [(0, 0#9)], ibuf := [(0, 0x40#8)], ilen := 1#32, ipad := 5#3, ibp := 1#32 }

/-- The listed commands complete and the container they leave is the input of `d`, as a check Lean evaluates. -/
def handsOver (is : List Instr) (s d : State) : Bool :=
  match runAll is s with
  | some (_, e) =>
    d.ilen.toNat = e.olen && d.ipad.toNat = e.opad &&
      (List.range e.olen).all fun i => d.inByte i = (e.obuf.find i).getD 0#8
  | none => false

theorem hands_over {is : List Instr} {s d : State} (h : handsOver is s d = true) :
    ∃ data e, runAll is s = some (data, e) ∧ e.Presents d := by
  unfold handsOver at h
  split at h
  · rename_i data e he
    simp only [Bool.and_eq_true, decide_eq_true_eq, List.all_eq_true, List.mem_range] at h
    exact ⟨data, e, he, h.1.1, h.1.2, h.2⟩
  · cases h

/-- The model of `tree3` with the input container of the listed bytes. -/
def input3 (bytes : Nat) (pad : BitVec 3) (byte : Nat → Byte) : State :=
  { tree3 with ilen := BitVec.ofNat 32 bytes, ipad := pad, ibuf := table bytes byte }

theorem inv_tree3 : tree3.Inv := inv_of_check (by decide)

theorem inv_rcEnc3 : rcEnc3.Inv := inv_of_check (by decide)

theorem inv_rcDec3 : rcDec3.Inv := inv_of_check (by decide)

theorem inv_raEnc3 : raEnc3.Inv := inv_of_check (by decide)

theorem inv_raStream3 : raStream3.Inv := inv_of_check (by decide)

theorem inv_raDec3 : raDec3.Inv := inv_of_check (by decide)

theorem inv_raRefill3 : raRefill3.Inv := inv_of_check (by decide)

theorem inv_hfEnc3 : hfEnc3.Inv := inv_of_check (by decide)

theorem inv_hfDec3 : hfDec3.Inv := inv_of_check (by decide)

theorem inv_single : single.Inv := inv_of_check (by decide)

theorem table3_ok : table3.TableOk := by unfold State.TableOk; decide

/-- The same pairs as `table3`, inserted the other way round. -/
def swapped3 : State := { table3 with mtSym := [(0, 0xFFFE#16), (1, 1#16)], mtCnt := [(0, 1#16), (1, 2#16)] }

theorem witness_EveryWordIsOneCommandOrIllFormed :
    wellFormedWord 0x1100FFFE#32 = true ∧ wellFormedWord 0x22000008#32 = false :=
  by decide

theorem witness_StepRunsTheDecodedCommand :
    ∃ (s : State) (rest : List HostEvent), s.inbox = .command 0x0400FFFF#32 :: rest ∧
      decode 0x0400FFFF#32 = .ok (.arg 0xFFFF#16) :=
  ⟨{ State.reset with inbox := [.command 0x0400FFFF#32] }, [], rfl, by decide⟩

theorem witness_IllFormedWordRaisesIllegalCommand :
    ∃ s u : State, s.inbox = [.command 0x7F000000#32] ∧ u.inbox = [.command 0x7F000000#32] ∧
      wellFormedWord 0x7F000000#32 = false ∧ s.sess ≠ .fault ∧ u.sess = .fault :=
  ⟨{ State.reset with inbox := [.command 0x7F000000#32] },
    { State.reset with inbox := [.command 0x7F000000#32], sess := .fault }, rfl, rfl, by decide, by decide, rfl⟩

theorem witness_IdleStepWaitsAndResetPinResets :
    State.reset.inbox = [] ∧
      { rcEnc3 with inbox := [.rst (some 0x31000001#32)] }.inbox = [HostEvent.rst (some 0x31000001#32)] :=
  ⟨rfl, rfl⟩

theorem witness_ResetRegistersHoldTheSpecValues :
    (∃ t s, s.inbox = [HostEvent.rst none] ∧ step s = .next t) ∧ ∃ t, exec .srst tree3 = .next t :=
  ⟨⟨_, { tree3 with inbox := [.rst none] }, rfl, rfl⟩, runs (by decide)⟩

theorem witness_EveryCommandWordGetsOneResponse :
    ∃ s t : State, s.inbox = [.command 0x31000003#32] ∧ step s = .next t :=
  ⟨{ rcEnc3 with inbox := [.command 0x31000003#32] }, { rcEnc3 with
    err := some .alphabetMismatch, errinfo := 0x31000003#32, sess := .fault, outbox := [⟨some .alphabetMismatch, 0#32⟩] },
    rfl, next_of_nx (by decide)⟩

theorem witness_ErrorResponseMeansFaultEntryAlone :
    ∃ t : State, exec (.rce 3#16) rcEnc3 = .next t ∧ t.outbox = rcEnc3.outbox ++ [⟨some .alphabetMismatch, 0#32⟩] ∧
      rcEnc3.sess ≠ .fault :=
  ⟨{ rcEnc3 with
    err := some .alphabetMismatch, errinfo := 0x31000003#32, sess := .fault, outbox := [⟨some .alphabetMismatch, 0#32⟩] },
    next_of_nx (by decide), rfl, by decide⟩

theorem witness_ErrorResponseMeansFaultEntryAlone_in_fault :
    ∃ s t : State, s.sess = .fault ∧ exec .xfer s = .next t ∧ t.outbox = s.outbox ++ [⟨some .illegalCommand, 0#32⟩] :=
  ⟨{ tree3 with sess := .fault, err := some .capacity },
    { tree3 with sess := .fault, err := some .capacity, outbox := [⟨some .illegalCommand, 0#32⟩] }, rfl,
    next_of_nx (by decide), rfl⟩

theorem witness_FaultStateIsLeftOnlyByEclrAndSrst :
    ∃ s t u : State, s.sess = .fault ∧ exec .eclr s = .next t ∧ t.sess ≠ .fault ∧ exec .orwd s = .next u ∧
      u ≠ { s with outbox := u.outbox } :=
  ⟨{ tree3 with sess := .fault, err := some .capacity, ordp := 1#32 }, { tree3 with ordp := 1#32, outbox := [⟨none, 0#32⟩] },
    { tree3 with sess := .fault, err := some .capacity, outbox := [⟨none, 0#32⟩] }, rfl, next_of_nx (by decide), by decide,
    next_of_nx (by decide), by decide⟩

theorem witness_LegalityTableDecidesIllegalCommand :
    tree3.sess ≠ .fault ∧ ¬ tree3.Legal (.itrim 1#3) ∧ hfDec3.Legal .hd ∧ tree3.Legal (.itrim 0#3) ∧
      ¬ tree3.Legal (.rdcsr 0x05#8) ∧ ¬ tree3.Legal .oread ∧ tree3.Legal (.rdcsr 0x38#8) :=
  by unfold State.Legal; decide

theorem witness_SessionChangesOnlyByTheTable :
    ∃ t : State, exec .rcef rcEnc3 = .next t ∧ t.sess ≠ rcEnc3.sess :=
  ⟨{ rcEnc3 with sess := .idle, obitlen := 2#32, obuf := [(0, 0x40#8)], outbox := [⟨none, 0#32⟩] },
    next_of_nx (by decide), by decide⟩

theorem witness_FrozenModelIsImmutable :
    rcEnc3.mstate = .frozen ∧ ∃ t, exec .rcef rcEnc3 = .next t :=
  ⟨rfl, runs (by decide)⟩

theorem witness_SymcntCountsAndNoRuleReadsIt :
    (∃ u, exec .rcd rcDec3 = .next u ∧ exec .rcd rcDec3 = rcDec3.done u 1#32) ∧ (∃ u, exec .rcef rcEnc3 = .next u) ∧
      (∃ u, exec .rcei tree3 = .next u) ∧ ∃ u, exec (.rce 3#16) rcEnc3 = .next u :=
  ⟨⟨{ rcDec3 with rcLow := 0x55555556#32, symcnt := 1#32, outbox := [⟨none, 1#32⟩] }, next_of_nx (by decide),
    next_of_nx (by decide)⟩, runs (by decide), runs (by decide), runs (by decide)⟩

theorem witness_StepKeepsLatchAndSessions :
    ∃ s t : State, (s.ErrLatched ∧ s.SessionOk) ∧ step s = .next t :=
  ⟨tree3, _, ⟨inv_tree3.1, inv_tree3.2.2.2.2.2.1⟩, rfl⟩

theorem witness_StepKeepsSpaces :
    ∃ s t : State, s.SpacesOk ∧ step s = .next t :=
  ⟨tree3, _, inv_tree3.2.1, rfl⟩

theorem witness_StepKeepsStreams :
    ∃ s t : State, s.StreamsOk ∧ step s = .next t :=
  ⟨hfDec3, _, ⟨inv_hfDec3.2.2.1, inv_hfDec3.2.2.2.1⟩, rfl⟩

theorem witness_StepKeepsModel :
    ∃ s t : State, s.ModelOk ∧ step s = .next t :=
  ⟨tree3, _, inv_tree3.2.2.2.2.1, rfl⟩

theorem witness_InvariantStateAlwaysSteps :
    ∃ s : State, s.Inv ∧ s.mstate = .frozen ∧ s.htValid = true :=
  ⟨tree3, inv_tree3, rfl, rfl⟩

theorem witness_NopSrstEclrOrwdArgComplete :
    tree3.sess ≠ .fault ∧ { tree3 with sess := .fault }.sess = .fault :=
  ⟨by decide, rfl⟩

theorem witness_RdcsrReadsTheCsrMap :
    ¬ tree3.Legal (.rdcsr 0x05#8) ∧ ¬ tree3.Legal (.rdcsr 0x39#8) :=
  by unfold State.Legal; decide

theorem witness_IclrItrimMclrComplete :
    tree3.sess = .idle ∧ tree3.ilen = 0#32 ∧ { tree3 with ilen := 1#32 }.ilen.toNat = 1 :=
  by decide

theorem witness_IpushAppendsAByte :
    ∃ s u : State, s.sess = .idle ∧ s.ilen.toNat < Config.bufCap ∧ s.ilen.toNat + 1 = Config.bufCap ∧ u.sess = .idle ∧
      u.ilen.toNat = Config.bufCap :=
  ⟨{ tree3 with ilen := 65535#32 }, { tree3 with ilen := 65536#32 }, rfl, by decide, by decide, rfl, by decide⟩

theorem witness_OreadRespondsTheNextByte :
    ∃ s : State, s.OutputOk ∧ s.ordp.toNat + 1 = s.olen :=
  ⟨{ tree3 with obuf := [(0, 0x2C#8)], obitlen := 6#32 }, by unfold State.OutputOk; decide, by decide⟩

theorem witness_XferMovesTheContainer :
    ∃ s : State, s.OutputOk ∧ s.sess = .idle ∧ s.obitlen = 6#32 :=
  ⟨{ tree3 with obuf := [(0, 0x2C#8)], obitlen := 6#32 }, by unfold State.OutputOk; decide, rfl, rfl⟩

theorem witness_PutByteIsEightPutBits :
    ∃ s : State, s.obitlen.toNat % 8 = 0 ∧ s.obitlen.toNat + 8 = 8 * Config.bufCap :=
  ⟨{ tree3 with obitlen := 0x7FFF8#32 }, by decide, by decide⟩

theorem witness_AddingAPresentSymbol :
    table3.TableOk ∧ table3.sess = .idle ∧ table3.mstate ≠ .frozen ∧ 1 < table3.mn.toNat ∧ table3.slotSym 1 = 0xFFFE#16 ∧
      table3.total + { table3 with arg := 65532#16 }.arg.toNat = 65535 ∧
      65535 < table3.total + { table3 with arg := 65533#16 }.arg.toNat :=
  ⟨table3_ok, rfl, by decide, by decide, by decide, by decide, by decide⟩

theorem witness_AddingANewSymbol :
    (counted 511).TableOk ∧ (counted 511).mn.toNat + 1 = 512 ∧ (∀ i < (counted 511).mn.toNat, (counted 511).slotSym i ≠ 600#16) ∧
      (counted 512).TableOk ∧ (counted 512).mn.toNat = 512 ∧ (∀ i < (counted 512).mn.toNat, (counted 512).slotSym i ≠ 600#16) ∧
      (counted 512).sess = .idle ∧ (counted 512).mstate ≠ .frozen :=
  by
  have key : ∀ n ≤ 512, ∀ i < (counted n).mn.toNat, (counted n).slotSym i ≠ 600#16 := by
    intro n hn i hi he
    rw [counted_mn hn] at hi
    rw [counted_sym hi] at he
    have := congrArg BitVec.toNat he
    simp only [BitVec.toNat_ofNat] at this
    omega
  exact ⟨counted_ok (by decide) (by decide), by rw [counted_mn (by decide)], key _ (by decide),
    counted_ok (by decide) (by decide), counted_mn (by decide), key _ (by decide), rfl, by decide⟩

theorem witness_AddingANewSymbol_total :
    (∀ i < table3.mn.toNat, table3.slotSym i ≠ 7#16) ∧ table3.mn.toNat < 512 ∧
      table3.total + { table3 with arg := 65532#16 }.arg.toNat = 65535 ∧
      65535 < table3.total + { table3 with arg := 65533#16 }.arg.toNat :=
  by decide

theorem witness_MloadIsRepeatedMcnt :
    ∃ s t : State, s.TableOk ∧ exec (.mload 0xFFFE#16) s = s.done t 0#32 :=
  ⟨{ table3 with arg := 2#16 }, { table3 with arg := 2#16, mtCnt := [(0, 2#16), (1, 3#16)], mtotal := 5#16 }, table3_ok,
    next_of_nx (by decide)⟩

theorem witness_MfinSortsAndSums :
    table3.TableOk ∧ table3.sess = .idle ∧ table3.mstate = .building ∧ State.reset.TableOk ∧ State.reset.sess = .idle ∧
      State.reset.mstate = .empty :=
  ⟨table3_ok, rfl, rfl, by unfold State.TableOk; decide, rfl, rfl⟩

theorem witness_CdfPartitionsTheTotal :
    tree3.ModelOk ∧ tree3.mstate = .frozen ∧ 2 < tree3.total :=
  ⟨inv_tree3.2.2.2.2.1, rfl, by decide⟩

theorem witness_ValueOrderingsIgnoreInsertionOrder :
    table3.TableOk ∧ swapped3.TableOk ∧ table3.mn = swapped3.mn ∧
      (∀ sym n, (∃ i < table3.mn.toNat, table3.slotSym i = sym ∧ table3.slotCnt i = n) ↔
        ∃ i < swapped3.mn.toNat, swapped3.slotSym i = sym ∧ swapped3.slotCnt i = n) ∧
      (∃ u, exec (.mfin .cv) table3 = table3.done u 0#32) ∧ ∃ v, exec (.mfin .cv) swapped3 = swapped3.done v 0#32 :=
  by
  refine ⟨table3_ok, by unfold State.TableOk; decide, rfl, fun sym n => ⟨?_, ?_⟩,
    ⟨{ model3 with outbox := [] }, next_of_nx (by decide)⟩,
    ⟨{ swapped3 with mstate := .frozen, order := [(0, 0#9), (1, 1#9)], clow := [(0, 0#16), (1, 1#16)] },
      next_of_nx (by decide)⟩⟩
  · rintro ⟨i, hi, rfl, rfl⟩
    have : i = 0 ∨ i = 1 := by change i < 2 at hi; omega
    rcases this with rfl | rfl
    · exact ⟨1, by decide, by decide, by decide⟩
    · exact ⟨0, by decide, by decide, by decide⟩
  · rintro ⟨i, hi, rfl, rfl⟩
    have : i = 0 ∨ i = 1 := by change i < 2 at hi; omega
    rcases this with rfl | rfl
    · exact ⟨1, by decide, by decide, by decide⟩
    · exact ⟨0, by decide, by decide, by decide⟩

theorem witness_ModelLookupsRespond :
    tree3.ModelOk ∧ tree3.mstate = .frozen ∧ tree3.sess ≠ .fault ∧ 1 < tree3.mn.toNat ∧ tree3.lowOf 1 ≤ (2#16).toNat ∧
      (2#16).toNat < tree3.highOf 1 ∧ tree3.total ≤ (3#16).toNat :=
  ⟨inv_tree3.2.2.2.2.1, rfl, by decide, by decide, by decide, by decide, by decide⟩

theorem witness_AbsentSymbolRaisesAlphabetMismatch :
    tree3.ModelOk ∧ tree3.mstate = .frozen ∧ (∀ k < tree3.mn.toNat, tree3.symOf k ≠ 3#16) ∧ tree3.sess ≠ .fault ∧
      rcEnc3.sess = .rcEnc ∧ raEnc3.sess = .raEnc ∧ hfEnc3.sess = .hfEnc :=
  ⟨inv_tree3.2.2.2.2.1, rfl, by decide, by decide, rfl, rfl, rfl⟩

theorem witness_SessionsOpenAndClose :
    (tree3.sess = .idle ∧ tree3.mstate = .frozen ∧ tree3.htValid = true) ∧
      rcDec3.sess = .rcDec ∧ raDec3.sess = .raDec ∧ hfEnc3.sess = .hfEnc ∧ hfDec3.sess = .hfDec :=
  ⟨⟨rfl, rfl, rfl⟩, rfl, rfl, rfl, rfl⟩

theorem witness_FullOutputBufferRaisesCapacity :
    (∃ s : State, s.sess = .rcEnc ∧ s.obitlen.toNat + s.rcPend.toNat + 2 = 8 * Config.bufCap + 1) ∧
      (∃ s : State, s.sess = .raEnc ∧ s.obitlen.toNat + 64 = 8 * Config.bufCap + 8) ∧
      ∃ s : State, s.Inv ∧ s.sess = .hfEnc ∧ 0 < s.mn.toNat ∧ code s 0 = .ok [false] ∧
        s.obitlen.toNat + 1 = 8 * Config.bufCap + 1 :=
  ⟨⟨{ rcEnc3 with obitlen := 0x7FFFF#32 }, rfl, by decide⟩, ⟨{ raEnc3 with obitlen := 0x7FFC8#32 }, rfl, by decide⟩,
    filled hfEnc3 65536, filled_inv inv_hfEnc3 (by decide), rfl, by decide, rfl, by rw [filled_obitlen _ (by decide)]⟩

/-- The bits of `RCE` that do not fit: the decided bit 0 and the 3 pending bits it releases, where 3 bits are left. -/
theorem witness_FullOutputBufferRaisesCapacity_rce :
    ∃ (s : State) (r : Renormed), s.Inv ∧ s.sess = .rcEnc ∧ 0 < s.mn.toNat ∧ s.rceRenorm 0 s.rcPend.toNat = .ok r ∧
      s.obitlen.toNat + r.out.length = 8 * Config.bufCap + 1 :=
  ⟨filledBits { rcEnc3 with rcPend := 3#32 } 524285, ⟨0, 0xAAAAAAAB, 0, [false, true, true, true]⟩,
    filledBits_inv (inv_of_check (by decide)) (by decide) (by intro h; cases h), rfl, by decide, rfl,
    by rw [filledBits_obitlen _ (by decide)]; decide⟩

/-- The pending counter at its end, and one straddle pass more. -/
theorem witness_FullOutputBufferRaisesCapacity_pending :
    ∃ (s : State) (q : Renormed), s.Inv ∧ s.sess = .rcEnc ∧ 1 < s.mn.toNat ∧ s.rceRenorm 1 0 = .ok q ∧ q.out = [] ∧
      s.rcPend.toNat + q.pend = 2 ^ 32 :=
  ⟨{ rcEnc3 with rcLow := 0x3FFFFFFF#32, rcHigh := 0x80000000#32, rcPend := 0xFFFFFFFF#32 },
    ⟨0x2AAAAAAA, 0x80000001, 1, []⟩, inv_of_check (by decide), rfl, by decide, by decide, rfl, by decide⟩

theorem witness_FullOutputBufferRaisesCapacity_rae :
    ∃ (s : State) (y : Nat), s.Inv ∧ s.sess = .raEnc ∧ s.raMode = .stream ∧ 0 < s.mn.toNat ∧
      renormRE (s.cntOf 0 * 2 ^ 40) Config.raTests s.raState.toNat [] = .ok (y, [0xFF#8]) ∧
      s.obitlen.toNat + 8 * [0xFF#8].length = 8 * Config.bufCap + 8 :=
  ⟨filled raStream3 65536, 0x2FFFFFFFF, filled_inv inv_raStream3 (by decide), rfl, rfl, by decide, by decide,
    by rw [filled_obitlen _ (by decide)]; decide⟩

theorem witness_CeilingNarrowingInvertsTheTarget :
    0 < 4294967296 ∧ 0 < 3 :=
  by decide

theorem witness_NarrowNestsAndTiles :
    0 < 65535 ∧ 65535 < 2 ^ 30 + 2 ∧ 65534 < 65535 ∧ 65535 ≤ 65535 :=
  by decide

theorem witness_RceNarrowsRenormalisesAndAppends :
    ∃ (s : State) (r : Renormed), s.Inv ∧ s.sess = .rcEnc ∧ 0 < s.mn.toNat ∧ s.rceRenorm 0 s.rcPend.toNat = .ok r ∧
      s.obitlen.toNat + r.out.length = 8 * Config.bufCap :=
  ⟨filledBits { rcEnc3 with rcPend := 3#32 } 524284, ⟨0, 0xAAAAAAAB, 0, [false, true, true, true]⟩,
    filledBits_inv (inv_of_check (by decide)) (by decide) (by intro h; cases h), rfl, by decide, rfl,
    by rw [filledBits_obitlen _ (by decide)]; decide⟩

/-- A straddle pass that takes the pending counter to its end. -/
theorem witness_RceNarrowsRenormalisesAndAppends_pending :
    ∃ (s : State) (q : Renormed), s.Inv ∧ s.sess = .rcEnc ∧ 1 < s.mn.toNat ∧ s.rceRenorm 1 0 = .ok q ∧ q.out = [] ∧
      s.rcPend.toNat + q.pend = 2 ^ 32 - 1 :=
  ⟨{ rcEnc3 with rcLow := 0x3FFFFFFF#32, rcHigh := 0x80000000#32, rcPend := 0xFFFFFFFE#32 },
    ⟨0x2AAAAAAA, 0x80000001, 1, []⟩, inv_of_check (by decide), rfl, by decide, by decide, rfl, by decide⟩

theorem witness_RcefFlushesAndCloses :
    ∃ s : State, s.OutputOk ∧ s.sess = .rcEnc ∧ s.obitlen.toNat + s.rcPend.toNat + 2 = 8 * Config.bufCap :=
  ⟨filled { rcEnc3 with rcPend := 6#32 } 65535, filled_output _ (by decide), rfl, by rw [filled_obitlen _ (by decide)]; decide⟩

theorem witness_RcdiLoadsTheWindow :
    ∃ s : State, s.InputOk ∧ s.sess = .idle ∧ s.mstate = .frozen ∧ s.ibitlen = 8 :=
  ⟨{ tree3 with ilen := 1#32, ibuf := [(0, 0x90#8)] }, by unfold State.InputOk; decide, rfl, rfl, by decide⟩

theorem witness_RcdAlwaysDecodesASymbol :
    rcDec3.Inv ∧ rcDec3.sess = .rcDec :=
  ⟨inv_rcDec3, rfl⟩

theorem witness_RcdFollowsRce :
    ∃ e' : State, rcEnc3.Inv ∧ rcDec3.Inv ∧ rcEnc3.sess = .rcEnc ∧ rcDec3.sess = .rcDec ∧ rcEnc3.SameModel rcDec3 ∧
      rcDec3.rcLow = rcEnc3.rcLow ∧ rcDec3.rcHigh = rcEnc3.rcHigh ∧ 1 < rcEnc3.mn.toNat ∧
      (narrow rcEnc3.rcLow.toNat rcEnc3.rcRange rcEnc3.total (rcEnc3.lowOf 1) (rcEnc3.highOf 1)).1 ≤ rcDec3.rcValue.toNat ∧
      rcDec3.rcValue.toNat ≤ (narrow rcEnc3.rcLow.toNat rcEnc3.rcRange rcEnc3.total (rcEnc3.lowOf 1) (rcEnc3.highOf 1)).2 ∧
      exec (.rce (rcEnc3.symOf 1)) rcEnc3 = rcEnc3.done e' 0#32 :=
  ⟨{ rcEnc3 with rcLow := 0x55555556#32, symcnt := 1#32 }, inv_rcEnc3, inv_rcDec3, rfl, rfl, by unfold State.SameModel; decide,
    rfl, rfl, by decide, by decide, by decide, next_of_nx (by decide)⟩

theorem witness_RangeCoderRoundTrip :
    ∃ d : State, tree3.Inv ∧ tree3.sess = .idle ∧ tree3.mstate = .frozen ∧ (∀ k ∈ [1], k < tree3.mn.toNat) ∧
      1 ≤ [1].length ∧ d.Inv ∧ d.sess = .idle ∧ tree3.SameModel d ∧
      ∃ data e, runAll (.rcei :: [1].map (fun k => .rce (tree3.symOf k)) ++ [.rcef]) tree3 = some (data, e) ∧ e.Presents d :=
  ⟨input3 1 6#3 fun _ => 0x80#8, inv_tree3, rfl, rfl, by decide, by decide, inv_of_check (by decide), rfl,
    by unfold State.SameModel; decide, hands_over (by decide)⟩

theorem witness_RansDecodeStepInvertsEncodeStep :
    0 < 2 ∧ 1 + 2 ≤ 3 :=
  by decide

theorem witness_RaeRawStepsTheState :
    raEnc3.Inv ∧ raEnc3.sess = .raEnc ∧ raEnc3.raMode = .raw ∧ 0 < raEnc3.mn.toNat ∧
      raEnc3.raState.toNat / raEnc3.cntOf 0 * raEnc3.total + raEnc3.lowOf 0 + raEnc3.raState.toNat % raEnc3.cntOf 0 = 2 ^ 64 - 1 :=
  ⟨inv_raEnc3, rfl, rfl, by decide, by decide⟩

theorem witness_RaeRawStepsTheState_overflow :
    ∃ s : State, s.Inv ∧ s.sess = .raEnc ∧ s.raMode = .raw ∧ 1 < s.mn.toNat ∧
      s.raState.toNat / s.cntOf 1 * s.total + s.lowOf 1 + s.raState.toNat % s.cntOf 1 = 2 ^ 64 :=
  ⟨{ raEnc3 with raState := 0xAAAAAAAAAAAAAAAA#64 }, inv_of_check (by decide),
    rfl, rfl, by decide, by decide⟩

theorem witness_RaeStreamStaysNormalised :
    ∃ (s : State) (y : Nat), s.Inv ∧ s.sess = .raEnc ∧ s.raMode = .stream ∧ 0 < s.mn.toNat ∧
      renormRE (s.cntOf 0 * 2 ^ 40) Config.raTests s.raState.toNat [] = .ok (y, [0xFF#8]) ∧
      s.obitlen.toNat + 8 * [0xFF#8].length = 8 * Config.bufCap ∧ s.raState.toNat + 1 = 256 * (s.total * 2 ^ 32) :=
  ⟨filled raStream3 65535, 0x2FFFFFFFF, filled_inv inv_raStream3 (by decide), rfl, rfl, by decide, by decide,
    by rw [filled_obitlen _ (by decide)]; decide, by decide⟩

theorem witness_ReplenishUndoesTheShift :
    ∃ (s : State) (y : Nat) (out : List Byte), 0 < 1 ∧ 1 ≤ 3 ∧ 3 ≤ 65535 ∧ ransLow 3 ≤ 0x2FFFFFFFFFF ∧
      0x2FFFFFFFFFF < 256 * ransLow 3 ∧ renormRE (1 * 2 ^ 40) Config.raTests 0x2FFFFFFFFFF [] = .ok (y, out) ∧
      (∀ j < out.length, s.ibuf.find (65535 + j) = out[j]?) ∧ 65535 + out.length = Config.bufCap :=
  ⟨{ tree3 with ibuf := [(65535, 0xFF#8)] }, 0x2FFFFFFFF, [0xFF#8], by decide, by decide, by decide, by decide, by decide, rfl,
    by decide, by decide⟩

theorem witness_RaefWritesTheState :
    ∃ s : State, s.sess = .raEnc ∧ s.obitlen.toNat % 8 = 0 ∧ s.obitlen.toNat + 64 = 8 * Config.bufCap :=
  ⟨{ raEnc3 with obitlen := 0x7FFC0#32 }, rfl, by decide, by decide⟩

theorem witness_RadiLoadsTheState :
    ∃ s u : State, s.InputOk ∧ s.sess = .idle ∧ s.mstate = .frozen ∧ s.ilen.toNat = 8 ∧
      u.InputOk ∧ u.sess = .idle ∧ u.mstate = .frozen ∧ u.ilen.toNat = 7 :=
  ⟨{ tree3 with ilen := 8#32, ibuf := table 8 fun _ => 1#8 }, { tree3 with ilen := 7#32, ibuf := table 7 fun _ => 1#8 },
    by unfold State.InputOk; decide, rfl, rfl, by decide, by unfold State.InputOk; decide, rfl, rfl, by decide⟩

theorem witness_RadDecodesOneSymbol :
    (raDec3.Inv ∧ raDec3.sess = .raDec ∧ raDec3.raMode = .raw ∧ ransRefill raDec3 = .ok (7, 0)) ∧
      (raRefill3.Inv ∧ raRefill3.sess = .raDec ∧ raRefill3.raMode = .stream ∧
        raRefill3.raState.toNat + 1 = raRefill3.total * 2 ^ 32 ∧ raRefill3.irp.toNat = 1) ∧
      ∃ s : State, s.Inv ∧ s.sess = .raDec ∧ s.raMode = .stream ∧ s.raState.toNat < s.total * 2 ^ 32 ∧ s.irp = 0#32 :=
  ⟨⟨inv_raDec3, rfl, rfl, rfl⟩, ⟨inv_raRefill3, rfl, rfl, by decide, by decide⟩, { raDec3 with raMode := .stream }, inv_of_check (by decide),
    rfl, rfl, by decide, rfl⟩

/-- A refill that takes one byte and then runs dry. -/
theorem witness_RadDecodesOneSymbol_dry :
    ∃ s : State, s.Inv ∧ s.sess = .raDec ∧ s.irp = 1#32 ∧ ransRefill s = raised .corruptStream :=
  ⟨{ raRefill3 with raState := 0#64 }, inv_of_check (by decide), rfl, rfl, by decide⟩

theorem witness_RansRoundTrip :
    (tree3.Inv ∧ tree3.sess = .idle ∧ tree3.mstate = .frozen ∧ (∀ k ∈ [1], k < tree3.mn.toNat) ∧
      tree3.total < tree3.cntOf 1 * 256) ∧
      (∃ d : State, d.Inv ∧ d.sess = .idle ∧ tree3.SameModel d ∧ ∃ data e,
        runAll (.raei .raw :: [1].reverse.map (fun k => .rae (tree3.symOf k)) ++ [.raef]) tree3 = some (data, e) ∧
          e.Presents d) ∧
      ∃ d : State, d.Inv ∧ d.sess = .idle ∧ tree3.SameModel d ∧ ∃ data e,
        runAll (.raei .stream :: [1].reverse.map (fun k => .rae (tree3.symOf k)) ++ [.raef]) tree3 = some (data, e) ∧
          e.Presents d :=
  ⟨⟨inv_tree3, rfl, rfl, by decide, by decide⟩,
    ⟨input3 8 0#3 fun i => (0x1#64).extractLsb' (8 * i) 8, inv_of_check (by decide), rfl,
      by unfold State.SameModel; decide, hands_over (by decide)⟩,
    input3 8 0#3 fun i => (0x480000001#64).extractLsb' (8 * i) 8, inv_of_check (by decide), rfl,
      by unfold State.SameModel; decide, hands_over (by decide)⟩

theorem witness_MinNodePicksTheLeastKey :
    minNode tree1 2 [3, 6, 4] = .ok 2 ∧ [3, 6, 4] ≠ [] :=
  ⟨rfl, by decide⟩

theorem witness_HbldBuildsTheTree :
    tree3.Inv ∧ tree3.sess = .idle ∧ tree3.mstate = .frozen :=
  ⟨inv_tree3, rfl, rfl⟩

theorem witness_HeAppendsTheCode :
    ∃ s : State, s.Inv ∧ s.sess = .hfEnc ∧ 1 < s.mn.toNat ∧ code s 1 = .ok [true] ∧
      s.obitlen.toNat + [true].length = 8 * Config.bufCap :=
  ⟨filledBits hfEnc3 524287, filledBits_inv inv_hfEnc3 (by decide) (by intro h; cases h), rfl, by decide, rfl,
    by rw [filledBits_obitlen _ (by decide)]; decide⟩

theorem witness_HuffmanCodesArePrefixFree :
    tree3.Inv ∧ tree3.htValid = true ∧ 0 < tree3.mn.toNat ∧ 1 < tree3.mn.toNat ∧ 0 ≠ 1 ∧ code tree3 0 = .ok [false] ∧
      code tree3 1 = .ok [true] :=
  ⟨inv_tree3, rfl, by decide, by decide, by decide, rfl, rfl⟩

theorem witness_HdDecodesACode :
    hfDec3.Inv ∧ hfDec3.sess = .hfDec ∧ 0 < hfDec3.mn.toNat ∧ code hfDec3 0 = .ok [false] ∧
      hfDec3.ibp.toNat + [false].length = hfDec3.ibitlen ∧
      ∀ j < [false].length, [false][j]? = some (hfDec3.inBit (hfDec3.ibp.toNat + j)) :=
  ⟨inv_hfDec3, rfl, by decide, rfl, by decide, by decide⟩

theorem witness_HuffmanRoundTrip :
    ∃ d : State, tree3.Inv ∧ tree3.sess = .idle ∧ tree3.mstate = .frozen ∧ tree3.htValid = true ∧
      (∀ k ∈ [1], k < tree3.mn.toNat) ∧ d.Inv ∧ d.sess = .idle ∧ tree3.SameModel d ∧ tree3.SameTree d ∧
      ∃ data e, runAll (.hei :: [1].map (fun k => .he (tree3.symOf k)) ++ [.hef]) tree3 = some (data, e) ∧ e.Presents d :=
  ⟨input3 1 7#3 fun _ => 0x80#8, inv_tree3, rfl, rfl, rfl, by decide, inv_of_check (by decide), rfl,
    by unfold State.SameModel; decide, by unfold State.SameTree; decide, hands_over (by decide)⟩

theorem witness_HdOnATruncatedStreamIsCorrupt :
    ∃ s : State, s.Inv ∧ s.sess = .hfDec ∧ 0 < s.mn.toNat ∧ code s 0 = .ok [false] ∧ s.ibitlen + 1 = s.ibp.toNat + [false].length ∧
      ∀ j, s.ibp.toNat + j < s.ibitlen → [false][j]? = some (s.inBit (s.ibp.toNat + j)) :=
  ⟨{ hfDec3 with ibp := 8#32 }, inv_of_check (by decide),
    rfl, by decide, rfl, by decide, fun j hj => absurd hj (by change ¬ 8 + j < 8; omega)⟩

theorem witness_HdOnATruncatedStreamIsCorrupt_one_symbol :
    single.Inv ∧ single.sess = .hfDec ∧ 0 < single.mn.toNat ∧ code single 0 = .ok [false] ∧ single.mn = 1#10 ∧
      single.ibp.toNat < single.ibitlen ∧ single.inBit single.ibp.toNat = true :=
  ⟨inv_single, rfl, by decide, rfl, rfl, by decide, by decide⟩

end Sys2Proof.Tests
end

section
/-! SUPPORT. Every command is one call of `command` (spec R219): its row of the legality table (R100) and its body. From this
one reading of `exec` follow all the ways a command and a step can end, and the induction principle for step invariants. -/

namespace Sys2Proof.Machine

/-! ### The row and the body of each command -/

/-- The row of R100 that each command's meaning tests. -/
def legalOf (i : Instr) (s : State) : Bool :=
  match i with
  | .nop | .srst | .eclr | .arg _ | .orwd => true
  | .rdcsr a => (csr s a).isSome
  | .mclr | .iclr | .ipush _ | .xfer => s.isIdle
  | .mcnt _ | .mfin _ => s.isOpenTable
  | .mload _ => s.isOpenTable && s.arg ≠ 0#16
  | .mtot | .mivl _ | .msat _ => s.isFrozen
  | .itrim pad => s.isIdle && (pad = 0#3 || 1 ≤ s.ilen.toNat)
  | .oread => s.ordp.toNat < s.olen
  | .rcei | .rcdi | .raei _ | .radi _ | .hbld => s.canOpen
  | .hei | .hdi => s.canOpenTree
  | .rce _ | .rcef => s.sess = .rcEnc
  | .rcd | .rcdf => s.sess = .rcDec
  | .rae _ | .raef => s.sess = .raEnc
  | .rad | .radf => s.sess = .raDec
  | .he _ | .hef => s.sess = .hfEnc
  | .hd | .hdf => s.sess = .hfDec

/-- The body of each command: its data checks and its writes on a local copy (R219). -/
def bodyOf : Instr → State → Comp (Word × State)
  | .nop, s => .ok (0#32, s)
  | .srst, s => .ok (0#32, resetRegisters s)
  | .eclr, s => .ok (0#32, errorClear s)
  | .rdcsr a, s => .ok ((csr s a).getD 0#32, s)
  | .arg imm, s => .ok (0#32, { s with arg := imm })
  | .mclr, s => .ok (0#32, { s with
      mstate := .empty, mn := 0#10, mtotal := 0#16, mord := .cv, htValid := false, htRoot := 0#10, htNn := 0#10 })
  | .mcnt sym, s => do let u ← addCount sym 1 s; .ok (0#32, u)
  | .mload sym, s => do let u ← addCount sym s.arg.toNat s; .ok (0#32, u)
  | .mfin o, s => mfinBody o s
  | .mtot, s => .ok (zext32 s.mtotal, s)
  | .mivl sym, s => do let e ← ordinal s sym; .ok (packInterval e.high e.low, s)
  | .msat pos, s => do let e ← symbolAt s pos.toNat; .ok (sext32 e.sym, s)
  | .iclr, s => .ok (0#32, { s with ilen := 0#32, ipad := 0#3, ibp := 0#32, irp := 0#32 })
  | .ipush byte, s => ipushBody byte s
  | .itrim pad, s => .ok (0#32, { s with ipad := pad })
  | .oread, s => oreadBody s
  | .xfer, s => xferBody s
  | .orwd, s => .ok (0#32, { s with ordp := 0#32 })
  | .rcei, s => rceiBody s
  | .rce sym, s => rceBody sym s
  | .rcef, s => rcefBody s
  | .rcdi, s => rcdiBody s
  | .rcd, s => rcdBody s
  | .rcdf, s => .ok (0#32, { s with sess := .idle })
  | .raei m, s => raeiBody m s
  | .rae sym, s => raeBody sym s
  | .raef, s => raefBody s
  | .radi m, s => radiBody m s
  | .rad, s => radBody s
  | .radf, s => .ok (0#32, { s with sess := .idle })
  | .hbld, s => hbldBody s
  | .hei, s => .ok (0#32, clearOut { s with symcnt := 0#32, sess := .hfEnc })
  | .he sym, s => heBody sym s
  | .hef, s => .ok (0#32, { s with sess := .idle })
  | .hdi, s => .ok (0#32, { s with ibp := 0#32, symcnt := 0#32, sess := .hfDec })
  | .hd, s => hdBody s
  | .hdf, s => .ok (0#32, { s with sess := .idle })

/-- R219: the meaning of every command is the common prologue around its row and its body. -/
theorem exec_eq_command (i : Instr) (s : State) : exec i s = command i (legalOf i s) (bodyOf i) s := by
  cases i <;> rfl

/-! ### The rows as propositions -/

@[simp] theorem isIdle_iff {s : State} : s.isIdle = true ↔ s.sess = .idle := by simp [State.isIdle]

@[simp] theorem isFrozen_iff {s : State} : s.isFrozen = true ↔ s.mstate = .frozen := by simp [State.isFrozen]

@[simp] theorem isOpenTable_iff {s : State} : s.isOpenTable = true ↔ s.sess = .idle ∧ s.mstate ≠ .frozen := by
  simp [State.isOpenTable, State.isIdle, State.isFrozen]

@[simp] theorem canOpen_iff {s : State} : s.canOpen = true ↔ s.sess = .idle ∧ s.mstate = .frozen := by
  simp [State.canOpen]

@[simp] theorem canOpenTree_iff {s : State} :
    s.canOpenTree = true ↔ s.sess = .idle ∧ s.mstate = .frozen ∧ s.htValid = true := by
  simp [State.canOpenTree, and_assoc]

/-- Whether an address is mapped does not depend on the state (R53). -/
theorem csr_isSome_congr (s t : State) (a : BitVec 8) : (csr s a).isSome = (csr t a).isSome := by
  unfold csr; split <;> rfl

/-- The mapped addresses are those the legality table lists (R53, R100). -/
theorem csr_isSome_iff (s : State) (a : BitVec 8) : (csr s a).isSome = true ↔ s.Legal (.rdcsr a) := by
  have key : ∀ b : BitVec 8, (csr State.reset b).isSome = true ↔ State.reset.Legal (.rdcsr b) := by
    unfold State.Legal; decide
  rw [csr_isSome_congr s State.reset]
  exact key a

/-- The row a meaning tests is the row of the legality table (R100). -/
theorem legalOf_iff (i : Instr) (s : State) : legalOf i s = true ↔ s.Legal i := by
  cases i with
  | rdcsr a => exact csr_isSome_iff s a
  | mload | itrim => simp [legalOf, State.Legal, and_assoc]
  | _ => simp [legalOf, State.Legal]

/-! ### How a command and a step can end -/

/-- Everything `exec` can answer with a next state. -/
theorem exec_next {i : Instr} {s t : State} (h : exec i s = .next t) :
    (s.sess = .fault ∧ acceptedInFault i = false ∧ t = respond (some .illegalCommand) 0#32 s) ∨
    (∃ e, t = raiseError e (encode i) s) ∨
    (s.Legal i ∧ ∃ d u, bodyOf i s = .ok (d, u) ∧ t = respond none d u) := by
  rw [exec_eq_command] at h
  rcases command_next h with h | ⟨-, -, h⟩ | ⟨-, -, e, -, h⟩ | ⟨-, hl, h⟩
  · exact .inl h
  · exact .inr (.inl ⟨_, h⟩)
  · exact .inr (.inl ⟨e, h⟩)
  · exact .inr (.inr ⟨(legalOf_iff i s).1 hl, h⟩)

/-- A legal command that is not turned away completes where its body ends with a result. -/
theorem exec_of_ok {i : Instr} {s u : State} {d : Word} (hs : s.sess ≠ .fault ∨ acceptedInFault i = true)
    (hl : s.Legal i) (hb : bodyOf i s = .ok (d, u)) : exec i s = .next (respond none d u) := by
  rw [exec_eq_command]; exact command_of_ok hs ((legalOf_iff i s).2 hl) hb

/-- A legal command that is not turned away raises the error its body raises. -/
theorem exec_of_raised {i : Instr} {s : State} {e : Err} (hs : s.sess ≠ .fault ∨ acceptedInFault i = true)
    (hl : s.Legal i) (hb : bodyOf i s = .error (.raised e)) : exec i s = .next (raiseError e (encode i) s) := by
  rw [exec_eq_command]; exact command_of_raised hs ((legalOf_iff i s).2 hl) hb

/-- A command that fails its row and is not turned away raises `IllegalCommandError`. -/
theorem exec_of_not_legal {i : Instr} {s : State} (hs : s.sess ≠ .fault ∨ acceptedInFault i = true)
    (hl : ¬ s.Legal i) : exec i s = .next (raiseError .illegalCommand (encode i) s) := by
  rw [exec_eq_command]
  exact command_of_illegal hs (by simpa using mt (legalOf_iff i s).1 hl)

/-- A computation ends with a result or one of the ECE's errors: the model does not stop in it. -/
def Comp.Runs {α : Type} (x : Comp α) : Prop := ∀ f, x ≠ .error (.stopped f)

/-- A command answers with a next state where its body, if legal, does not stop the model. -/
theorem exec_total {i : Instr} {s : State} (h : s.Legal i → (bodyOf i s).Runs) : ∃ t, exec i s = .next t := by
  cases hx : exec i s with
  | next t => exact ⟨t, rfl⟩
  | fault f =>
    rw [exec_eq_command] at hx
    obtain ⟨hl, hb⟩ := command_fault hx
    exact absurd hb (h ((legalOf_iff i s).1 hl) f)
  | refused r =>
    rw [exec_eq_command] at hx
    exact absurd hx command_not_refused

/-- A step takes the next event of the inbox, if there is one. -/
theorem step_next {s t : State} (h : step s = .next t) :
    t = s ∨ ∃ rest : List HostEvent,
      (t = resetRegisters { s with inbox := rest }) ∨
      (∃ w, t = illFormedWord w { s with inbox := rest }) ∨
      ∃ i, exec i { s with inbox := rest } = .next t := by
  unfold step at h
  split at h
  · cases h; exact .inl rfl
  · next e rest _ =>
    refine .inr ⟨rest, ?_⟩
    cases e with
    | rst _ => cases h; exact .inl rfl
    | command w =>
      simp only [takeEvent, execWord] at h
      split at h
      · next i _ => exact .inr (.inr ⟨i, h⟩)
      · cases h; exact .inr (.inl ⟨w, rfl⟩)

/-- A step answers with a next state where every command does. -/
theorem step_total {s : State} (h : ∀ i rest, ∃ t, exec i { s with inbox := rest } = .next t) : ∃ t, step s = .next t := by
  unfold step
  split
  · exact ⟨s, rfl⟩
  · next e rest _ =>
    cases e with
    | rst _ => exact ⟨_, rfl⟩
    | command w =>
      simp only [takeEvent, execWord]
      split
      · next i _ => exact h i rest
      · exact ⟨_, rfl⟩

/-! ### Step invariants -/

/-- What an invariant has to do with the parts of a step that no command's body is: it does not look at the ports, the reset
registers have it, and fault entry keeps it. -/
structure StepFrame (P : State → Prop) : Prop where
  inbox : ∀ s rest, P s → P { s with inbox := rest }
  respond : ∀ e d s, P s → P (respond e d s)
  reset : ∀ s, P (resetRegisters s)
  faultEntry : ∀ e w s, P s → P (faultEntry e w s)

theorem StepFrame.raiseError {P : State → Prop} (hP : StepFrame P) (e : Err) (w : Word) {s : State} (h : P s) :
    P (raiseError e w s) := by
  unfold Machine.raiseError
  split
  · exact hP.respond _ _ _ h
  · exact hP.respond _ _ _ (hP.faultEntry _ _ _ h)

theorem StepFrame.and {P Q : State → Prop} (hP : StepFrame P) (hQ : StepFrame Q) : StepFrame fun s => P s ∧ Q s where
  inbox s rest h := ⟨hP.inbox s rest h.1, hQ.inbox s rest h.2⟩
  respond e d s h := ⟨hP.respond e d s h.1, hQ.respond e d s h.2⟩
  reset s := ⟨hP.reset s, hQ.reset s⟩
  faultEntry e w s h := ⟨hP.faultEntry e w s h.1, hQ.faultEntry e w s h.2⟩

/-- Every step keeps a predicate that the body of every legal command keeps. -/
theorem StepFrame.step {P : State → Prop} (hP : StepFrame P)
    (hbody : ∀ (i : Instr) (s u : State) (d : Word), P s → s.Legal i → bodyOf i s = .ok (d, u) → P u)
    {s t : State} (hs : P s) (h : step s = .next t) : P t := by
  rcases step_next h with rfl | ⟨rest, rfl | ⟨w, rfl⟩ | ⟨i, h⟩⟩
  · exact hs
  · exact hP.reset _
  · exact hP.raiseError _ _ (hP.inbox _ _ hs)
  · have hs := hP.inbox s rest hs
    rcases exec_next h with ⟨-, -, rfl⟩ | ⟨e, rfl⟩ | ⟨hl, d, u, hb, rfl⟩
    · exact hP.respond _ _ _ hs
    · exact hP.raiseError _ _ hs
    · exact hP.respond _ _ _ (hbody i _ u d hs hl hb)

end Sys2Proof.Machine
end

section
/-! SUPPORT. The reset state (spec R55) and the CSR map (R53, R113): obligations O7, O20 and O22. -/

namespace Sys2Proof.Machine

/-! ### Reset -/

/-- The three ways to reset leave the reset registers, up to what the ports hold. -/
theorem reset_cases {t : State}
    (h : t = State.reset ∨ (∃ s abandoned rest, s.inbox = .rst abandoned :: rest ∧ step s = .next t) ∨
      ∃ s, exec .srst s = .next t) :
    ∃ ins outs, t = { State.reset with inbox := ins, outbox := outs } := by
  rcases h with rfl | ⟨s, abandoned, rest, hin, h⟩ | ⟨s, h⟩
  · exact ⟨[], [], rfl⟩
  · unfold step at h
    rw [hin] at h
    cases h
    exact ⟨rest, s.outbox, rfl⟩
  · rw [exec_of_ok (i := .srst) (s := s) (.inr rfl) trivial rfl] at h
    cases h
    exact ⟨_, _, rfl⟩

/-- Settles O7: each way to reset leaves the literal reset state, whose fields are read off. -/
theorem resetRegistersHoldTheSpecValues : Obligations.ResetRegistersHoldTheSpecValues := by
  intro t h
  obtain ⟨ins, outs, rfl⟩ := reset_cases h
  simp [State.reset, State.olen, State.opad, State.faultO]

theorem spaceOk_nil {α : Type} (cap : Nat) : SpaceOk cap ([] : Cells α) := ⟨List.Pairwise.nil, by simp⟩

theorem reset_spacesOk : State.reset.SpacesOk := by
  refine ⟨?_, ?_, ?_, ?_, ?_, ?_, ?_, ?_, ?_, ?_, ?_⟩ <;> exact spaceOk_nil _

theorem reset_outputOk : State.reset.OutputOk := by simp [State.OutputOk, State.olen, State.opad, State.reset]

theorem reset_inputOk : State.reset.InputOk := by simp [State.InputOk, State.reset]

theorem reset_modelOk : State.reset.ModelOk := by
  simp [State.ModelOk, State.TableOk, State.CdfOk, State.total, State.reset]

theorem reset_sessionOk : State.reset.SessionOk := by simp [State.SessionOk, State.reset]

/-- Settles O20: every register invariant holds of the reset values, and those on a model, a session or a tree ask nothing
while there is none. -/
theorem resetStateMeetsTheInvariant : Obligations.ResetStateMeetsTheInvariant :=
  ⟨by simp [State.ErrLatched, State.reset], reset_spacesOk, reset_outputOk, reset_inputOk, reset_modelOk, reset_sessionOk,
    by simp [State.RangeOk, State.reset], by simp [State.RansOk, State.reset], by simp [State.TreeOk, State.reset]⟩

/-! ### `RDCSR` -/

/-- R113: `RDCSR` of a mapped address responds the register and changes nothing. -/
theorem exec_rdcsr_of_csr {s : State} {a : BitVec 8} {v : Word} (h : csr s a = some v) :
    exec (.rdcsr a) s = s.done s v :=
  exec_of_ok (.inr rfl) ((csr_isSome_iff s a).1 (by simp [h])) (by simp [bodyOf, h])

/-- R113, R216: `RDCSR` of an unmapped address is an illegal command, in `FAULT` answered `(6, 0)`. -/
theorem exec_rdcsr_unmapped {s : State} {a : BitVec 8} (h : ¬ s.Legal (.rdcsr a)) :
    exec (.rdcsr a) s = if s.sess = .fault then s.turnedAway else s.failed .illegalCommand (.rdcsr a) := by
  rw [exec_of_not_legal (.inr rfl) h]
  split
  · next hs => rw [raiseError_of_fault hs]; rfl
  · next hs => rw [raiseError_of_not_fault hs]; rfl

/-- `HT_VALID` reads as one bit, zero-extended (R42, R53). -/
theorem csr_htValid (s : State) : csr s 0x20#8 = some ((BitVec.ofBool s.htValid).setWidth 32) := by
  change some (if s.htValid then 1#32 else 0#32) = _
  cases s.htValid <;> rfl

/-- Settles O22: the table of R53 is `csr`, address by address. -/
theorem rdcsrReadsTheCsrMap : Obligations.RdcsrReadsTheCsrMap := by
  refine ⟨fun s => ⟨fun p hp => exec_rdcsr_of_csr ?_, fun a => exec_rdcsr_unmapped⟩, rfl, rfl, rfl, rfl, rfl⟩
  revert p
  simp only [List.forall_mem_cons, csr_htValid, true_and]
  exact ⟨rfl, rfl, rfl, rfl, rfl, rfl, rfl, rfl, rfl, rfl, rfl, rfl, rfl, rfl, rfl, rfl, rfl, rfl, rfl, rfl, rfl, rfl, rfl,
    rfl, rfl, rfl, rfl, rfl, rfl, fun _ h => by cases h⟩

end Sys2Proof.Machine
end

section
/-! SUPPORT. Said once: what the body of each command can end with, and which parts of the state it leaves as they are. -/

namespace Sys2Proof.Machine

/-! ### What the writers and the loops change -/

theorem putBit_update {b : Bool} {s t : State} (h : putBit b s = .ok t) :
    ∃ m n, t = { s with obuf := m, obitlen := n } := by
  obtain ⟨-, old, -, rfl⟩ := putBit_ok h
  exact ⟨_, _, rfl⟩

theorem putBits_update {bs : List Bool} {s t : State} (h : putBits bs s = .ok t) :
    ∃ m n, t = { s with obuf := m, obitlen := n } := by
  induction bs generalizing s with
  | nil => cases h; exact ⟨_, _, rfl⟩
  | cons b bs ih =>
    obtain ⟨u, h1, h2⟩ := putBits_cons_ok.1 h
    obtain ⟨m, n, rfl⟩ := putBit_update h1
    obtain ⟨m', n', rfl⟩ := ih h2
    exact ⟨m', n', rfl⟩

theorem putBytes_update {vs : List Byte} {s t : State} (h : putBytes vs s = .ok t) :
    ∃ m n, t = { s with obuf := m, obitlen := n } := by
  induction vs generalizing s with
  | nil => cases h; exact ⟨_, _, rfl⟩
  | cons v vs ih =>
    obtain ⟨u, h1, h2⟩ := putBytes_cons_ok.1 h
    obtain ⟨-, -, rfl⟩ := putByte_ok.1 h1
    obtain ⟨m', n', rfl⟩ := ih h2
    exact ⟨m', n', rfl⟩

theorem copyOut_update {l : List Nat} {s t : State} (h : copyOut l s = .ok t) : ∃ m, t = { s with ibuf := m } :=
  ⟨_, (copyOut_ok h).1⟩

theorem addCount_update {sym : BitVec 16} {n : Nat} {s t : State} (h : addCount sym n s = .ok t) :
    ∃ a b c d, t = { s with mtSym := a, mtCnt := b, mn := c, mtotal := d, mstate := .building } := by
  obtain ⟨-, ⟨i, c, -, -, -, -, rfl⟩ | ⟨-, -, rfl⟩⟩ := addCount_ok h <;> exact ⟨_, _, _, _, rfl⟩

theorem writeCdf_update {l : List Slot} {k c : Nat} {s t : State} (h : writeCdf l k c s = .ok t) :
    ∃ a b, t = { s with order := a, clow := b } :=
  ⟨_, _, (writeCdf_ok h).1⟩

theorem writeLeaves_update {l : List Nat} {s t : State} (h : writeLeaves l s = .ok t) :
    ∃ a b c, t = { s with hnLeaf := a, hnOrd := b, hnFreq := c } := by
  induction l generalizing s with
  | nil => cases h; exact ⟨_, _, _, rfl⟩
  | cons k ks ih =>
    obtain ⟨e, -, h⟩ := Comp.bind_eq_ok.1 h
    obtain ⟨m1, -, h⟩ := Comp.bind_eq_ok.1 h
    obtain ⟨m2, -, h⟩ := Comp.bind_eq_ok.1 h
    obtain ⟨m3, -, h⟩ := Comp.bind_eq_ok.1 h
    obtain ⟨a, b, c, rfl⟩ := ih h
    exact ⟨a, b, c, rfl⟩

theorem mergeNodes_update {tests n m : Nat} {live : List Nat} {s u : State}
    (h : mergeNodes tests live n s = .ok (u, m)) :
    ∃ a b c d, u = { s with hnLeaf := a, hnLeft := b, hnRight := c, hnFreq := d } :=
  ⟨_, _, _, _, (mergeNodes_ok h).1⟩

/-! ### What each body can end with -/

@[simp] theorem room_eq_false {s : State} {n : Nat} : s.room n = false ↔ 8 * Config.bufCap < s.obitlen.toNat + n := by
  simp [State.room]

section
variable {s u : State} {d : Word}

theorem ipushBody_ok {byte : Byte} (h : ipushBody byte s = .ok (d, u)) :
    s.ilen.toNat < Config.bufCap ∧ d = 0#32 ∧
      u = { s with ibuf := s.ibuf.put s.ilen.toNat byte, ilen := s.ilen + 1#32 } := by
  obtain ⟨-, -, h⟩ := Comp.bind_eq_ok.1 h
  obtain ⟨m, hm, h⟩ := Comp.bind_eq_ok.1 h
  obtain ⟨hi, rfl⟩ := writeCell_ok.1 hm
  cases h
  exact ⟨hi, rfl, rfl⟩

theorem oreadBody_ok (h : oreadBody s = .ok (d, u)) :
    ∃ v, s.obuf.find s.ordp.toNat = some v ∧ d = zext32 v ∧ u = { s with ordp := s.ordp + 1#32 } := by
  obtain ⟨v, hv, h⟩ := Comp.bind_eq_ok.1 h
  cases h
  exact ⟨v, (outByte_ok.1 hv).2, rfl, rfl⟩

theorem xferBody_ok (h : xferBody s = .ok (d, u)) :
    ∃ t, copyOut (List.range s.olen) s = .ok t ∧ d = 0#32 ∧ u = clearOut { s with
      ibuf := t.ibuf, ilen := word s.olen, ipad := BitVec.ofNat 3 s.opad, ibp := 0#32, irp := 0#32 } := by
  obtain ⟨t, ht, h⟩ := Comp.bind_eq_ok.1 h
  refine ⟨t, ht, ?_⟩
  obtain ⟨m, rfl⟩ := copyOut_update ht
  cases h
  exact ⟨rfl, rfl⟩

theorem mfinBody_ok {o : OrdMode} (h : mfinBody o s = .ok (d, u)) :
    s.mstate ≠ .empty ∧ ∃ slots t, readSlots s (List.range s.mn.toNat) = .ok slots ∧
      writeCdf (sortSlots o slots) 0 0 s = .ok t ∧ d = 0#32 ∧ u = { t with mord := o, mstate := .frozen } := by
  obtain ⟨_, h0, h⟩ := Comp.bind_eq_ok.1 h
  obtain ⟨slots, h1, h⟩ := Comp.bind_eq_ok.1 h
  obtain ⟨t, ht, h⟩ := Comp.bind_eq_ok.1 h
  cases h
  exact ⟨raiseIf_ok.1 h0, slots, t, h1, ht, rfl, rfl⟩

theorem rceBody_ok {sym : BitVec 16} (h : rceBody sym s = .ok (d, u)) :
    ∃ e r t, ordinal s sym = .ok e ∧
      renormE Config.rcTests (narrow s.rcLow.toNat s.rcRange s.total e.low e.high).1
        (narrow s.rcLow.toNat s.rcRange s.total e.low e.high).2 s.rcPend.toNat [] = .ok r ∧
      s.obitlen.toNat + r.out.length ≤ 8 * Config.bufCap ∧ putBits r.out s = .ok t ∧ d = 0#32 ∧
      u = countSymbol { t with rcLow := word r.nl, rcHigh := word r.nh, rcPend := word r.pend } := by
  obtain ⟨e, he, h⟩ := Comp.bind_eq_ok.1 h
  obtain ⟨r, hr, h⟩ := Comp.bind_eq_ok.1 h
  obtain ⟨_, h0, h⟩ := Comp.bind_eq_ok.1 h
  obtain ⟨t, ht, h⟩ := Comp.bind_eq_ok.1 h
  cases h
  exact ⟨e, r, t, he, hr, by simpa using raiseIf_ok.1 h0, ht, rfl, rfl⟩

theorem rcefBody_ok (h : rcefBody s = .ok (d, u)) :
    ∃ t, s.obitlen.toNat + (flushBits s).length ≤ 8 * Config.bufCap ∧ putBits (flushBits s) s = .ok t ∧ d = 0#32 ∧
      u = { t with rcPend := 0#32, sess := .idle } := by
  obtain ⟨_, h0, h⟩ := Comp.bind_eq_ok.1 h
  obtain ⟨t, ht, h⟩ := Comp.bind_eq_ok.1 h
  cases h
  exact ⟨t, by simpa using raiseIf_ok.1 h0, ht, rfl, rfl⟩

theorem rcdiBody_ok (h : rcdiBody s = .ok (d, u)) :
    ∃ v, loadWindow s (List.range 32) 0 = .ok v ∧ d = 0#32 ∧ u = { s with
      rcLow := 0#32, rcHigh := word Config.rcTop, rcValue := word v, ibp := 32#32, symcnt := 0#32, sess := .rcDec } := by
  obtain ⟨v, hv, h⟩ := Comp.bind_eq_ok.1 h
  cases h
  exact ⟨v, hv, rfl, rfl⟩

theorem rcdBody_ok (h : rcdBody s = .ok (d, u)) :
    ∃ e q, symbolAt s (rcTarget s) = .ok e ∧
      renormD s Config.rcTests (narrow s.rcLow.toNat s.rcRange s.total e.low e.high).1
        (narrow s.rcLow.toNat s.rcRange s.total e.low e.high).2 s.rcValue.toNat s.ibp.toNat = .ok q ∧
      d = sext32 e.sym ∧ u = countSymbol { s with
        rcLow := word q.nl, rcHigh := word q.nh, rcValue := word q.v, ibp := word (min q.bp 0xFFFFFFFF) } := by
  obtain ⟨e, he, h⟩ := Comp.bind_eq_ok.1 h
  obtain ⟨q, hq, h⟩ := Comp.bind_eq_ok.1 h
  cases h
  exact ⟨e, q, he, hq, rfl, rfl⟩

theorem raeBody_ok {sym : BitVec 16} (h : raeBody sym s = .ok (d, u)) :
    ∃ e x out t, ordinal s sym = .ok e ∧ ransShift s e = .ok (x, out) ∧
      ransC x e.cnt e.low s.total < Config.raLimit ∧ s.obitlen.toNat + 8 * out.length ≤ 8 * Config.bufCap ∧
      putBytes out s = .ok t ∧ d = 0#32 ∧
      u = countSymbol { t with raState := BitVec.ofNat 64 (ransC x e.cnt e.low s.total) } := by
  obtain ⟨e, he, h⟩ := Comp.bind_eq_ok.1 h
  obtain ⟨⟨x, out⟩, hx, h⟩ := Comp.bind_eq_ok.1 h
  obtain ⟨_, h0, h⟩ := Comp.bind_eq_ok.1 h
  obtain ⟨_, h1, h⟩ := Comp.bind_eq_ok.1 h
  obtain ⟨t, ht, h⟩ := Comp.bind_eq_ok.1 h
  cases h
  exact ⟨e, x, out, t, he, hx, Nat.lt_of_not_le (raiseIf_ok.1 h0), by simpa using raiseIf_ok.1 h1, ht, rfl, rfl⟩

theorem raefBody_ok (h : raefBody s = .ok (d, u)) :
    ∃ t, s.obitlen.toNat + 64 ≤ 8 * Config.bufCap ∧ putBytes (stateBytes s.raState) s = .ok t ∧ d = 0#32 ∧
      u = { t with sess := .idle } := by
  obtain ⟨_, h0, h⟩ := Comp.bind_eq_ok.1 h
  obtain ⟨t, ht, h⟩ := Comp.bind_eq_ok.1 h
  cases h
  exact ⟨t, by simpa using raiseIf_ok.1 h0, ht, rfl, rfl⟩

theorem radiBody_ok {m : RaMode} (h : radiBody m s = .ok (d, u)) :
    8 ≤ s.ilen.toNat ∧ ∃ x rp, loadBack s 8 0 s.ilen.toNat = .ok (x, rp) ∧ d = 0#32 ∧ u = { s with
      irp := word rp, raState := BitVec.ofNat 64 x, raMode := m, symcnt := 0#32, sess := .raDec } := by
  obtain ⟨_, h0, h⟩ := Comp.bind_eq_ok.1 h
  obtain ⟨⟨x, rp⟩, hx, h⟩ := Comp.bind_eq_ok.1 h
  cases h
  exact ⟨Nat.le_of_not_lt (raiseIf_ok.1 h0), x, rp, hx, rfl, rfl⟩

theorem radBody_ok (h : radBody s = .ok (d, u)) :
    ∃ x rp e, ransRefill s = .ok (x, rp) ∧ symbolAt s (x % s.total) = .ok e ∧ d = sext32 e.sym ∧
      u = countSymbol { s with raState := BitVec.ofNat 64 (ransD x e.cnt e.low s.total), irp := word rp } := by
  obtain ⟨⟨x, rp⟩, hx, h⟩ := Comp.bind_eq_ok.1 h
  obtain ⟨e, he, h⟩ := Comp.bind_eq_ok.1 h
  cases h
  exact ⟨x, rp, e, hx, he, rfl, rfl⟩

theorem hbldBody_ok (h : hbldBody s = .ok (d, u)) :
    ∃ t v n, writeLeaves (List.range s.mn.toNat) s = .ok t ∧
      mergeNodes s.mn.toNat (List.range s.mn.toNat) s.mn.toNat t = .ok (v, n) ∧ d = 0#32 ∧
      u = { v with htNn := BitVec.ofNat 10 n, htRoot := BitVec.ofNat 10 (n - 1), htValid := true } := by
  obtain ⟨t, ht, h⟩ := Comp.bind_eq_ok.1 h
  obtain ⟨⟨v, n⟩, hv, h⟩ := Comp.bind_eq_ok.1 h
  cases h
  exact ⟨t, v, n, ht, hv, rfl, rfl⟩

theorem heBody_ok {sym : BitVec 16} (h : heBody sym s = .ok (d, u)) :
    ∃ e bits t, ordinal s sym = .ok e ∧ code s e.k = .ok bits ∧
      s.obitlen.toNat + bits.length ≤ 8 * Config.bufCap ∧ putBits bits s = .ok t ∧ d = 0#32 ∧ u = countSymbol t := by
  obtain ⟨e, he, h⟩ := Comp.bind_eq_ok.1 h
  obtain ⟨bits, hb, h⟩ := Comp.bind_eq_ok.1 h
  obtain ⟨_, h0, h⟩ := Comp.bind_eq_ok.1 h
  obtain ⟨t, ht, h⟩ := Comp.bind_eq_ok.1 h
  cases h
  exact ⟨e, bits, t, he, hb, by simpa using raiseIf_ok.1 h0, ht, rfl, rfl⟩

theorem hdBody_ok (h : hdBody s = .ok (d, u)) :
    ∃ n bp o e, decodePath s = .ok (n, bp) ∧ s.hnOrd.find n = some o ∧ entry s o.toNat = .ok e ∧
      d = sext32 e.sym ∧ u = countSymbol { s with ibp := word bp } := by
  obtain ⟨⟨n, bp⟩, hn, h⟩ := Comp.bind_eq_ok.1 h
  obtain ⟨o, ho, h⟩ := Comp.bind_eq_ok.1 h
  obtain ⟨e, he, h⟩ := Comp.bind_eq_ok.1 h
  cases h
  exact ⟨n, bp, o, e, hn, (readCell_ok.1 ho).2, he, rfl, rfl⟩

end

/-! ### Which command writes which part -/

/-- The commands that write the frequency table or the CDF (R29 to R34). -/
def writesModel : Instr → Bool
  | .srst | .mclr | .mcnt _ | .mload _ | .mfin _ => true
  | _ => false

/-- The commands that write the Huffman tree (R42 to R44). -/
def writesTree : Instr → Bool
  | .srst | .mclr | .hbld => true
  | _ => false

/-- The commands that write the output stream or its read cursor (R46, R48). -/
def writesOutput : Instr → Bool
  | .srst | .oread | .xfer | .orwd | .rcei | .rce _ | .rcef | .raei _ | .rae _ | .raef | .hei | .he _ => true
  | _ => false

/-- The commands that write the input stream or the byte cursor `IRP` (R49 to R51). -/
def writesInput : Instr → Bool
  | .srst | .iclr | .ipush _ | .itrim _ | .xfer | .radi _ | .rad => true
  | _ => false

/-- The commands that write `RC_LOW`, `RC_HIGH` or `RC_VALUE` (R36, R38). -/
def writesRange : Instr → Bool
  | .srst | .rcei | .rce _ | .rcdi | .rcd => true
  | _ => false

/-- The commands that write the rANS registers (R40, R41). -/
def writesRans : Instr → Bool
  | .srst | .raei _ | .rae _ | .radi _ | .rad => true
  | _ => false

/-- `SESS` after a command that completes in session `x` (R101). -/
def sessAfter (i : Instr) (x : Sess) : Sess :=
  match i with
  | .srst | .eclr | .rcef | .rcdf | .raef | .radf | .hef | .hdf => .idle
  | .rcei => .rcEnc
  | .rcdi => .rcDec
  | .raei _ => .raEnc
  | .radi _ => .raDec
  | .hei => .hfEnc
  | .hdi => .hfDec
  | _ => x

/-- `ERR` after a command that completes (R26). -/
def errAfter (i : Instr) (e : Option Err) : Option Err :=
  match i with
  | .srst | .eclr => none
  | _ => e

/-- `SYMCNT` after a command that completes (R52). -/
def symcntAfter (i : Instr) (n : Word) : Word :=
  match i with
  | .srst | .rcei | .rcdi | .raei _ | .radi _ | .hei | .hdi => 0#32
  | .rce _ | .rcd | .rae _ | .rad | .he _ | .hd => n + 1#32
  | _ => n

/-- The two states hold the same output stream and cursor. -/
def State.SameOutput (s t : State) : Prop := s.obuf = t.obuf ∧ s.obitlen = t.obitlen ∧ s.ordp = t.ordp

/-- The two states hold the same input stream and byte cursor. -/
def State.SameInput (s t : State) : Prop := s.ibuf = t.ibuf ∧ s.ilen = t.ilen ∧ s.ipad = t.ipad ∧ s.irp = t.irp

/-- The two states hold the same interval and window. -/
def State.SameRange (s t : State) : Prop := s.rcLow = t.rcLow ∧ s.rcHigh = t.rcHigh ∧ s.rcValue = t.rcValue

/-- The two states hold the same rANS registers. -/
def State.SameRans (s t : State) : Prop := s.raState = t.raState ∧ s.raMode = t.raMode

theorem State.SameModel.refl (s : State) : s.SameModel s := ⟨rfl, rfl, rfl, rfl, rfl, rfl, rfl, rfl⟩
theorem State.SameTree.refl (s : State) : s.SameTree s := ⟨rfl, rfl, rfl, rfl, rfl, rfl, rfl, rfl⟩
theorem State.SameOutput.refl (s : State) : s.SameOutput s := ⟨rfl, rfl, rfl⟩
theorem State.SameInput.refl (s : State) : s.SameInput s := ⟨rfl, rfl, rfl, rfl⟩
theorem State.SameRange.refl (s : State) : s.SameRange s := ⟨rfl, rfl, rfl⟩
theorem State.SameRans.refl (s : State) : s.SameRans s := ⟨rfl, rfl⟩

/-- What a completed command leaves as it is, part by part. A part is kept by default; a proof names the parts that the
command writes. -/
structure Frame (i : Instr) (s u : State) : Prop where
  inbox : u.inbox = s.inbox := by rfl
  outbox : u.outbox = s.outbox := by rfl
  sess : u.sess = sessAfter i s.sess := by rfl
  err : u.err = errAfter i s.err := by rfl
  symcnt : u.symcnt = symcntAfter i s.symcnt := by rfl
  model : writesModel i = false → s.SameModel u := by exact fun _ => .refl _
  tree : writesTree i = false → s.SameTree u := by exact fun _ => .refl _
  output : writesOutput i = false → s.SameOutput u := by exact fun _ => .refl _
  input : writesInput i = false → s.SameInput u := by exact fun _ => .refl _
  range : writesRange i = false → s.SameRange u := by exact fun _ => .refl _
  rans : writesRans i = false → s.SameRans u := by exact fun _ => .refl _

/-- Every body keeps the parts that its command does not write. -/
theorem bodyOf_frame {i : Instr} {s u : State} {d : Word} (h : bodyOf i s = .ok (d, u)) : Frame i s u := by
  cases i with
  | nop | eclr | rdcsr | arg | mtot | rcdf | radf | hef | hdi | hdf => cases h; exact {}
  | srst =>
    cases h
    exact { model := nofun, tree := nofun, output := nofun, input := nofun, range := nofun, rans := nofun }
  | mclr => cases h; exact { model := nofun, tree := nofun }
  | mcnt | mload =>
    obtain ⟨t, ht, h⟩ := Comp.bind_eq_ok.1 h
    obtain ⟨_, _, _, _, rfl⟩ := addCount_update ht
    cases h; exact { model := nofun }
  | mfin =>
    obtain ⟨-, _, t, -, ht, -, rfl⟩ := mfinBody_ok h
    obtain ⟨_, _, rfl⟩ := writeCdf_update ht
    exact { model := nofun }
  | mivl | msat =>
    obtain ⟨e, -, h⟩ := Comp.bind_eq_ok.1 h
    cases h; exact {}
  | iclr | itrim => cases h; exact { input := nofun }
  | ipush => obtain ⟨-, -, rfl⟩ := ipushBody_ok h; exact { input := nofun }
  | oread => obtain ⟨_, -, -, rfl⟩ := oreadBody_ok h; exact { output := nofun }
  | orwd | hei => cases h; exact { output := nofun }
  | xfer => obtain ⟨_, -, -, rfl⟩ := xferBody_ok h; exact { output := nofun, input := nofun }
  | rcei => cases h; exact { output := nofun, range := nofun }
  | rce =>
    obtain ⟨_, _, t, -, -, -, ht, -, rfl⟩ := rceBody_ok h
    obtain ⟨_, _, rfl⟩ := putBits_update ht
    exact { output := nofun, range := nofun }
  | rcef =>
    obtain ⟨t, -, ht, -, rfl⟩ := rcefBody_ok h
    obtain ⟨_, _, rfl⟩ := putBits_update ht
    exact { output := nofun }
  | rcdi => obtain ⟨_, -, -, rfl⟩ := rcdiBody_ok h; exact { range := nofun }
  | rcd => obtain ⟨_, _, -, -, -, rfl⟩ := rcdBody_ok h; exact { range := nofun }
  | raei => cases h; exact { output := nofun, rans := nofun }
  | rae =>
    obtain ⟨_, _, _, t, -, -, -, -, ht, -, rfl⟩ := raeBody_ok h
    obtain ⟨_, _, rfl⟩ := putBytes_update ht
    exact { output := nofun, rans := nofun }
  | raef =>
    obtain ⟨t, -, ht, -, rfl⟩ := raefBody_ok h
    obtain ⟨_, _, rfl⟩ := putBytes_update ht
    exact { output := nofun }
  | radi => obtain ⟨-, _, _, -, -, rfl⟩ := radiBody_ok h; exact { input := nofun, rans := nofun }
  | rad => obtain ⟨_, _, _, -, -, -, rfl⟩ := radBody_ok h; exact { input := nofun, rans := nofun }
  | hbld =>
    obtain ⟨t, v, _, ht, hv, -, rfl⟩ := hbldBody_ok h
    obtain ⟨_, _, _, rfl⟩ := writeLeaves_update ht
    obtain ⟨_, _, _, _, rfl⟩ := mergeNodes_update hv
    exact { tree := nofun }
  | he =>
    obtain ⟨_, _, t, -, -, -, ht, -, rfl⟩ := heBody_ok h
    obtain ⟨_, _, rfl⟩ := putBits_update ht
    exact { output := nofun }
  | hd => obtain ⟨_, _, _, _, -, -, -, -, rfl⟩ := hdBody_ok h; exact {}

end Sys2Proof.Machine
end

section
/-! SUPPORT. The error latch and the sessions (spec R26, R42, R43, R77, obligation O15), and the frozen model (R29, R35,
obligation O13). -/

namespace Sys2Proof.Machine

/-! ### The latch -/

theorem State.ErrLatched.err_eq_none {s : State} (h : s.ErrLatched) (hs : s.sess ≠ .fault) : s.err = none := by
  by_contra he; exact hs (h.1 he)

theorem errLatched_of_none {s : State} (he : s.err = none) (hs : s.sess ≠ .fault) : s.ErrLatched := by
  simp [State.ErrLatched, he, hs]

theorem errLatched_stepFrame : StepFrame State.ErrLatched where
  inbox _ _ h := h
  respond _ _ _ h := h
  reset _ := errLatched_of_none rfl (by simp)
  faultEntry _ _ _ _ := by simp [State.ErrLatched]

/-- A command that leaves `SESS` and `ERR` keeps the latch; the others run without an error or clear it, and none of them
ends in `FAULT`. -/
theorem bodyOf_keeps_latch {i : Instr} {s u : State} {d : Word} (hs : s.ErrLatched) (hl : s.Legal i)
    (h : bodyOf i s = .ok (d, u)) : u.ErrLatched := by
  have F := bodyOf_frame h
  cases i with
  | srst | eclr => exact errLatched_of_none F.err (by rw [F.sess]; nofun)
  | rcei | rcdi | raei | radi | hei | hdi =>
    have hn := hs.err_eq_none (by rw [hl.1]; nofun)
    exact errLatched_of_none (F.err.trans hn) (by rw [F.sess]; nofun)
  | rcef | rcdf | raef | radf | hef | hdf =>
    have hn := hs.err_eq_none (by rw [show s.sess = _ from hl]; nofun)
    exact errLatched_of_none (F.err.trans hn) (by rw [F.sess]; nofun)
  | _ =>
    unfold State.ErrLatched
    rw [F.err, F.sess]
    exact hs

/-! ### The sessions -/

/-- Where `SESS` is `IDLE` or `FAULT`, the model and the tree alone decide. -/
theorem sessionOk_of_closed {s : State} (hs : s.sess = .idle ∨ s.sess = .fault) (hv : s.htValid = true → s.mstate = .frozen)
    (hz : s.htValid = false → s.htRoot = 0#10 ∧ s.htNn = 0#10) : s.SessionOk := by
  refine ⟨fun h1 h2 => ?_, fun h => ?_, hv, hz⟩
  · exact absurd hs (not_or.2 ⟨h1, h2⟩)
  · rcases hs with hs | hs <;> rcases h with h | h <;> rw [hs] at h <;> cases h

theorem sessionOk_stepFrame : StepFrame State.SessionOk where
  inbox _ _ h := h
  respond _ _ _ h := h
  reset _ := sessionOk_of_closed (.inl rfl) (by simp) (by simp)
  faultEntry _ _ _ := fun ⟨_, _, hv, hz⟩ => sessionOk_of_closed (.inr rfl) hv hz

/-- A command that writes neither the model nor the tree keeps what a session asks, if the session it leaves is closed, or
the model is frozen and a Huffman session has its tree. -/
theorem sessionOk_of_frame {i : Instr} {s u : State} (F : Frame i s u) (hs : s.SessionOk) (hm : writesModel i = false)
    (ht : writesTree i = false)
    (ho : u.sess = .idle ∨ s.mstate = .frozen ∧ (u.sess = .hfEnc ∨ u.sess = .hfDec → s.htValid = true)) : u.SessionOk := by
  obtain ⟨hm, -⟩ := F.model hm
  obtain ⟨hv, hr, hn, -⟩ := F.tree ht
  obtain ⟨-, -, h3, h4⟩ := hs
  rw [hm, hv] at h3 ho
  rw [hv, hr, hn] at h4
  rcases ho with ho | ⟨hf, ho⟩
  · exact sessionOk_of_closed (.inl ho) h3 h4
  · exact ⟨fun _ _ => hf, ho, h3, h4⟩

/-- Without a frozen model there is no tree. -/
theorem State.SessionOk.htValid_eq_false {s : State} (hs : s.SessionOk) (hm : s.mstate ≠ .frozen) : s.htValid = false := by
  obtain ⟨-, -, h3, -⟩ := hs
  by_contra hv
  exact hm (h3 (by simpa using hv))

/-- A command of an open table leaves no tree and no session open. -/
theorem sessionOk_of_open_table {i : Instr} {s u : State} (F : Frame i s u) (hs : s.SessionOk) (hi : u.sess = .idle)
    (hm : s.mstate ≠ .frozen) (ht : writesTree i = false) : u.SessionOk := by
  obtain ⟨hv, hr, hn, -⟩ := F.tree ht
  have hf := hs.htValid_eq_false hm
  obtain ⟨-, -, -, h4⟩ := hs
  rw [hv, hr, hn] at h4
  exact sessionOk_of_closed (.inl hi) (by rw [← hv, hf]; nofun) h4

theorem bodyOf_keeps_sessions {i : Instr} {s u : State} {d : Word} (hs : s.SessionOk) (hl : s.Legal i)
    (h : bodyOf i s = .ok (d, u)) : u.SessionOk := by
  have F := bodyOf_frame h
  cases i with
  | srst => cases h; exact sessionOk_stepFrame.reset s
  | mclr => cases h; exact sessionOk_of_closed (.inl hl) (by simp) (by simp)
  | eclr | rcef | rcdf | raef | radf | hef | hdf => exact sessionOk_of_frame F hs rfl rfl (.inl F.sess)
  | rcei | rcdi | raei | radi =>
    exact sessionOk_of_frame F hs rfl rfl (.inr ⟨hl.2, by rw [F.sess]; rintro (h | h) <;> cases h⟩)
  | hei | hdi =>
    obtain ⟨-, hf, hv⟩ := hl
    exact sessionOk_of_frame F hs rfl rfl (.inr ⟨hf, fun _ => hv⟩)
  | mcnt | mload | mfin =>
    obtain ⟨hi, hm⟩ : s.sess = .idle ∧ s.mstate ≠ .frozen := by simp only [State.Legal] at hl; tauto
    exact sessionOk_of_open_table F hs (F.sess.trans hi) hm rfl
  | hbld =>
    obtain ⟨hm, -⟩ := F.model rfl
    obtain ⟨-, v, n, -, -, -, rfl⟩ := hbldBody_ok h
    exact sessionOk_of_closed (.inl (F.sess.trans hl.1)) (fun _ => hm.symm.trans hl.2) (by simp)
  | _ =>
    obtain ⟨hm, -⟩ := F.model rfl
    obtain ⟨hv, hr, hn, -⟩ := F.tree rfl
    unfold State.SessionOk
    rw [← hm, ← hv, ← hr, ← hn, F.sess]
    exact hs

/-- Settles O15: no command's body breaks the latch or leaves a session without its model or its tree. -/
theorem stepKeepsLatchAndSessions : Obligations.StepKeepsLatchAndSessions := fun _ _ hs h =>
  (errLatched_stepFrame.and sessionOk_stepFrame).step
    (fun _ _ _ _ hs hl hb => ⟨bodyOf_keeps_latch hs.1 hl hb, bodyOf_keeps_sessions hs.2 hl hb⟩) hs h

/-! ### The frozen model -/

/-- On a frozen model the commands that write the model, `MCLR` and `SRST` apart, are not legal (R100). -/
theorem not_legal_of_writesModel {i : Instr} {s : State} (hf : s.mstate = .frozen) (h1 : i ≠ .mclr) (h2 : i ≠ .srst)
    (hw : writesModel i = true) : ¬ s.Legal i := by
  cases i with
  | srst => exact absurd rfl h2
  | mclr => exact absurd rfl h1
  | mcnt | mload | mfin => simp [State.Legal, hf]
  | _ => cases hw

/-- Settles O13: an error leaves the tables alone, and a body that would write them is not legal. -/
theorem frozenModelIsImmutable : Obligations.FrozenModelIsImmutable := by
  intro i s t hf h h1 h2
  rcases exec_next h with ⟨-, -, rfl⟩ | ⟨e, rfl⟩ | ⟨hl, d, u, hb, rfl⟩
  · exact .refl s
  · unfold raiseError
    split <;> exact .refl s
  · have hw : writesModel i = false := by
      by_contra hw
      exact not_legal_of_writesModel hf h1 h2 (by simpa using hw) hl
    exact (bodyOf_frame hb).model hw

end Sys2Proof.Machine
end

section
/-! SUPPORT. Every step keeps both streams (spec R46 to R51, R66, obligation O17): the writers append whole bytes with zero
padding, and the cursors stay inside. -/

namespace Sys2Proof.Machine

/-! ### The output stream -/

theorem outBit_of_find {s : State} {j : Nat} {v : Byte} (h : s.obuf.find (j / 8) = some v) :
    s.outBit j = v.getLsbD (7 - j % 8) := by
  simp [State.outBit, h]

theorem outputOk_of_empty {s : State} (h1 : s.obitlen = 0#32) (h2 : s.ordp = 0#32) : s.OutputOk := by
  simp [State.OutputOk, State.olen, State.opad, h1, h2]

/-- What an invariant of the output stream asks does not depend on anything else. -/
theorem State.SameOutput.outputOk {s u : State} (h : s.SameOutput u) (hs : s.OutputOk) : u.OutputOk := by
  obtain ⟨h1, h2, h3⟩ := h
  simpa only [State.OutputOk, State.outBit, State.olen, State.opad, h1, h2, h3] using hs

/-- `PutBit` opens a byte of zeros or goes on in one whose later bits are 0. -/
theorem putBit_keeps_output {b : Bool} {s t : State} (hs : s.OutputOk) (hr : s.obitlen.toNat + 1 ≤ 8 * Config.bufCap)
    (h : putBit b s = .ok t) : t.OutputOk := by
  obtain ⟨-, old, hold, rfl⟩ := putBit_ok h
  obtain ⟨-, h2, h3, h4⟩ := hs
  have hn : (s.obitlen + 1#32).toNat = s.obitlen.toNat + 1 := obitlen_add rfl hr
  unfold State.olen at h2 h3
  refine ⟨by simpa only [hn] using hr, ?_, fun i hi => ?_, fun j hj => ?_⟩
  · simp only [State.olen, hn]; omega
  · simp only [State.olen, hn] at hi
    rw [Cells.find_put]
    split
    · rfl
    · exact h3 i (by omega)
  · simp only [State.opad, hn] at hj
    simp only [hn]
    have hq : (s.obitlen.toNat + 1 + j) / 8 = s.obitlen.toNat / 8 := by omega
    rw [outBit_of_find (by rw [hq]; exact Cells.find_put_same _ _ _), getLsbD_setBit _ _ _ _ (by omega) (by omega),
      if_neg (by omega)]
    rcases hold with ⟨-, rfl⟩ | ⟨h0, hf⟩
    · simp
    · have := h4 (j + 1) (by unfold State.opad; omega)
      rwa [show s.obitlen.toNat + (j + 1) = s.obitlen.toNat + 1 + j by omega, outBit_of_find (by rw [hq]; exact hf)] at this

theorem putBit_obitlen {b : Bool} {s t : State} (hr : s.obitlen.toNat + 1 ≤ 8 * Config.bufCap) (h : putBit b s = .ok t) :
    t.obitlen.toNat = s.obitlen.toNat + 1 := by
  obtain ⟨-, -, -, rfl⟩ := putBit_ok h
  exact obitlen_add rfl hr

theorem putBits_keeps_output {bs : List Bool} {s t : State} (hs : s.OutputOk)
    (hr : s.obitlen.toNat + bs.length ≤ 8 * Config.bufCap) (h : putBits bs s = .ok t) : t.OutputOk := by
  induction bs generalizing s with
  | nil => cases h; exact hs
  | cons b bs ih =>
    obtain ⟨u, h1, h2⟩ := putBits_cons_ok.1 h
    rw [List.length_cons] at hr
    have hn := putBit_obitlen (by omega) h1
    exact ih (putBit_keeps_output hs (by omega) h1) (by omega) h2

theorem putByte_keeps_output {v : Byte} {s t : State} (hs : s.OutputOk) (hr : s.obitlen.toNat + 8 ≤ 8 * Config.bufCap)
    (h : putByte v s = .ok t) : t.OutputOk := by
  obtain ⟨h0, -, rfl⟩ := putByte_ok.1 h
  obtain ⟨-, h2, h3, -⟩ := hs
  have hn : (s.obitlen + 8#32).toNat = s.obitlen.toNat + 8 := obitlen_add (k := 8) rfl hr
  unfold State.olen at h2 h3
  refine ⟨by simpa only [hn] using hr, ?_, fun i hi => ?_, fun j hj => ?_⟩
  · simp only [State.olen, hn]; omega
  · simp only [State.olen, hn] at hi
    rw [Cells.find_put]
    split
    · rfl
    · exact h3 i (by omega)
  · simp only [State.opad, hn] at hj
    omega

theorem putByte_obitlen {v : Byte} {s t : State} (hr : s.obitlen.toNat + 8 ≤ 8 * Config.bufCap) (h : putByte v s = .ok t) :
    t.obitlen.toNat = s.obitlen.toNat + 8 := by
  obtain ⟨-, -, rfl⟩ := putByte_ok.1 h
  exact obitlen_add (k := 8) rfl hr

theorem putBytes_keeps_output {vs : List Byte} {s t : State} (hs : s.OutputOk)
    (hr : s.obitlen.toNat + 8 * vs.length ≤ 8 * Config.bufCap) (h : putBytes vs s = .ok t) : t.OutputOk := by
  induction vs generalizing s with
  | nil => cases h; exact hs
  | cons v vs ih =>
    obtain ⟨u, h1, h2⟩ := putBytes_cons_ok.1 h
    rw [List.length_cons] at hr
    have hn := putByte_obitlen (by omega) h1
    exact ih (putByte_keeps_output hs (by omega) h1) (by omega) h2

theorem outputOk_stepFrame : StepFrame State.OutputOk where
  inbox _ _ h := h
  respond _ _ _ h := h
  reset _ := outputOk_of_empty rfl rfl
  faultEntry _ _ _ h := h

/-- The commands that write the output stream append to it, empty it, or move its cursor within it. -/
theorem bodyOf_keeps_output {i : Instr} {s u : State} {d : Word} (hs : s.OutputOk) (hl : s.Legal i)
    (h : bodyOf i s = .ok (d, u)) : u.OutputOk := by
  cases i with
  | srst | rcei | raei | hei => cases h; exact outputOk_of_empty rfl rfl
  | xfer => obtain ⟨_, -, -, rfl⟩ := xferBody_ok h; exact outputOk_of_empty rfl rfl
  | orwd =>
    cases h
    obtain ⟨h1, -, h3, h4⟩ := hs
    exact ⟨h1, Nat.zero_le _, h3, h4⟩
  | oread =>
    obtain ⟨v, -, -, rfl⟩ := oreadBody_ok h
    obtain ⟨h1, -, h3, h4⟩ := hs
    have hl : s.ordp.toNat < s.olen := hl
    exact ⟨h1, le_trans (BitVec.toNat_add _ _ ▸ Nat.mod_le _ _) hl, h3, h4⟩
  | rce =>
    obtain ⟨e, r, t, -, -, hr, ht, -, rfl⟩ := rceBody_ok h
    exact putBits_keeps_output (t := t) hs hr ht
  | rcef =>
    obtain ⟨t, hr, ht, -, rfl⟩ := rcefBody_ok h
    exact putBits_keeps_output (t := t) hs hr ht
  | he =>
    obtain ⟨e, bits, t, -, -, hr, ht, -, rfl⟩ := heBody_ok h
    exact putBits_keeps_output (t := t) hs hr ht
  | rae =>
    obtain ⟨e, x, out, t, -, -, -, hr, ht, -, rfl⟩ := raeBody_ok h
    exact putBytes_keeps_output (t := t) hs hr ht
  | raef =>
    obtain ⟨t, hr, ht, -, rfl⟩ := raefBody_ok h
    exact putBytes_keeps_output (t := t) hs (by simpa using hr) ht
  | _ => exact ((bodyOf_frame h).output rfl).outputOk hs

/-! ### The input stream -/

theorem inputOk_of_empty {s : State} (h1 : s.ilen = 0#32) (h2 : s.ipad = 0#3) (h3 : s.irp = 0#32) : s.InputOk := by
  simp [State.InputOk, h1, h2, h3]

/-- What an invariant of the input stream asks does not depend on anything else. -/
theorem State.SameInput.inputOk {s u : State} (h : s.SameInput u) (hs : s.InputOk) : u.InputOk := by
  obtain ⟨h1, h2, h3, h4⟩ := h
  simpa only [State.InputOk, h1, h2, h3, h4] using hs

/-- The byte cursor may go anywhere inside the stream. -/
theorem inputOk_of_irp {s u : State} (hs : s.InputOk) (hb : u.ibuf = s.ibuf) (hn : u.ilen = s.ilen) (hp : u.ipad = s.ipad)
    (hr : u.irp.toNat ≤ s.ilen.toNat) : u.InputOk := by
  obtain ⟨h1, h2, -, h4⟩ := hs
  unfold State.InputOk
  rw [hb, hn, hp]
  exact ⟨h1, h2, hr, h4⟩

theorem toNat_word {n : Nat} (h : n < 2 ^ 32) : (word n).toNat = n := by
  rw [word, BitVec.toNat_ofNat, Nat.mod_eq_of_lt h]

theorem inputOk_stepFrame : StepFrame State.InputOk where
  inbox _ _ h := h
  respond _ _ _ h := h
  reset _ := inputOk_of_empty rfl rfl rfl
  faultEntry _ _ _ h := h

theorem ipushBody_keeps_input {byte : Byte} {s u : State} {d : Word} (hs : s.InputOk) (h : ipushBody byte s = .ok (d, u)) :
    u.InputOk := by
  obtain ⟨hlt, -, rfl⟩ := ipushBody_ok h
  obtain ⟨-, -, h3, h4⟩ := hs
  have hn : (s.ilen + 1#32).toNat = s.ilen.toNat + 1 := by
    rw [BitVec.toNat_add]; unfold Config.bufCap at hlt; simp; omega
  refine ⟨by simp only [hn]; omega, fun h0 => ?_, by simp only [hn]; omega, fun i hi => ?_⟩
  · have := congrArg BitVec.toNat h0
    simp only [hn] at this
    simp at this
  · simp only [hn] at hi
    rw [Cells.find_put]
    split
    · rfl
    · exact h4 i (by omega)

theorem itrim_keeps_input {pad : BitVec 3} {s : State} (hs : s.InputOk) (hl : s.Legal (.itrim pad)) :
    State.InputOk { s with ipad := pad } := by
  obtain ⟨h1, -, h3, h4⟩ := hs
  refine ⟨h1, fun h0 => ?_, h3, h4⟩
  have h0 : s.ilen = 0#32 := h0
  rcases hl with ⟨-, hl | hl⟩
  · exact hl
  · rw [h0] at hl; simp at hl

/-- The container that `XFER` moves is a stream whose bytes all hold a value. -/
theorem xferBody_keeps_input {s u : State} {d : Word} (ho : s.OutputOk) (h : xferBody s = .ok (d, u)) : u.InputOk := by
  obtain ⟨t, ht, -, rfl⟩ := xferBody_ok h
  obtain ⟨-, hf, -⟩ := copyOut_ok ht
  obtain ⟨h1, -, -, -⟩ := ho
  have hle : s.olen ≤ Config.bufCap := by unfold State.olen; omega
  have hn : (word s.olen).toNat = s.olen := toNat_word (by unfold Config.bufCap at hle; omega)
  refine ⟨by simpa only [clearOut_ilen, hn] using hle, fun h0 => ?_, by simp, fun i hi => ?_⟩
  · have h0 : s.olen = 0 := hn.symm.trans (congrArg BitVec.toNat h0)
    unfold State.olen at h0
    rw [clearOut_ipad, show s.opad = 0 by unfold State.opad; omega]
  · simp only [clearOut_ilen, hn] at hi
    obtain ⟨hsome, heq⟩ := hf i (List.mem_range.2 hi)
    rw [clearOut_ibuf, heq]
    exact hsome

/-- The commands that write the input stream append to it, take it over from the output, or move its cursor within it. -/
theorem bodyOf_keeps_input {i : Instr} {s u : State} {d : Word} (ho : s.OutputOk) (hs : s.InputOk) (hl : s.Legal i)
    (h : bodyOf i s = .ok (d, u)) : u.InputOk := by
  have hcap : s.ilen.toNat < 2 ^ 32 := s.ilen.isLt
  cases i with
  | srst | iclr => cases h; exact inputOk_of_empty rfl rfl rfl
  | ipush => exact ipushBody_keeps_input hs h
  | itrim => cases h; exact itrim_keeps_input hs hl
  | xfer => exact xferBody_keeps_input ho h
  | radi =>
    obtain ⟨-, x, rp, hx, -, rfl⟩ := radiBody_ok h
    obtain ⟨hrp, -, -⟩ := loadBack_ok hx
    exact inputOk_of_irp hs rfl rfl rfl (by simp only; rw [toNat_word (by omega)]; omega)
  | rad =>
    obtain ⟨x, rp, e, hx, -, -, rfl⟩ := radBody_ok h
    obtain ⟨-, -, h3, -⟩ := id hs
    have hrp : rp ≤ s.irp.toNat := by
      unfold ransRefill at hx
      split at hx
      · cases hx; exact le_rfl
      · obtain ⟨-, hle, -⟩ := replenish_ok hx
        exact hle
    exact inputOk_of_irp hs rfl rfl rfl (by rw [countSymbol_irp, toNat_word (by omega)]; omega)
  | _ => exact ((bodyOf_frame h).input rfl).inputOk hs

/-- Settles O17. -/
theorem stepKeepsStreams : Obligations.StepKeepsStreams := fun _ _ hs h =>
  (outputOk_stepFrame.and inputOk_stepFrame).step
    (fun _ _ _ _ hs hl hb => ⟨bodyOf_keeps_output hs.1 hl hb, bodyOf_keeps_input hs.1 hs.2 hl hb⟩) hs h

end Sys2Proof.Machine
end

section
/-! SUPPORT. Every step keeps the frequency table and the CDF consistent (spec R30 to R35, R132, R137, obligation O18). -/

namespace Sys2Proof.Machine

/-! ### The table's terms -/

theorem slotSym_of_find {s : State} {i : Nat} {v : BitVec 16} (h : s.mtSym.find i = some v) : s.slotSym i = v := by
  simp [State.slotSym, h]

theorem slotCnt_of_find {s : State} {i : Nat} {v : BitVec 16} (h : s.mtCnt.find i = some v) : s.slotCnt i = v.toNat := by
  simp [State.slotCnt, h]

theorem sum_range_map (f : Nat → Nat) (n : Nat) : ((List.range n).map f).sum = ∑ k ∈ Finset.range n, f k := rfl

section
variable {s u : State} (h : s.SameModel u)
include h

/-! The terms of the model are the same in two states that hold the same model. -/

theorem State.SameModel.slotSym : s.slotSym = u.slotSym := by
  obtain ⟨-, -, -, -, h5, -⟩ := h
  exact funext fun i => by rw [State.slotSym, State.slotSym, h5]

theorem State.SameModel.slotCnt : s.slotCnt = u.slotCnt := by
  obtain ⟨-, -, -, -, -, h6, -⟩ := h
  exact funext fun i => by rw [State.slotCnt, State.slotCnt, h6]

theorem State.SameModel.slotAt : s.slotAt = u.slotAt := by
  have h1 := h.slotSym
  obtain ⟨-, -, -, -, -, h6, -⟩ := h
  exact funext fun i => by rw [State.slotAt, State.slotAt, h1, h6]

theorem State.SameModel.slotOf : s.slotOf = u.slotOf := by
  obtain ⟨-, -, -, -, -, -, h7, -⟩ := h
  exact funext fun i => by rw [State.slotOf, State.slotOf, h7]

theorem State.SameModel.symOf : s.symOf = u.symOf :=
  funext fun k => by rw [State.symOf, State.symOf, h.slotSym, h.slotOf]

theorem State.SameModel.cntOf : s.cntOf = u.cntOf :=
  funext fun k => by rw [State.cntOf, State.cntOf, h.slotCnt, h.slotOf]

theorem State.SameModel.lowOf : s.lowOf = u.lowOf := by
  obtain ⟨-, -, -, -, -, -, -, h8⟩ := h
  exact funext fun i => by rw [State.lowOf, State.lowOf, h8]

theorem State.SameModel.highOf : s.highOf = u.highOf :=
  funext fun k => by rw [State.highOf, State.highOf, h.lowOf, h.cntOf]

theorem State.SameModel.total : s.total = u.total := by
  obtain ⟨-, -, h3, -⟩ := h
  rw [State.total, State.total, h3]

/-- What the model invariant asks does not depend on anything but the model. -/
theorem State.SameModel.modelOk (hs : s.ModelOk) : u.ModelOk := by
  have hsym := h.slotSym
  have hcnt := h.slotCnt
  have hat := h.slotAt
  have hof := h.slotOf
  have hcn := h.cntOf
  have hlow := h.lowOf
  have htot := h.total
  obtain ⟨h1, h2, h3, h4, h5, h6, h7, h8⟩ := h
  simpa only [State.ModelOk, State.TableOk, State.CdfOk, hsym, hcnt, hat, hof, hcn, hlow, htot, h1, h2, h4, h5, h6, h7,
    h8] using hs

end

theorem modelOk_of_empty {s : State} (h1 : s.mstate = .empty) (h2 : s.mn = 0#10) (h3 : s.mtotal = 0#16)
    (h4 : s.mord = .cv) : s.ModelOk := by
  simp [State.ModelOk, State.TableOk, State.CdfOk, State.total, h1, h2, h3, h4]

theorem modelOk_stepFrame : StepFrame State.ModelOk where
  inbox _ _ h := h
  respond _ _ _ h := h
  reset _ := modelOk_of_empty rfl rfl rfl rfl
  faultEntry _ _ _ h := h

/-- A valid slot's count is at most `MTOTAL`. -/
theorem State.TableOk.slotCnt_le_total {s : State} (hs : s.TableOk) {i : Nat} (hi : i < s.mn.toNat) :
    s.slotCnt i ≤ s.total := by
  obtain ⟨-, -, -, -, -, hsum⟩ := hs
  rw [← hsum, sum_range_map]
  exact Finset.single_le_sum (fun _ _ => Nat.zero_le _) (Finset.mem_range.2 hi)

/-! ### `AddCount` -/

section
variable {s : State} {sym : BitVec 16} {n : Nat}

/-- R132, the symbol in a valid slot: its count and the sum grow together. -/
theorem tableOk_grow {u : State} {i : Nat} {c : BitVec 16} (hs : s.TableOk) (hf : s.mstate ≠ .frozen) (hn : 0 < n)
    (ht : s.total + n ≤ Config.totalMax) (hi : i < s.mn.toNat) (hc : s.mtCnt.find i = some c)
    (hu : u = { s with
      mtCnt := s.mtCnt.put i (BitVec.ofNat 16 (c.toNat + n)), mtotal := BitVec.ofNat 16 (s.total + n),
      mstate := .building }) : u.TableOk := by
  have hle := hs.slotCnt_le_total hi
  rw [slotCnt_of_find hc] at hle
  obtain ⟨h1, h2, h3, h4, h5, h6⟩ := hs
  unfold Config.totalMax at ht
  have hmn : u.mn = s.mn := by rw [hu]
  have hsym : u.mtSym = s.mtSym := by rw [hu]
  have htot : u.total = s.total + n := by rw [hu, State.total, BitVec.toNat_ofNat]; omega
  have hfind : ∀ j, u.mtCnt.find j = if j = i then some (BitVec.ofNat 16 (c.toNat + n)) else s.mtCnt.find j := by
    intro j; rw [hu]; exact Cells.find_put _ _ _ _
  have hcnt : ∀ j, u.slotCnt j = s.slotCnt j + if j = i then n else 0 := by
    intro j
    rw [State.slotCnt, hfind]
    split
    · next hj => rw [hj, slotCnt_of_find hc, Option.getD_some, BitVec.toNat_ofNat]; omega
    · rfl
  refine ⟨hmn ▸ h1, ?_, fun _ => by rw [hu]; exact h3 hf, fun j hj => ?_, ?_, ?_⟩
  · have hne : s.mn ≠ 0#10 := fun h0 => by rw [h0] at hi; simp at hi
    rw [hmn, hu]
    simp [hne]
  · rw [hmn] at hj
    obtain ⟨h7, h8, h9⟩ := h4 j hj
    refine ⟨hsym ▸ h7, ?_, by rw [hcnt]; omega⟩
    rw [hfind]; split <;> simp [h8]
  · simpa only [State.slotSym, hsym, hmn] using h5
  · rw [sum_range_map, hmn, htot, Finset.sum_congr rfl fun j _ => hcnt j, Finset.sum_add_distrib, Finset.sum_ite_eq',
      if_pos (Finset.mem_range.2 hi), ← sum_range_map, h6]

/-- R132, a new symbol: the next free slot becomes a valid one. -/
theorem tableOk_append {u : State} (hs : s.TableOk) (hf : s.mstate ≠ .frozen) (hn : 0 < n)
    (ht : s.total + n ≤ Config.totalMax) (hnew : ∀ i < s.mn.toNat, ∃ v, s.mtSym.find i = some v ∧ v ≠ sym)
    (hlt : s.mn.toNat < Config.aMax)
    (hu : u = { s with
      mtSym := s.mtSym.put s.mn.toNat sym, mtCnt := s.mtCnt.put s.mn.toNat (BitVec.ofNat 16 n), mn := s.mn + 1#10,
      mtotal := BitVec.ofNat 16 (s.total + n), mstate := .building }) : u.TableOk := by
  obtain ⟨-, -, h3, h4, h5, h6⟩ := hs
  unfold Config.totalMax at ht
  have hmn : u.mn.toNat = s.mn.toNat + 1 := by rw [hu, BitVec.toNat_add]; unfold Config.aMax at hlt; simp; omega
  have htot : u.total = s.total + n := by rw [hu, State.total, BitVec.toNat_ofNat]; omega
  have hsym : ∀ j, u.mtSym.find j = if j = s.mn.toNat then some sym else s.mtSym.find j := by
    intro j; rw [hu]; exact Cells.find_put _ _ _ _
  have hcnt : ∀ j, u.mtCnt.find j = if j = s.mn.toNat then some (BitVec.ofNat 16 n) else s.mtCnt.find j := by
    intro j; rw [hu]; exact Cells.find_put _ _ _ _
  have hold : ∀ j < s.mn.toNat, u.slotSym j = s.slotSym j ∧ u.slotCnt j = s.slotCnt j := fun j hj => by
    rw [State.slotSym, State.slotCnt, hsym, hcnt, if_neg hj.ne, if_neg hj.ne]; exact ⟨rfl, rfl⟩
  have hlast : u.slotSym s.mn.toNat = sym ∧ u.slotCnt s.mn.toNat = n := by
    rw [State.slotSym, State.slotCnt, hsym, hcnt, if_pos rfl, if_pos rfl]
    exact ⟨rfl, by rw [Option.getD_some, BitVec.toNat_ofNat]; omega⟩
  refine ⟨by omega, ?_, fun _ => by rw [hu]; exact h3 hf, fun i hi => ?_, fun i hi j hj => ?_, ?_⟩
  · have hne : u.mn ≠ 0#10 := fun h0 => by rw [h0] at hmn; simp at hmn
    rw [iff_false_left hne, hu]
    nofun
  · rw [hsym, hcnt]
    by_cases hi' : i = s.mn.toNat
    · rw [if_pos hi', if_pos hi', hi', hlast.2]
      exact ⟨rfl, rfl, by omega⟩
    · rw [if_neg hi', if_neg hi', (hold i (by omega)).2]
      exact h4 i (by omega)
  · rw [(hold j (by omega)).1]
    by_cases hi' : i = s.mn.toNat
    · rw [hi', hlast.1]
      obtain ⟨v, hv, hne⟩ := hnew j (by omega)
      rw [slotSym_of_find hv]
      exact hne
    · rw [(hold i (by omega)).1]
      exact h5 i (by omega) j hj
  · rw [sum_range_map, hmn, Finset.sum_range_succ, hlast.2,
      Finset.sum_congr rfl fun j hj => (hold j (Finset.mem_range.1 hj)).2, ← sum_range_map, h6, htot]

theorem addCount_keeps_model {t : State} (hs : s.ModelOk) (hf : s.mstate ≠ .frozen) (hn : 0 < n)
    (h : addCount sym n s = .ok t) : t.ModelOk := by
  obtain ⟨ht, ⟨i, c, hi, -, -, hc, rfl⟩ | ⟨hnew, hlt, rfl⟩⟩ := addCount_ok h
  · exact ⟨tableOk_grow hs.1 hf hn ht hi hc rfl, nofun⟩
  · exact ⟨tableOk_append hs.1 hf hn ht hnew hlt rfl, nofun⟩

end

/-! ### `MFIN` -/

/-- The slots that `MFIN` reads are those of the table, and their counts sum to `MTOTAL`. -/
theorem readSlots_table {s : State} {slots : List Slot} (hs : s.TableOk)
    (h : readSlots s (List.range s.mn.toNat) = .ok slots) :
    (∀ a ∈ slots, a.idx < s.mn.toNat ∧ s.slotAt a.idx = a) ∧ slots.length = s.mn.toNat ∧
    (slots.map fun a => a.cnt.toNat).sum = s.total := by
  obtain ⟨hidx, hval⟩ := readSlots_idx h
  obtain ⟨-, -, -, -, -, hsum⟩ := hs
  have hslot : ∀ a ∈ slots, s.slotAt a.idx = a := fun a ha => by
    obtain ⟨h1, h2⟩ := hval a ha
    rw [State.slotAt, slotSym_of_find h1, h2]
    rfl
  refine ⟨fun a ha => ⟨?_, hslot a ha⟩, by simpa using congrArg List.length hidx, ?_⟩
  · exact List.mem_range.1 (hidx ▸ List.mem_map_of_mem ha)
  · rw [← hsum, ← hidx, List.map_map]
    exact congrArg List.sum (List.map_congr_left fun a ha => (slotCnt_of_find (hval a ha).2).symm)

/-- The keys of two slots of the table always differ. -/
theorem readSlots_keys {s : State} {slots : List Slot} (o : OrdMode) (hs : s.TableOk)
    (h : readSlots s (List.range s.mn.toNat) = .ok slots) :
    slots.Pairwise fun a b => keyBefore o a b = true ∨ keyBefore o b a = true := by
  obtain ⟨hidx, hval⟩ := readSlots_idx h
  obtain ⟨htab, -, -⟩ := readSlots_table hs h
  obtain ⟨-, -, -, -, hdist, -⟩ := hs
  have hlt : slots.Pairwise fun a b => a.idx < b.idx := by
    rw [← List.pairwise_map (f := Slot.idx) (R := (· < ·)), hidx]; exact List.pairwise_lt_range
  refine hlt.imp_of_mem fun {a b} ha hb hab => keyBefore_total o hab.ne ?_
  rw [← slotSym_of_find (hval a ha).1, ← slotSym_of_find (hval b hb).1]
  exact hdist _ (htab b hb).1 _ hab

/-- What ordinal `k` holds after the loop of `MFIN`: the slot at place `k` of the sorted slots, and the sum of the counts
before it. -/
theorem writeCdf_ordinal {s t : State} {l : List Slot} (h : writeCdf l 0 0 s = .ok t)
    (hl : ∀ a ∈ l, a.idx < 512) (hsum : (l.map fun a => a.cnt.toNat).sum ≤ 65535) (k : Nat) (hk : k < l.length) :
    (t.order.find k).isSome = true ∧ t.slotOf k = l[k].idx ∧ (t.clow.find k).isSome = true ∧
      t.lowOf k = ((l.take k).map fun a => a.cnt.toNat).sum := by
  obtain ⟨-, hord, -⟩ := writeCdf_ok h
  obtain ⟨-, h1, h2⟩ := hord k l[k] (List.getElem?_eq_getElem hk)
  rw [Nat.zero_add] at h1 h2
  have hidx := hl l[k] (List.getElem_mem hk)
  have hle : ((l.take k).map fun a => a.cnt.toNat).sum ≤ (l.map fun a => a.cnt.toNat).sum :=
    ((List.take_sublist k l).map _).sum_le_sum fun _ _ => Nat.zero_le _
  refine ⟨by rw [h1]; rfl, ?_, by rw [h2]; rfl, ?_⟩
  · rw [State.slotOf, h1, Option.getD_some, BitVec.toNat_ofNat]; omega
  · rw [State.lowOf, h2, Option.getD_some, BitVec.toNat_ofNat]; omega

/-- A CDF written from a list of valid slots in the order of their keys is consistent (R34, R35). -/
theorem cdfOk_of_list {u : State} {l : List Slot} (hlen : l.length = u.mn.toNat)
    (hslot : ∀ a ∈ l, a.idx < u.mn.toNat ∧ u.slotAt a.idx = a)
    (hsorted : l.Pairwise fun a b => keyBefore u.mord a b = true)
    (hord : ∀ k (hk : k < l.length), (u.order.find k).isSome = true ∧ u.slotOf k = l[k].idx ∧
      (u.clow.find k).isSome = true ∧ u.lowOf k = ((l.take k).map fun a => a.cnt.toNat).sum) : u.CdfOk := by
  have hat : ∀ k (hk : k < l.length), u.slotAt (u.slotOf k) = l[k] := fun k hk => by
    obtain ⟨-, h, -⟩ := hord k hk
    rw [h]
    exact (hslot _ (List.getElem_mem hk)).2
  refine fun _ => ⟨fun k hk => ?_, fun k hk j hj => ?_⟩
  · have hk := hlen.symm ▸ hk
    obtain ⟨h1, h2, h3, h4⟩ := hord k hk
    refine ⟨h1, h2 ▸ (hslot _ (List.getElem_mem hk)).1, h3, h4.trans (congrArg List.sum ?_)⟩
    refine List.ext_getElem (by simp; omega) fun j hj _ => ?_
    have hj : j < l.length := by simp at hj; omega
    simp only [List.getElem_map, List.getElem_take, List.getElem_range, ← hat j hj]
    rfl
  · have hk := hlen.symm ▸ hk
    rw [hat k hk, hat j (hj.trans hk)]
    exact List.pairwise_iff_getElem.1 hsorted j k _ hk hj

/-- R137: `MFIN` leaves the table and derives a CDF in the order of its mode's keys. -/
theorem mfinBody_keeps_model {o : OrdMode} {s u : State} {d : Word} (hs : s.TableOk) (h : mfinBody o s = .ok (d, u)) :
    u.ModelOk := by
  obtain ⟨hne, slots, t, hread, hw, -, rfl⟩ := mfinBody_ok h
  obtain ⟨htab, hlen, hsum⟩ := readSlots_table hs hread
  have hperm := sortSlots_perm o slots
  have hsum' : ((sortSlots o slots).map fun a => a.cnt.toNat).sum ≤ 65535 := by
    rw [(hperm.map _).sum_eq, hsum]; exact Nat.le_of_lt_succ s.mtotal.isLt
  have hkeys := sortSlots_sorted (readSlots_keys o hs hread)
  obtain ⟨h1, h2, -, h4, h5, h6⟩ := hs
  have hord := writeCdf_ordinal hw (fun a ha => lt_of_lt_of_le (htab a (hperm.subset ha)).1 h1) hsum'
  obtain ⟨ord, clw, rfl⟩ := writeCdf_update hw
  refine ⟨⟨h1, ?_, fun h => absurd rfl h, h4, h5, h6⟩, ?_⟩
  · rw [iff_false_right (by nofun)]
    exact mt h2.1 hne
  · exact cdfOk_of_list (hperm.length_eq.trans hlen) (fun a ha => htab a (hperm.subset ha)) hkeys hord

/-! ### Every step -/

/-- The commands that write the model empty it, add to its table, or derive its CDF. -/
theorem bodyOf_keeps_model {i : Instr} {s u : State} {d : Word} (hs : s.ModelOk) (hl : s.Legal i)
    (h : bodyOf i s = .ok (d, u)) : u.ModelOk := by
  cases i with
  | srst | mclr => cases h; exact modelOk_of_empty rfl rfl rfl rfl
  | mcnt =>
    obtain ⟨t, ht, h⟩ := Comp.bind_eq_ok.1 h
    cases h
    exact addCount_keeps_model hs hl.2 Nat.one_pos ht
  | mload =>
    obtain ⟨t, ht, h⟩ := Comp.bind_eq_ok.1 h
    cases h
    obtain ⟨-, hf, ha⟩ := hl
    exact addCount_keeps_model hs hf (Nat.pos_of_ne_zero fun h0 => ha (BitVec.eq_of_toNat_eq h0)) ht
  | mfin => exact mfinBody_keeps_model hs.1 h
  | _ => exact ((bodyOf_frame h).model rfl).modelOk hs

/-- Settles O18. -/
theorem stepKeepsModel : Obligations.StepKeepsModel := fun _ _ hs h =>
  modelOk_stepFrame.step (fun _ _ _ _ hs hl hb => bodyOf_keeps_model hs hl hb) hs h

end Sys2Proof.Machine
end

section
/-! SUPPORT. The intervals of a frozen model partition `[0, MTOTAL)` (spec R35, R131, R142, obligation O32), and the lookups
that rest on it never stop the model (R130, R131). -/

namespace Sys2Proof.Machine

/-! ### Running sums -/

/-- A position below the last of some rising marks that start at 0 lies between two of them. -/
theorem exists_between_marks {S : Nat → Nat} (h0 : S 0 = 0) {n pos : Nat} (h : pos < S n) :
    ∃ k < n, S k ≤ pos ∧ pos < S (k + 1) := by
  induction n with
  | zero => omega
  | succ n ih =>
    by_cases hn : pos < S n
    · obtain ⟨k, hk, h1⟩ := ih hn
      exact ⟨k, hk.trans (Nat.lt_succ_self n), h1⟩
    · exact ⟨n, Nat.lt_succ_self n, Nat.le_of_not_lt hn, h⟩

/-- No position lies between two pairs of marks that never fall. -/
theorem between_marks_unique {S : Nat → Nat} (hS : Monotone S) {pos j k : Nat} (h1 : S j ≤ pos) (h2 : pos < S (j + 1))
    (h3 : S k ≤ pos) (h4 : pos < S (k + 1)) : j = k := by
  rcases lt_trichotomy j k with h | h | h
  · have := hS (Nat.succ_le_of_lt h); rw [Nat.succ_eq_add_one] at this; omega
  · exact h
  · have := hS (Nat.succ_le_of_lt h); rw [Nat.succ_eq_add_one] at this; omega

/-- The sum of the counts of the ordinals below `k`: where the interval of ordinal `k` starts. -/
def State.markOf (s : State) (k : Nat) : Nat := ∑ j ∈ Finset.range k, s.cntOf j

theorem markOf_succ (s : State) (k : Nat) : s.markOf (k + 1) = s.markOf k + s.cntOf k := Finset.sum_range_succ _ _

theorem markOf_monotone (s : State) : Monotone s.markOf := fun _ _ h =>
  Finset.sum_le_sum_of_subset (Finset.range_mono h)

/-! ### A consistent frozen model -/

section
variable {s : State} (hs : s.ModelOk) (hf : s.mstate = .frozen)
include hs hf

theorem mn_pos : 1 ≤ s.mn.toNat := by
  obtain ⟨⟨-, h2, -⟩, -⟩ := hs
  refine Nat.pos_of_ne_zero fun h0 => ?_
  have := h2.1 (BitVec.eq_of_toNat_eq h0)
  rw [hf] at this
  cases this

theorem slotOf_lt {k : Nat} (hk : k < s.mn.toNat) : s.slotOf k < s.mn.toNat := by
  obtain ⟨-, h, -⟩ := (hs.2 hf).1 k hk
  exact h

/-- No two ordinals share a slot. -/
theorem slotOf_injOn : Set.InjOn s.slotOf (Finset.range s.mn.toNat) := by
  have key : ∀ k < s.mn.toNat, ∀ j < k, s.slotOf j ≠ s.slotOf k := fun k hk j hj he => by
    have := (hs.2 hf).2 k hk j hj
    rw [he, keyBefore_irrefl] at this
    cases this
  intro j hj k hk he
  simp only [Finset.coe_range, Set.mem_Iio] at hj hk
  rcases lt_trichotomy j k with h | h | h
  · exact absurd he (key k hk j h)
  · exact h
  · exact absurd he.symm (key j hj k h)

/-- The ordinals run through all valid slots. -/
theorem image_slotOf : (Finset.range s.mn.toNat).image s.slotOf = Finset.range s.mn.toNat := by
  refine Finset.eq_of_subset_of_card_le (fun i hi => ?_) (Finset.card_image_of_injOn (slotOf_injOn hs hf)).ge
  obtain ⟨k, hk, rfl⟩ := Finset.mem_image.1 hi
  exact Finset.mem_range.2 (slotOf_lt hs hf (Finset.mem_range.1 hk))

/-- The last interval ends at `MTOTAL`. -/
theorem markOf_mn : s.markOf s.mn.toNat = s.total := by
  obtain ⟨-, -, -, -, -, hsum⟩ := hs.1
  rw [← hsum, sum_range_map, State.markOf]
  exact (Finset.sum_image (slotOf_injOn hs hf)).symm.trans (by rw [image_slotOf hs hf])

theorem lowOf_eq_markOf {k : Nat} (hk : k < s.mn.toNat) : s.lowOf k = s.markOf k := by
  obtain ⟨-, -, -, h⟩ := (hs.2 hf).1 k hk
  exact h

theorem highOf_eq_markOf {k : Nat} (hk : k < s.mn.toNat) : s.highOf k = s.markOf (k + 1) := by
  rw [State.highOf, lowOf_eq_markOf hs hf hk, markOf_succ]

theorem cntOf_pos {k : Nat} (hk : k < s.mn.toNat) : 0 < s.cntOf k := by
  obtain ⟨-, -, -, h4, -⟩ := hs.1
  obtain ⟨-, -, h⟩ := h4 _ (slotOf_lt hs hf hk)
  exact Nat.pos_of_ne_zero h

theorem highOf_le_total {k : Nat} (hk : k < s.mn.toNat) : s.highOf k ≤ s.total := by
  rw [highOf_eq_markOf hs hf hk, ← markOf_mn hs hf]
  exact markOf_monotone s hk

theorem total_pos : 1 ≤ s.total := by
  have hk : 0 < s.mn.toNat := mn_pos hs hf
  have h1 := cntOf_pos hs hf hk
  have h2 := highOf_le_total hs hf hk
  unfold State.highOf at h2
  omega

/-- Every position below `MTOTAL` lies in the interval of an ordinal. -/
theorem exists_interval {pos : Nat} (h : pos < s.total) : ∃ k < s.mn.toNat, s.lowOf k ≤ pos ∧ pos < s.highOf k := by
  rw [← markOf_mn hs hf] at h
  obtain ⟨k, hk, h1, h2⟩ := exists_between_marks (S := s.markOf) rfl h
  exact ⟨k, hk, by rwa [lowOf_eq_markOf hs hf hk], by rwa [highOf_eq_markOf hs hf hk]⟩

/-- No position lies in two intervals. -/
theorem interval_unique {pos j k : Nat} (hj : j < s.mn.toNat) (hk : k < s.mn.toNat) (h1 : s.lowOf j ≤ pos)
    (h2 : pos < s.highOf j) (h3 : s.lowOf k ≤ pos) (h4 : pos < s.highOf k) : j = k := by
  rw [lowOf_eq_markOf hs hf hj] at h1
  rw [highOf_eq_markOf hs hf hj] at h2
  rw [lowOf_eq_markOf hs hf hk] at h3
  rw [highOf_eq_markOf hs hf hk] at h4
  exact between_marks_unique (markOf_monotone s) h1 h2 h3 h4

/-! ### The lookups -/

/-- The accessors of every ordinal answer (R130). -/
theorem entry_of_lt {k : Nat} (hk : k < s.mn.toNat) : entry s k = .ok ⟨k, s.symOf k, s.cntOf k, s.lowOf k⟩ := by
  obtain ⟨h1, -, -, h4, -, -⟩ := hs.1
  obtain ⟨ho, -, hc, -⟩ := (hs.2 hf).1 k hk
  have hlt := slotOf_lt hs hf hk
  obtain ⟨hsym, hcnt, -⟩ := h4 _ hlt
  obtain ⟨slot, ho⟩ := Option.isSome_iff_exists.1 ho
  obtain ⟨low, hc⟩ := Option.isSome_iff_exists.1 hc
  have hof : s.slotOf k = slot.toNat := by rw [State.slotOf, ho]; rfl
  rw [hof] at hsym hcnt hlt
  obtain ⟨sym, hsym⟩ := Option.isSome_iff_exists.1 hsym
  obtain ⟨cnt, hcnt⟩ := Option.isSome_iff_exists.1 hcnt
  refine entry_ok.2 ⟨slot, cnt, low, ⟨by omega, ho⟩, ⟨by omega, ?_⟩, ⟨by omega, hcnt⟩, ⟨by omega, hc⟩, ?_⟩
  · rw [State.symOf, hof, slotSym_of_find hsym]; exact hsym
  · rw [State.cntOf, hof, slotCnt_of_find hcnt, State.lowOf, hc]; rfl

theorem entry_total : ∀ k < s.mn.toNat, ∃ e, entry s k = .ok e := fun _ hk => ⟨_, entry_of_lt hs hf hk⟩

/-- What `ordinal` answers is the entry of an ordinal. -/
theorem ordinal_eq {sym : BitVec 16} {e : Entry} (h : ordinal s sym = .ok e) :
    ∃ k < s.mn.toNat, e = ⟨k, s.symOf k, s.cntOf k, s.lowOf k⟩ ∧ s.symOf k = sym := by
  obtain ⟨h1, h2, h3⟩ := ordinal_ok h
  rw [entry_of_lt hs hf h1] at h2
  have he := (Except.ok.inj h2).symm
  exact ⟨e.k, h1, he, by rw [he] at h3; exact h3⟩

/-- What `symbolAt` answers is the entry of the ordinal whose interval holds the position. -/
theorem symbolAt_eq {pos : Nat} {e : Entry} (h : symbolAt s pos = .ok e) :
    ∃ k < s.mn.toNat, e = ⟨k, s.symOf k, s.cntOf k, s.lowOf k⟩ ∧ s.lowOf k ≤ pos ∧ pos < s.highOf k := by
  obtain ⟨h1, h2, h3, h4⟩ := symbolAt_ok h
  rw [entry_of_lt hs hf h1] at h2
  have he := (Except.ok.inj h2).symm
  rw [he] at h3 h4
  exact ⟨e.k, h1, he, h3, h4⟩

theorem ordinal_runs (sym : BitVec 16) : (ordinal s sym).Runs := by
  intro f h
  rcases ordinal_total (sym := sym) (entry_total hs hf) with ⟨e, he⟩ | ⟨he, -⟩ <;> rw [he] at h <;> cases h

theorem symbolAt_runs (pos : Nat) : (symbolAt s pos).Runs := by
  intro f h
  rcases symbolAt_total (pos := pos) (entry_total hs hf) with ⟨e, he⟩ | ⟨he, -⟩ <;> rw [he] at h <;> cases h

end

/-- Settles O32: the intervals are those between the running sums of the counts, whose last is `MTOTAL`. -/
theorem cdfPartitionsTheTotal : Obligations.CdfPartitionsTheTotal := by
  intro s hs hf
  have hn := mn_pos hs hf
  refine ⟨hn, total_pos hs hf, lowOf_eq_markOf hs hf hn, fun k hk => ?_, ?_, fun pos => ⟨exists_interval hs hf, ?_⟩⟩
  · rw [lowOf_eq_markOf hs hf hk, highOf_eq_markOf hs hf (by omega)]
  · rw [highOf_eq_markOf hs hf (by omega), Nat.sub_add_cancel hn, markOf_mn hs hf]
  · exact fun j hj k hk => interval_unique hs hf hj hk

end Sys2Proof.Machine
end

section
/-! SUPPORT. `SYMCNT` (spec R52, obligation O14): what each command leaves in it, and that no rule but its own CSR reads it.
For every operation, running it with another `SYMCNT` gives the same result with that `SYMCNT` put back in. -/

namespace Sys2Proof.Machine

/-- The state with another `SYMCNT`. -/
def setSymcnt (n : Word) (s : State) : State := { s with symcnt := n }

theorem Comp.map_bind {α β γ : Type} (x : Comp α) (f : α → Comp β) (g : β → γ) :
    Except.map g (x >>= f) = x >>= fun a => Except.map g (f a) := by cases x <;> rfl

theorem Comp.bind_map {α β γ : Type} (x : Comp α) (h : α → β) (f : β → Comp γ) :
    (Except.map h x : Comp β) >>= f = x >>= fun a => f (h a) := by cases x <;> rfl

/-! ### The operations that only read -/

section
variable (n : Word) (s : State)

@[simp] theorem entry_setSymcnt (k : Nat) : entry (setSymcnt n s) k = entry s k := rfl

@[simp] theorem scanOrdinals_setSymcnt (p : Entry → Bool) (l : List Nat) :
    scanOrdinals (setSymcnt n s) p l = scanOrdinals s p l := by
  induction l with
  | nil => rfl
  | cons k ks ih => simp only [scanOrdinals, entry_setSymcnt, ih]

@[simp] theorem ordinal_setSymcnt (sym : BitVec 16) : ordinal (setSymcnt n s) sym = ordinal s sym := by
  unfold ordinal; rw [scanOrdinals_setSymcnt]; rfl

@[simp] theorem symbolAt_setSymcnt (pos : Nat) : symbolAt (setSymcnt n s) pos = symbolAt s pos := by
  unfold symbolAt; rw [scanOrdinals_setSymcnt]; rfl

@[simp] theorem findSlot_setSymcnt (sym : BitVec 16) (l : List Nat) :
    findSlot (setSymcnt n s) sym l = findSlot s sym l := by
  induction l with
  | nil => rfl
  | cons i is ih => simp only [findSlot, ih]; rfl

@[simp] theorem readSlots_setSymcnt (l : List Nat) : readSlots (setSymcnt n s) l = readSlots s l := by
  induction l with
  | nil => rfl
  | cons i is ih => simp only [readSlots, ih]; rfl

@[simp] theorem getBit_setSymcnt (i : Nat) : getBit (setSymcnt n s) i = getBit s i := rfl

@[simp] theorem getByteBack_setSymcnt (rp : Nat) : getByteBack (setSymcnt n s) rp = getByteBack s rp := by
  cases rp <;> rfl

@[simp] theorem loadWindow_setSymcnt (l : List Nat) (v : Nat) : loadWindow (setSymcnt n s) l v = loadWindow s l v := by
  induction l generalizing v with
  | nil => rfl
  | cons i is ih => simp only [loadWindow, getBit_setSymcnt, ih]

@[simp] theorem renormD_setSymcnt (tests nl nh v bp : Nat) :
    renormD (setSymcnt n s) tests nl nh v bp = renormD s tests nl nh v bp := by
  induction tests generalizing nl nh v bp with
  | zero => rfl
  | succ tests ih => simp only [renormD, getBit_setSymcnt, ih]

@[simp] theorem replenish_setSymcnt (l x rp : Nat) : replenish (setSymcnt n s) l x rp = replenish s l x rp := by
  induction rp generalizing x with
  | zero => rfl
  | succ rp ih => simp only [replenish, getByteBack_setSymcnt, ih]

@[simp] theorem ransRefill_setSymcnt : ransRefill (setSymcnt n s) = ransRefill s := by
  unfold ransRefill; rw [replenish_setSymcnt]; rfl

@[simp] theorem loadBack_setSymcnt (k x rp : Nat) : loadBack (setSymcnt n s) k x rp = loadBack s k x rp := by
  induction k generalizing x rp with
  | zero => rfl
  | succ k ih => simp only [loadBack, getByteBack_setSymcnt, ih]

@[simp] theorem minNode_setSymcnt (best : Nat) (l : List Nat) : minNode (setSymcnt n s) best l = minNode s best l := by
  induction l generalizing best with
  | nil => rfl
  | cons a l ih => simp only [minNode, ih]; rfl

@[simp] theorem pathTo_setSymcnt (k depth a : Nat) : pathTo (setSymcnt n s) k depth a = pathTo s k depth a := by
  induction depth generalizing a with
  | zero => rfl
  | succ depth ih => simp only [pathTo, ih]; rfl

@[simp] theorem code_setSymcnt (k : Nat) : code (setSymcnt n s) k = code s k := by
  unfold code; rw [pathTo_setSymcnt]; rfl

@[simp] theorem walk_setSymcnt (left a bp : Nat) : walk (setSymcnt n s) left a bp = walk s left a bp := by
  induction left generalizing a bp with
  | zero => unfold walk; rfl
  | succ left ih => unfold walk; simp only [getBit_setSymcnt, ih]; rfl

@[simp] theorem decodePath_setSymcnt : decodePath (setSymcnt n s) = decodePath s := by
  unfold decodePath; simp only [getBit_setSymcnt, walk_setSymcnt]; rfl

/-! ### The operations that write -/

@[simp] theorem putBit_setSymcnt (b : Bool) : putBit b (setSymcnt n s) = Except.map (setSymcnt n) (putBit b s) := by
  simp only [putBit, Comp.map_bind]; rfl

@[simp] theorem putBits_setSymcnt (bs : List Bool) :
    putBits bs (setSymcnt n s) = Except.map (setSymcnt n) (putBits bs s) := by
  induction bs generalizing s with
  | nil => rfl
  | cons b bs ih => simp only [putBits, putBit_setSymcnt, Comp.map_bind, Comp.bind_map, ih]

@[simp] theorem putByte_setSymcnt (v : Byte) : putByte v (setSymcnt n s) = Except.map (setSymcnt n) (putByte v s) := by
  simp only [putByte, apply_ite (Except.map (setSymcnt n)), Comp.map_bind]; rfl

@[simp] theorem putBytes_setSymcnt (vs : List Byte) :
    putBytes vs (setSymcnt n s) = Except.map (setSymcnt n) (putBytes vs s) := by
  induction vs generalizing s with
  | nil => rfl
  | cons v vs ih => simp only [putBytes, putByte_setSymcnt, Comp.map_bind, Comp.bind_map, ih]

@[simp] theorem copyOut_setSymcnt (l : List Nat) :
    copyOut l (setSymcnt n s) = Except.map (setSymcnt n) (copyOut l s) := by
  induction l generalizing s with
  | nil => rfl
  | cons i is ih => simp only [copyOut, Comp.map_bind, ← ih]; rfl

@[simp] theorem addCount_setSymcnt (sym : BitVec 16) (k : Nat) :
    addCount sym k (setSymcnt n s) = Except.map (setSymcnt n) (addCount sym k s) := by
  simp only [addCount, findSlot_setSymcnt, Comp.map_bind]
  refine bind_congr fun _ => bind_congr fun r => ?_
  cases r <;> simp only [Comp.map_bind] <;> rfl

@[simp] theorem writeCdf_setSymcnt (l : List Slot) (k c : Nat) :
    writeCdf l k c (setSymcnt n s) = Except.map (setSymcnt n) (writeCdf l k c s) := by
  induction l generalizing k c s with
  | nil => rfl
  | cons a l ih => simp only [writeCdf, Comp.map_bind, ← ih]; rfl

@[simp] theorem writeLeaves_setSymcnt (l : List Nat) :
    writeLeaves l (setSymcnt n s) = Except.map (setSymcnt n) (writeLeaves l s) := by
  induction l generalizing s with
  | nil => rfl
  | cons k ks ih => simp only [writeLeaves, entry_setSymcnt, Comp.map_bind, ← ih]; rfl

@[simp] theorem writeInternal_setSymcnt (a b k : Nat) :
    writeInternal a b k (setSymcnt n s) = Except.map (setSymcnt n) (writeInternal a b k s) := by
  simp only [writeInternal, Comp.map_bind]; rfl

@[simp] theorem mergeNodes_setSymcnt (tests : Nat) (live : List Nat) (k : Nat) :
    mergeNodes tests live k (setSymcnt n s) =
      Except.map (fun un => (setSymcnt n un.1, un.2)) (mergeNodes tests live k s) := by
  induction tests generalizing live k s with
  | zero => rcases live with _ | ⟨x, _ | ⟨y, rest⟩⟩ <;> rfl
  | succ tests ih =>
    rcases live with _ | ⟨x, _ | ⟨y, rest⟩⟩
    · rfl
    · rfl
    · simp only [mergeNodes, minNode_setSymcnt, Comp.map_bind]
      refine bind_congr fun a => ?_
      split
      · rfl
      · simp only [writeInternal_setSymcnt, Comp.map_bind, Comp.bind_map, ih]

/-- But for its own address, no CSR reads it (R53). -/
theorem csr_setSymcnt {a : BitVec 8} (ha : a ≠ 0x38#8) : csr (setSymcnt n s) a = csr s a := by
  unfold csr
  split
  any_goals rfl
  next h => exact absurd (BitVec.eq_of_toNat_eq h) ha

/-! ### The commands -/

theorem legal_setSymcnt (i : Instr) : (setSymcnt n s).Legal i ↔ s.Legal i := by cases i <;> rfl

/-- A body does the same whatever `SYMCNT` holds, and counts from there. -/
theorem bodyOf_setSymcnt {i : Instr} (hi : i ≠ .rdcsr 0x38#8) :
    bodyOf i (setSymcnt n s) = Except.map (fun du => (du.1, setSymcnt (symcntAfter i n) du.2)) (bodyOf i s) := by
  cases i with
  | rdcsr a =>
    have ha : a ≠ 0x38#8 := fun h => hi (by rw [h])
    simp only [bodyOf, csr_setSymcnt n s ha]
    rfl
  | mcnt | mload => simp only [bodyOf, addCount_setSymcnt, Comp.map_bind, Comp.bind_map]; rfl
  | mfin =>
    simp only [bodyOf, mfinBody, readSlots_setSymcnt, writeCdf_setSymcnt, Comp.map_bind, Comp.bind_map]; rfl
  | mivl => simp only [bodyOf, ordinal_setSymcnt, Comp.map_bind]; rfl
  | msat => simp only [bodyOf, symbolAt_setSymcnt, Comp.map_bind]; rfl
  | ipush => simp only [bodyOf, ipushBody, Comp.map_bind]; rfl
  | oread => simp only [bodyOf, oreadBody, Comp.map_bind]; rfl
  | xfer => simp only [bodyOf, xferBody, copyOut_setSymcnt, Comp.map_bind, Comp.bind_map]; rfl
  | rce => simp only [bodyOf, rceBody, ordinal_setSymcnt, putBits_setSymcnt, Comp.map_bind, Comp.bind_map]; rfl
  | rcef => simp only [bodyOf, rcefBody, putBits_setSymcnt, Comp.map_bind, Comp.bind_map]; rfl
  | rcdi => simp only [bodyOf, rcdiBody, loadWindow_setSymcnt, Comp.map_bind]; rfl
  | rcd => simp only [bodyOf, rcdBody, symbolAt_setSymcnt, renormD_setSymcnt, Comp.map_bind]; rfl
  | rae => simp only [bodyOf, raeBody, ordinal_setSymcnt, putBytes_setSymcnt, Comp.map_bind, Comp.bind_map]; rfl
  | raef => simp only [bodyOf, raefBody, putBytes_setSymcnt, Comp.map_bind, Comp.bind_map]; rfl
  | radi => simp only [bodyOf, radiBody, loadBack_setSymcnt, Comp.map_bind]; rfl
  | rad => simp only [bodyOf, radBody, ransRefill_setSymcnt, symbolAt_setSymcnt, Comp.map_bind]; rfl
  | hbld =>
    simp only [bodyOf, hbldBody, writeLeaves_setSymcnt, mergeNodes_setSymcnt, Comp.map_bind, Comp.bind_map]; rfl
  | he => simp only [bodyOf, heBody, ordinal_setSymcnt, code_setSymcnt, putBits_setSymcnt, Comp.map_bind, Comp.bind_map]; rfl
  | hd => simp only [bodyOf, hdBody, decodePath_setSymcnt, entry_setSymcnt, Comp.map_bind]; rfl
  | _ => rfl

end

theorem raiseError_setSymcnt (n : Word) (e : Err) (w : Word) (s : State) :
    raiseError e w (setSymcnt n s) = setSymcnt n (raiseError e w s) := by
  unfold raiseError
  rw [apply_ite (setSymcnt n)]
  rfl

/-- But for `RDCSR` of its own address, a command does the same whatever `SYMCNT` holds. -/
theorem exec_setSymcnt {i : Instr} {s t : State} (hi : i ≠ .rdcsr 0x38#8) (h : exec i s = .next t) (n : Word) :
    ∃ m, exec i (setSymcnt n s) = .next (setSymcnt m t) := by
  have hl : legalOf i (setSymcnt n s) = legalOf i s := by
    rw [Bool.eq_iff_iff, legalOf_iff, legalOf_iff, legal_setSymcnt]
  rw [exec_eq_command, command] at h
  rw [exec_eq_command, command, hl, bodyOf_setSymcnt n s hi, show (setSymcnt n s).sess = s.sess from rfl,
    raiseError_setSymcnt]
  split at h
  · next h1 => rw [if_pos h1]; cases h; exact ⟨n, rfl⟩
  · next h1 =>
    rw [if_neg h1]
    split at h
    · next h2 => rw [if_pos h2]; cases h; exact ⟨n, rfl⟩
    · next h2 =>
      rw [if_neg h2]
      split at h
      · next hb => rw [hb]; cases h; exact ⟨_, rfl⟩
      · next e hb => rw [hb]; cases h; exact ⟨n, by rw [← raiseError_setSymcnt]; rfl⟩
      · cases h

/-- A command completes, with its body's state and response, or answers an error and leaves `SYMCNT`. -/
theorem exec_done_or_error {i : Instr} {s t : State} (h : exec i s = .next t) :
    (∃ u d, exec i s = s.done u d ∧ t.symcnt = symcntAfter i s.symcnt) ∨
    (t.symcnt = s.symcnt ∧ ∃ e, t.outbox = s.outbox ++ [⟨some e, 0#32⟩]) := by
  rcases exec_next h with ⟨-, -, rfl⟩ | ⟨e, rfl⟩ | ⟨-, d, u, hb, rfl⟩
  · exact .inr ⟨rfl, _, rfl⟩
  · exact .inr ⟨by unfold raiseError; split <;> rfl, _, raiseError_outbox _ _ _⟩
  · have F := bodyOf_frame hb
    exact .inl ⟨u, d, by rw [h, State.done, ← F.outbox]; rfl, F.symcnt⟩

/-- A response that says that the command completed is not one of an error. -/
theorem not_done_of_error {i : Instr} {s t u : State} {e : Err} {d : Word} (h : exec i s = .next t)
    (ht : t.outbox = s.outbox ++ [⟨some e, 0#32⟩]) : exec i s ≠ s.done u d := by
  intro hd
  rw [h] at hd
  cases hd
  simp at ht

theorem symcntAfter_of_symbol {i : Instr} (n : Word)
    (h : i ∈ [.rcd, .rad, .hd] ∨ ∃ y, i = .rce y ∨ i = .rae y ∨ i = .he y) : symcntAfter i n = n + 1#32 := by
  simp only [List.mem_cons, List.not_mem_nil, or_false] at h
  rcases h with (rfl | rfl | rfl) | ⟨y, rfl | rfl | rfl⟩ <;> rfl

theorem symcntAfter_of_init {i : Instr} (n : Word)
    (h : i ∈ [.srst, .rcei, .rcdi, .hei, .hdi] ∨ ∃ m, i = .raei m ∨ i = .radi m) : symcntAfter i n = 0#32 := by
  simp only [List.mem_cons, List.not_mem_nil, or_false] at h
  rcases h with (rfl | rfl | rfl | rfl | rfl) | ⟨m, rfl | rfl⟩ <;> rfl

theorem symcntAfter_of_other {i : Instr} (n : Word) (h1 : i ∉ [.rcd, .rad, .hd, .srst, .rcei, .rcdi, .hei, .hdi])
    (h2 : ∀ y, i ≠ .rce y ∧ i ≠ .rae y ∧ i ≠ .he y) (h3 : ∀ m, i ≠ .raei m ∧ i ≠ .radi m) : symcntAfter i n = n := by
  cases i with
  | rcd | rad | hd | srst | rcei | rcdi | hei | hdi => simp at h1
  | rce y => exact absurd rfl (h2 y).1
  | rae y => obtain ⟨-, h, -⟩ := h2 y; exact absurd rfl h
  | he y => obtain ⟨-, -, h⟩ := h2 y; exact absurd rfl h
  | raei m => exact absurd rfl (h3 m).1
  | radi m => exact absurd rfl (h3 m).2
  | _ => rfl

/-- Settles O14. -/
theorem symcntCountsAndNoRuleReadsIt : Obligations.SymcntCountsAndNoRuleReadsIt := by
  intro i s t h
  refine ⟨fun u d hd => ?_, fun hn => ?_, fun hi => exec_setSymcnt hi h⟩
  · rcases exec_done_or_error h with ⟨-, -, -, hc⟩ | ⟨-, e, he⟩
    · rw [hc]
      exact ⟨symcntAfter_of_symbol _, symcntAfter_of_init _, symcntAfter_of_other _⟩
    · exact absurd hd (not_done_of_error h he)
  · rcases exec_done_or_error h with ⟨u, d, hd, -⟩ | ⟨hc, -⟩
    · exact absurd hd (hn u d)
    · exact hc

end Sys2Proof.Machine
end

section
/-! SUPPORT. Every body keeps the storage spaces in canonical form and within their indices (spec R60). -/

namespace Sys2Proof.Machine

theorem SpaceOk.put {α : Type} {cap : Nat} {m : Cells α} (h : SpaceOk cap m) {i : Nat} (hi : i < cap) (v : α) :
    SpaceOk cap (m.put i v) :=
  ⟨Cells.wf_put h.1 i v, Cells.put_lt h.2 hi v⟩

/-- The spaces of the frequency table and the CDF. -/
def State.ModelSpacesOk (s : State) : Prop :=
  SpaceOk Config.aMax s.mtSym ∧ SpaceOk Config.aMax s.mtCnt ∧ SpaceOk Config.aMax s.order ∧ SpaceOk Config.aMax s.clow

/-- The spaces of the Huffman tree. -/
def State.TreeSpacesOk (s : State) : Prop :=
  SpaceOk Config.arenaCap s.hnFreq ∧ SpaceOk Config.arenaCap s.hnLeft ∧ SpaceOk Config.arenaCap s.hnRight ∧
  SpaceOk Config.arenaCap s.hnLeaf ∧ SpaceOk Config.arenaCap s.hnOrd

theorem spacesOk_iff {s : State} : s.SpacesOk ↔
    s.ModelSpacesOk ∧ s.TreeSpacesOk ∧ SpaceOk Config.bufCap s.obuf ∧ SpaceOk Config.bufCap s.ibuf := by
  simp only [State.SpacesOk, State.ModelSpacesOk, State.TreeSpacesOk, and_assoc]

/-! ### The writers -/

theorem putBits_keeps_space {bs : List Bool} {s t : State} (hs : SpaceOk Config.bufCap s.obuf)
    (h : putBits bs s = .ok t) : SpaceOk Config.bufCap t.obuf := by
  induction bs generalizing s with
  | nil => cases h; exact hs
  | cons b bs ih =>
    obtain ⟨u, h1, h2⟩ := putBits_cons_ok.1 h
    obtain ⟨hi, old, -, rfl⟩ := putBit_ok h1
    exact ih (hs.put hi _) h2

theorem putBytes_keeps_space {vs : List Byte} {s t : State} (hs : SpaceOk Config.bufCap s.obuf)
    (h : putBytes vs s = .ok t) : SpaceOk Config.bufCap t.obuf := by
  induction vs generalizing s with
  | nil => cases h; exact hs
  | cons v vs ih =>
    obtain ⟨u, h1, h2⟩ := putBytes_cons_ok.1 h
    obtain ⟨-, hi, rfl⟩ := putByte_ok.1 h1
    exact ih (hs.put hi _) h2

theorem copyOut_keeps_space {l : List Nat} {s t : State} (hs : SpaceOk Config.bufCap s.ibuf) (h : copyOut l s = .ok t) :
    SpaceOk Config.bufCap t.ibuf := by
  induction l generalizing s with
  | nil => cases h; exact hs
  | cons k ks ih =>
    obtain ⟨v, -, h⟩ := Comp.bind_eq_ok.1 h
    obtain ⟨m, hm, h⟩ := Comp.bind_eq_ok.1 h
    exact ih (writeCell_keeps hm hs.1 hs.2) h

theorem addCount_keeps_spaces {sym : BitVec 16} {n : Nat} {s t : State} (hs : s.ModelSpacesOk)
    (h : addCount sym n s = .ok t) : t.ModelSpacesOk := by
  obtain ⟨hsym, hcnt, hrest⟩ := hs
  obtain ⟨-, ⟨i, c, -, hi, -, -, rfl⟩ | ⟨-, hi, rfl⟩⟩ := addCount_ok h
  · exact ⟨hsym, hcnt.put hi _, hrest⟩
  · exact ⟨hsym.put hi _, hcnt.put hi _, hrest⟩

theorem writeCdf_keeps_spaces {l : List Slot} {k c : Nat} {s t : State} (hs : s.ModelSpacesOk)
    (h : writeCdf l k c s = .ok t) : t.ModelSpacesOk := by
  induction l generalizing k c s with
  | nil => cases h; exact hs
  | cons a l ih =>
    obtain ⟨m1, h1, h⟩ := Comp.bind_eq_ok.1 h
    obtain ⟨m2, h2, h⟩ := Comp.bind_eq_ok.1 h
    obtain ⟨hsym, hcnt, hord, hlow⟩ := hs
    refine ih ?_ h
    exact ⟨hsym, hcnt, writeCell_keeps h1 hord.1 hord.2, writeCell_keeps h2 hlow.1 hlow.2⟩

theorem writeLeaves_keeps_spaces {l : List Nat} {s t : State} (hs : s.TreeSpacesOk) (h : writeLeaves l s = .ok t) :
    t.TreeSpacesOk := by
  induction l generalizing s with
  | nil => cases h; exact hs
  | cons k ks ih =>
    obtain ⟨e, -, h⟩ := Comp.bind_eq_ok.1 h
    obtain ⟨m1, h1, h⟩ := Comp.bind_eq_ok.1 h
    obtain ⟨m2, h2, h⟩ := Comp.bind_eq_ok.1 h
    obtain ⟨m3, h3, h⟩ := Comp.bind_eq_ok.1 h
    obtain ⟨hfreq, hleft, hright, hleaf, hord⟩ := hs
    refine ih ?_ h
    exact ⟨writeCell_keeps h3 hfreq.1 hfreq.2, hleft, hright, writeCell_keeps h1 hleaf.1 hleaf.2,
      writeCell_keeps h2 hord.1 hord.2⟩

theorem writeInternal_keeps_spaces {a b n : Nat} {s t : State} (hs : s.TreeSpacesOk)
    (h : writeInternal a b n s = .ok t) : t.TreeSpacesOk := by
  obtain ⟨hn, fa, fb, -, -, rfl⟩ := writeInternal_ok h
  obtain ⟨hfreq, hleft, hright, hleaf, hord⟩ := hs
  exact ⟨hfreq.put hn _, hleft.put hn _, hright.put hn _, hleaf.put hn _, hord⟩

theorem mergeNodes_keeps_spaces {tests n m : Nat} {live : List Nat} {s u : State} (hs : s.TreeSpacesOk)
    (h : mergeNodes tests live n s = .ok (u, m)) : u.TreeSpacesOk := by
  induction tests generalizing live n s with
  | zero =>
    match live, h with
    | [], h | [_], h => cases h; exact hs
    | _ :: _ :: _, h => cases h
  | succ tests ih =>
    match live, h with
    | [], h | [_], h => cases h; exact hs
    | x :: y :: rest, h =>
      obtain ⟨a, b, z, others, t, -, -, -, ht, h⟩ := mergeNodes_pass h
      exact ih (writeInternal_keeps_spaces hs ht) h

/-! ### The commands -/

section
variable {i : Instr} {s u : State} {d : Word}

theorem bodyOf_keeps_modelSpaces (hs : s.ModelSpacesOk) (h : bodyOf i s = .ok (d, u)) : u.ModelSpacesOk := by
  cases i with
  | srst => cases h; exact ⟨spaceOk_nil _, spaceOk_nil _, spaceOk_nil _, spaceOk_nil _⟩
  | mclr => cases h; exact hs
  | mcnt | mload =>
    obtain ⟨t, ht, h⟩ := Comp.bind_eq_ok.1 h
    cases h
    exact addCount_keeps_spaces hs ht
  | mfin =>
    obtain ⟨-, _, t, -, ht, -, rfl⟩ := mfinBody_ok h
    exact writeCdf_keeps_spaces (t := t) hs ht
  | _ =>
    obtain ⟨-, -, -, -, h5, h6, h7, h8⟩ := (bodyOf_frame h).model rfl
    unfold State.ModelSpacesOk
    rw [← h5, ← h6, ← h7, ← h8]
    exact hs

theorem bodyOf_keeps_treeSpaces (hs : s.TreeSpacesOk) (h : bodyOf i s = .ok (d, u)) : u.TreeSpacesOk := by
  cases i with
  | srst => cases h; exact ⟨spaceOk_nil _, spaceOk_nil _, spaceOk_nil _, spaceOk_nil _, spaceOk_nil _⟩
  | mclr => cases h; exact hs
  | hbld =>
    obtain ⟨t, v, n, ht, hv, -, rfl⟩ := hbldBody_ok h
    exact mergeNodes_keeps_spaces (u := v) (writeLeaves_keeps_spaces hs ht) hv
  | _ =>
    obtain ⟨-, -, -, h4, h5, h6, h7, h8⟩ := (bodyOf_frame h).tree rfl
    unfold State.TreeSpacesOk
    rw [← h4, ← h5, ← h6, ← h7, ← h8]
    exact hs

theorem bodyOf_keeps_obuf_space (hs : SpaceOk Config.bufCap s.obuf) (h : bodyOf i s = .ok (d, u)) :
    SpaceOk Config.bufCap u.obuf := by
  cases i with
  | srst => cases h; exact spaceOk_nil _
  | orwd | rcei | raei | hei => cases h; exact hs
  | oread => obtain ⟨_, -, -, rfl⟩ := oreadBody_ok h; exact hs
  | xfer => obtain ⟨_, -, -, rfl⟩ := xferBody_ok h; exact hs
  | rce =>
    obtain ⟨_, _, t, -, -, -, ht, -, rfl⟩ := rceBody_ok h
    exact putBits_keeps_space (t := t) hs ht
  | rcef => obtain ⟨t, -, ht, -, rfl⟩ := rcefBody_ok h; exact putBits_keeps_space (t := t) hs ht
  | he =>
    obtain ⟨_, _, t, -, -, -, ht, -, rfl⟩ := heBody_ok h
    exact putBits_keeps_space (t := t) hs ht
  | rae =>
    obtain ⟨_, _, _, t, -, -, -, -, ht, -, rfl⟩ := raeBody_ok h
    exact putBytes_keeps_space (t := t) hs ht
  | raef => obtain ⟨t, -, ht, -, rfl⟩ := raefBody_ok h; exact putBytes_keeps_space (t := t) hs ht
  | _ => rw [← ((bodyOf_frame h).output rfl).1]; exact hs

theorem bodyOf_keeps_ibuf_space (hs : SpaceOk Config.bufCap s.ibuf) (h : bodyOf i s = .ok (d, u)) :
    SpaceOk Config.bufCap u.ibuf := by
  cases i with
  | srst => cases h; exact spaceOk_nil _
  | iclr | itrim => cases h; exact hs
  | ipush => obtain ⟨hi, -, rfl⟩ := ipushBody_ok h; exact hs.put hi _
  | xfer => obtain ⟨t, ht, -, rfl⟩ := xferBody_ok h; exact copyOut_keeps_space (t := t) hs ht
  | radi => obtain ⟨-, _, _, -, -, rfl⟩ := radiBody_ok h; exact hs
  | rad => obtain ⟨_, _, _, -, -, -, rfl⟩ := radBody_ok h; exact hs
  | _ => rw [← ((bodyOf_frame h).input rfl).1]; exact hs

theorem bodyOf_keeps_spaces (hs : s.SpacesOk) (h : bodyOf i s = .ok (d, u)) : u.SpacesOk := by
  obtain ⟨h1, h2, h3, h4⟩ := spacesOk_iff.1 hs
  exact spacesOk_iff.2 ⟨bodyOf_keeps_modelSpaces h1 h, bodyOf_keeps_treeSpaces h2 h, bodyOf_keeps_obuf_space h3 h,
    bodyOf_keeps_ibuf_space h4 h⟩

end

theorem spacesOk_stepFrame : StepFrame State.SpacesOk where
  inbox _ _ h := h
  respond _ _ _ h := h
  reset _ := reset_spacesOk
  faultEntry _ _ _ h := h

end Sys2Proof.Machine
end

section
/-! SUPPORT. The range coder keeps its interval (spec R39, R153, R154, R158): narrowing stays inside and is not empty, and
renormalisation ends in an interval that R39 allows. -/

namespace Sys2Proof.Machine

/-! ### Computations that do not stop the model -/

theorem Comp.Runs.ok {α : Type} (a : α) : Comp.Runs (.ok a) := nofun

theorem Comp.Runs.raised {α : Type} (e : Err) : (Machine.raised e : Comp α).Runs := fun _ h => by cases h

theorem Comp.runs_of_total {α : Type} {x : Comp α} (h : ∃ a, x = .ok a) : x.Runs := by
  obtain ⟨a, rfl⟩ := h; exact .ok a

theorem Comp.Runs.bind {α β : Type} {x : Comp α} {f : α → Comp β} (hx : x.Runs) (hf : ∀ a, x = .ok a → (f a).Runs) :
    (x >>= f).Runs := by
  intro r h
  rcases Comp.bind_eq_error.1 h with h | ⟨a, ha, h⟩
  · exact hx r h
  · exact hf a ha r h

theorem raiseIf_runs (c : Prop) [Decidable c] (e : Err) : (raiseIf c e).Runs := by
  unfold raiseIf; split
  · exact .raised e
  · exact .ok ()

/-! ### Narrowing -/

theorem cdiv_mul_lt {a t : Nat} (ht : 0 < t) : cdiv a t * t < a + t := by
  have := Nat.div_mul_le_self (a + t - 1) t
  unfold cdiv
  omega

/-- Ceiling division separates two products of a range that is not below the total (R153). -/
theorem cdiv_lt_cdiv {r t cl ch : Nat} (ht : 0 < t) (hr : t ≤ r) (h : cl < ch) : cdiv (r * cl) t < cdiv (r * ch) t := by
  refine Nat.lt_of_not_le fun hle => ?_
  have h1 := (cdiv_le_iff ht).1 hle
  have h2 := cdiv_mul_lt (a := r * cl) ht
  have h3 : r * cl + r ≤ r * ch := by
    rw [← Nat.mul_succ]; exact Nat.mul_le_mul_left r h
  omega

theorem cdiv_le_range {r t ch : Nat} (ht : 0 < t) (h : ch ≤ t) : cdiv (r * ch) t ≤ r :=
  (cdiv_le_iff ht).2 (Nat.mul_le_mul_left r h)

/-- R158: the sub-interval of the symbol at the target holds the window. -/
theorem narrow_holds_window {low v r t cl ch : Nat} (ht : 0 < t) (hr : 0 < r) (hv : low ≤ v)
    (h1 : cl ≤ (v - low) * t / r) (h2 : (v - low) * t / r < ch) :
    (narrow low r t cl ch).1 ≤ v ∧ v ≤ (narrow low r t cl ch).2 := by
  have hcl : cdiv (r * cl) t ≤ v - low := by
    rw [cdiv_le_iff ht, Nat.mul_comm]; exact (Nat.le_div_iff_mul_le hr).1 h1
  have hch : ¬ cdiv (r * ch) t ≤ v - low := by
    rw [cdiv_le_iff ht, Nat.mul_comm r]; exact Nat.not_le.2 ((Nat.div_lt_iff_lt_mul hr).1 h2)
  rw [narrow_fst, narrow_snd]
  omega

/-! ### The interval of an open session -/

/-- What R39 asks of the registers of an open session. -/
def OpenInterval (low high : Nat) : Prop :=
  low ≤ high ∧ ((low < Config.rcQtr ∧ Config.rcHalf ≤ high) ∨ (low < Config.rcHalf ∧ Config.rc3Qtr ≤ high))

theorem rangeOk_iff {s : State} : s.RangeOk ↔
    (s.sess = .rcEnc ∨ s.sess = .rcDec → OpenInterval s.rcLow.toNat s.rcHigh.toNat) ∧
    (s.sess = .rcDec → s.rcLow.toNat ≤ s.rcValue.toNat ∧ s.rcValue.toNat ≤ s.rcHigh.toNat) := Iff.rfl

/-- Outside a session R39 asks nothing. -/
theorem rangeOk_of_closed {s : State} (h : s.sess = .idle ∨ s.sess = .fault) : s.RangeOk := by
  rw [rangeOk_iff]
  rcases h with h | h <;> simp [h]

theorem Settled.openInterval {nl nh : Nat} (h : Settled nl nh) (hle : nl ≤ nh) : OpenInterval nl nh := by
  obtain ⟨h1, h2, h3⟩ := h
  simp only [OpenInterval, Config.rcHalf, Config.rcQtr, Config.rc3Qtr] at *
  omega

section
variable {s u : State} {d : Word}

/-- The interval is wider than any total. -/
theorem OpenInterval.total_le_range (h : OpenInterval s.rcLow.toNat s.rcHigh.toNat) : s.total ≤ s.rcRange := by
  obtain ⟨-, h⟩ := h
  have := s.mtotal.isLt
  simp only [State.total, State.rcRange, Config.rcHalf, Config.rcQtr, Config.rc3Qtr] at *
  omega

/-- The sub-interval of an ordinal is not empty and lies inside the interval (R153). -/
theorem narrow_bounds (hm : s.ModelOk) (hf : s.mstate = .frozen) (ho : OpenInterval s.rcLow.toNat s.rcHigh.toNat)
    {k : Nat} (hk : k < s.mn.toNat) :
    (narrow s.rcLow.toNat s.rcRange s.total (s.lowOf k) (s.highOf k)).1 ≤
      (narrow s.rcLow.toNat s.rcRange s.total (s.lowOf k) (s.highOf k)).2 ∧
    (narrow s.rcLow.toNat s.rcRange s.total (s.lowOf k) (s.highOf k)).2 ≤ s.rcHigh.toNat := by
  have ht : 0 < s.total := total_pos hm hf
  have hc := cntOf_pos hm hf hk
  have h1 := cdiv_lt_cdiv ht ho.total_le_range (show s.lowOf k < s.highOf k by unfold State.highOf; omega)
  have h2 := cdiv_le_range (r := s.rcRange) ht (highOf_le_total hm hf hk)
  obtain ⟨ho, -⟩ := ho
  rw [narrow_fst, narrow_snd]
  unfold State.rcRange at h1 h2 ⊢
  omega

/-- The registers of `RCEI` and `RCDI` are an interval of R39. -/
theorem openInterval_full : OpenInterval (0#32).toNat (word Config.rcTop).toNat := by
  unfold OpenInterval; decide

theorem rceBody_keeps_range {sym : BitVec 16} (hm : s.ModelOk) (hf : s.mstate = .frozen) (hs : s.RangeOk)
    (hsess : s.sess = .rcEnc) (h : rceBody sym s = .ok (d, u)) : u.RangeOk := by
  have husess : u.sess = .rcEnc := (bodyOf_frame (i := .rce sym) h).sess.trans hsess
  have ho := (rangeOk_iff.1 hs).1 (.inl hsess)
  obtain ⟨e, r, t, he, hr, -, -, -, rfl⟩ := rceBody_ok h
  obtain ⟨k, hk, rfl, -⟩ := ordinal_eq hm hf he
  obtain ⟨h1, h2⟩ := narrow_bounds hm hf ho hk
  obtain ⟨g1, g2, g3, -, -⟩ := renormE_ok h1 (lt_of_le_of_lt h2 s.rcHigh.isLt) hr
  refine rangeOk_iff.2 ⟨fun _ => ?_, fun h => by rw [husess] at h; cases h⟩
  rw [countSymbol_rcLow, countSymbol_rcHigh, toNat_word (by omega), toNat_word g2]
  exact g3.openInterval g1

theorem rcdBody_keeps_range (hm : s.ModelOk) (hf : s.mstate = .frozen) (hs : s.RangeOk) (hsess : s.sess = .rcDec)
    (h : rcdBody s = .ok (d, u)) : u.RangeOk := by
  obtain ⟨ho, hv⟩ := rangeOk_iff.1 hs
  have ho := ho (.inr hsess)
  obtain ⟨hv1, hv2⟩ := hv hsess
  obtain ⟨e, q, he, hq, -, rfl⟩ := rcdBody_ok h
  obtain ⟨k, hk, rfl, hlow, hhigh⟩ := symbolAt_eq hm hf he
  obtain ⟨-, h2⟩ := narrow_bounds hm hf ho hk
  obtain ⟨h3, h4⟩ := narrow_holds_window (total_pos hm hf) (Nat.succ_pos _) hv1 hlow hhigh
  obtain ⟨g1, g2, g3, g4, -, -⟩ := renormD_ok h3 h4 (lt_of_le_of_lt h2 s.rcHigh.isLt) hq
  rw [rangeOk_iff, countSymbol_rcLow, countSymbol_rcHigh, countSymbol_rcValue, toNat_word (by omega), toNat_word g3,
    toNat_word (by omega)]
  exact ⟨fun _ => g4.openInterval (g1.trans g2), fun _ => ⟨g1, g2⟩⟩

/-- The window `RCDI` loads lies in the whole interval. -/
theorem rcdiBody_keeps_range (h : rcdiBody s = .ok (d, u)) : u.RangeOk := by
  obtain ⟨v, hv, -, rfl⟩ := rcdiBody_ok h
  obtain ⟨-, hlt⟩ := loadWindow_ok hv
  refine rangeOk_iff.2 ⟨fun _ => openInterval_full, fun _ => ⟨Nat.zero_le _, ?_⟩⟩
  have : (word Config.rcTop).toNat = 2 ^ 32 - 1 := by simp [word]
  simp only [this]
  have := (word v).isLt
  omega

/-- A command that does not write the range registers leaves a range session open only where one was. -/
theorem rangeOk_of_frame {i : Instr} (F : Frame i s u) (hw : writesRange i = false) (hs : s.RangeOk) : u.RangeOk := by
  obtain ⟨h1, h2, h3⟩ := F.range hw
  have hsess : u.sess = .rcEnc ∨ u.sess = .rcDec → u.sess = s.sess := by
    rw [F.sess]
    cases i with
    | rcei | rcdi => cases hw
    | srst | eclr | rcef | rcdf | raei | raef | radi | radf | hei | hef | hdi | hdf => rintro (h | h) <;> cases h
    | _ => exact fun _ => rfl
  rw [rangeOk_iff, ← h1, ← h2, ← h3]
  obtain ⟨hs1, hs2⟩ := rangeOk_iff.1 hs
  exact ⟨fun h => hs1 (hsess h ▸ h), fun h => hs2 (hsess (.inr h) ▸ h)⟩

theorem bodyOf_keeps_range {i : Instr} (hm : s.ModelOk) (hses : s.SessionOk) (hs : s.RangeOk) (hl : s.Legal i)
    (h : bodyOf i s = .ok (d, u)) : u.RangeOk := by
  obtain ⟨hfrozen, -⟩ := hses
  cases i with
  | srst => cases h; exact rangeOk_of_closed (.inl rfl)
  | rcei => cases h; exact rangeOk_iff.2 ⟨fun _ => openInterval_full, fun h => by cases h⟩
  | rce =>
    have hl : s.sess = .rcEnc := hl
    exact rceBody_keeps_range hm (hfrozen (by simp [hl]) (by simp [hl])) hs hl h
  | rcdi => exact rcdiBody_keeps_range h
  | rcd =>
    have hl : s.sess = .rcDec := hl
    exact rcdBody_keeps_range hm (hfrozen (by simp [hl]) (by simp [hl])) hs hl h
  | _ => exact rangeOk_of_frame (bodyOf_frame h) rfl hs

end

theorem rangeOk_stepFrame : StepFrame State.RangeOk where
  inbox _ _ h := h
  respond _ _ _ h := h
  reset _ := rangeOk_of_closed (.inl rfl)
  faultEntry _ _ _ _ := rangeOk_of_closed (.inr rfl)

/-! ### The commands do not stop the model -/

section
variable {s : State}

theorem getBit_total (hs : s.InputOk) (i : Nat) : ∃ b, getBit s i = .ok b := by
  obtain ⟨h1, -, -, h4⟩ := hs
  by_cases hi : i < s.ibitlen
  · have hlt : i / 8 < s.ilen.toNat := by unfold State.ibitlen at hi; omega
    obtain ⟨v, hv⟩ := Option.isSome_iff_exists.1 (h4 _ hlt)
    exact ⟨_, getBit_ok.2 (.inr ⟨hi, v, by omega, hv, rfl⟩)⟩
  · exact ⟨false, getBit_ok.2 (.inl ⟨Nat.le_of_not_lt hi, rfl⟩)⟩

theorem putBits_total {bs : List Bool} (hs : s.OutputOk) (hr : s.obitlen.toNat + bs.length ≤ 8 * Config.bufCap) :
    ∃ t, putBits bs s = .ok t := by
  induction bs generalizing s with
  | nil => exact ⟨s, rfl⟩
  | cons b bs ih =>
    rw [List.length_cons] at hr
    obtain ⟨-, -, h3, -⟩ := id hs
    obtain ⟨u, hu⟩ := putBit_total b (s := s) (by omega) fun h0 => h3 _ (by unfold State.olen; omega)
    have hn := putBit_obitlen (by omega) hu
    obtain ⟨t, ht⟩ := ih (putBit_keeps_output hs (by omega) hu) (by omega)
    exact ⟨t, putBits_cons_ok.2 ⟨u, hu, ht⟩⟩

/-- The capacity check, the bits, and a result: no stop on a stream that is in order. -/
theorem checked_putBits_runs (hs : s.OutputOk) (bits : List Bool) (f : State → Word × State) :
    (do raiseIf (s.room bits.length = false) .capacity
        let t ← putBits bits s
        .ok (f t) : Comp (Word × State)).Runs := by
  refine (raiseIf_runs _ _).bind fun _ h0 => ?_
  have hr : s.obitlen.toNat + bits.length ≤ 8 * Config.bufCap := by simpa using raiseIf_ok.1 h0
  exact (Comp.runs_of_total (putBits_total hs hr)).bind fun t _ => .ok _

theorem rceBody_runs (sym : BitVec 16) (ho : s.OutputOk) (hm : s.ModelOk) (hf : s.mstate = .frozen)
    (hi : OpenInterval s.rcLow.toNat s.rcHigh.toNat) : (rceBody sym s).Runs := by
  refine (ordinal_runs hm hf sym).bind fun e he => ?_
  obtain ⟨k, hk, rfl, -⟩ := ordinal_eq hm hf he
  obtain ⟨h1, h2⟩ := narrow_bounds hm hf hi hk
  refine Comp.Runs.bind ?_ fun r _ => checked_putBits_runs ho _ _
  rcases renormE_total (tests := 32) (pend := s.rcPend.toNat) (out := []) h1 (lt_of_le_of_lt h2 s.rcHigh.isLt)
      (Nat.le_mul_of_pos_left _ (Nat.succ_pos _)) with h | h
  · exact Comp.runs_of_total h
  · exact fun f hx => by cases h.symm.trans hx

theorem loadWindow_total (hs : s.InputOk) (l : List Nat) (v : Nat) : ∃ w, loadWindow s l v = .ok w := by
  induction l generalizing v with
  | nil => exact ⟨v, rfl⟩
  | cons i is ih =>
    obtain ⟨b, hb⟩ := getBit_total hs i
    obtain ⟨w, hw⟩ := ih (2 * v + b.toNat)
    exact ⟨w, Comp.bind_eq_ok.2 ⟨b, hb, hw⟩⟩

theorem rcdBody_runs (hin : s.InputOk) (hm : s.ModelOk) (hf : s.mstate = .frozen)
    (hi : OpenInterval s.rcLow.toNat s.rcHigh.toNat) : (rcdBody s).Runs := by
  refine (symbolAt_runs hm hf _).bind fun e he => ?_
  obtain ⟨k, hk, rfl, -⟩ := symbolAt_eq hm hf he
  obtain ⟨h1, h2⟩ := narrow_bounds hm hf hi hk
  refine Comp.Runs.bind (Comp.runs_of_total ?_) fun r _ => .ok _
  exact renormD_total (getBit_total hin) (tests := 32) h1 (lt_of_le_of_lt h2 s.rcHigh.isLt)
    (Nat.le_mul_of_pos_left _ (Nat.succ_pos _))

end

end Sys2Proof.Machine
end

section
/-! SUPPORT. The rANS encoder keeps its state in `[L, 256 L)` and its stream on a byte boundary (spec R65, R174, R181). -/

namespace Sys2Proof.Machine

/-- `RenormRE` does not shift below a 256th of its bound. -/
theorem renormRE_ge {lo xmax tests x y : Nat} {out bytes : List Byte} (hlo : lo * 256 ≤ xmax) (hx : lo ≤ x)
    (h : renormRE xmax tests x out = .ok (y, bytes)) : lo ≤ y := by
  induction tests generalizing x out with
  | zero => cases h
  | succ tests ih =>
    unfold renormRE at h
    split at h
    · next hc => exact ih ((Nat.le_div_iff_mul_le (by decide)).2 (hlo.trans hc)) h
    · cases h; exact hx

/-- R181: an encode step takes a state in `[c 2^32, c 2^40)` to one in `[L, 256 L)`. -/
theorem ransC_bounds {x c cum t : Nat} (hc : 0 < c) (ht : cum + c ≤ t) (h1 : c * 2 ^ 32 ≤ x) (h2 : x < c * 2 ^ 40) :
    ransLow t ≤ ransC x c cum t ∧ ransC x c cum t < 256 * ransLow t := by
  have hq1 : 2 ^ 32 ≤ x / c := (Nat.le_div_iff_mul_le hc).2 (by rw [Nat.mul_comm]; exact h1)
  have hq2 : x / c < 2 ^ 40 := (Nat.div_lt_iff_lt_mul hc).2 (by rw [Nat.mul_comm]; exact h2)
  have hr := Nat.mod_lt x hc
  unfold ransLow ransC Config.raK
  constructor
  · calc t * 2 ^ 32 = 2 ^ 32 * t := Nat.mul_comm _ _
      _ ≤ x / c * t := Nat.mul_le_mul_right t hq1
      _ ≤ x / c * t + cum + x % c := by omega
  · calc x / c * t + cum + x % c < (x / c + 1) * t := by rw [Nat.succ_mul]; omega
      _ ≤ 2 ^ 40 * t := Nat.mul_le_mul_right t hq2
      _ = 256 * (t * 2 ^ 32) := by ring

section
variable {s u : State} {d : Word}

/-- What R65 and R181 ask of an open encode session. -/
def State.RansOpen (s : State) : Prop :=
  s.obitlen.toNat % 8 = 0 ∧
    (s.raMode = .stream → ransLow s.total ≤ s.raState.toNat ∧ s.raState.toNat < 256 * ransLow s.total)

/-- Outside an encode session R65 and R181 ask nothing. -/
theorem ransOk_of_sess (h : s.sess ≠ .raEnc) : s.RansOk := fun hs => absurd hs h

theorem raeiBody_keeps_rans {m : RaMode} (hm : s.ModelOk) (hf : s.mstate = .frozen) (h : raeiBody m s = .ok (d, u)) :
    u.RansOk := by
  cases h
  refine fun _ => ⟨by simp, ?_⟩
  rintro (rfl : m = .stream)
  have ht := total_pos hm hf
  have hlt : ransLow s.total < 2 ^ 64 := by
    have := s.mtotal.isLt
    unfold ransLow State.total Config.raK; omega
  change ransLow s.total ≤ (BitVec.ofNat 64 (ransLow s.total)).toNat ∧
    (BitVec.ofNat 64 (ransLow s.total)).toNat < 256 * ransLow s.total
  rw [BitVec.toNat_ofNat, Nat.mod_eq_of_lt hlt]
  have : 0 < ransLow s.total := Nat.mul_pos ht (by decide)
  omega

/-- In STREAM mode the renormalised state is in the range an encode step wants. -/
theorem ransShift_bounds {e : Entry} {x : Nat} {out : List Byte} (hs : s.RansOpen) (hst : s.raMode = .stream)
    (he : e.cnt ≤ s.total) (h : ransShift s e = .ok (x, out)) : e.cnt * 2 ^ 32 ≤ x ∧ x < e.cnt * 2 ^ 40 := by
  obtain ⟨-, hs⟩ := hs
  obtain ⟨h1, -⟩ := hs hst
  rw [ransShift, hst] at h
  obtain ⟨h2, -⟩ := renormRE_ok h
  refine ⟨renormRE_ge ?_ (le_trans ?_ h1) h, h2⟩
  · exact le_of_eq (by simp only [Config.raK]; ring)
  · exact Nat.mul_le_mul_right _ he

theorem raeBody_keeps_rans {sym : BitVec 16} (hm : s.ModelOk) (hf : s.mstate = .frozen) (hs : s.RansOpen)
    (h : raeBody sym s = .ok (d, u)) : u.RansOk := by
  obtain ⟨e, x, out, t, he, hx, hlim, hr, ht, -, rfl⟩ := raeBody_ok h
  obtain ⟨k, hk, rfl, -⟩ := ordinal_eq hm hf he
  have hcnt := cntOf_pos hm hf hk
  have hhigh := highOf_le_total hm hf hk
  unfold State.highOf at hhigh
  obtain ⟨hu, -⟩ := putBytes_ok hr ht
  have hbit : t.obitlen.toNat = s.obitlen.toNat + 8 * out.length := by rw [hu]; exact obitlen_add rfl hr
  have htot : t.total = s.total := by rw [hu]; rfl
  have hmode : t.raMode = s.raMode := by rw [hu]
  refine fun _ => ⟨?_, fun hst => ?_⟩
  · obtain ⟨h8, -⟩ := hs
    rw [countSymbol_obitlen, hbit]; omega
  · have hst : s.raMode = .stream := hmode.symm.trans hst
    obtain ⟨h1, h2⟩ := ransShift_bounds hs hst (show s.cntOf k ≤ s.total by omega) hx
    rw [countSymbol_raState, BitVec.toNat_ofNat, Nat.mod_eq_of_lt hlim]
    change ransLow t.total ≤ _ ∧ _ < 256 * ransLow t.total
    rw [htot]
    exact ransC_bounds hcnt (by omega) h1 h2

/-- A command that is legal in an encode session and does not write the rANS registers leaves the stream's length and the
total as they are. -/
theorem ransOpen_of_frame {i : Instr} (h : bodyOf i s = .ok (d, u)) (hw : writesRans i = false)
    (hm : writesModel i = false) (hb : u.obitlen = s.obitlen) (hs : s.RansOpen) : u.RansOpen := by
  have F := bodyOf_frame h
  obtain ⟨h1, h2⟩ := F.rans hw
  have h3 := (F.model hm).total
  unfold State.RansOpen
  rw [← h1, ← h2, ← h3, hb]
  exact hs

theorem bodyOf_keeps_rans {i : Instr} (hm : s.ModelOk) (hses : s.SessionOk) (hs : s.RansOk) (hl : s.Legal i)
    (h : bodyOf i s = .ok (d, u)) : u.RansOk := by
  have F := bodyOf_frame h
  cases i with
  | srst | eclr | rcei | rcef | rcdi | rcdf | raef | radi | radf | hei | hef | hdi | hdf =>
    exact ransOk_of_sess (by rw [F.sess]; nofun)
  | mclr | iclr | ipush | xfer =>
    have hl : s.sess = .idle := hl
    exact ransOk_of_sess (by rw [F.sess]; exact hl ▸ nofun)
  | mcnt | mload | mfin | itrim | hbld =>
    have hl : s.sess = .idle := hl.1
    exact ransOk_of_sess (by rw [F.sess]; exact hl ▸ nofun)
  | rce | rcd | rad | he | hd =>
    exact ransOk_of_sess (by rw [F.sess]; exact (show s.sess = _ from hl) ▸ nofun)
  | raei => exact raeiBody_keeps_rans hm hl.2 h
  | rae =>
    have hl : s.sess = .raEnc := hl
    exact raeBody_keeps_rans hm (hses.1 (by simp [hl]) (by simp [hl])) (hs hl) h
  | oread =>
    refine fun hu => ransOpen_of_frame h rfl rfl ?_ (hs (F.sess.symm.trans hu))
    obtain ⟨_, -, -, rfl⟩ := oreadBody_ok h
    rfl
  | orwd => exact fun hu => ransOpen_of_frame h rfl rfl (by cases h; rfl) (hs (F.sess.symm.trans hu))
  | nop | rdcsr | arg | mtot | mivl | msat =>
    obtain ⟨-, hb, -⟩ := F.output rfl
    exact fun hu => ransOpen_of_frame h rfl rfl hb.symm (hs (F.sess.symm.trans hu))

end

theorem ransOk_stepFrame : StepFrame State.RansOk where
  inbox _ _ h := h
  respond _ _ _ h := h
  reset _ := ransOk_of_sess nofun
  faultEntry _ _ _ _ := ransOk_of_sess nofun

/-! ### The commands do not stop the model -/

section
variable {s : State}

theorem ransShift_runs {e : Entry} (hc : 0 < e.cnt) : (ransShift s e).Runs := by
  unfold ransShift
  split
  · exact .ok _
  · refine Comp.runs_of_total (renormRE_total (tests := 8) (lt_of_lt_of_le s.raState.isLt ?_))
    calc 2 ^ 64 ≤ 1 * 2 ^ (Config.raK + 8) * 256 ^ 8 := by decide
      _ ≤ e.cnt * 2 ^ (Config.raK + 8) * 256 ^ 8 := Nat.mul_le_mul_right _ (Nat.mul_le_mul_right _ hc)

theorem raeBody_runs (sym : BitVec 16) (hm : s.ModelOk) (hf : s.mstate = .frozen) (h8 : s.obitlen.toNat % 8 = 0) :
    (raeBody sym s).Runs := by
  refine (ordinal_runs hm hf sym).bind fun e he => ?_
  obtain ⟨k, hk, rfl, -⟩ := ordinal_eq hm hf he
  refine (ransShift_runs (cntOf_pos hm hf hk)).bind fun xo _ => ?_
  refine (raiseIf_runs _ _).bind fun _ _ => (raiseIf_runs _ _).bind fun _ h0 => ?_
  exact (Comp.runs_of_total (putBytes_total _ h8 (by simpa using raiseIf_ok.1 h0))).bind fun t _ => .ok _

theorem raefBody_runs (h8 : s.obitlen.toNat % 8 = 0) : (raefBody s).Runs := by
  refine (raiseIf_runs _ _).bind fun _ h0 => ?_
  exact (Comp.runs_of_total (putBytes_total _ h8 (by simpa using raiseIf_ok.1 h0))).bind fun t _ => .ok _

theorem getByteBack_runs (hs : s.InputOk) {rp : Nat} (h : rp ≤ s.ilen.toNat) : (getByteBack s rp).Runs := by
  obtain ⟨h1, -, -, h4⟩ := hs
  cases rp with
  | zero => exact .raised _
  | succ rp =>
    obtain ⟨v, hv⟩ := Option.isSome_iff_exists.1 (h4 rp h)
    exact Comp.runs_of_total ⟨_, getByteBack_ok.2 ⟨rfl, by omega, hv⟩⟩

theorem loadBack_runs (hs : s.InputOk) (n x : Nat) {rp : Nat} (h : rp ≤ s.ilen.toNat) : (loadBack s n x rp).Runs := by
  induction n generalizing x rp with
  | zero => exact .ok _
  | succ n ih =>
    refine (getByteBack_runs hs h).bind fun b hb => ih _ ?_
    obtain ⟨hrp, -⟩ := getByteBack_ok.1 (show getByteBack s rp = .ok (b.1, b.2) from hb)
    omega

theorem replenish_runs (hs : s.InputOk) (l x : Nat) {rp : Nat} (h : rp ≤ s.ilen.toNat) : (replenish s l x rp).Runs := by
  induction rp generalizing x with
  | zero =>
    unfold replenish; split
    · exact .raised _
    · exact .ok _
  | succ rp ih =>
    unfold replenish; split
    · exact (getByteBack_runs hs h).bind fun b _ => ih _ (by omega)
    · exact .ok _

theorem ransRefill_runs (hs : s.InputOk) : (ransRefill s).Runs := by
  obtain ⟨-, -, hirp, -⟩ := id hs
  unfold ransRefill; split
  · exact .ok _
  · exact replenish_runs hs _ _ hirp

end

end Sys2Proof.Machine
end

section
/-! SUPPORT. `HBLD` builds a tree (spec R43, R44, R191), and no command that searches a valid tree stops the model (R192,
R198). -/

namespace Sys2Proof.Machine

/-! ### Other commands leave the tree -/

/-- What the tree invariant asks does not depend on anything but the model and the tree. -/
theorem treeOk_congr {s u : State} (hm : s.SameModel u) (ht : s.SameTree u) (hs : s.TreeOk) : u.TreeOk := by
  have hc := hm.cntOf
  obtain ⟨-, h2, -⟩ := hm
  obtain ⟨t1, t2, t3, t4, t5, t6, t7, t8⟩ := ht
  simpa only [State.TreeOk, State.freqOf, State.leftOf, State.rightOf, hc, h2, t1, t2, t3, t4, t5, t6, t7, t8] using hs

theorem treeOk_of_not_valid {s : State} (h : s.htValid = false) : s.TreeOk := fun hv => by rw [h] at hv; cases hv

/-! ### Reads of the arena after a write -/

theorem freqOf_of_find {s : State} {n : Nat} {v : BitVec 16} (h : s.hnFreq.find n = some v) : s.freqOf n = v.toNat := by
  simp [State.freqOf, h]

theorem leftOf_of_find {s : State} {n : Nat} {v : BitVec 10} (h : s.hnLeft.find n = some v) : s.leftOf n = v.toNat := by
  simp [State.leftOf, h]

theorem rightOf_of_find {s : State} {n : Nat} {v : BitVec 10} (h : s.hnRight.find n = some v) :
    s.rightOf n = v.toNat := by
  simp [State.rightOf, h]

/-! ### The tree while it is built -/

/-- What R191 asks of an internal node: it stands over two different earlier nodes, whose frequencies it sums. -/
def State.InternalNode (s : State) (n : Nat) : Prop :=
  s.hnLeaf.find n = some false ∧ (s.hnLeft.find n).isSome = true ∧ (s.hnRight.find n).isSome = true ∧
  (s.hnFreq.find n).isSome = true ∧ s.leftOf n < n ∧ s.rightOf n < n ∧ s.leftOf n ≠ s.rightOf n ∧
  s.freqOf n = s.freqOf (s.leftOf n) + s.freqOf (s.rightOf n)

/-- What R191 asks of the leaf of an ordinal. -/
def State.LeafNode (s : State) (n : Nat) : Prop :=
  s.hnLeaf.find n = some true ∧ s.hnOrd.find n = some (BitVec.ofNat 9 n) ∧ (s.hnFreq.find n).isSome = true ∧
  s.freqOf n = s.cntOf n

/-- The arena before internal node `n` is made, with the nodes `live` left to merge. -/
structure State.Building (s : State) (live : List Nat) (n : Nat) : Prop where
  cap : s.mn.toNat ≤ Config.aMax
  nodup : live.Nodup
  live_iff : ∀ m, m ∈ live ↔ s.LiveAt n m
  mn_le : s.mn.toNat ≤ n
  count : n + live.length = 2 * s.mn.toNat
  sum : (live.map s.freqOf).sum = s.total
  leaves : ∀ j < s.mn.toNat, s.LeafNode j
  nodes : ∀ j < n, s.mn.toNat ≤ j → s.InternalNode j

section
variable {s t : State} {live : List Nat} {n : Nat}

theorem State.Building.lt_of_mem (hB : s.Building live n) {m : Nat} (hm : m ∈ live) : m < n := ((hB.live_iff m).1 hm).1

/-- Every node made so far has a frequency. -/
theorem State.Building.freq_isSome (hB : s.Building live n) {m : Nat} (hm : m < n) : (s.hnFreq.find m).isSome = true := by
  by_cases h : m < s.mn.toNat
  · obtain ⟨-, -, h, -⟩ := hB.leaves m h
    exact h
  · obtain ⟨-, -, -, h, -⟩ := hB.nodes m hm (Nat.le_of_not_lt h)
    exact h

/-- The newest node is live. -/
theorem State.Building.last_mem (hB : s.Building live n) (hn : 1 ≤ n) : n - 1 ∈ live := by
  refine (hB.live_iff _).2 ⟨by omega, fun j hj hmn => ?_⟩
  obtain ⟨-, -, -, -, h1, h2, -⟩ := hB.nodes j hj hmn
  omega

/-- Two of the live nodes: their frequencies and those of the others sum to `MTOTAL`. -/
theorem State.Building.sum_erase (hB : s.Building live n) {a b : Nat} (ha : a ∈ live) (hb : b ∈ live.erase a) :
    s.freqOf a + (s.freqOf b + (((live.erase a).erase b).map s.freqOf).sum) = s.total := by
  rw [List.sum_map_erase s.freqOf hb, List.sum_map_erase s.freqOf ha, hB.sum]

/-- The arena `t` after internal node `n` was made over `a` and `b` in the arena `s`: node `n`, and every other node as it
was. -/
structure State.Makes (s t : State) (a b n : Nat) : Prop where
  model : s.SameModel t
  ord : t.hnOrd = s.hnOrd
  leaf : t.hnLeaf.find n = some false
  left : (t.hnLeft.find n).isSome = true ∧ t.leftOf n = a
  right : (t.hnRight.find n).isSome = true ∧ t.rightOf n = b
  freq : (t.hnFreq.find n).isSome = true ∧ t.freqOf n = s.freqOf a + s.freqOf b
  leaf_old : ∀ j, j ≠ n → t.hnLeaf.find j = s.hnLeaf.find j
  left_old : ∀ j, j ≠ n → t.hnLeft.find j = s.hnLeft.find j
  right_old : ∀ j, j ≠ n → t.hnRight.find j = s.hnRight.find j
  freq_old : ∀ j, j ≠ n → t.hnFreq.find j = s.hnFreq.find j

/-- Nothing is cut where the children have node indices and the sum of their frequencies is a frequency. -/
theorem writeInternal_makes {a b : Nat} (ha : a < 1024) (hb : b < 1024) (hf : s.freqOf a + s.freqOf b < 2 ^ 16)
    (h : writeInternal a b n s = .ok t) : s.Makes t a b n := by
  obtain ⟨-, fa, fb, hfa, hfb, rfl⟩ := writeInternal_ok h
  have hfreq := Cells.find_put_same s.hnFreq n (BitVec.ofNat 16 (fa.toNat + fb.toNat))
  have hleft := Cells.find_put_same s.hnLeft n (BitVec.ofNat 10 a)
  have hright := Cells.find_put_same s.hnRight n (BitVec.ofNat 10 b)
  rw [freqOf_of_find hfa, freqOf_of_find hfb] at hf
  exact {
    model := .refl _
    ord := rfl
    leaf := Cells.find_put_same _ _ _
    left := ⟨by rw [hleft]; rfl, by rw [leftOf_of_find hleft, BitVec.toNat_ofNat]; omega⟩
    right := ⟨by rw [hright]; rfl, by rw [rightOf_of_find hright, BitVec.toNat_ofNat]; omega⟩
    freq := ⟨by rw [hfreq]; rfl, by
      rw [freqOf_of_find hfreq, BitVec.toNat_ofNat, freqOf_of_find hfa, freqOf_of_find hfb]; omega⟩
    leaf_old := fun _ hj => Cells.find_put_other _ _ hj
    left_old := fun _ hj => Cells.find_put_other _ _ hj
    right_old := fun _ hj => Cells.find_put_other _ _ hj
    freq_old := fun _ hj => Cells.find_put_other _ _ hj }

section
variable {a b : Nat} (hM : s.Makes t a b n)
include hM

theorem State.Makes.freqOf_old {j : Nat} (hj : j < n) : t.freqOf j = s.freqOf j := by
  rw [State.freqOf, State.freqOf, hM.freq_old j hj.ne]

theorem State.Makes.leftOf_old {j : Nat} (hj : j < n) : t.leftOf j = s.leftOf j := by
  rw [State.leftOf, State.leftOf, hM.left_old j hj.ne]

theorem State.Makes.rightOf_old {j : Nat} (hj : j < n) : t.rightOf j = s.rightOf j := by
  rw [State.rightOf, State.rightOf, hM.right_old j hj.ne]

theorem State.Makes.mn_eq : t.mn = s.mn := by
  obtain ⟨-, h, -⟩ := hM.model
  exact h.symm

theorem State.Makes.leafNode_old {j : Nat} (hj : j < n) (h : s.LeafNode j) : t.LeafNode j := by
  unfold State.LeafNode
  rw [hM.leaf_old j hj.ne, hM.ord, hM.freq_old j hj.ne, hM.freqOf_old hj, ← hM.model.cntOf]
  exact h

theorem State.Makes.internalNode_old {j : Nat} (hj : j < n) (h : s.InternalNode j) : t.InternalNode j := by
  obtain ⟨-, -, -, -, hl, hr, -⟩ := id h
  unfold State.InternalNode
  rw [hM.leaf_old j hj.ne, hM.left_old j hj.ne, hM.right_old j hj.ne, hM.freq_old j hj.ne, hM.leftOf_old hj,
    hM.rightOf_old hj, hM.freqOf_old hj, hM.freqOf_old (hl.trans hj), hM.freqOf_old (hr.trans hj)]
  exact h

theorem State.Makes.internalNode_new (ha : a < n) (hb : b < n) (hab : a ≠ b) : t.InternalNode n := by
  obtain ⟨hl1, hl2⟩ := hM.left
  obtain ⟨hr1, hr2⟩ := hM.right
  obtain ⟨hf1, hf2⟩ := hM.freq
  unfold State.InternalNode
  rw [hl2, hr2, hf2, hM.freqOf_old ha, hM.freqOf_old hb]
  exact ⟨hM.leaf, hl1, hr1, hf1, ha, hb, hab, rfl⟩

/-- R191: making node `n` takes its children from the live nodes and adds `n`. -/
theorem State.Makes.liveAt_iff (ha : a < n) (hb : b < n) (hmn : s.mn.toNat ≤ n)
    (hnodes : ∀ j < n, s.mn.toNat ≤ j → s.InternalNode j) (m : Nat) :
    t.LiveAt (n + 1) m ↔ (m ≠ b ∧ m ≠ a ∧ s.LiveAt n m) ∨ m = n := by
  have hl := hM.left.2
  have hr := hM.right.2
  unfold State.LiveAt
  rw [hM.mn_eq]
  constructor
  · rintro ⟨h1, h2⟩
    by_cases hm : m = n
    · exact .inr hm
    · obtain ⟨h3, h4⟩ := h2 n (Nat.lt_succ_self n) hmn
      refine .inl ⟨fun h => h4 (hr.trans h.symm), fun h => h3 (hl.trans h.symm), by omega, fun j hj hmj => ?_⟩
      rw [← hM.leftOf_old hj, ← hM.rightOf_old hj]
      exact h2 j (by omega) hmj
  · rintro (⟨h1, h2, h3, h4⟩ | rfl)
    · refine ⟨by omega, fun j hj hmj => ?_⟩
      rcases Nat.lt_succ_iff_lt_or_eq.1 hj with hj | rfl
      · rw [hM.leftOf_old hj, hM.rightOf_old hj]; exact h4 j hj hmj
      · rw [hl, hr]; exact ⟨h2.symm, h1.symm⟩
    · refine ⟨by omega, fun j hj hmj => ?_⟩
      rcases Nat.lt_succ_iff_lt_or_eq.1 hj with hj | rfl
      · obtain ⟨-, -, -, -, h1, h2, -⟩ := hnodes j hj hmj
        rw [hM.leftOf_old hj, hM.rightOf_old hj]; omega
      · rw [hl, hr]; omega

end

/-- R191: a merge of two live nodes `a` and `b` makes internal node `n`. -/
theorem State.Building.merge (hB : s.Building live n) {a b : Nat} (ha : a ∈ live) (hb : b ∈ live.erase a)
    (h : writeInternal a b n s = .ok t) : t.Building ((live.erase a).erase b ++ [n]) (n + 1) := by
  have hcap := hB.cap
  have hcount := hB.count
  have hsum := hB.sum_erase ha hb
  have htot : s.total < 2 ^ 16 := s.mtotal.isLt
  obtain ⟨hba, hb'⟩ := hB.nodup.mem_erase_iff.1 hb
  have han := hB.lt_of_mem ha
  have hbn := hB.lt_of_mem hb'
  have hlen1 := List.length_erase_add_one hb
  have hlen2 := List.length_erase_add_one ha
  have hold : ∀ m ∈ (live.erase a).erase b, m < n := fun m hm =>
    hB.lt_of_mem (List.mem_of_mem_erase (List.mem_of_mem_erase hm))
  unfold Config.aMax at hcap
  have hM : s.Makes t a b n := writeInternal_makes (by omega) (by omega) (by omega) h
  refine ⟨by rw [hM.mn_eq]; exact hB.cap, ?_, fun m => ?_, ?_, ?_, ?_, fun j hj => ?_, fun j hj hmj => ?_⟩
  · refine List.Nodup.append ((hB.nodup.erase a).erase b) (List.nodup_singleton n) fun m h1 h2 => ?_
    rw [List.mem_singleton.1 h2] at h1
    exact Nat.lt_irrefl n (hold n h1)
  · rw [hM.liveAt_iff han hbn hB.mn_le hB.nodes, List.mem_append, List.mem_singleton, (hB.nodup.erase a).mem_erase_iff,
      hB.nodup.mem_erase_iff, hB.live_iff]
  · rw [hM.mn_eq]; exact Nat.le_succ_of_le hB.mn_le
  · rw [hM.mn_eq, List.length_append, List.length_singleton]; omega
  · have hfreq : ((live.erase a).erase b).map t.freqOf = ((live.erase a).erase b).map s.freqOf :=
      List.map_congr_left fun m hm => hM.freqOf_old (hold m hm)
    rw [List.map_append, List.sum_append, List.map_singleton, List.sum_singleton, hM.freq.2, ← hM.model.total, hfreq]
    omega
  · rw [hM.mn_eq] at hj
    exact hM.leafNode_old (lt_of_lt_of_le hj hB.mn_le) (hB.leaves j hj)
  · rw [hM.mn_eq] at hmj
    rcases Nat.lt_succ_iff_lt_or_eq.1 hj with hj | rfl
    · exact hM.internalNode_old hj (hB.nodes j hj hmj)
    · exact hM.internalNode_new han hbn hba.symm

theorem State.Building.writeInternal_total (hB : s.Building live n) {a b : Nat} (ha : a < n) (hb : b < n)
    (hn : n < Config.arenaCap) : ∃ t, writeInternal a b n s = .ok t := by
  obtain ⟨fa, hfa⟩ := Option.isSome_iff_exists.1 (hB.freq_isSome ha)
  obtain ⟨fb, hfb⟩ := Option.isSome_iff_exists.1 (hB.freq_isSome hb)
  unfold writeInternal
  simp only [readCell_of_find (ha.trans hn) hfa, readCell_of_find (hb.trans hn) hfb, writeCell_of_lt _ _ hn, Comp.bind_ok]
  exact ⟨_, rfl⟩

theorem State.Building.minNode_total (hB : s.Building live n) (hn : n < Config.arenaCap) {x : Nat} {rest : List Nat}
    (hl : ∀ m ∈ x :: rest, m ∈ live) : ∃ m, minNode s x rest = .ok m :=
  Machine.minNode_total fun m hm => by
    have hlt := hB.lt_of_mem (hl m hm)
    exact ⟨hlt.trans hn, hB.freq_isSome hlt⟩

/-- R191: the merge loop ends with one live node, the last of `2 MN - 1`. -/
theorem mergeNodes_builds {tests : Nat} (hB : s.Building live n) (h1 : 1 ≤ live.length) (h2 : live.length ≤ tests + 1) :
    ∃ u r, mergeNodes tests live n s = .ok (u, 2 * s.mn.toNat - 1) ∧ u.mn = s.mn ∧
      u.Building [r] (2 * s.mn.toNat - 1) := by
  induction tests generalizing live n s with
  | zero =>
    match live, h1, h2 with
    | [r], _, _ =>
      have hn : n = 2 * s.mn.toNat - 1 := by have := hB.count; simp at this; omega
      subst hn
      exact ⟨s, r, rfl, rfl, hB⟩
  | succ tests ih =>
    match live, h1, h2 with
    | [r], _, _ =>
      have hn : n = 2 * s.mn.toNat - 1 := by have := hB.count; simp at this; omega
      subst hn
      exact ⟨s, r, rfl, rfl, hB⟩
    | x :: y :: rest, _, h2 =>
      have hcount := hB.count
      have hcap := hB.cap
      simp only [List.length_cons] at hcount h2
      have hn : n < Config.arenaCap := by unfold Config.aMax at hcap; unfold Config.arenaCap; omega
      obtain ⟨a, ha⟩ := hB.minNode_total hn fun _ hm => hm
      have ham := minNode_mem ha
      have hlen := List.length_erase_add_one ham
      simp only [List.length_cons] at hlen
      obtain ⟨z, others, he⟩ := List.exists_cons_of_length_pos (l := (x :: y :: rest).erase a) (by omega)
      obtain ⟨b, hb⟩ := hB.minNode_total hn (x := z) (rest := others) fun m hm => List.mem_of_mem_erase (he ▸ hm)
      have hbm : b ∈ (x :: y :: rest).erase a := he ▸ minNode_mem hb
      obtain ⟨t, ht⟩ := hB.writeInternal_total (hB.lt_of_mem ham) (hB.lt_of_mem (List.mem_of_mem_erase hbm)) hn
      have hmn : t.mn = s.mn := by obtain ⟨-, _, _, -, -, rfl⟩ := writeInternal_ok ht; rfl
      have hlen2 := List.length_erase_add_one hbm
      obtain ⟨u, r, hu, hum, hB'⟩ := ih (hB.merge ham hbm ht)
        (by rw [List.length_append, List.length_singleton]; omega)
        (by rw [List.length_append, List.length_singleton]; omega)
      rw [hmn] at hu hum hB'
      refine ⟨u, r, ?_, hum, hB'⟩
      unfold mergeNodes
      rw [ha, Comp.bind_ok]
      simp only [he] at hu ⊢
      rw [hb, Comp.bind_ok, ht, Comp.bind_ok]
      exact hu

end

end Sys2Proof.Machine
end

section
/-! SUPPORT. `HBLD` completes and leaves a tree that is in order (spec R43, R44, R193), and the searches of a valid tree end
(R192, R198). -/

namespace Sys2Proof.Machine

section
variable {s u : State} {d : Word}

/-! ### `HBLD` -/

/-- The leaves can be written wherever the accessors of their ordinals answer. -/
theorem writeLeaves_total {l : List Nat} (h : ∀ k ∈ l, k < Config.arenaCap ∧ ∃ e, entry s k = .ok e) :
    ∃ t, writeLeaves l s = .ok t := by
  induction l generalizing s with
  | nil => exact ⟨s, rfl⟩
  | cons k ks ih =>
    obtain ⟨hk, e, he⟩ := h k List.mem_cons_self
    unfold writeLeaves
    rw [he, Comp.bind_ok, writeCell_of_lt _ _ hk, Comp.bind_ok, writeCell_of_lt _ _ hk, Comp.bind_ok,
      writeCell_of_lt _ _ hk, Comp.bind_ok]
    exact ih fun j hj => h j (List.mem_cons_of_mem _ hj)

/-- R191: with the leaves written, the merging can begin. -/
theorem writeLeaves_building {t : State} (hm : s.ModelOk) (hf : s.mstate = .frozen)
    (h : writeLeaves (List.range s.mn.toNat) s = .ok t) : t.Building (List.range s.mn.toNat) s.mn.toNat := by
  obtain ⟨-, hleaf, -⟩ := writeLeaves_ok List.nodup_range h
  have hleaves : ∀ j < s.mn.toNat, t.hnLeaf.find j = some true ∧ t.hnOrd.find j = some (BitVec.ofNat 9 j) ∧
      (t.hnFreq.find j).isSome = true ∧ t.freqOf j = s.cntOf j := fun j hj => by
    obtain ⟨h1, h2, e, he, h3⟩ := hleaf j (List.mem_range.2 hj)
    rw [entry_of_lt hm hf hj] at he
    cases he
    refine ⟨h1, h2, by rw [h3]; rfl, ?_⟩
    have h4 := highOf_le_total hm hf hj
    have h5 : s.total < 2 ^ 16 := s.mtotal.isLt
    unfold State.highOf at h4
    rw [freqOf_of_find h3, BitVec.toNat_ofNat]
    exact Nat.mod_eq_of_lt (by simp only; omega)
  have hsum : ((List.range s.mn.toNat).map t.freqOf).sum = s.total := by
    rw [List.map_congr_left fun j hj => by obtain ⟨-, -, -, h⟩ := hleaves j (List.mem_range.1 hj); exact h]
    exact markOf_mn hm hf
  obtain ⟨a, b, c, rfl⟩ := writeLeaves_update h
  obtain ⟨⟨hcap, -⟩, -⟩ := hm
  refine ⟨hcap, List.nodup_range, fun m => ?_, le_rfl, ?_, hsum, hleaves, ?_⟩
  · rw [List.mem_range]
    exact ⟨fun hm => ⟨hm, fun j hj hmj => absurd hj (Nat.not_lt.2 hmj)⟩, And.left⟩
  · rw [List.length_range, Nat.two_mul]
  · exact fun j hj hmj => absurd hj (Nat.not_lt.2 hmj)

/-- A finished arena of `n` nodes, with the registers that `HBLD` sets, is a tree (R43, R44). -/
theorem treeOk_of_building {v : State} {r n : Nat} (hB : v.Building [r] n) (h1 : 1 ≤ v.mn.toNat) :
    State.TreeOk { v with htNn := BitVec.ofNat 10 n, htRoot := BitVec.ofNat 10 (n - 1), htValid := true } := by
  have hcap := hB.cap
  have hcount := hB.count
  unfold Config.aMax at hcap
  rw [List.length_singleton] at hcount
  have hnn : (BitVec.ofNat 10 n).toNat = n := by rw [BitVec.toNat_ofNat]; omega
  have hroot : (BitVec.ofNat 10 (n - 1)).toNat = n - 1 := by rw [BitVec.toNat_ofNat]; omega
  refine fun _ => ⟨by simp only [hnn]; omega, by simp only [hnn, hroot], hB.leaves,
    fun m hm => hB.nodes m (hnn ▸ hm), fun m hm => ?_⟩
  simp only [hroot] at hm
  simp only [hnn]
  have hnot : ¬ v.LiveAt n m := fun h => by
    have hlive := (hB.live_iff m).2 h
    have hlast := hB.last_mem (by omega)
    rw [List.mem_singleton] at hlive hlast
    omega
  by_contra hno
  refine hnot ⟨by omega, fun j hj hmj => ?_⟩
  by_contra hj'
  exact hno ⟨j, hj, hmj, by rwa [not_and_or, not_not, not_not] at hj'⟩

/-- R193: on a consistent frozen model `HBLD` completes and its tree is in order. -/
theorem hbldBody_builds (hm : s.ModelOk) (hf : s.mstate = .frozen) :
    ∃ u, hbldBody s = .ok (0#32, u) ∧ u.TreeOk := by
  have hmn := mn_pos hm hf
  obtain ⟨⟨hcap, -⟩, -⟩ := id hm
  obtain ⟨t, ht⟩ := writeLeaves_total (s := s) (l := List.range s.mn.toNat) fun k hk => by
    have hk := List.mem_range.1 hk
    exact ⟨by unfold Config.aMax at hcap; unfold Config.arenaCap; omega, entry_total hm hf k hk⟩
  have hB := writeLeaves_building hm hf ht
  have htmn : t.mn = s.mn := by obtain ⟨_, _, _, rfl⟩ := writeLeaves_update ht; rfl
  obtain ⟨v, r, hv, hvmn, hB'⟩ := mergeNodes_builds (tests := s.mn.toNat) hB (by simpa using hmn) (by simp)
  rw [htmn] at hv hvmn
  rw [htmn] at hB'
  refine ⟨_, ?_, treeOk_of_building hB' (hvmn ▸ hmn)⟩
  unfold hbldBody
  simp only [ht, Comp.bind_ok, hv]

theorem bodyOf_keeps_tree {i : Instr} (hm : s.ModelOk) (hses : s.SessionOk) (hs : s.TreeOk) (hl : s.Legal i)
    (h : bodyOf i s = .ok (d, u)) : u.TreeOk := by
  have F := bodyOf_frame h
  cases i with
  | srst | mclr => cases h; exact treeOk_of_not_valid rfl
  | mcnt | mload | mfin =>
    have hf : s.mstate ≠ .frozen := by simp only [State.Legal] at hl; tauto
    obtain ⟨hv, -⟩ := F.tree rfl
    exact treeOk_of_not_valid (hv ▸ hses.htValid_eq_false hf)
  | hbld =>
    obtain ⟨v, hv, htree⟩ := hbldBody_builds hm hl.2
    rw [show bodyOf .hbld s = _ from hv] at h
    cases h
    exact htree
  | _ => exact treeOk_congr (F.model rfl) (F.tree rfl) hs

end

theorem treeOk_stepFrame : StepFrame State.TreeOk where
  inbox _ _ h := h
  respond _ _ _ h := h
  reset _ := treeOk_of_not_valid rfl
  faultEntry _ _ _ h := h

/-! ### Searching a valid tree -/

theorem nodes_lt_arenaCap {s : State} {n : Nat} (hn : n < s.htNn.toNat) : n < Config.arenaCap := by
  have := s.htNn.isLt
  unfold Config.arenaCap
  omega

/-- A path goes on to a child of the node it leads to. -/
theorem Leads.trans_step {s : State} {n m : Nat} {p : List Bool} (h : Leads s n p m) {b : Bool} {c : BitVec 10}
    (hm : s.hnLeaf.find m = some false) (hc : (if b then s.hnRight else s.hnLeft).find m = some c) :
    Leads s n (p ++ [b]) c.toNat := by
  induction p generalizing n with
  | nil => cases h; exact ⟨hm, c, hc, rfl⟩
  | cons a p ih =>
    obtain ⟨h1, e, he, h2⟩ := h
    exact ⟨h1, e, he, ih h2⟩

section
variable {s : State} (ht : s.TreeOk) (hv : s.htValid = true)
include ht hv

theorem leafNode_of_lt {n : Nat} (hn : n < s.mn.toNat) : s.LeafNode n := by
  obtain ⟨-, -, h, -⟩ := ht hv
  exact h n hn

theorem internalNode_of_le {n : Nat} (hn : n < s.htNn.toNat) (hmn : s.mn.toNat ≤ n) : s.InternalNode n := by
  obtain ⟨-, -, -, h, -⟩ := ht hv
  exact h n hn hmn

/-- Every node is the leaf of an ordinal, or has a left and a right child below it. -/
theorem node_cases {n : Nat} (hn : n < s.htNn.toNat) :
    (n < s.mn.toNat ∧ s.hnLeaf.find n = some true ∧ s.hnOrd.find n = some (BitVec.ofNat 9 n)) ∨
    (s.hnLeaf.find n = some false ∧ (∃ l : BitVec 10, s.hnLeft.find n = some l ∧ l.toNat < n) ∧
      ∃ r : BitVec 10, s.hnRight.find n = some r ∧ r.toNat < n) := by
  by_cases hmn : n < s.mn.toNat
  · obtain ⟨h1, h2, -⟩ := leafNode_of_lt ht hv hmn
    exact .inl ⟨hmn, h1, h2⟩
  · obtain ⟨h1, h2, h3, -, h4, h5, -⟩ := internalNode_of_le ht hv hn (Nat.le_of_not_lt hmn)
    obtain ⟨l, hl⟩ := Option.isSome_iff_exists.1 h2
    obtain ⟨r, hr⟩ := Option.isSome_iff_exists.1 h3
    rw [leftOf_of_find hl] at h4
    rw [rightOf_of_find hr] at h5
    exact .inr ⟨h1, ⟨l, hl, h4⟩, r, hr, h5⟩

/-- The search ends with a result within the depth of its node. -/
theorem pathTo_total (k : Nat) {depth n : Nat} (hn : n < s.htNn.toNat) (hd : n < depth) :
    ∃ r, pathTo s k depth n = .ok r := by
  have hc := nodes_lt_arenaCap hn
  induction depth generalizing n with
  | zero => omega
  | succ depth ih =>
    unfold pathTo
    rcases node_cases ht hv hn with ⟨-, h1, h2⟩ | ⟨h1, ⟨l, hl, hln⟩, r, hr, hrn⟩
    · rw [readCell_of_find hc h1, Comp.bind_ok, if_pos rfl, readCell_of_find hc h2]
      exact ⟨_, rfl⟩
    · obtain ⟨pl, hpl⟩ := ih (hln.trans hn) (by omega) (hln.trans hc)
      obtain ⟨pr, hpr⟩ := ih (hrn.trans hn) (by omega) (hrn.trans hc)
      rw [readCell_of_find hc h1, Comp.bind_ok, if_neg (by simp), readCell_of_find hc hl, Comp.bind_ok, hpl, Comp.bind_ok]
      cases pl with
      | some p => exact ⟨_, rfl⟩
      | none =>
        simp only [readCell_of_find hc hr, Comp.bind_ok, hpr]
        cases pr <;> exact ⟨_, rfl⟩

/-- A path from a node leads to no node above it. -/
theorem Leads.le {n m : Nat} {p : List Bool} (hn : n < s.htNn.toNat) (h : Leads s n p m) : m ≤ n := by
  induction p generalizing n with
  | nil => exact (show n = m from h).ge
  | cons b p ih =>
    obtain ⟨h1, c, hc, h2⟩ := h
    rcases node_cases ht hv hn with ⟨-, h3, -⟩ | ⟨-, ⟨l, hl, hln⟩, r, hr, hrn⟩
    · rw [h3] at h1; cases h1
    · have hcn : c.toNat < n := by
        cases b
        · rw [show s.hnLeft.find n = _ from hc] at hl; cases hl; exact hln
        · rw [show s.hnRight.find n = _ from hc] at hr; cases hr; exact hrn
      exact (ih (hcn.trans hn) h2).trans hcn.le

theorem htNn_pos (hmn : 1 ≤ s.mn.toNat) : s.htRoot.toNat < s.htNn.toNat := by
  obtain ⟨h1, h2, -⟩ := ht hv
  omega

/-- R44: every node stands under the root. -/
theorem root_leads (hmn : 1 ≤ s.mn.toNat) {n : Nat} (hn : n ≤ s.htRoot.toNat) : ∃ p, Leads s s.htRoot.toNat p n := by
  have hroot := htNn_pos ht hv hmn
  induction hk : s.htRoot.toNat - n using Nat.strong_induction_on generalizing n with
  | _ k ih =>
    rcases Nat.lt_or_eq_of_le hn with hn | rfl
    · obtain ⟨-, -, -, -, hpar⟩ := ht hv
      obtain ⟨m, hm, hmm, hchild⟩ := hpar n hn
      obtain ⟨h1, h2, h3, -, h4, h5, -⟩ := internalNode_of_le ht hv hm hmm
      obtain ⟨hnn, hrt, -⟩ := ht hv
      obtain ⟨p, hp⟩ := ih (s.htRoot.toNat - m) (by omega) (n := m) (by omega) rfl
      rcases hchild with rfl | rfl
      · obtain ⟨l, hl⟩ := Option.isSome_iff_exists.1 h2
        rw [leftOf_of_find hl]
        exact ⟨_, hp.trans_step h1 (b := false) hl⟩
      · obtain ⟨r, hr⟩ := Option.isSome_iff_exists.1 h3
        rw [rightOf_of_find hr]
        exact ⟨_, hp.trans_step h1 (b := true) hr⟩
    · exact ⟨[], rfl⟩

end

/-- A search that finds nothing has seen no path to the leaf of the ordinal. -/
theorem pathTo_none {s : State} {k depth n m : Nat} {p : List Bool} {o : BitVec 9} (h : pathTo s k depth n = .ok none)
    (hp : Leads s n p m) (hm : s.hnLeaf.find m = some true) (ho : s.hnOrd.find m = some o) : o.toNat ≠ k := by
  induction depth generalizing n p with
  | zero => cases h
  | succ depth ih =>
    obtain ⟨leaf, h1, h⟩ := Comp.bind_eq_ok.1 h
    have h1 := (readCell_ok.1 h1).2
    cases leaf with
    | true =>
      obtain ⟨o', h2, h⟩ := Comp.bind_eq_ok.1 h
      have h2 := (readCell_ok.1 h2).2
      cases p with
      | cons b p => obtain ⟨h3, -⟩ := hp; rw [h1] at h3; cases h3
      | nil =>
        obtain rfl : n = m := hp
        rw [h2] at ho
        cases ho
        intro hk
        rw [if_pos hk] at h
        cases h
    | false =>
      obtain ⟨l, h2, h⟩ := Comp.bind_eq_ok.1 h
      obtain ⟨pl, h3, h⟩ := Comp.bind_eq_ok.1 h
      cases pl with
      | some q => cases h
      | none =>
        obtain ⟨r, h4, h⟩ := Comp.bind_eq_ok.1 h
        obtain ⟨pr, h5, h⟩ := Comp.bind_eq_ok.1 h
        cases pr with
        | some q => cases h
        | none =>
          cases p with
          | nil => obtain rfl : n = m := hp; rw [h1] at hm; cases hm
          | cons b p =>
            obtain ⟨-, c, hc, hp⟩ := hp
            cases b with
            | false =>
              cases (show s.hnLeft.find n = _ from hc).symm.trans (readCell_ok.1 h2).2
              exact ih h3 hp
            | true =>
              cases (show s.hnRight.find n = _ from hc).symm.trans (readCell_ok.1 h4).2
              exact ih h5 hp

/-! ### The commands do not stop the model -/

section
variable {s : State} (hm : s.ModelOk) (hf : s.mstate = .frozen) (ht : s.TreeOk) (hv : s.htValid = true)
include hm hf ht hv

/-- Every symbol of the model has a code (R192). -/
theorem code_total {k : Nat} (hk : k < s.mn.toNat) : ∃ bits, code s k = .ok bits := by
  unfold code
  split
  · exact ⟨_, rfl⟩
  · have hmn := mn_pos hm hf
    have hroot := htNn_pos ht hv hmn
    obtain ⟨hnn, hrt, -⟩ := ht hv
    obtain ⟨r, hr⟩ := pathTo_total ht hv k hroot hroot
    rw [hr, Comp.bind_ok]
    cases r with
    | some p => exact ⟨p, rfl⟩
    | none =>
      obtain ⟨p, hp⟩ := root_leads ht hv hmn (n := k) (by omega)
      obtain ⟨h1, h2, -⟩ := leafNode_of_lt ht hv hk
      refine absurd ?_ (pathTo_none hr hp h1 h2)
      obtain ⟨⟨hcap, -⟩, -⟩ := hm
      unfold Config.aMax at hcap
      rw [BitVec.toNat_ofNat]
      omega

omit hm hf in
theorem walk_runs (hin : s.InputOk) {left n bp : Nat} (hn : n < s.htNn.toNat) : (walk s left n bp).Runs := by
  induction left generalizing n bp with
  | zero =>
    unfold walk
    rcases node_cases ht hv hn with ⟨-, h1, -⟩ | ⟨h1, -⟩ <;> rw [readCell_of_find (nodes_lt_arenaCap hn) h1, Comp.bind_ok]
    · exact .ok _
    · exact .raised _
  | succ left ih =>
    unfold walk
    rcases node_cases ht hv hn with ⟨-, h1, -⟩ | ⟨h1, ⟨l, hl, hln⟩, r, hr, hrn⟩ <;>
      rw [readCell_of_find (nodes_lt_arenaCap hn) h1, Comp.bind_ok]
    · exact .ok _
    · refine (Comp.runs_of_total (getBit_total hin bp)).bind fun b _ => ?_
      cases b with
      | false => rw [if_neg (by simp), readCell_of_find (nodes_lt_arenaCap hn) hl]; exact ih (hln.trans hn)
      | true => rw [if_pos rfl, readCell_of_find (nodes_lt_arenaCap hn) hr]; exact ih (hrn.trans hn)

theorem decodePath_runs (hin : s.InputOk) : (decodePath s).Runs := by
  have hroot := htNn_pos ht hv (mn_pos hm hf)
  unfold decodePath
  rcases node_cases ht hv hroot with ⟨-, h1, -⟩ | ⟨h1, -⟩ <;>
    simp only [readCell_of_find (nodes_lt_arenaCap hroot) h1, Comp.bind_ok]
  · exact (raiseIf_runs _ _).bind fun _ _ => (Comp.runs_of_total (getBit_total hin _)).bind fun b _ =>
      (raiseIf_runs _ _).bind fun _ _ => .ok _
  · exact walk_runs ht hv hin hroot

/-- R198: `HD` ends at the leaf of an ordinal. -/
theorem decodePath_leaf {n bp : Nat} (h : decodePath s = .ok (n, bp)) :
    n < s.mn.toNat ∧ s.hnOrd.find n = some (BitVec.ofNat 9 n) := by
  have hroot := htNn_pos ht hv (mn_pos hm hf)
  have key : ∀ {m : Nat}, m < s.htNn.toNat → s.hnLeaf.find m = some true →
      m < s.mn.toNat ∧ s.hnOrd.find m = some (BitVec.ofNat 9 m) := fun hlt hl => by
    rcases node_cases ht hv hlt with ⟨h1, -, h2⟩ | ⟨h1, -⟩
    · exact ⟨h1, h2⟩
    · rw [hl] at h1; cases h1
  obtain ⟨leaf, h1, h⟩ := Comp.bind_eq_ok.1 h
  have h1 := (readCell_ok.1 h1).2
  cases leaf with
  | true =>
    obtain ⟨_, -, h⟩ := Comp.bind_eq_ok.1 h
    obtain ⟨b, -, h⟩ := Comp.bind_eq_ok.1 h
    obtain ⟨_, -, h⟩ := Comp.bind_eq_ok.1 h
    cases h
    exact key hroot h1
  | false =>
    obtain ⟨h2, p, hp, -⟩ := walk_ok h
    exact key (lt_of_le_of_lt (Leads.le ht hv hroot hp) hroot) h2

theorem heBody_runs (ho : s.OutputOk) (sym : BitVec 16) : (heBody sym s).Runs := by
  refine (ordinal_runs hm hf sym).bind fun e he => ?_
  obtain ⟨k, hk, rfl, -⟩ := ordinal_eq hm hf he
  exact (Comp.runs_of_total (code_total hm hf ht hv hk)).bind fun bits _ => checked_putBits_runs ho _ _

theorem hdBody_runs (hin : s.InputOk) : (hdBody s).Runs := by
  refine (decodePath_runs hm hf ht hv hin).bind fun nb hnb => ?_
  obtain ⟨h1, h2⟩ := decodePath_leaf hm hf ht hv (show decodePath s = .ok (nb.1, nb.2) from hnb)
  obtain ⟨⟨hcap, -⟩, -⟩ := id hm
  unfold Config.aMax at hcap
  rw [readCell_of_find (by unfold Config.arenaCap; omega) h2, Comp.bind_ok, BitVec.toNat_ofNat,
    Nat.mod_eq_of_lt (by omega), entry_of_lt hm hf h1]
  exact .ok _

end

end Sys2Proof.Machine
end

section
/-! SUPPORT. From every state that meets the invariants a step answers a next state that meets them (obligation O19): no body
of a legal command stops the model, and every body keeps every invariant. -/

namespace Sys2Proof.Machine

variable {s : State}

/-! ### The table and stream commands do not stop the model -/

theorem findSlot_total (hs : s.TableOk) (sym : BitVec 16) {l : List Nat} (hl : ∀ i ∈ l, i < s.mn.toNat) :
    ∃ r, findSlot s sym l = .ok r := by
  obtain ⟨hcap, -, -, hslot, -⟩ := id hs
  induction l with
  | nil => exact ⟨none, rfl⟩
  | cons i is ih =>
    have hi := hl i List.mem_cons_self
    obtain ⟨hsym, -⟩ := hslot i hi
    obtain ⟨v, hv⟩ := Option.isSome_iff_exists.1 hsym
    obtain ⟨r, hr⟩ := ih fun j hj => hl j (List.mem_cons_of_mem _ hj)
    by_cases h : v = sym
    · exact ⟨some i, findSlot_cons_ok.2 ⟨v, ⟨by omega, hv⟩, .inl ⟨h, rfl⟩⟩⟩
    · exact ⟨r, findSlot_cons_ok.2 ⟨v, ⟨by omega, hv⟩, .inr ⟨h, hr⟩⟩⟩

theorem addCount_runs (hs : s.TableOk) (sym : BitVec 16) (n : Nat) : (addCount sym n s).Runs := by
  obtain ⟨hcap, -, -, hslot, -⟩ := id hs
  refine (raiseIf_runs _ _).bind fun _ _ => ?_
  refine (Comp.runs_of_total (findSlot_total hs sym fun i => List.mem_range.1)).bind fun r hr => ?_
  cases r with
  | some i =>
    obtain ⟨hi, hlt, -⟩ := findSlot_some hr
    obtain ⟨-, hcnt, -⟩ := hslot i (List.mem_range.1 hi)
    obtain ⟨c, hc⟩ := Option.isSome_iff_exists.1 hcnt
    simp only [readCell_of_find hlt hc, writeCell_of_lt _ _ hlt, Comp.bind_ok]
    exact .ok _
  | none =>
    refine (raiseIf_runs _ _).bind fun _ h => ?_
    have hlt : s.mn.toNat < Config.aMax := lt_of_le_of_ne hcap (raiseIf_ok.1 h)
    simp only [writeCell_of_lt _ _ hlt, Comp.bind_ok]
    exact .ok _

theorem readSlots_total (hs : s.TableOk) {l : List Nat} (hl : ∀ i ∈ l, i < s.mn.toNat) :
    ∃ r, readSlots s l = .ok r := by
  obtain ⟨hcap, -, -, hslot, -⟩ := id hs
  induction l with
  | nil => exact ⟨[], rfl⟩
  | cons i is ih =>
    have hi := hl i List.mem_cons_self
    obtain ⟨hsym, hcnt, -⟩ := hslot i hi
    obtain ⟨sym, hsym⟩ := Option.isSome_iff_exists.1 hsym
    obtain ⟨cnt, hcnt⟩ := Option.isSome_iff_exists.1 hcnt
    obtain ⟨r, hr⟩ := ih fun j hj => hl j (List.mem_cons_of_mem _ hj)
    exact ⟨_, readSlots_cons_ok.2 ⟨sym, cnt, r, ⟨by omega, hsym⟩, ⟨by omega, hcnt⟩, hr, rfl⟩⟩

theorem mfinBody_runs (hs : s.TableOk) (o : OrdMode) : (mfinBody o s).Runs := by
  refine (raiseIf_runs _ _).bind fun _ _ => ?_
  refine (Comp.runs_of_total (readSlots_total hs fun i => List.mem_range.1)).bind fun slots hread => ?_
  obtain ⟨-, hlen, -⟩ := readSlots_table hs hread
  have hcap : 0 + (sortSlots o slots).length ≤ Config.aMax := by
    rw [Nat.zero_add, (sortSlots_perm o slots).length_eq, hlen]; exact hs.1
  exact (Comp.runs_of_total (writeCdf_total hcap)).bind fun t _ => .ok _

theorem ipushBody_runs (hs : s.InputOk) (byte : Byte) : (ipushBody byte s).Runs := by
  refine (raiseIf_runs _ _).bind fun _ h => ?_
  have hlt : s.ilen.toNat < Config.bufCap := lt_of_le_of_ne hs.1 (raiseIf_ok.1 h)
  rw [writeCell_of_lt _ _ hlt]
  exact .ok _

theorem outByte_total (hs : s.OutputOk) {i : Nat} (hi : i < s.olen) :
    i < Config.bufCap ∧ (s.obuf.find i).isSome = true := by
  obtain ⟨h1, -, h3, -⟩ := hs
  exact ⟨by unfold State.olen at hi; omega, h3 i hi⟩

theorem oreadBody_runs (hs : s.OutputOk) (hl : s.ordp.toNat < s.olen) : (oreadBody s).Runs := by
  obtain ⟨hi, hsome⟩ := outByte_total hs hl
  obtain ⟨v, hv⟩ := Option.isSome_iff_exists.1 hsome
  exact (Comp.runs_of_total ⟨v, outByte_ok.2 ⟨hi, hv⟩⟩).bind fun v _ => .ok _

theorem xferBody_runs (hs : s.OutputOk) : (xferBody s).Runs :=
  (Comp.runs_of_total (copyOut_total fun _ hi => outByte_total hs (List.mem_range.1 hi))).bind fun _ _ => .ok _

/-! ### Every command -/

theorem State.Inv.frozen_of_open (h : s.Inv) (h1 : s.sess ≠ .idle) (h2 : s.sess ≠ .fault) : s.mstate = .frozen := by
  obtain ⟨-, -, -, -, -, ⟨hf, -⟩, -⟩ := h
  exact hf h1 h2

theorem State.Inv.htValid_of_huffman (h : s.Inv) (hs : s.sess = .hfEnc ∨ s.sess = .hfDec) : s.htValid = true := by
  obtain ⟨-, -, -, -, -, ⟨-, hv, -⟩, -⟩ := h
  exact hv hs

/-- No legal command stops the model in a state that meets the invariants. -/
theorem bodyOf_runs {i : Instr} (h : s.Inv) (hl : s.Legal i) : (bodyOf i s).Runs := by
  have hfrozen := h.frozen_of_open
  have htree := h.htValid_of_huffman
  obtain ⟨-, -, hout, hin, hmodel, -, hrange, hrans, htok⟩ := h
  cases i with
  | nop | srst | eclr | rdcsr | arg | mclr | mtot | iclr | itrim | orwd | rcei | rcdf | raei | radf | hei | hef | hdi | hdf =>
    exact .ok _
  | mcnt | mload => exact (addCount_runs hmodel.1 _ _).bind fun _ _ => .ok _
  | mfin => exact mfinBody_runs hmodel.1 _
  | mivl => exact (ordinal_runs hmodel hl _).bind fun _ _ => .ok _
  | msat => exact (symbolAt_runs hmodel hl _).bind fun _ _ => .ok _
  | ipush => exact ipushBody_runs hin _
  | oread => exact oreadBody_runs hout hl
  | xfer => exact xferBody_runs hout
  | rce =>
    have hl : s.sess = .rcEnc := hl
    exact rceBody_runs _ hout hmodel (hfrozen (by simp [hl]) (by simp [hl])) (hrange.1 (.inl hl))
  | rcef => exact checked_putBits_runs hout _ _
  | rcdi => exact (Comp.runs_of_total (loadWindow_total hin _ _)).bind fun _ _ => .ok _
  | rcd =>
    have hl : s.sess = .rcDec := hl
    exact rcdBody_runs hin hmodel (hfrozen (by simp [hl]) (by simp [hl])) (hrange.1 (.inr hl))
  | rae =>
    have hl : s.sess = .raEnc := hl
    exact raeBody_runs _ hmodel (hfrozen (by simp [hl]) (by simp [hl])) (hrans hl).1
  | raef => exact raefBody_runs (hrans hl).1
  | radi => exact (raiseIf_runs _ _).bind fun _ _ => (loadBack_runs hin _ _ le_rfl).bind fun _ _ => .ok _
  | rad =>
    have hl : s.sess = .raDec := hl
    exact (ransRefill_runs hin).bind fun _ _ =>
      (symbolAt_runs hmodel (hfrozen (by simp [hl]) (by simp [hl])) _).bind fun _ _ => .ok _
  | hbld =>
    obtain ⟨u, hu, -⟩ := hbldBody_builds hmodel hl.2
    exact Comp.runs_of_total ⟨_, hu⟩
  | he =>
    have hl : s.sess = .hfEnc := hl
    exact heBody_runs hmodel (hfrozen (by simp [hl]) (by simp [hl])) htok (htree (.inl hl)) hout _
  | hd =>
    have hl : s.sess = .hfDec := hl
    exact hdBody_runs hmodel (hfrozen (by simp [hl]) (by simp [hl])) htok (htree (.inr hl)) hin

theorem bodyOf_keeps_inv {i : Instr} {u : State} {d : Word} (h : s.Inv) (hl : s.Legal i)
    (hb : bodyOf i s = .ok (d, u)) : u.Inv := by
  obtain ⟨hlatch, hspaces, hout, hin, hmodel, hsess, hrange, hrans, htree⟩ := h
  exact ⟨bodyOf_keeps_latch hlatch hl hb, bodyOf_keeps_spaces hspaces hb, bodyOf_keeps_output hout hl hb,
    bodyOf_keeps_input hout hin hl hb, bodyOf_keeps_model hmodel hl hb, bodyOf_keeps_sessions hsess hl hb,
    bodyOf_keeps_range hmodel hsess hrange hl hb, bodyOf_keeps_rans hmodel hsess hrans hl hb,
    bodyOf_keeps_tree hmodel hsess htree hl hb⟩

theorem inv_stepFrame : StepFrame State.Inv :=
  errLatched_stepFrame.and <| spacesOk_stepFrame.and <| outputOk_stepFrame.and <| inputOk_stepFrame.and <|
    modelOk_stepFrame.and <| sessionOk_stepFrame.and <| rangeOk_stepFrame.and <| ransOk_stepFrame.and treeOk_stepFrame

/-- Every command answers a next state where the invariants hold. -/
theorem State.Inv.exec_next (h : s.Inv) (i : Instr) : ∃ t, exec i s = .next t := exec_total fun hl => bodyOf_runs h hl

/-- Every step from a state that meets the invariants leads to one that meets them. -/
theorem State.Inv.step {t : State} (h : s.Inv) (hs : step s = .next t) : t.Inv :=
  inv_stepFrame.step (fun _ _ _ _ h hl hb => bodyOf_keeps_inv h hl hb) h hs

/-- Settles O19: progress, because no body stops the model, and preservation, because every body keeps the invariants. -/
theorem invariantStateAlwaysSteps : Obligations.InvariantStateAlwaysSteps := by
  intro s h
  obtain ⟨t, ht⟩ := step_total fun i rest => (inv_stepFrame.inbox s rest h).exec_next i
  exact ⟨t, ht, h.step ht⟩

end Sys2Proof.Machine
end

section
/-! SUPPORT. The storage spaces (spec R60, obligation O16), and `PutByte` as the eight `PutBit` calls of its bits (R61, R66,
R67, obligation O27): each call extends by one the leading bits that the open byte holds. -/

namespace Sys2Proof.Machine

/-- Settles O16: no command's body leaves a space out of order, and the events around it write no cell. -/
theorem stepKeepsSpaces : Obligations.StepKeepsSpaces := fun _ _ hs h =>
  spacesOk_stepFrame.step (fun _ _ _ _ hs _ hb => bodyOf_keeps_spaces hs hb) hs h

/-! ### The leading bits of a byte -/

/-- The first `n` bits of a byte in stream order, most significant first (R61), with zeros after them. -/
def leadingBits (v : Byte) (n : Nat) : Byte := (v >>> (8 - n)) <<< (8 - n)

theorem getLsbD_leadingBits (v : Byte) (n : Nat) {q : Nat} (hq : q < 8) :
    (leadingBits v n).getLsbD q = (decide (8 - n ≤ q) && v.getLsbD q) := by
  unfold leadingBits
  rw [BitVec.getLsbD_shiftLeft, BitVec.getLsbD_ushiftRight]
  by_cases h : 8 - n ≤ q
  · simp [hq, h, Nat.not_lt.2 h, Nat.add_sub_cancel' h]
  · simp [h, Nat.lt_of_not_le h]

@[simp] theorem leadingBits_zero (v : Byte) : leadingBits v 0 = 0#8 :=
  BitVec.eq_of_getLsbD_eq fun q hq => by rw [getLsbD_leadingBits v 0 hq]; simp [hq]

@[simp] theorem leadingBits_eight (v : Byte) : leadingBits v 8 = v :=
  BitVec.eq_of_getLsbD_eq fun q hq => by simp [getLsbD_leadingBits v 8 hq]

/-- Setting the next bit makes the leading bits one longer. -/
theorem setBit_leadingBits (v : Byte) {n : Nat} (hn : n < 8) :
    setBit (leadingBits v n) (7 - n) (v.getLsbD (7 - n)) = leadingBits v (n + 1) := by
  refine BitVec.eq_of_getLsbD_eq fun q hq => ?_
  rw [getLsbD_setBit _ _ _ _ (by omega) hq, getLsbD_leadingBits v n hq, getLsbD_leadingBits v (n + 1) hq]
  by_cases h : q = 7 - n
  · simp [h]
  · have hiff : 8 - n ≤ q ↔ 8 - (n + 1) ≤ q := by omega
    simp [h, hiff]

/-! ### The calls of `PutBit` within one byte -/

variable {s : State} {v : Byte} {n : Nat}

/-- The effect of `PutBit`, given the byte that the bit goes into. -/
theorem putBit_of_openByte {b : Bool} {old : Byte} (hi : s.obitlen.toNat / 8 < Config.bufCap) (ho : openByte s = .ok old) :
    putBit b s = .ok { s with
      obuf := s.obuf.put (s.obitlen.toNat / 8) (setBit old (7 - s.obitlen.toNat % 8) b),
      obitlen := s.obitlen + 1#32 } := by
  simp only [putBit, ho, writeCell_of_lt _ _ hi, Comp.bind_ok]

/-- The state `s` once the first `n` bits of `v` stand in the byte at `OBITLEN / 8`. -/
def State.withLeadingBits (s : State) (v : Byte) (n : Nat) : State :=
  { s with obuf := s.obuf.put (s.obitlen.toNat / 8) (leadingBits v n), obitlen := s.obitlen + BitVec.ofNat 32 n }

/-- All eight bits are what `PutByte` writes. -/
theorem putByte_eq_withLeadingBits (h0 : s.obitlen.toNat % 8 = 0) (hi : s.obitlen.toNat / 8 < Config.bufCap) :
    putByte v s = .ok (s.withLeadingBits v 8) :=
  putByte_ok.2 ⟨h0, hi, by rw [State.withLeadingBits, leadingBits_eight]⟩

theorem State.withLeadingBits_obitlen (hr : s.obitlen.toNat + n ≤ 8 * Config.bufCap) :
    (s.withLeadingBits v n).obitlen.toNat = s.obitlen.toNat + n := obitlen_add rfl hr

/-- The first bit opens a new byte. -/
theorem putBit_first (h0 : s.obitlen.toNat % 8 = 0) (hi : s.obitlen.toNat / 8 < Config.bufCap) :
    putBit (v.getLsbD 7) s = .ok (s.withLeadingBits v 1) := by
  have ho : openByte s = .ok (leadingBits v 0) := openByte_ok.2 (.inl ⟨h0, leadingBits_zero v⟩)
  rw [putBit_of_openByte hi ho, h0, setBit_leadingBits v (by decide)]
  rfl

/-- Each later bit goes into the byte that the bits before it opened. -/
theorem putBit_withLeadingBits (h0 : s.obitlen.toNat % 8 = 0) (hr : s.obitlen.toNat + 8 ≤ 8 * Config.bufCap)
    (hpos : 0 < n) (hn : n < 8) :
    putBit (v.getLsbD (7 - n)) (s.withLeadingBits v n) = .ok (s.withLeadingBits v (n + 1)) := by
  have hlen := State.withLeadingBits_obitlen (s := s) (v := v) (n := n) (by omega)
  have hdiv : (s.withLeadingBits v n).obitlen.toNat / 8 = s.obitlen.toNat / 8 := by omega
  have hmod : (s.withLeadingBits v n).obitlen.toNat % 8 = n := by omega
  have ho : openByte (s.withLeadingBits v n) = .ok (leadingBits v n) :=
    openByte_ok.2 (.inr ⟨by omega, by omega, by rw [hdiv]; exact Cells.find_put_same _ _ _⟩)
  rw [putBit_of_openByte (by omega) ho, hdiv, hmod, setBit_leadingBits v hn]
  simp only [State.withLeadingBits, Cells.put_put_same, BitVec.ofNat_add, BitVec.add_assoc]

/-- The first bits of a byte, one `PutBit` call each, from a byte boundary. -/
theorem putBits_withLeadingBits (h0 : s.obitlen.toNat % 8 = 0) (hr : s.obitlen.toNat + 8 ≤ 8 * Config.bufCap)
    (hn : n < 8) :
    putBits ((List.range (n + 1)).map fun j => v.getLsbD (7 - j)) s = .ok (s.withLeadingBits v (n + 1)) := by
  induction n with
  | zero => exact putBits_cons_ok.2 ⟨_, putBit_first h0 (by omega), rfl⟩
  | succ n ih =>
    rw [List.range_succ, List.map_append]
    have hnext := putBit_withLeadingBits (v := v) h0 hr n.succ_pos hn
    exact putBits_append_ok.2 ⟨_, ih (by omega), putBits_cons_ok.2 ⟨_, hnext, rfl⟩⟩

/-- Settles O27: after eight calls the leading bits are the whole byte. -/
theorem putByteIsEightPutBits : Obligations.PutByteIsEightPutBits := by
  intro s v h0 hr
  refine ⟨s.withLeadingBits v 8, putByte_eq_withLeadingBits h0 (by omega), rfl, ?_, fun a ha => ?_,
    putBits_withLeadingBits h0 hr (by decide)⟩
  · rw [State.withLeadingBits, leadingBits_eight]
    exact Cells.find_put_same _ _ _
  · exact Cells.find_put_other _ _ ha

end Sys2Proof.Machine
end

section
/-! SUPPORT. The decoder and the encoder of the command word are inverse to each other (spec R90 to R95, obligations O1 and
O2): an operand field of 16 bits holds an operand of `n` bits when its higher bits are 0, and the decoder, the encoder and
the masks of R91 all ask that. -/

namespace Sys2Proof

/-! ### Operands in the operand field -/

/-- The operand field `a` holds an operand of `n` bits, and its other bits are 0 (R91). -/
def Holds (n : Nat) (a : BitVec 16) : Prop := ∃ b : BitVec n, b.setWidth 16 = a

theorem holds_iff_lt {n : Nat} (hn : n ≤ 16) {a : BitVec 16} : Holds n a ↔ a.toNat < 2 ^ n := by
  constructor
  · rintro ⟨b, rfl⟩
    rw [BitVec.toNat_setWidth_of_le hn]
    exact b.isLt
  · intro h
    refine ⟨a.setWidth n, BitVec.eq_of_toNat_eq ?_⟩
    rw [BitVec.toNat_setWidth_of_le hn, BitVec.toNat_setWidth, Nat.mod_eq_of_lt h]

/-- The decoder's check: the bits from `n` up are 0. -/
theorem extractLsb'_high_eq_zero_iff {n : Nat} (hn : n ≤ 16) {a : BitVec 16} :
    a.extractLsb' n (16 - n) = 0#(16 - n) ↔ Holds n a := by
  have ha : a.toNat < 2 ^ n * 2 ^ (16 - n) := by
    rw [← Nat.pow_add, Nat.add_sub_cancel' hn]
    exact a.isLt
  rw [holds_iff_lt hn, ← BitVec.toNat_inj, BitVec.extractLsb'_toNat, Nat.shiftRight_eq_div_pow, BitVec.toNat_ofNat,
    Nat.zero_mod, Nat.mod_eq_of_lt (Nat.div_lt_of_lt_mul ha), Nat.div_eq_zero_iff]
  simp

/-- The mask's check: the bits from `n` up are 0. -/
theorem and_highMask_eq_zero_iff {n : Nat} (hn : n ≤ 16) {a : BitVec 16} :
    a &&& (BitVec.allOnes 16 <<< n) = 0#16 ↔ Holds n a := by
  rw [← extractLsb'_high_eq_zero_iff hn]
  simp only [BitVec.eq_of_getLsbD_eq_iff, BitVec.getLsbD_and, BitVec.getLsbD_shiftLeft, BitVec.getLsbD_allOnes,
    BitVec.getLsbD_extractLsb', BitVec.getLsbD_zero]
  constructor
  · intro h i hi
    simpa [hi, show n + i < 16 by omega, show i < 16 by omega] using h (n + i) (by omega)
  · intro h i hi
    by_cases hin : i < n
    · simp [hin]
    · simpa [hi, hin, show i - n < 16 - n by omega, show n + (i - n) = i by omega, show i - n < 16 by omega] using
        h (i - n) (by omega)

theorem extractLsb'_low_setWidth {n : Nat} (hn : n ≤ 16) (b : BitVec n) : (b.setWidth 16).extractLsb' 0 n = b := by
  rw [BitVec.extractLsb'_setWidth_of_le (by omega), BitVec.extractLsb'_eq_self]

/-- What each format with an operand narrower than the field accepts. -/
theorem decodeOperand_ok {n : Nat} (hn : n ≤ 16) {a : BitVec 16} {f : BitVec n → Instr} {i : Instr} :
    (if a.extractLsb' n (16 - n) = 0#(16 - n) then .ok (f (a.extractLsb' 0 n)) else .error .operandBitsNotZero :
      Except IllFormed Instr) = .ok i ↔ ∃ b : BitVec n, b.setWidth 16 = a ∧ f b = i := by
  split
  · next h =>
    obtain ⟨b, rfl⟩ := (extractLsb'_high_eq_zero_iff hn).1 h
    rw [extractLsb'_low_setWidth hn, Except.ok.injEq]
    refine ⟨fun h => ⟨b, rfl, h⟩, ?_⟩
    rintro ⟨c, hc, rfl⟩
    rw [← extractLsb'_low_setWidth hn b, ← hc, extractLsb'_low_setWidth hn c]
  · next h =>
    refine ⟨nofun, ?_⟩
    rintro ⟨b, hb, -⟩
    exact absurd ((extractLsb'_high_eq_zero_iff hn).2 ⟨b, hb⟩) h

/-! ### The formats of R91 -/

section

variable {a : BitVec 16} {i : Instr}

theorem fmtN_ok {j : Instr} : fmtN a j = .ok i ↔ a = 0#16 ∧ j = i := by
  unfold fmtN
  split <;> simp_all

theorem fmtB_ok {f : BitVec 8 → Instr} : fmtB a f = .ok i ↔ ∃ b : BitVec 8, b.setWidth 16 = a ∧ f b = i :=
  decodeOperand_ok (n := 8) (by decide)

theorem fmtT_ok {f : BitVec 3 → Instr} : fmtT a f = .ok i ↔ ∃ b : BitVec 3, b.setWidth 16 = a ∧ f b = i :=
  decodeOperand_ok (n := 3) (by decide)

theorem fmtO_ok {f : OrdMode → Instr} : fmtO a f = .ok i ↔ ∃ o, (ordBits o).setWidth 16 = a ∧ f o = i := by
  refine (decodeOperand_ok (n := 2) (f := fun b => f (ordOfBits b)) (by decide)).trans ⟨?_, ?_⟩
  · rintro ⟨b, rfl, rfl⟩
    exact ⟨ordOfBits b, by rw [ordBits_ordOfBits], rfl⟩
  · rintro ⟨o, rfl, rfl⟩
    exact ⟨ordBits o, rfl, by rw [ordOfBits_ordBits]⟩

theorem fmtM_ok {f : RaMode → Instr} : fmtM a f = .ok i ↔ ∃ m, (modeBits m).setWidth 16 = a ∧ f m = i := by
  refine (decodeOperand_ok (n := 1) (f := fun b => f (modeOfBits b)) (by decide)).trans ⟨?_, ?_⟩
  · rintro ⟨b, rfl, rfl⟩
    exact ⟨modeOfBits b, by rw [modeBits_modeOfBits], rfl⟩
  · rintro ⟨m, rfl, rfl⟩
    exact ⟨modeBits m, rfl, by rw [modeOfBits_modeBits]⟩

/-! ### The opcode map of R93 -/

/-- A command's own opcode and operand field select it. -/
theorem decodeOp_opcode (i : Instr) : decodeOp (opcode i).toNat (operandField i) = .ok i := by
  cases i with
  | arg | mcnt | mload | mivl | msat | rce | rae | he => rfl
  | rdcsr b | ipush b => exact fmtB_ok.2 ⟨b, rfl, rfl⟩
  | itrim p => exact fmtT_ok.2 ⟨p, rfl, rfl⟩
  | mfin o => exact fmtO_ok.2 ⟨o, rfl, rfl⟩
  | raei m | radi m => exact fmtM_ok.2 ⟨m, rfl, rfl⟩
  | _ => exact fmtN_ok.2 ⟨rfl, rfl⟩

/-- The fields that select a command are its own: the opcode, and the operand field with no bit dropped. The cases are the
rows of R93 by number: the reserved opcodes, then formats `S` and `U`, `B`, `T`, `O`, `M`, and the others, which are `N`. -/
theorem fields_of_decodeOp {op : Nat} (h : decodeOp op a = .ok i) : (opcode i).toNat = op ∧ operandField i = a := by
  unfold decodeOp at h
  split at h
  case h_38 => cases h
  case h_5 | h_7 | h_8 | h_11 | h_12 | h_20 | h_26 | h_33 => cases h; exact ⟨rfl, rfl⟩
  case h_4 | h_14 => obtain ⟨b, rfl, rfl⟩ := fmtB_ok.1 h; exact ⟨rfl, rfl⟩
  case h_15 => obtain ⟨p, rfl, rfl⟩ := fmtT_ok.1 h; exact ⟨rfl, rfl⟩
  case h_9 => obtain ⟨o, rfl, rfl⟩ := fmtO_ok.1 h; exact ⟨rfl, rfl⟩
  case h_25 | h_28 => obtain ⟨m, rfl, rfl⟩ := fmtM_ok.1 h; exact ⟨rfl, rfl⟩
  all_goals obtain ⟨rfl, rfl⟩ := fmtN_ok.1 h; exact ⟨rfl, rfl⟩

end

/-! ### Decoding and encoding -/

/-- Settles O1: the fields of the word are the command's own. -/
theorem decodeOfEncodeIsTheCommand : Obligations.DecodeOfEncodeIsTheCommand := by
  intro i
  rw [encode, decode, rsvField_mkWord, if_pos rfl, opField_mkWord, argField_mkWord]
  exact decodeOp_opcode i

/-- A word selects a command exactly when it is that command's word. -/
theorem decode_ok_iff {w : Word} {i : Instr} : decode w = .ok i ↔ encode i = w := by
  refine ⟨fun h => ?_, ?_⟩
  · unfold decode at h
    split at h
    · next hr =>
      obtain ⟨hop, harg⟩ := fields_of_decodeOp h
      rw [encode, BitVec.eq_of_toNat_eq hop, harg]
      exact (eq_mkWord_of_rsv hr).symm
    · cases h
  · rintro rfl
    exact decodeOfEncodeIsTheCommand i

/-! ### Well-formed words -/

/-- The width of each format's operand (R91). -/
def Format.width : Format → Nat
  | .n => 0
  | .s | .u => 16
  | .b => 8
  | .t => 3
  | .o => 2
  | .m => 1

theorem Format.width_le (f : Format) : f.width ≤ 16 := by cases f <;> decide

/-- A format's mask keeps the opcode, the reserved byte and the operand bits that must be 0. -/
theorem Format.mask_eq (f : Format) :
    f.mask = BitVec.allOnes 8 ++ BitVec.allOnes 8 ++ (BitVec.allOnes 16 <<< f.width) := by
  cases f <;> rfl

/-- A word is its three fields (R90). -/
theorem eq_fields (w : Word) : w = opField w ++ rsvField w ++ argField w := by
  rw [opField, rsvField, BitVec.extractLsb'_append_extractLsb'_eq_extractLsb' (start₁ := 16) (len₁ := 8) rfl, argField]
  exact (BitVec.extractLsb'_append_extractLsb' (w := 16) (len := 16)).symm

theorem opField_toNat (w : Word) : (opField w).toNat = (w >>> 24).toNat := by
  rw [opField, BitVec.extractLsb'_toNat, BitVec.toNat_ushiftRight, Nat.shiftRight_eq_div_pow]
  exact Nat.mod_eq_of_lt (by omega)

/-- The word that the masked word is compared with. -/
theorem shiftRight_shiftLeft_eq_mkWord (w : Word) : (w >>> 24) <<< 24 = mkWord (opField w) 0#16 := by
  refine BitVec.eq_of_getLsbD_eq fun i hi => ?_
  rw [getLsbD_mkWord, opField, BitVec.getLsbD_extractLsb', BitVec.getLsbD_shiftLeft, BitVec.getLsbD_ushiftRight]
  by_cases h : i < 24
  · simp [h]
  · simp [h, hi, show ¬ i < 16 by omega, show i - 24 < 8 by omega]

/-- Under its format's mask a word equals its opcode alone when the reserved byte is 0 and the operand field holds the
format's operand. -/
theorem and_mask_eq_iff {w : Word} {f : Format} :
    w &&& f.mask = (w >>> 24) <<< 24 ↔ rsvField w = 0#8 ∧ Holds f.width (argField w) := by
  have hl : w &&& f.mask = opField w ++ rsvField w ++ (argField w &&& BitVec.allOnes 16 <<< f.width) := by
    conv_lhs => rw [eq_fields w]
    rw [f.mask_eq, BitVec.and_append, BitVec.and_append, BitVec.and_allOnes, BitVec.and_allOnes]
  rw [hl, shiftRight_shiftLeft_eq_mkWord, mkWord, ← and_highMask_eq_zero_iff f.width_le]
  constructor
  · intro h
    have ha := congrArg (BitVec.extractLsb' 0 16) h
    rw [BitVec.extractLsb'_append_eq_right, BitVec.extractLsb'_append_eq_right] at ha
    rw [ha, BitVec.append_left_inj, BitVec.append_right_inj] at h
    exact ⟨h, ha⟩
  · rintro ⟨hr, ha⟩
    rw [hr, ha]

/-- Well-formedness said of the three fields of a word. -/
theorem wellFormedWord_iff {w : Word} :
    wellFormedWord w = true ↔
      rsvField w = 0#8 ∧ ∃ f, formatOf (opField w).toNat = some f ∧ Holds f.width (argField w) := by
  rw [wellFormedWord, opField_toNat]
  split
  · next h => rw [h]; simp
  · next f h =>
    rw [h, beq_iff_eq, and_mask_eq_iff]
    simp

/-- The opcode of a command is in the table, and its operand field holds an operand of the format. -/
theorem formatOf_opcode (i : Instr) : ∃ f, formatOf (opcode i).toNat = some f ∧ Holds f.width (operandField i) := by
  cases i with
  | arg a | msat a => exact ⟨.u, rfl, a, rfl⟩
  | mcnt a | mload a | mivl a | rce a | rae a | he a => exact ⟨.s, rfl, a, rfl⟩
  | rdcsr b | ipush b => exact ⟨.b, rfl, b, rfl⟩
  | itrim p => exact ⟨.t, rfl, p, rfl⟩
  | mfin o => exact ⟨.o, rfl, ordBits o, rfl⟩
  | raei m | radi m => exact ⟨.m, rfl, modeBits m, rfl⟩
  | _ => exact ⟨.n, rfl, 0#0, rfl⟩

/-- An opcode of the table with an operand of its format selects a command. The cases are in the order of the tests of
`formatOf`: formats `B`, `U`, `S`, `O`, `T`, `M`, `N`. -/
theorem decodeOp_of_format {op : Nat} {a : BitVec 16} {f : Format} (hf : formatOf op = some f) (ha : Holds f.width a) :
    ∃ i, decodeOp op a = .ok i := by
  unfold formatOf at hf
  obtain ⟨b, rfl⟩ := ha
  split_ifs at hf with hop hop hop hop hop hop hop <;> cases hf
  · fin_cases hop <;> exact ⟨_, fmtB_ok.2 ⟨b, rfl, rfl⟩⟩
  · fin_cases hop <;> exact ⟨_, rfl⟩
  · fin_cases hop <;> exact ⟨_, rfl⟩
  · cases hop
    exact ⟨_, fmtO_ok.2 ⟨ordOfBits b, congrArg (BitVec.setWidth 16) (ordBits_ordOfBits b), rfl⟩⟩
  · cases hop
    exact ⟨_, fmtT_ok.2 ⟨b, rfl, rfl⟩⟩
  · fin_cases hop <;> exact ⟨_, fmtM_ok.2 ⟨modeOfBits b, congrArg (BitVec.setWidth 16) (modeBits_modeOfBits b), rfl⟩⟩
  · rw [BitVec.of_length_zero (x := b)]
    fin_cases hop <;> exact ⟨_, fmtN_ok.2 ⟨rfl, rfl⟩⟩

/-- A word is well formed exactly when it is the word of a command. -/
theorem wellFormedWord_iff_encode {w : Word} : wellFormedWord w = true ↔ ∃ i, encode i = w := by
  rw [wellFormedWord_iff]
  constructor
  · rintro ⟨hr, f, hf, ha⟩
    obtain ⟨i, hi⟩ := decodeOp_of_format hf ha
    exact ⟨i, decode_ok_iff.1 (by rw [decode, if_pos hr, hi])⟩
  · rintro ⟨i, rfl⟩
    rw [encode, rsvField_mkWord, opField_mkWord, argField_mkWord]
    exact ⟨rfl, formatOf_opcode i⟩

/-- An ill-formed word is rejected. -/
theorem decode_error_of_not_wellFormed {w : Word} (h : wellFormedWord w = false) : ∃ r, decode w = .error r := by
  cases hd : decode w with
  | error r => exact ⟨r, rfl⟩
  | ok i => rw [wellFormedWord_iff_encode.2 ⟨i, decode_ok_iff.1 hd⟩] at h; cases h

/-- Settles O2: the well-formed words are the words of the commands, and each is the word of the one it selects. -/
theorem everyWordIsOneCommandOrIllFormed : Obligations.EveryWordIsOneCommandOrIllFormed := by
  intro w
  refine ⟨fun h => ?_, fun h => ⟨decode_error_of_not_wellFormed h, fun j hj => ?_⟩⟩
  · obtain ⟨i, hi⟩ := wellFormedWord_iff_encode.1 h
    refine ⟨i, decode_ok_iff.2 hi, hi, fun j hj => ?_⟩
    have hji := (decode_ok_iff.2 hj).symm.trans (decode_ok_iff.2 hi)
    exact Except.ok.inj hji
  · rw [wellFormedWord_iff_encode.2 ⟨j, hj⟩] at h
    cases h

end Sys2Proof
end

section
/-! SUPPORT. What every command word does at the ports and to `SESS` (spec R94, R97, R101; obligations O5, O8 and O12). -/

namespace Sys2Proof.Machine

/-! ### A step at a command word -/

theorem step_of_command {s : State} {w : Word} {rest : List HostEvent} (h : s.inbox = .command w :: rest) :
    step s = execWord w { s with inbox := rest } := by
  unfold step
  rw [h]
  rfl

theorem execWord_of_not_wellFormed {w : Word} (h : wellFormedWord w = false) (s : State) :
    execWord w s = .next (raiseError .illegalCommand w s) := by
  obtain ⟨r, hr⟩ := decode_error_of_not_wellFormed h
  rw [execWord, hr]
  rfl

/-- Settles O5: the decoder rejects the word, and what remains is `raise IllegalCommandError`. -/
theorem illFormedWordRaisesIllegalCommand : Obligations.IllFormedWordRaisesIllegalCommand := by
  intro s w rest hin hw
  rw [step_of_command hin, execWord_of_not_wellFormed hw]
  exact ⟨fun hs => congrArg _ (raiseError_of_not_fault (s := { s with inbox := rest }) hs _ w),
    fun hs => congrArg _ (raiseError_of_fault (s := { s with inbox := rest }) hs _ w)⟩

/-! ### One response for each word -/

/-- From `s` to `t` exactly one response has been given, with data 0 on an error, and no event taken (R97). -/
def State.Answered (s t : State) : Prop :=
  t.inbox = s.inbox ∧ ∃ r : Response, t.outbox = s.outbox ++ [r] ∧ (r.err ≠ none → r.data = 0#32)

theorem answered_raiseError (e : Err) (w : Word) (s : State) : s.Answered (raiseError e w s) :=
  ⟨raiseError_inbox e w s, _, raiseError_outbox e w s, fun _ => rfl⟩

theorem answered_exec {i : Instr} {s t : State} (h : exec i s = .next t) : s.Answered t := by
  rcases exec_next h with ⟨-, -, rfl⟩ | ⟨e, rfl⟩ | ⟨-, d, u, hb, rfl⟩
  · exact ⟨rfl, _, rfl, fun _ => rfl⟩
  · exact answered_raiseError e _ s
  · have F := bodyOf_frame hb
    exact ⟨F.inbox, ⟨none, d⟩, by rw [respond_outbox, F.outbox], fun h => absurd rfl h⟩

theorem answered_execWord {w : Word} {s t : State} (h : execWord w s = .next t) : s.Answered t := by
  unfold execWord at h
  split at h
  · exact answered_exec h
  · cases h
    exact answered_raiseError _ w s

/-- Settles O8: the step takes the word, and its execution answers once. -/
theorem everyCommandWordGetsOneResponse : Obligations.EveryCommandWordGetsOneResponse := by
  intro s t w rest hin h
  rw [step_of_command hin] at h
  exact answered_execWord h

/-! ### The transitions of `SESS` -/

/-- An error leaves `SESS` or takes it from another state to `FAULT` with the error latched (R214, R216). -/
theorem raiseError_enters_fault (e : Err) (w : Word) {s : State} (h : (raiseError e w s).sess ≠ s.sess) :
    s.sess ≠ .fault ∧ (raiseError e w s).sess = .fault ∧ (raiseError e w s).err ≠ none := by
  by_cases hs : s.sess = .fault
  · rw [raiseError_of_fault hs] at h
    exact absurd rfl h
  · rw [raiseError_of_not_fault hs]
    exact ⟨hs, rfl, nofun⟩

/-- Settles O12: an error is the transition to `FAULT`; of the commands that complete, those that open a session are legal
in `IDLE` alone and those that close one in that session alone. -/
theorem sessionChangesOnlyByTheTable : Obligations.SessionChangesOnlyByTheTable := by
  intro i s t h hne
  rcases exec_next h with ⟨-, -, rfl⟩ | ⟨e, rfl⟩ | ⟨hl, d, u, hb, rfl⟩
  · exact absurd rfl hne
  · simp [raiseError_enters_fault e _ hne]
  · have hu := (bodyOf_frame hb).sess
    rw [respond_sess, hu] at hne ⊢
    cases i with
    | srst | eclr => simp [sessAfter]
    | rcei | rcdi | raei | radi | hei | hdi =>
      obtain ⟨hi, -⟩ := hl
      simp [sessAfter, hi]
    | rcef | rcdf | raef | radf | hef | hdf =>
      have hi : s.sess = _ := hl
      simp [sessAfter, hi]
    | _ => exact absurd rfl hne

end Sys2Proof.Machine
end

section
/-! SUPPORT. No body raises `IllegalCommandError` (spec R219: legality is the prologue's), so the legality table of R100 alone
decides which commands are answered with it (obligation O11). -/

namespace Sys2Proof.Machine

/-! ### Computations that do not raise a given error -/

/-- The computation does not end by raising `e`. -/
def Comp.Avoids {α : Type} (x : Comp α) (e : Err) : Prop := x ≠ .error (.raised e)

section

variable {α β : Type} {e : Err}

theorem Comp.Avoids.ok (a : α) : Comp.Avoids (.ok a) e := nofun

theorem Comp.Avoids.stopped (f : Fault) : (Machine.stopped f : Comp α).Avoids e := nofun

theorem Comp.Avoids.raised {d : Err} (h : d ≠ e) : (Machine.raised d : Comp α).Avoids e := fun hx => by
  cases hx
  exact h rfl

theorem Comp.Avoids.bind {x : Comp α} {f : α → Comp β} (hx : x.Avoids e) (hf : ∀ a, (f a).Avoids e) :
    (x >>= f).Avoids e := by
  intro h
  rcases Comp.bind_eq_error.1 h with h | ⟨a, -, h⟩
  · exact hx h
  · exact hf a h

theorem Comp.Avoids.ite {c : Prop} [Decidable c] {x y : Comp α} (hx : x.Avoids e) (hy : y.Avoids e) :
    (if c then x else y).Avoids e := by
  split
  · exact hx
  · exact hy

theorem raiseIf_avoids {d : Err} (h : d ≠ e) (c : Prop) [Decidable c] : (raiseIf c d).Avoids e :=
  .ite (.raised h) (.ok ())

theorem readCell_avoids (cap : Nat) (m : Cells α) (i : Nat) : (readCell cap m i).Avoids e := by
  intro h
  rcases readCell_error h with ⟨h, -⟩ | ⟨h, -⟩ <;> cases h

theorem writeCell_avoids (cap : Nat) (m : Cells α) (i : Nat) (v : α) : (writeCell cap m i v).Avoids e := by
  intro h
  cases (writeCell_error h).1

end

section

variable {e : Err} {s : State}

/-! ### Operations that raise no error -/

theorem putBit_avoids (b : Bool) : (putBit b s).Avoids e := by
  intro h
  rcases putBit_error h with h | h <;> cases h

theorem putBits_avoids (bs : List Bool) : (putBits bs s).Avoids e := by
  induction bs generalizing s with
  | nil => exact .ok s
  | cons b bs ih => exact (putBit_avoids b).bind fun _ => ih

theorem putByte_avoids (v : Byte) : (putByte v s).Avoids e :=
  .ite (.bind (writeCell_avoids _ _ _ _) fun _ => .ok _) (.stopped _)

theorem putBytes_avoids (vs : List Byte) : (putBytes vs s).Avoids e := by
  induction vs generalizing s with
  | nil => exact .ok s
  | cons v vs ih => exact (putByte_avoids v).bind fun _ => ih

theorem getBit_avoids (i : Nat) : (getBit s i).Avoids e := by
  intro h
  rcases (getBit_error h).2 with h | h <;> cases h

theorem copyOut_avoids (l : List Nat) : (copyOut l s).Avoids e := by
  induction l generalizing s with
  | nil => exact .ok s
  | cons i is ih => exact .bind (readCell_avoids _ _ _) fun _ => .bind (writeCell_avoids _ _ _ _) fun _ => ih

theorem entry_avoids (k : Nat) : (entry s k).Avoids e := by
  intro h
  rcases entry_error h with h | h <;> cases h

theorem scanOrdinals_avoids (p : Entry → Bool) (l : List Nat) : (scanOrdinals s p l).Avoids e := by
  induction l with
  | nil => exact .ok none
  | cons k ks ih => exact (entry_avoids k).bind fun _ => .ite (.ok _) ih

theorem findSlot_avoids (sym : BitVec 16) (l : List Nat) : (findSlot s sym l).Avoids e := by
  induction l with
  | nil => exact .ok none
  | cons i is ih => exact .bind (readCell_avoids _ _ _) fun _ => .ite (.ok _) ih

theorem readSlots_avoids (l : List Nat) : (readSlots s l).Avoids e := by
  induction l with
  | nil => exact .ok []
  | cons i is ih =>
    exact .bind (readCell_avoids _ _ _) fun _ => .bind (readCell_avoids _ _ _) fun _ => ih.bind fun _ => .ok _

theorem writeCdf_avoids (l : List Slot) (k c : Nat) : (writeCdf l k c s).Avoids e := by
  induction l generalizing k c s with
  | nil => exact .ok s
  | cons a rest ih => exact .bind (writeCell_avoids _ _ _ _) fun _ => .bind (writeCell_avoids _ _ _ _) fun _ => ih _ _

theorem renormD_avoids (tests nl nh v bp : Nat) : (renormD s tests nl nh v bp).Avoids e := by
  induction tests generalizing nl nh v bp with
  | zero => exact .stopped _
  | succ tests ih =>
    have pass : ∀ nl nh (v : Bool → Nat), Comp.Avoids (do let b ← getBit s bp; renormD s tests nl nh (v b) (bp + 1)) e :=
      fun _ _ _ => (getBit_avoids bp).bind fun _ => ih _ _ _ _
    exact .ite (pass _ _ _) (.ite (pass _ _ _) (.ite (pass _ _ _) (.ok _)))

theorem loadWindow_avoids (l : List Nat) (v : Nat) : (loadWindow s l v).Avoids e := by
  induction l generalizing v with
  | nil => exact .ok v
  | cons i is ih => exact (getBit_avoids i).bind fun _ => ih _

theorem renormRE_avoids (xmax tests x : Nat) (out : List Byte) : (renormRE xmax tests x out).Avoids e := by
  induction tests generalizing x out with
  | zero => exact .stopped _
  | succ tests ih => exact .ite (ih _ _) (.ok _)

theorem ransShift_avoids (d : Entry) : (ransShift s d).Avoids e := by
  unfold ransShift
  split
  · exact .ok _
  · exact renormRE_avoids _ _ _ _

theorem writeLeaves_avoids (l : List Nat) : (writeLeaves l s).Avoids e := by
  induction l generalizing s with
  | nil => exact .ok s
  | cons k ks ih =>
    exact (entry_avoids k).bind fun _ => .bind (writeCell_avoids _ _ _ _) fun _ => .bind (writeCell_avoids _ _ _ _)
      fun _ => .bind (writeCell_avoids _ _ _ _) fun _ => ih

theorem minNode_avoids (best : Nat) (l : List Nat) : (minNode s best l).Avoids e := by
  induction l generalizing best with
  | nil => exact .ok best
  | cons n ns ih =>
    exact .bind (readCell_avoids _ _ _) fun _ => .bind (readCell_avoids _ _ _) fun _ => .ite (ih _) (ih _)

theorem writeInternal_avoids (a b n : Nat) : (writeInternal a b n s).Avoids e :=
  .bind (readCell_avoids _ _ _) fun _ => .bind (readCell_avoids _ _ _) fun _ => .bind (writeCell_avoids _ _ _ _) fun _ =>
    .bind (writeCell_avoids _ _ _ _) fun _ => .bind (writeCell_avoids _ _ _ _) fun _ =>
      .bind (writeCell_avoids _ _ _ _) fun _ => .ok _

theorem mergeNodes_avoids (tests : Nat) (live : List Nat) (n : Nat) : (mergeNodes tests live n s).Avoids e := by
  induction tests generalizing live n s with
  | zero =>
    match live with
    | [] | [_] => exact .ok _
    | _ :: _ :: _ => exact .stopped _
  | succ tests ih =>
    match live with
    | [] | [_] => exact .ok _
    | x :: y :: rest =>
      refine (minNode_avoids x (y :: rest)).bind fun a => ?_
      split
      · exact .stopped _
      · exact (minNode_avoids _ _).bind fun _ => (writeInternal_avoids _ _ _).bind fun _ => ih _ _

theorem pathTo_avoids (k depth n : Nat) : (pathTo s k depth n).Avoids e := by
  induction depth generalizing n with
  | zero => exact .stopped _
  | succ depth ih =>
    refine .bind (readCell_avoids _ _ _) fun leaf => .ite (.bind (readCell_avoids _ _ _) fun _ => .ok _) ?_
    refine .bind (readCell_avoids _ _ _) fun l => (ih _).bind fun found => ?_
    split
    · exact .ok _
    · refine .bind (readCell_avoids _ _ _) fun r => (ih _).bind fun found => ?_
      split
      · exact .ok _
      · exact .ok _

theorem code_avoids (k : Nat) : (code s k).Avoids e := by
  refine .ite (.ok _) ((pathTo_avoids _ _ _).bind fun found => ?_)
  split
  · exact .ok _
  · exact .stopped _

/-- The bodies of the commands accepted in `FAULT` raise no error. -/
theorem bodyOf_avoids_of_acceptedInFault {i : Instr} (h : acceptedInFault i = true) : (bodyOf i s).Avoids e := by
  cases i with
  | nop | srst | eclr | rdcsr | orwd => exact .ok _
  | oread => exact .bind (readCell_avoids _ _ _) fun _ => .ok _
  | _ => cases h

/-! ### Operations that raise other errors -/

theorem ordinal_avoids (h : .alphabetMismatch ≠ e) (sym : BitVec 16) : (ordinal s sym).Avoids e := by
  refine (scanOrdinals_avoids _ _).bind fun found => ?_
  split
  · exact .ok _
  · exact .raised h

theorem symbolAt_avoids (h : .corruptStream ≠ e) (pos : Nat) : (symbolAt s pos).Avoids e := by
  refine (scanOrdinals_avoids _ _).bind fun found => ?_
  split
  · exact .ok _
  · exact .raised h

theorem addCount_avoids (h : .capacity ≠ e) (sym : BitVec 16) (n : Nat) : (addCount sym n s).Avoids e := by
  refine (raiseIf_avoids h _).bind fun _ => (findSlot_avoids _ _).bind fun found => ?_
  split
  · exact .bind (readCell_avoids _ _ _) fun _ => .bind (writeCell_avoids _ _ _ _) fun _ => .ok _
  · exact (raiseIf_avoids h _).bind fun _ => .bind (writeCell_avoids _ _ _ _) fun _ => .bind (writeCell_avoids _ _ _ _)
      fun _ => .ok _

theorem renormE_avoids (h : .capacity ≠ e) (tests nl nh pend : Nat) (out : List Bool) :
    (renormE tests nl nh pend out).Avoids e := by
  induction tests generalizing nl nh pend out with
  | zero => exact .stopped _
  | succ tests ih => exact .ite (ih _ _ _ _) (.ite (ih _ _ _ _) (.ite (.ite (.raised h) (ih _ _ _ _)) (.ok _)))

theorem getByteBack_avoids (h : .corruptStream ≠ e) (rp : Nat) : (getByteBack s rp).Avoids e := by
  cases rp with
  | zero => exact .raised h
  | succ rp => exact .bind (readCell_avoids _ _ _) fun _ => .ok _

theorem replenish_avoids (h : .corruptStream ≠ e) (l x rp : Nat) : (replenish s l x rp).Avoids e := by
  induction rp generalizing x with
  | zero => exact .ite (.raised h) (.ok _)
  | succ rp ih => exact .ite ((getByteBack_avoids h _).bind fun _ => ih _) (.ok _)

theorem ransRefill_avoids (h : .corruptStream ≠ e) : (ransRefill s).Avoids e := by
  unfold ransRefill
  split
  · exact .ok _
  · exact replenish_avoids h _ _ _

theorem loadBack_avoids (h : .corruptStream ≠ e) (n x rp : Nat) : (loadBack s n x rp).Avoids e := by
  induction n generalizing x rp with
  | zero => exact .ok _
  | succ n ih => exact (getByteBack_avoids h rp).bind fun _ => ih _ _

theorem walk_avoids (h : .corruptStream ≠ e) (left n bp : Nat) : (walk s left n bp).Avoids e := fun hx =>
  h (walk_raised hx).symm

theorem decodePath_avoids (h : .corruptStream ≠ e) : (decodePath s).Avoids e :=
  .bind (readCell_avoids _ _ _) fun _ =>
    .ite ((raiseIf_avoids h _).bind fun _ => (getBit_avoids _).bind fun _ => (raiseIf_avoids h _).bind fun _ => .ok _)
      (walk_avoids h _ _ _)

/-- The capacity check of a writer, its bits or bytes, and a result (R66). -/
theorem checked_write_avoids {f : State → Word × State} {write : Comp State} {c : Prop} [Decidable c] (h : .capacity ≠ e)
    (hw : write.Avoids e) : (do raiseIf c .capacity; let t ← write; .ok (f t) : Comp (Word × State)).Avoids e :=
  (raiseIf_avoids h c).bind fun _ => hw.bind fun _ => .ok _

/-- No body raises `IllegalCommandError`. -/
theorem bodyOf_avoids_illegalCommand (i : Instr) (s : State) : (bodyOf i s).Avoids .illegalCommand := by
  have h1 : Err.corruptStream ≠ .illegalCommand := nofun
  have h2 : Err.alphabetMismatch ≠ .illegalCommand := nofun
  have h3 : Err.capacity ≠ .illegalCommand := nofun
  have h4 : Err.emptyInput ≠ .illegalCommand := nofun
  have h5 : Err.stateOverflow ≠ .illegalCommand := nofun
  cases i with
  | mcnt | mload => exact (addCount_avoids h3 _ _).bind fun _ => .ok _
  | mfin =>
    exact (raiseIf_avoids h4 _).bind fun _ => (readSlots_avoids _).bind fun _ => (writeCdf_avoids _ _ _).bind fun _ =>
      .ok _
  | mivl => exact (ordinal_avoids h2 _).bind fun _ => .ok _
  | msat => exact (symbolAt_avoids h1 _).bind fun _ => .ok _
  | ipush => exact (raiseIf_avoids h3 _).bind fun _ => .bind (writeCell_avoids _ _ _ _) fun _ => .ok _
  | oread => exact .bind (readCell_avoids _ _ _) fun _ => .ok _
  | xfer => exact (copyOut_avoids _).bind fun _ => .ok _
  | rce =>
    exact (ordinal_avoids h2 _).bind fun _ => (renormE_avoids h3 _ _ _ _ _).bind fun _ =>
      checked_write_avoids h3 (putBits_avoids _)
  | rcef => exact checked_write_avoids h3 (putBits_avoids _)
  | rcdi => exact (loadWindow_avoids _ _).bind fun _ => .ok _
  | rcd => exact (symbolAt_avoids h1 _).bind fun _ => (renormD_avoids _ _ _ _ _).bind fun _ => .ok _
  | rae =>
    exact (ordinal_avoids h2 _).bind fun _ => (ransShift_avoids _).bind fun _ => (raiseIf_avoids h5 _).bind fun _ =>
      checked_write_avoids h3 (putBytes_avoids _)
  | raef => exact checked_write_avoids h3 (putBytes_avoids _)
  | radi => exact (raiseIf_avoids h1 _).bind fun _ => (loadBack_avoids h1 _ _ _).bind fun _ => .ok _
  | rad => exact (ransRefill_avoids h1).bind fun _ => (symbolAt_avoids h1 _).bind fun _ => .ok _
  | hbld => exact (writeLeaves_avoids _).bind fun _ => (mergeNodes_avoids _ _ _).bind fun _ => .ok _
  | he =>
    exact (ordinal_avoids h2 _).bind fun _ => (code_avoids _).bind fun _ => checked_write_avoids h3 (putBits_avoids _)
  | hd =>
    exact (decodePath_avoids h1).bind fun _ => .bind (readCell_avoids _ _ _) fun _ => (entry_avoids _).bind fun _ => .ok _
  | _ => exact .ok _

end

/-! ### The legality table -/

/-- A legal command that `FAULT` does not turn away is not answered with `IllegalCommandError`. -/
theorem exec_legal_not_illegalCommand {i : Instr} {s t : State} (ha : s.sess ≠ .fault ∨ acceptedInFault i = true)
    (hl : s.Legal i) (ht : t.outbox = s.outbox ++ [⟨some .illegalCommand, 0#32⟩]) : exec i s ≠ .next t := by
  intro h
  rw [exec_eq_command] at h
  rcases command_next h with ⟨hs, hn, -⟩ | ⟨-, hn, -⟩ | ⟨-, -, e, hb, rfl⟩ | ⟨-, -, d, u, hb, rfl⟩
  · simp [hs, hn] at ha
  · rw [(legalOf_iff i s).2 hl] at hn
    cases hn
  · rcases ha with hs | ha
    · rw [raiseError_of_not_fault hs] at ht
      obtain rfl : e = .illegalCommand := by simpa using ht
      exact bodyOf_avoids_illegalCommand i s hb
    · exact bodyOf_avoids_of_acceptedInFault ha hb
  · simp [(bodyOf_frame hb).outbox] at ht

/-- A command that fails its row and is not turned away (R100, R216). -/
theorem exec_not_legal {i : Instr} {s : State} (ha : s.sess ≠ .fault ∨ acceptedInFault i = true) (hl : ¬ s.Legal i) :
    exec i s = if s.sess = .fault then s.turnedAway else s.failed .illegalCommand i := by
  rw [exec_of_not_legal ha hl]
  split
  · next hs => rw [raiseError_of_fault hs]; rfl
  · next hs => rw [raiseError_of_not_fault hs]; rfl

/-- The column `FAULT` of R100: the commands it accepts. -/
theorem acceptedInFault_iff {i : Instr} :
    acceptedInFault i = true ↔ i ∈ [.nop, .srst, .eclr, .oread, .orwd] ∨ ∃ a, i = .rdcsr a := by
  cases i <;> simp [acceptedInFault]

/-- Settles O11: the prologue tests the row before the body runs, and the body does not raise that error. -/
theorem legalityTableDecidesIllegalCommand : Obligations.LegalityTableDecidesIllegalCommand := by
  intro i s
  refine ⟨fun hs => ⟨fun hl => ?_, fun hl => ?_⟩, fun hs => ⟨fun h1 h2 => ?_, fun ha => ⟨fun hl => ?_, fun hl => ?_⟩⟩⟩
  · rw [exec_not_legal (.inl hs) hl, if_neg hs]
  · exact exec_legal_not_illegalCommand (.inl hs) hl rfl
  · have ha : acceptedInFault i = false := by
      rw [← Bool.not_eq_true, acceptedInFault_iff]
      exact not_or.2 ⟨h1, not_exists.2 h2⟩
    rw [exec_eq_command, command_of_refused_in_fault hs ha]
    rfl
  · rw [exec_not_legal (.inr (acceptedInFault_iff.2 ha)) hl, if_pos hs]
  · exact exec_legal_not_illegalCommand (.inr (acceptedInFault_iff.2 ha)) hl rfl

end Sys2Proof.Machine
end

section
/-! SUPPORT. The answers of a command in the shapes the statements write, `State.done` and `State.turnedAway` (spec R97, R216),
and the system commands of R110 to R114 with `ORWD` (R125, obligation O21). -/

namespace Sys2Proof.Machine

/-- A legal command that is not turned away and whose body ends with a result completes with it (R97). -/
theorem exec_done {i : Instr} {s u : State} {d : Word} (ha : s.sess ≠ .fault ∨ acceptedInFault i = true) (hl : s.Legal i)
    (hb : bodyOf i s = .ok (d, u)) : exec i s = s.done u d := by
  rw [exec_of_ok ha hl hb, respond, (bodyOf_frame hb).outbox]
  rfl

/-- A command that `FAULT` does not accept is answered `(6, 0)` there and changes nothing (R216). -/
theorem exec_turnedAway {i : Instr} {s : State} (hs : s.sess = .fault) (ha : acceptedInFault i = false) :
    exec i s = s.turnedAway := by
  rw [exec_eq_command, command_of_refused_in_fault hs ha]
  rfl

/-- Settles O21: the five are legal in every state and their bodies raise no error; `FAULT` accepts all of them but `ARG`. -/
theorem nopSrstEclrOrwdArgComplete : Obligations.NopSrstEclrOrwdArgComplete := by
  intro s
  refine ⟨?nop, ?srst, ?eclr, ?orwd, fun imm => ⟨fun hs => ?arg, fun hs => ?argInFault⟩⟩
  case nop => exact exec_done (.inr rfl) trivial rfl
  case srst => exact exec_done (u := resetRegisters s) (.inr rfl) trivial rfl
  case eclr => exact exec_done (.inr rfl) trivial rfl
  case orwd => exact exec_done (.inr rfl) trivial rfl
  case arg => exact exec_done (.inl hs) trivial rfl
  case argInFault => exact exec_turnedAway hs rfl

end Sys2Proof.Machine
end

section
/-! SUPPORT. The bitstream commands of R120 to R124 and `MCLR` (obligations O23 to O26): the exact answer of each, read off
its body, and the bytes of the output container as stream bits with their zero padding (R47, R61, R62). -/

namespace Sys2Proof.Machine

variable {s : State}

/-- A legal command outside `FAULT` whose body raises an error takes its fault entry (R214). -/
theorem exec_failed {i : Instr} {e : Err} (hs : s.sess ≠ .fault) (hl : s.Legal i)
    (hb : bodyOf i s = .error (.raised e)) : exec i s = s.failed e i := by
  rw [exec_of_raised (.inl hs) hl hb, raiseError_of_not_fault hs]
  rfl

theorem ne_fault_of_idle (hs : s.sess = .idle) : s.sess ≠ .fault := by simp [hs]

/-- Settles O23: the three bodies raise no error, and the row of `ITRIM` is all that can fail. -/
theorem iclrItrimMclrComplete : Obligations.IclrItrimMclrComplete := by
  intro s hs
  have hf := ne_fault_of_idle hs
  refine ⟨?iclr, ?mclr, fun p => ⟨fun hp => ?itrim, fun hp hlen => ?itrimEmpty⟩⟩
  case iclr => exact exec_done (.inl hf) hs rfl
  case mclr => exact exec_done (.inl hf) hs rfl
  case itrim => exact exec_done (.inl hf) ⟨hs, hp⟩ rfl
  case itrimEmpty =>
    have hl : ¬ s.Legal (.itrim p) := by simp [State.Legal, hp, hlen]
    rw [exec_not_legal (.inl hf) hl, if_neg hf]

/-! ### `IPUSH` -/

theorem ipushBody_of_lt (b : Byte) (h : s.ilen.toNat < Config.bufCap) :
    ipushBody b s = .ok (0#32, { s with ibuf := s.ibuf.put s.ilen.toNat b, ilen := s.ilen + 1#32 }) := by
  unfold ipushBody
  rw [raiseIf_ok (u := ()).2 (Nat.ne_of_lt h), Comp.bind_ok, writeCell_of_lt _ _ h, Comp.bind_ok]

theorem ipushBody_of_full (b : Byte) (h : s.ilen.toNat = Config.bufCap) :
    ipushBody b s = .error (.raised .capacity) :=
  Comp.bind_eq_error.2 (.inl (raiseIf_error.2 ⟨h, rfl⟩))

/-- Settles O24. -/
theorem ipushAppendsAByte : Obligations.IpushAppendsAByte := by
  intro s b hs
  have hf := ne_fault_of_idle hs
  refine ⟨fun hroom => ?_, fun hfull => exec_failed hf hs (ipushBody_of_full b hfull)⟩
  exact ⟨_, exec_done (.inl hf) hs (ipushBody_of_lt b hroom), rfl, Cells.find_put_same _ _ _,
    fun a ha => Cells.find_put_other _ _ ha⟩

/-! ### `OREAD` -/

/-- The bits of output byte `i` are the stream bits from `8 * i` on, bit 7 the earliest (R61). -/
theorem getLsbD_eq_outBit {i j : Nat} {v : Byte} (hv : s.obuf.find i = some v) (hj : j < 8) :
    v.getLsbD (7 - j) = s.outBit (8 * i + j) := by
  have hdiv : (8 * i + j) / 8 = i := by omega
  have hmod : (8 * i + j) % 8 = j := by omega
  rw [outBit_of_find (v := v) (by rw [hdiv]; exact hv), hmod]

/-- The container is the stream bits with their padding to whole bytes (R47). -/
theorem obitlen_add_opad (s : State) : s.obitlen.toNat + s.opad = 8 * s.olen := by
  unfold State.olen State.opad; omega

/-- In the container, the bits past the last stream bit are 0 (R47, R62). -/
theorem outBit_of_padding (hs : s.OutputOk) {k : Nat} (hk : s.obitlen.toNat ≤ k) (hlt : k < 8 * s.olen) :
    s.outBit k = false := by
  obtain ⟨-, -, -, hpad⟩ := hs
  have hsum := obitlen_add_opad s
  have h := hpad (k - s.obitlen.toNat) (by omega)
  rwa [Nat.add_sub_cancel' hk] at h

theorem oreadBody_of_find {v : Byte} (hi : s.ordp.toNat < Config.bufCap) (hv : s.obuf.find s.ordp.toNat = some v) :
    oreadBody s = .ok (v.setWidth 32, { s with ordp := s.ordp + 1#32 }) := by
  unfold oreadBody
  rw [outByte_ok.2 ⟨hi, hv⟩]
  rfl

/-- Settles O25: a bit of the byte is a stream bit, or padding where `OBITLEN` ends inside the byte. -/
theorem oreadRespondsTheNextByte : Obligations.OreadRespondsTheNextByte := by
  intro s hs hlt
  obtain ⟨hi, hsome⟩ := outByte_total hs hlt
  obtain ⟨v, hv⟩ := Option.isSome_iff_exists.1 hsome
  refine ⟨v, exec_done (.inr rfl) hlt (oreadBody_of_find hi hv), fun j hj => ?_⟩
  rw [getLsbD_eq_outBit hv hj]
  by_cases h : 8 * s.ordp.toNat + j < s.obitlen.toNat
  · simp [h]
  · simp [h, outBit_of_padding hs (Nat.le_of_not_lt h) (by omega)]

/-! ### `XFER` -/

/-- An input stream as long as the output stream and with its bytes has its bits (R62). -/
theorem inBit_eq_outBit {t : State} (hlen : t.ibitlen = s.obitlen.toNat)
    (hbytes : ∀ a < s.olen, t.ibuf.find a = s.obuf.find a) {j : Nat} (hj : j < s.obitlen.toNat) :
    t.inBit j = s.outBit j := by
  have hbyte : j / 8 < s.olen := by unfold State.olen; omega
  simp [State.inBit, State.outBit, hlen, hj, hbytes _ hbyte]

/-- `ILEN = OLEN` and `IPAD = OPAD` make `IBITLEN` the old `OBITLEN` (R47, R50). -/
theorem ibitlen_of_container {t : State} (hlen : t.ilen = word s.olen) (hpad : t.ipad = BitVec.ofNat 3 s.opad) :
    t.ibitlen = s.obitlen.toNat := by
  have hl : (word s.olen).toNat = s.olen := toNat_word (by unfold State.olen; omega)
  have hp : (BitVec.ofNat 3 s.opad).toNat = s.opad := by
    rw [BitVec.toNat_ofNat, Nat.mod_eq_of_lt (by unfold State.opad; omega)]
  rw [State.ibitlen, hlen, hpad, hl, hp, ← obitlen_add_opad, Nat.add_sub_cancel]

/-- The body of `XFER` ends with a result on every consistent output stream. -/
theorem xferBody_total (hs : s.OutputOk) : ∃ d u, xferBody s = .ok (d, u) := by
  obtain ⟨t, ht⟩ := copyOut_total (s := s) fun _ hi => outByte_total hs (List.mem_range.1 hi)
  exact ⟨_, _, Comp.bind_eq_ok.2 ⟨t, ht, rfl⟩⟩

/-- Settles O26: the loop copies exactly the bytes below `OLEN`, and the length and padding taken over fix the bits. -/
theorem xferMovesTheContainer : Obligations.XferMovesTheContainer := by
  intro s hs hidle
  obtain ⟨d, u, hbody⟩ := xferBody_total hs
  obtain ⟨t, ht, rfl, hu⟩ := xferBody_ok hbody
  obtain ⟨-, hcopied, hrest⟩ := copyOut_ok ht
  have hibuf : u.ibuf = t.ibuf := by rw [hu]; rfl
  have hlen : u.ibitlen = s.obitlen.toNat := ibitlen_of_container (by rw [hu]; rfl) (by rw [hu]; rfl)
  have hbytes : ∀ a < s.olen, u.ibuf.find a = s.obuf.find a := fun a ha => by
    rw [hibuf]; exact (hcopied a (List.mem_range.2 ha)).2
  refine ⟨u, exec_done (.inl (ne_fault_of_idle hidle)) hidle hbody, by rw [hu]; rfl, hlen,
    fun j hj => inBit_eq_outBit hlen hbytes hj, hbytes, fun a ha => ?_⟩
  rw [hibuf]
  exact hrest a (by simpa using ha)

end Sys2Proof.Machine
end

section
/-! SUPPORT. `AddCount` (spec R132) on a consistent table, read exactly: which slot it finds, the state each case leaves, and
that adding `m + n` is adding `m` and then `n`. From this `MCNT` and `MLOAD` (R135, R136; obligations O28 to O30). -/

namespace Sys2Proof.Machine

variable {s : State} {sym : BitVec 16} {n : Nat}

/-! ### A command that completes -/

/-- A command that completes with the response `(0, d)` was legal, and its body ended with `d` and the state it is said to
leave, but for that response. -/
theorem exec_eq_done {i : Instr} {t : State} {d : Word} (h : exec i s = s.done t d) :
    s.Legal i ∧ bodyOf i s = .ok (d, { t with outbox := s.outbox }) := by
  rcases exec_next h with ⟨-, -, h⟩ | ⟨e, h⟩ | ⟨hl, d', u, hb, h⟩
  · simpa using congrArg State.outbox h
  · simpa [raiseError_outbox] using congrArg State.outbox h
  · have ho := (bodyOf_frame hb).outbox
    have hd : d = d' := by simpa [ho] using congrArg State.outbox h
    have hu : { t with outbox := s.outbox } = u := by
      have := congrArg (fun v : State => { v with outbox := s.outbox }) h
      exact this.trans (by rw [← ho]; rfl)
    exact ⟨hl, by rw [hd, hu]; exact hb⟩

/-! ### The search of the table -/

/-- No symbol stands in two valid slots (R33). -/
theorem State.TableOk.slotSym_inj (hs : s.TableOk) {i j : Nat} (hi : i < s.mn.toNat) (hj : j < s.mn.toNat)
    (h : s.slotSym i = s.slotSym j) : i = j := by
  obtain ⟨-, -, -, -, hdist, -⟩ := hs
  rcases lt_trichotomy i j with hij | hij | hij
  · exact absurd h (hdist j hj i hij)
  · exact hij
  · exact absurd h.symm (hdist i hi j hij)

theorem findSlot_of_present (hs : s.TableOk) {i : Nat} (hi : i < s.mn.toNat) :
    findSlot s (s.slotSym i) (List.range s.mn.toNat) = .ok (some i) := by
  obtain ⟨r, hr⟩ := findSlot_total hs (s.slotSym i) fun _ => List.mem_range.1
  cases r with
  | some j =>
    obtain ⟨hj, -, hfind⟩ := findSlot_some hr
    rw [hr, hs.slotSym_inj (List.mem_range.1 hj) hi (slotSym_of_find hfind)]
  | none =>
    obtain ⟨-, v, hv, hne⟩ := findSlot_none.1 hr i (List.mem_range.2 hi)
    exact absurd (slotSym_of_find hv).symm hne

theorem findSlot_of_absent (hs : s.TableOk) (h : ∀ i < s.mn.toNat, s.slotSym i ≠ sym) :
    findSlot s sym (List.range s.mn.toNat) = .ok none := by
  obtain ⟨r, hr⟩ := findSlot_total hs sym fun _ => List.mem_range.1
  cases r with
  | some i =>
    obtain ⟨hi, -, hfind⟩ := findSlot_some hr
    exact absurd (slotSym_of_find hfind) (h i (List.mem_range.1 hi))
  | none => exact hr

/-! ### The two states `AddCount` can leave -/

/-- The state after `n` is added to the count of slot `i` (R132, the symbol present). -/
def State.grown (s : State) (i n : Nat) : State :=
  { s with
    mtCnt := s.mtCnt.put i (BitVec.ofNat 16 (s.slotCnt i + n)), mtotal := BitVec.ofNat 16 (s.total + n),
    mstate := .building }

/-- The state after `sym` takes slot `MN` with count `n` (R132, the symbol new). -/
def State.extended (s : State) (sym : BitVec 16) (n : Nat) : State :=
  { s with
    mtSym := s.mtSym.put s.mn.toNat sym, mtCnt := s.mtCnt.put s.mn.toNat (BitVec.ofNat 16 n), mn := s.mn + 1#10,
    mtotal := BitVec.ofNat 16 (s.total + n), mstate := .building }

theorem total_grown (i : Nat) (h : s.total + n ≤ 65535) : (s.grown i n).total = s.total + n :=
  (BitVec.toNat_ofNat _ _).trans (Nat.mod_eq_of_lt (by omega))

theorem total_extended (h : s.total + n ≤ 65535) : (s.extended sym n).total = s.total + n :=
  (BitVec.toNat_ofNat _ _).trans (Nat.mod_eq_of_lt (by omega))

theorem slotCnt_grown {i : Nat} (h : s.slotCnt i + n ≤ 65535) : (s.grown i n).slotCnt i = s.slotCnt i + n := by
  rw [slotCnt_of_find (Cells.find_put_same _ _ _), BitVec.toNat_ofNat]
  exact Nat.mod_eq_of_lt (by omega)

theorem slotCnt_extended (h : n ≤ 65535) : (s.extended sym n).slotCnt s.mn.toNat = n := by
  rw [slotCnt_of_find (Cells.find_put_same _ _ _), BitVec.toNat_ofNat]
  exact Nat.mod_eq_of_lt (by omega)

theorem slotSym_extended : (s.extended sym n).slotSym s.mn.toNat = sym := slotSym_of_find (Cells.find_put_same _ _ _)

theorem mn_extended (h : s.mn.toNat < 512) : (s.extended sym n).mn.toNat = s.mn.toNat + 1 :=
  (BitVec.toNat_add _ _).trans (Nat.mod_eq_of_lt (by simp; omega))

theorem grown_grown {i m : Nat} (hc : s.slotCnt i + m ≤ 65535) (ht : s.total + m ≤ 65535) :
    (s.grown i m).grown i n = s.grown i (m + n) := by
  rw [State.grown, slotCnt_grown hc, total_grown i ht, Nat.add_assoc, Nat.add_assoc]
  simp only [State.grown, Cells.put_put_same]

theorem extended_grown {m : Nat} (ht : s.total + m ≤ 65535) :
    (s.extended sym m).grown s.mn.toNat n = s.extended sym (m + n) := by
  rw [State.grown, slotCnt_extended (by omega), total_extended ht, Nat.add_assoc]
  simp only [State.extended, Cells.put_put_same]

/-! ### What `AddCount` answers -/

theorem addCount_of_over (h : 65535 < s.total + n) : addCount sym n s = raised .capacity :=
  Comp.bind_eq_error.2 (.inl (raiseIf_error.2 ⟨h, rfl⟩))

theorem addCount_of_present (hs : s.TableOk) {i : Nat} (hi : i < s.mn.toNat) (ht : s.total + n ≤ 65535) :
    addCount (s.slotSym i) n s = .ok (s.grown i n) := by
  obtain ⟨hcap, -, -, hslot, -⟩ := id hs
  obtain ⟨-, hcnt, -⟩ := hslot i hi
  obtain ⟨c, hc⟩ := Option.isSome_iff_exists.1 hcnt
  have hlt : i < Config.aMax := hi.trans_le hcap
  unfold addCount
  rw [raiseIf_ok (u := ()).2 (Nat.not_lt.2 ht), findSlot_of_present hs hi]
  simp only [Comp.bind_ok, readCell_of_find hlt hc, writeCell_of_lt _ _ hlt, State.grown, slotCnt_of_find hc]

theorem addCount_of_absent (hs : s.TableOk) (hnew : ∀ i < s.mn.toNat, s.slotSym i ≠ sym) (ht : s.total + n ≤ 65535) :
    addCount sym n s = if s.mn.toNat = 512 then raised .capacity else .ok (s.extended sym n) := by
  unfold addCount
  rw [raiseIf_ok (u := ()).2 (Nat.not_lt.2 ht), findSlot_of_absent hs hnew]
  split
  · next hfull => rw [hfull]; rfl
  · next hroom =>
    have hlt : s.mn.toNat < Config.aMax := lt_of_le_of_ne hs.1 hroom
    simp only [Comp.bind_ok, raiseIf_ok (u := ()).2 hroom, writeCell_of_lt _ _ hlt, State.extended]

/-- R132 on a consistent table: `AddCount` completes exactly where `MTOTAL` has room and the symbol has a slot or gets one. -/
theorem addCount_eq_ok_iff (hs : s.TableOk) {t : State} :
    addCount sym n s = .ok t ↔ s.total + n ≤ 65535 ∧
      ((∃ i < s.mn.toNat, s.slotSym i = sym ∧ t = s.grown i n) ∨
        ((∀ i < s.mn.toNat, s.slotSym i ≠ sym) ∧ s.mn.toNat < 512 ∧ t = s.extended sym n)) := by
  constructor
  · intro h
    obtain ⟨ht, ⟨i, c, hi, -, hsym, hc, rfl⟩ | ⟨hnew, hlt, rfl⟩⟩ := addCount_ok h
    · exact ⟨ht, .inl ⟨i, hi, slotSym_of_find hsym, by rw [State.grown, slotCnt_of_find hc]⟩⟩
    · refine ⟨ht, .inr ⟨fun i hi => ?_, hlt, rfl⟩⟩
      obtain ⟨v, hv, hne⟩ := hnew i hi
      exact slotSym_of_find hv ▸ hne
  · rintro ⟨ht, ⟨i, hi, rfl, rfl⟩ | ⟨hnew, hlt, rfl⟩⟩
    · exact addCount_of_present hs hi ht
    · rw [addCount_of_absent hs hnew ht, if_neg hlt.ne]

theorem addCount_keeps_table {t : State} (hs : s.TableOk) (hf : s.mstate ≠ .frozen) (hn : 0 < n)
    (h : addCount sym n s = .ok t) : t.TableOk :=
  (addCount_keeps_model ⟨hs, fun h => absurd h hf⟩ hf hn h).1

/-- `AddCount` does not read the responses given. -/
theorem addCount_outbox {t : State} (hs : s.TableOk) (h : addCount sym n s = .ok t) (o : List Response) :
    addCount sym n { s with outbox := o } = .ok { t with outbox := o } := by
  have hs' : State.TableOk { s with outbox := o } := hs
  obtain ⟨ht, ⟨i, hi, hsym, rfl⟩ | ⟨hnew, hlt, rfl⟩⟩ := (addCount_eq_ok_iff hs).1 h
  · exact (addCount_eq_ok_iff hs').2 ⟨ht, .inl ⟨i, hi, hsym, rfl⟩⟩
  · exact (addCount_eq_ok_iff hs').2 ⟨ht, .inr ⟨hnew, hlt, rfl⟩⟩

/-- Adding `m + n` is adding `m`, which gives the symbol its slot, and then `n` to that slot. -/
theorem addCount_add {m : Nat} {t : State} (hs : s.TableOk) (hf : s.mstate ≠ .frozen) (hm : 0 < m)
    (h : addCount sym (m + n) s = .ok t) : ∃ u, addCount sym m s = .ok u ∧ addCount sym n u = .ok t := by
  obtain ⟨ht, hcase⟩ := (addCount_eq_ok_iff hs).1 h
  have htm : s.total + m ≤ 65535 := by omega
  rcases hcase with ⟨i, hi, rfl, rfl⟩ | ⟨hnew, hlt, rfl⟩
  · have hu := addCount_of_present hs hi htm
    have hc : s.slotCnt i + m ≤ 65535 := by have := hs.slotCnt_le_total hi; omega
    refine ⟨_, hu, (addCount_eq_ok_iff (addCount_keeps_table hs hf hm hu)).2 ⟨?_, .inl ⟨i, hi, rfl, ?_⟩⟩⟩
    · rw [total_grown i htm]; omega
    · exact (grown_grown hc htm).symm
  · have hu : addCount sym m s = .ok (s.extended sym m) := (addCount_eq_ok_iff hs).2 ⟨htm, .inr ⟨hnew, hlt, rfl⟩⟩
    refine ⟨_, hu, (addCount_eq_ok_iff (addCount_keeps_table hs hf hm hu)).2
      ⟨?_, .inl ⟨s.mn.toNat, ?_, slotSym_extended, ?_⟩⟩⟩
    · rw [total_extended htm]; omega
    · rw [mn_extended hlt]; omega
    · exact (extended_grown htm).symm

/-! ### `MCNT` and `MLOAD` -/

/-- The command adds `n` to the count of `sym`: `MCNT` (R135) or `MLOAD` (R136). -/
def State.Adds (s : State) (cmd : Instr) (sym : BitVec 16) (n : Nat) : Prop :=
  (cmd = .mcnt sym ∧ n = 1) ∨ (cmd = .mload sym ∧ n = s.arg.toNat ∧ s.arg ≠ 0#16)

/-- On a table that is not frozen, in `IDLE`, both are legal and are `AddCount`. -/
theorem State.Adds.legal_and_body {cmd : Instr} (h : s.Adds cmd sym n) (hidle : s.sess = .idle)
    (hf : s.mstate ≠ .frozen) :
    s.Legal cmd ∧ bodyOf cmd s = (addCount sym n s >>= fun u => .ok (0#32, u)) := by
  rcases h with ⟨rfl, rfl⟩ | ⟨rfl, rfl, harg⟩
  · exact ⟨⟨hidle, hf⟩, rfl⟩
  · exact ⟨⟨hidle, hf, harg⟩, rfl⟩

theorem State.Adds.exec_of_ok {cmd : Instr} {u : State} (h : s.Adds cmd sym n) (hidle : s.sess = .idle)
    (hf : s.mstate ≠ .frozen) (hu : addCount sym n s = .ok u) : exec cmd s = s.done u 0#32 := by
  obtain ⟨hl, hb⟩ := h.legal_and_body hidle hf
  exact exec_done (.inl (ne_fault_of_idle hidle)) hl (by rw [hb, hu, Comp.bind_ok])

theorem State.Adds.exec_of_raised {cmd : Instr} {e : Err} (h : s.Adds cmd sym n) (hidle : s.sess = .idle)
    (hf : s.mstate ≠ .frozen) (hu : addCount sym n s = raised e) : exec cmd s = s.failed e cmd := by
  obtain ⟨hl, hb⟩ := h.legal_and_body hidle hf
  exact exec_failed (ne_fault_of_idle hidle) hl (by rw [hb, hu]; rfl)

/-- Settles O28. -/
theorem addingAPresentSymbol : Obligations.AddingAPresentSymbol := by
  intro s i cmd n hs hidle hf hi hadds
  have hadds : s.Adds cmd (s.slotSym i) n := hadds
  refine ⟨fun ht => ?_, fun ht => hadds.exec_of_raised hidle hf (addCount_of_over ht)⟩
  have hc : s.slotCnt i + n ≤ 65535 := by have := hs.slotCnt_le_total hi; omega
  exact ⟨s.grown i n, hadds.exec_of_ok hidle hf (addCount_of_present hs hi ht), rfl, slotCnt_grown hc,
    fun j hj => Cells.find_put_other _ _ hj⟩

/-- Settles O29. -/
theorem addingANewSymbol : Obligations.AddingANewSymbol := by
  intro s sym cmd n hs hidle hf hnew hadds
  have hadds : s.Adds cmd sym n := hadds
  refine ⟨fun ht hlt => ?_, fun hfull => hadds.exec_of_raised hidle hf ?_⟩
  · have hu : addCount sym n s = .ok (s.extended sym n) := (addCount_eq_ok_iff hs).2 ⟨ht, .inr ⟨hnew, hlt, rfl⟩⟩
    exact ⟨s.extended sym n, hadds.exec_of_ok hidle hf hu, rfl, slotSym_extended, slotCnt_extended (by omega),
      fun j hj => ⟨Cells.find_put_other _ _ hj, Cells.find_put_other _ _ hj⟩⟩
  · by_cases ht : 65535 < s.total + n
    · exact addCount_of_over ht
    · rw [addCount_of_absent hs hnew (Nat.le_of_not_lt ht), if_pos (hfull.resolve_left ht)]

theorem mcntTimes_succ {t : State} (h : exec (.mcnt sym) s = .next t) : mcntTimes sym (n + 1) s = mcntTimes sym n t := by
  rw [mcntTimes, h]

/-- R136, on the count alone: one `MCNT` after the other adds to the table what `AddCount` adds at once. -/
theorem mcntTimes_of_addCount {t : State} (hs : s.TableOk) (hidle : s.sess = .idle) (hf : s.mstate ≠ .frozen)
    (h : addCount sym (n + 1) s = .ok t) :
    ∃ u, mcntTimes sym (n + 1) s = some u ∧ { u with outbox := [] } = { t with outbox := [] } := by
  induction n generalizing s t with
  | zero =>
    have hexec := State.Adds.exec_of_ok (.inl ⟨rfl, rfl⟩) hidle hf h
    exact ⟨_, mcntTimes_succ hexec, rfl⟩
  | succ n ih =>
    rw [Nat.add_comm (n + 1) 1] at h
    obtain ⟨u, hu, hrest⟩ := addCount_add hs hf Nat.one_pos h
    have hexec := State.Adds.exec_of_ok (.inl ⟨rfl, rfl⟩) hidle hf hu
    have hus := addCount_keeps_table hs hf Nat.one_pos hu
    obtain ⟨a, b, c, d, rfl⟩ := addCount_update hu
    obtain ⟨v, hv, hvt⟩ := ih (s := { s with
      mtSym := a, mtCnt := b, mn := c, mtotal := d, mstate := .building, outbox := s.outbox ++ [⟨none, 0#32⟩] })
      hus hidle nofun (addCount_outbox hus hrest _)
    exact ⟨v, (mcntTimes_succ hexec).trans hv, hvt⟩

/-- Settles O30, by induction on `ARG`: `MLOAD` is one `AddCount` of `ARG`, which splits off one `MCNT` at a time. -/
theorem mloadIsRepeatedMcnt : Obligations.MloadIsRepeatedMcnt := by
  intro s t sym hs h
  obtain ⟨⟨hidle, hf, harg⟩, hb⟩ := exec_eq_done h
  obtain ⟨u, hu, hut⟩ := Comp.bind_eq_ok.1 hb
  cases hut
  obtain ⟨n, hn⟩ := Nat.exists_eq_succ_of_ne_zero fun h0 => harg (BitVec.eq_of_toNat_eq h0)
  rw [hn] at hu ⊢
  exact mcntTimes_of_addCount (t := { t with outbox := s.outbox }) hs hidle hf hu

end Sys2Proof.Machine
end

section
/-! SUPPORT. `MFIN` (spec R137, R138, obligation O31): its exact frame; and for the modes `CV` and `V`, whose keys do not look
at the slot's index, that the CDF is the one rising listing of the (symbol, count) pairs (R142, obligation O33). -/

namespace Sys2Proof.Machine

variable {s t u v : State} {o : OrdMode}

/-! ### `MFIN` -/

theorem mfinBody_of_empty (h : s.mstate = .empty) : mfinBody o s = .error (.raised .emptyInput) :=
  Comp.bind_eq_error.2 (.inl (raiseIf_error.2 ⟨h, rfl⟩))

/-- `MFIN` sorts as many slots as the table has symbols. -/
theorem length_sortSlots {slots : List Slot} (hs : s.TableOk) (h : readSlots s (List.range s.mn.toNat) = .ok slots) :
    (sortSlots o slots).length = s.mn.toNat := by
  obtain ⟨-, hlen, -⟩ := readSlots_table hs h
  exact (sortSlots_perm o slots).length_eq.trans hlen

theorem mfinBody_total (hs : s.TableOk) (h : s.mstate ≠ .empty) : ∃ u, mfinBody o s = .ok (0#32, u) := by
  obtain ⟨slots, hread⟩ := readSlots_total hs fun _ => List.mem_range.1
  have hcap : 0 + (sortSlots o slots).length ≤ Config.aMax := by
    rw [Nat.zero_add, length_sortSlots hs hread]; exact hs.1
  obtain ⟨t, ht⟩ := writeCdf_total (c := 0) (s := s) hcap
  exact ⟨_, Comp.bind_eq_ok.2 ⟨(), raiseIf_ok.2 h, Comp.bind_eq_ok.2 ⟨slots, hread, Comp.bind_eq_ok.2 ⟨t, ht, rfl⟩⟩⟩⟩

/-- What `MFIN` leaves as it is: everything but `ORDER`, `CLOW`, `MORD` and `MSTATE`, and of the first two the cells from
`MN` up. -/
theorem mfinBody_update {d : Word} (hs : s.TableOk) (h : mfinBody o s = .ok (d, u)) :
    u = { s with order := u.order, clow := u.clow, mord := o, mstate := .frozen } ∧
      ∀ a, s.mn.toNat ≤ a → u.order.find a = s.order.find a ∧ u.clow.find a = s.clow.find a := by
  obtain ⟨-, slots, t, hread, hw, -, rfl⟩ := mfinBody_ok h
  obtain ⟨ht, -, hframe⟩ := writeCdf_ok hw
  refine ⟨by rw [ht], fun a ha => hframe a (.inr ?_)⟩
  rwa [Nat.zero_add, length_sortSlots hs hread]

/-- Settles O31: the loop writes the sorted slots and their running sums inside the tables, so `MFIN` completes. -/
theorem mfinSortsAndSums : Obligations.MfinSortsAndSums := by
  intro s o hs hidle
  have hfault := ne_fault_of_idle hidle
  refine ⟨fun hbuild => ?building, fun hempty => ?empty⟩
  case building =>
    obtain ⟨u, hu⟩ := mfinBody_total (o := o) hs (by simp [hbuild])
    obtain ⟨hupdate, hframe⟩ := mfinBody_update hs hu
    exact ⟨u, exec_done (.inl hfault) ⟨hidle, by simp [hbuild]⟩ hu, hupdate, (mfinBody_keeps_model hs hu).2, hframe⟩
  case empty => exact exec_failed hfault ⟨hidle, by simp [hempty]⟩ (mfinBody_of_empty hempty)

/-! ### The (symbol, count) pairs of a model -/

/-- The symbol and the count of slot `i`, its index forgotten. -/
def State.valueAt (s : State) (i : Nat) : Slot := { s.slotAt i with idx := 0 }

/-- The (symbol, count) pairs in the order of the ordinals. -/
def State.valuesByOrdinal (s : State) : List Slot := (List.range s.mn.toNat).map fun k => s.valueAt (s.slotOf k)

theorem valueAt_eq_iff {i : Nat} {a : Slot} :
    s.valueAt i = a ↔ a.idx = 0 ∧ s.slotSym i = a.sym ∧ s.slotCnt i = a.cnt.toNat := by
  obtain ⟨idx, sym, cnt⟩ := a
  simp only [State.valueAt, State.slotAt, State.slotCnt, Slot.mk.injEq, BitVec.toNat_inj, eq_comm (a := 0)]

theorem valueAt_congr (hsym : s.mtSym = t.mtSym) (hcnt : s.mtCnt = t.mtCnt) : s.valueAt = t.valueAt := by
  funext i
  simp only [State.valueAt, State.slotAt, State.slotSym, hsym, hcnt]

/-- The keys of `CV` and `V` do not look at the index (R138). -/
theorem keyBefore_of_values (ho : o = .cv ∨ o = .v) (a b : Slot) :
    keyBefore o { a with idx := 0 } { b with idx := 0 } = keyBefore o a b := by
  rcases ho with rfl | rfl <;> rfl

/-- The ordinals list the pairs of the table. -/
theorem mem_valuesByOrdinal (hu : u.ModelOk) (hf : u.mstate = .frozen) {a : Slot} :
    a ∈ u.valuesByOrdinal ↔ ∃ i < u.mn.toNat, u.valueAt i = a := by
  simp only [State.valuesByOrdinal, List.mem_map, List.mem_range]
  constructor
  · rintro ⟨k, hk, h⟩
    exact ⟨u.slotOf k, slotOf_lt hu hf hk, h⟩
  · rintro ⟨i, hi, h⟩
    obtain ⟨k, hk, rfl⟩ := Finset.mem_image.1 ((image_slotOf hu hf).symm ▸ Finset.mem_range.2 hi)
    exact ⟨k, Finset.mem_range.1 hk, h⟩

/-- In the modes `CV` and `V` the pairs are listed in strictly rising order of their keys. -/
theorem valuesByOrdinal_sorted (hu : u.ModelOk) (hf : u.mstate = .frozen) (ho : u.mord = .cv ∨ u.mord = .v) :
    u.valuesByOrdinal.Pairwise fun a b => keyBefore u.mord a b = true := by
  obtain ⟨-, hrising⟩ := hu.2 hf
  rw [State.valuesByOrdinal, List.pairwise_map]
  refine List.pairwise_lt_range.imp_of_mem fun {j k} _ hk hjk => ?_
  rw [State.valueAt, State.valueAt, keyBefore_of_values ho]
  exact hrising k (List.mem_range.1 hk) j hjk

/-- A set of pairs has one listing in strictly rising order. -/
theorem valuesByOrdinal_eq (hu : u.ModelOk) (hfu : u.mstate = .frozen) (hv : v.ModelOk) (hfv : v.mstate = .frozen)
    (ho : u.mord = .cv ∨ u.mord = .v) (huv : v.mord = u.mord)
    (hset : ∀ a, (∃ i < u.mn.toNat, u.valueAt i = a) ↔ ∃ i < v.mn.toNat, v.valueAt i = a) :
    u.valuesByOrdinal = v.valuesByOrdinal := by
  have hirrefl : Std.Irrefl fun a b => keyBefore u.mord a b = true := ⟨fun a => by simp [keyBefore_irrefl]⟩
  have hantisymm : Std.Antisymm fun a b => keyBefore u.mord a b = true :=
    ⟨fun a b hab hba => absurd (keyBefore_trans hab hba) (by simp [keyBefore_irrefl])⟩
  refine (valuesByOrdinal_sorted hu hfu ho).eq_of_mem_iff (huv ▸ valuesByOrdinal_sorted hv hfv (huv ▸ ho)) fun a => ?_
  rw [mem_valuesByOrdinal hu hfu, mem_valuesByOrdinal hv hfv, hset]

/-- The listing of the pairs determines every ordinal's symbol, count and lower bound. -/
theorem ordinals_eq_of_values (hu : u.ModelOk) (hfu : u.mstate = .frozen) (hv : v.ModelOk) (hfv : v.mstate = .frozen)
    (hmn : u.mn = v.mn) (h : u.valuesByOrdinal = v.valuesByOrdinal) {k : Nat} (hk : k < u.mn.toNat) :
    u.symOf k = v.symOf k ∧ u.cntOf k = v.cntOf k ∧ u.lowOf k = v.lowOf k := by
  have hval : ∀ j < u.mn.toNat, u.valueAt (u.slotOf j) = v.valueAt (v.slotOf j) := fun j hj => by
    rw [State.valuesByOrdinal, State.valuesByOrdinal, ← hmn] at h
    exact List.map_inj_left.1 h j (List.mem_range.2 hj)
  have hcnt : ∀ j < u.mn.toNat, u.cntOf j = v.cntOf j := fun j hj => congrArg (fun a => a.cnt.toNat) (hval j hj)
  refine ⟨congrArg Slot.sym (hval k hk), hcnt k hk, ?_⟩
  rw [lowOf_eq_markOf hu hfu hk, lowOf_eq_markOf hv hfv (hmn ▸ hk)]
  exact Finset.sum_congr rfl fun j hj => hcnt j ((Finset.mem_range.1 hj).trans hk)

/-- Where `MFIN` completes, the model is frozen, consistent, in its mode's order, and over the same table. -/
theorem mfinBody_freezes {d : Word} (hs : s.TableOk) (h : mfinBody o s = .ok (d, u)) :
    u.ModelOk ∧ u.mstate = .frozen ∧ u.mord = o ∧ u.mn = s.mn ∧ u.valueAt = s.valueAt := by
  have hmodel := mfinBody_keeps_model hs h
  obtain ⟨hupdate, -⟩ := mfinBody_update hs h
  exact ⟨hmodel, by rw [hupdate], by rw [hupdate], by rw [hupdate],
    valueAt_congr (by rw [hupdate]) (by rw [hupdate])⟩

theorem exec_mfin_freezes {d : Word} (hs : s.TableOk) (h : exec (.mfin o) s = s.done u d) :
    u.ModelOk ∧ u.mstate = .frozen ∧ u.mord = o ∧ u.mn = s.mn ∧ u.valueAt = s.valueAt :=
  mfinBody_freezes (u := { u with outbox := s.outbox }) hs (exec_eq_done h).2

/-- Settles O33: both CDFs list the same pairs in strictly rising order of keys that do not depend on the slots. -/
theorem valueOrderingsIgnoreInsertionOrder : Obligations.ValueOrderingsIgnoreInsertionOrder := by
  intro s t u v o ho hs ht hmn hpairs hu hv k hk
  obtain ⟨hum, huf, huo, hun, huval⟩ := exec_mfin_freezes hs hu
  obtain ⟨hvm, hvf, hvo, hvn, hvval⟩ := exec_mfin_freezes ht hv
  have hset : ∀ a, (∃ i < u.mn.toNat, u.valueAt i = a) ↔ ∃ i < v.mn.toNat, v.valueAt i = a := fun a => by
    simp only [hun, hvn, huval, hvval, valueAt_eq_iff, and_left_comm (b := a.idx = 0), exists_and_left,
      hpairs a.sym a.cnt.toNat]
  have hvalues := valuesByOrdinal_eq hum huf hvm hvf (huo ▸ ho) (hvo.trans huo.symm) hset
  exact ordinals_eq_of_values hum huf hvm hvf (by rw [hun, hvn, hmn]) hvalues (hun ▸ hk)

end Sys2Proof.Machine
end

section
/-! SUPPORT. The lookups of a consistent frozen model, read exactly (spec R130, R131): the symbol of an ordinal, a position in
an interval, and what lies outside them (`MTOT`, `MIVL`, `MSAT` of R139 to R141 and the encoders; obligations O34 and O35). -/

namespace Sys2Proof.Machine

section
variable {s : State} (hs : s.ModelOk) (hf : s.mstate = .frozen)
include hs hf

/-- No symbol has two ordinals. -/
theorem symOf_inj {j k : Nat} (hj : j < s.mn.toNat) (hk : k < s.mn.toNat) (h : s.symOf j = s.symOf k) : j = k :=
  slotOf_injOn hs hf (by simpa using hj) (by simpa using hk)
    (hs.1.slotSym_inj (slotOf_lt hs hf hj) (slotOf_lt hs hf hk) h)

theorem ordinal_symOf {k : Nat} (hk : k < s.mn.toNat) :
    ordinal s (s.symOf k) = .ok ⟨k, s.symOf k, s.cntOf k, s.lowOf k⟩ := by
  rcases ordinal_total (sym := s.symOf k) (entry_total hs hf) with ⟨e, he⟩ | ⟨-, hnone⟩
  · obtain ⟨j, hj, rfl, hsym⟩ := ordinal_eq hs hf he
    rw [he, symOf_inj hs hf hj hk hsym]
  · obtain ⟨e, he, hne⟩ := hnone k hk
    rw [entry_of_lt hs hf hk] at he
    exact absurd (Except.ok.inj he ▸ rfl) hne

theorem ordinal_of_absent {sym : BitVec 16} (h : ∀ k < s.mn.toNat, s.symOf k ≠ sym) :
    ordinal s sym = raised .alphabetMismatch := by
  rcases ordinal_total (sym := sym) (entry_total hs hf) with ⟨e, he⟩ | ⟨hraised, -⟩
  · obtain ⟨k, hk, -, hsym⟩ := ordinal_eq hs hf he
    exact absurd hsym (h k hk)
  · exact hraised

theorem symbolAt_of_interval {pos k : Nat} (hk : k < s.mn.toNat) (h1 : s.lowOf k ≤ pos) (h2 : pos < s.highOf k) :
    symbolAt s pos = .ok ⟨k, s.symOf k, s.cntOf k, s.lowOf k⟩ := by
  rcases symbolAt_total (pos := pos) (entry_total hs hf) with ⟨e, he⟩ | ⟨-, hnone⟩
  · obtain ⟨j, hj, rfl, h3, h4⟩ := symbolAt_eq hs hf he
    rw [he, interval_unique hs hf hj hk h3 h4 h1 h2]
  · obtain ⟨e, he, hout⟩ := hnone k hk
    rw [entry_of_lt hs hf hk] at he
    exact absurd (Except.ok.inj he ▸ ⟨h1, h2⟩) hout

theorem symbolAt_of_total_le {pos : Nat} (h : s.total ≤ pos) : symbolAt s pos = raised .corruptStream := by
  rcases symbolAt_total (pos := pos) (entry_total hs hf) with ⟨e, he⟩ | ⟨hraised, -⟩
  · obtain ⟨k, hk, -, -, hlt⟩ := symbolAt_eq hs hf he
    exact absurd (hlt.trans_le (highOf_le_total hs hf hk)) (Nat.not_lt.2 h)
  · exact hraised

end

/-- Settles O34. -/
theorem modelLookupsRespond : Obligations.ModelLookupsRespond := by
  intro s hs hf hfault
  refine ⟨?mtot, fun k hk => ?mivl, fun pos => ⟨fun k hk h1 h2 => ?msat, fun hpos => ?outside⟩⟩
  case mtot => exact exec_done (.inl hfault) hf rfl
  case mivl => exact exec_done (.inl hfault) hf (Comp.bind_eq_ok.2 ⟨_, ordinal_symOf hs hf hk, rfl⟩)
  case msat => exact exec_done (.inl hfault) hf (Comp.bind_eq_ok.2 ⟨_, symbolAt_of_interval hs hf hk h1 h2, rfl⟩)
  case outside => exact exec_failed hfault hf (Comp.bind_eq_error.2 (.inl (symbolAt_of_total_le hs hf hpos)))

/-- Settles O35: each of the four looks its symbol up before anything else. -/
theorem absentSymbolRaisesAlphabetMismatch : Obligations.AbsentSymbolRaisesAlphabetMismatch := by
  intro s sym hs hf habsent
  have hlookup := ordinal_of_absent hs hf habsent
  refine ⟨fun hfault => ?mivl, fun hsess => ?rce, fun hsess => ?rae, fun hsess => ?he⟩
  case mivl => exact exec_failed hfault hf (Comp.bind_eq_error.2 (.inl hlookup))
  case rce => exact exec_failed (by simp [hsess]) hsess (Comp.bind_eq_error.2 (.inl hlookup))
  case rae => exact exec_failed (by simp [hsess]) hsess (Comp.bind_eq_error.2 (.inl hlookup))
  case he => exact exec_failed (by simp [hsess]) hsess (Comp.bind_eq_error.2 (.inl hlookup))

end Sys2Proof.Machine
end

section
/-! SUPPORT. The commands that open and close a session (obligation O36), and the arithmetic of narrowing with the ceiling
(spec R153, R161; obligations O38 and O39). -/

namespace Sys2Proof.Machine

/-- Settles O36: none of these bodies can raise an error, and their rows are what the statement assumes. -/
theorem sessionsOpenAndClose : Obligations.SessionsOpenAndClose := by
  refine ⟨fun s hs hf => ?opens, fun s => ⟨fun hs => ?rcdf, fun hs => ?radf, fun hs => ?hef, fun hs => ?hdf⟩⟩
  case opens =>
    have hidle := ne_fault_of_idle hs
    refine ⟨?rcei, ?raeiRaw, ?raeiStream, fun hv => ⟨?hei, ?hdi⟩⟩
    case rcei => exact exec_done (.inl hidle) ⟨hs, hf⟩ rfl
    case raeiRaw => exact exec_done (.inl hidle) ⟨hs, hf⟩ rfl
    case raeiStream => exact exec_done (.inl hidle) ⟨hs, hf⟩ rfl
    case hei => exact exec_done (.inl hidle) ⟨hs, hf, hv⟩ rfl
    case hdi => exact exec_done (.inl hidle) ⟨hs, hf, hv⟩ rfl
  case rcdf => exact exec_done (.inl (by simp [hs])) hs rfl
  case radf => exact exec_done (.inl (by simp [hs])) hs rfl
  case hef => exact exec_done (.inl (by simp [hs])) hs rfl
  case hdf => exact exec_done (.inl (by simp [hs])) hs rfl

/-! ### Narrowing -/

/-- A lower bound of the target is a lower bound of the offset, by the ceiling. -/
theorem le_target_iff {r t c d : Nat} (hr : 0 < r) (ht : 0 < t) : c ≤ d * t / r ↔ cdiv (r * c) t ≤ d := by
  rw [Nat.le_div_iff_mul_le hr, cdiv_le_iff ht, Nat.mul_comm c]

/-- Settles O38: `le_target_iff` at both bounds. -/
theorem ceilingNarrowingInvertsTheTarget : Obligations.CeilingNarrowingInvertsTheTarget := by
  intro r t cl ch d hr ht
  exact and_congr (le_target_iff hr ht) (by rw [← Nat.not_le, ← Nat.not_le, le_target_iff hr ht])

@[simp] theorem cdiv_zero (t : Nat) : cdiv 0 t = 0 := by
  cases t <;> simp [cdiv]

theorem cdiv_mul_self {t : Nat} (ht : 0 < t) (r : Nat) : cdiv (r * t) t = r :=
  le_antisymm ((cdiv_le_iff ht).2 le_rfl) (Nat.le_of_mul_le_mul_right ((cdiv_le_iff ht).1 le_rfl) ht)

/-- Settles O39: the ceilings of the cumulative values rise strictly from 0 to the range. -/
theorem narrowNestsAndTiles : Obligations.NarrowNestsAndTiles := by
  intro low r t cl ch ht hr hlt hle
  have hrise := cdiv_lt_cdiv ht hr.le hlt
  have htop := cdiv_le_range (r := r) ht hle
  simp only [narrow_fst, narrow_snd, Nat.mul_zero, cdiv_zero, cdiv_mul_self ht]
  exact ⟨by omega, by omega, by omega, rfl, trivial, fun ch' _ => by omega⟩

end Sys2Proof.Machine
end

section
/-! SUPPORT. The bits that a writer appends to the output stream, read back as stream bits (spec R46, R61, R66), and the flush
of `RCEF` (R156, obligation O41). -/

namespace Sys2Proof.Machine

section
variable {s t : State}

/-! ### Appended bits -/

/-- `PutBit` leaves the earlier stream bits as they are. -/
theorem putBit_outBit_of_lt {b : Bool} (h : putBit b s = .ok t) {j : Nat} (hj : j < s.obitlen.toNat) :
    t.outBit j = s.outBit j := by
  by_cases hq : j / 8 = s.obitlen.toNat / 8
  · obtain ⟨v, hv, -, hkept⟩ := putBit_byte h
    obtain ⟨-, old, hold, -⟩ := putBit_ok h
    rcases hold with ⟨h0, -⟩ | ⟨-, hf⟩
    · omega
    · rw [← hq] at hv hf hkept
      rw [outBit_of_find hv, outBit_of_find hf]
      exact hkept (j % 8) (by omega) old hf
  · obtain ⟨-, hf⟩ := putBit_frame h
    rw [State.outBit, hf _ hq, State.outBit]

/-- `PutBit` makes its bit the next stream bit. -/
theorem putBit_outBit_self {b : Bool} (h : putBit b s = .ok t) : t.outBit s.obitlen.toNat = b := by
  obtain ⟨v, hv, hb, -⟩ := putBit_byte h
  rw [outBit_of_find hv, hb]

theorem putBit_outBits {b : Bool} (hr : s.obitlen.toNat + 1 ≤ 8 * Config.bufCap) (h : putBit b s = .ok t) :
    t.outBits = s.outBits ++ [b] := by
  rw [State.outBits, putBit_obitlen hr h, List.range_succ, List.map_append, List.map_singleton, putBit_outBit_self h]
  exact congrArg (· ++ [b]) (List.map_congr_left fun j hj => putBit_outBit_of_lt h (List.mem_range.1 hj))

/-- The written bits follow the stream bits there were, in order. -/
theorem putBits_outBits {bs : List Bool} (hr : s.obitlen.toNat + bs.length ≤ 8 * Config.bufCap)
    (h : putBits bs s = .ok t) : t.outBits = s.outBits ++ bs := by
  induction bs generalizing s with
  | nil => cases h; simp
  | cons b bs ih =>
    obtain ⟨u, h1, h2⟩ := putBits_cons_ok.1 h
    rw [List.length_cons] at hr
    have hn := putBit_obitlen (by omega) h1
    rw [ih (by omega) h2, putBit_outBits (by omega) h1, List.append_assoc, List.singleton_append]

theorem putBits_obitlen {bs : List Bool} (hr : s.obitlen.toNat + bs.length ≤ 8 * Config.bufCap)
    (h : putBits bs s = .ok t) : t.obitlen.toNat = s.obitlen.toNat + bs.length := by
  rw [(putBits_frame hr h).1]
  exact obitlen_add rfl hr

/-- Bits that fit are appended, and nothing else changes: no byte but from that of the first bit to that of the last. -/
theorem putBits_appends (hs : s.OutputOk) {bs : List Bool} (hr : s.obitlen.toNat + bs.length ≤ 8 * Config.bufCap) :
    ∃ t, putBits bs s = .ok t ∧ t = { s with obuf := t.obuf, obitlen := t.obitlen } ∧ t.outBits = s.outBits ++ bs ∧
      s.OutputFrame t (s.obitlen.toNat / 8) t.olen := by
  obtain ⟨t, ht⟩ := putBits_total hs hr
  obtain ⟨hupd, hbytes⟩ := putBits_frame hr ht
  refine ⟨t, ht, ?_, putBits_outBits hr ht, ?_, by rw [hupd]⟩
  · rw [hupd]
  · rwa [State.olen, putBits_obitlen hr ht]

end

/-! ### `RCEF` -/

@[simp] theorem flushBits_length (s : State) : (flushBits s).length = s.rcPend.toNat + 2 := by simp [flushBits]

/-- Settles O41: the flush is one `emit` of `RC_PEND + 1` pending bits. -/
theorem rcefFlushesAndCloses : Obligations.RcefFlushesAndCloses := by
  intro s hs hsess hr
  have hr : s.obitlen.toNat + (flushBits s).length ≤ 8 * Config.bufCap := by rw [flushBits_length]; omega
  obtain ⟨t, ht, hupd, hbits, hframe⟩ := putBits_appends hs hr
  have hbody : rcefBody s = .ok (0#32, { t with rcPend := 0#32, sess := .idle }) :=
    Comp.bind_eq_ok.2 ⟨(), raiseIf_ok.2 (by simpa using hr), Comp.bind_eq_ok.2 ⟨t, ht, rfl⟩⟩
  exact ⟨{ t with rcPend := 0#32, sess := .idle }, exec_done (.inl (by simp [hsess])) hsess hbody, by rw [hupd], hbits,
    hframe⟩

end Sys2Proof.Machine
end

section
/-! SUPPORT. Runs of stream bits as numbers, first bit most significant (spec R61), and the window `RCDI` loads (R68, R157,
obligation O42). -/

namespace Sys2Proof.Machine

/-! ### Runs of bits -/

/-- The number whose `n` binary digits are the bits of `f` from `p` on, most significant first. -/
def bitsValue (f : Nat → Bool) (p : Nat) : Nat → Nat
  | 0 => 0
  | n + 1 => 2 * bitsValue f p n + (f (p + n)).toNat

section
variable (f : Nat → Bool) (p : Nat)

@[simp] theorem bitsValue_zero : bitsValue f p 0 = 0 := rfl

theorem bitsValue_succ (n : Nat) : bitsValue f p (n + 1) = 2 * bitsValue f p n + (f (p + n)).toNat := rfl

theorem bitsValue_one : bitsValue f p 1 = (f p).toNat := by simp [bitsValue]

theorem bitsValue_lt (n : Nat) : bitsValue f p n < 2 ^ n := by
  induction n with
  | zero => simp
  | succ n ih =>
    have := Bool.toNat_le (f (p + n))
    rw [bitsValue_succ, Nat.pow_succ]
    omega

/-- A run in two parts. -/
theorem bitsValue_add (m n : Nat) : bitsValue f p (m + n) = bitsValue f p m * 2 ^ n + bitsValue f (p + m) n := by
  induction n with
  | zero => simp
  | succ n ih =>
    rw [← Nat.add_assoc, bitsValue_succ, ih, bitsValue_succ, Nat.pow_succ, Nat.add_assoc p]
    ring

/-- The digits of the number are the bits. -/
theorem testBit_bitsValue {n j : Nat} (hj : j < n) : (bitsValue f p n).testBit (n - 1 - j) = f (p + j) := by
  induction n with
  | zero => omega
  | succ n ih =>
    rw [bitsValue_succ]
    rcases Nat.lt_succ_iff_lt_or_eq.1 hj with hj | rfl
    · rw [show n + 1 - 1 - j = n - 1 - j + 1 by omega, Nat.testBit_succ, ← ih hj]
      have := Bool.toNat_le (f (p + n))
      congr 1
      omega
    · rw [Nat.add_sub_cancel, Nat.sub_self, Nat.testBit_zero]
      cases f (p + j) <;> simp

end

/-! ### Reading the input stream -/

section
variable {s u : State}

/-- R68: `GetBit` reads the stream bit, 0 past the end. -/
theorem getBit_eq_inBit (hs : s.InputOk) (i : Nat) : getBit s i = .ok (s.inBit i) := by
  obtain ⟨b, hb⟩ := getBit_total hs i
  rw [hb]
  rcases getBit_ok.1 hb with ⟨hi, rfl⟩ | ⟨hi, v, -, hv, rfl⟩
  · simp [State.inBit, Nat.not_lt.2 hi]
  · simp [State.inBit, hi, hv]

theorem State.SameInput.inBit (h : s.SameInput u) : s.inBit = u.inBit := by
  obtain ⟨h1, h2, h3, -⟩ := h
  funext j
  rw [State.inBit, State.inBit, State.ibitlen, State.ibitlen, h1, h2, h3]

theorem loadWindow_range' (hs : s.InputOk) (p n v : Nat) :
    loadWindow s (List.range' p n) v = .ok (v * 2 ^ n + bitsValue s.inBit p n) := by
  induction n generalizing p v with
  | zero => simp [loadWindow]
  | succ n ih =>
    rw [List.range'_succ, loadWindow, getBit_eq_inBit hs, Comp.bind_ok, ih, Nat.add_comm n 1, bitsValue_add,
      bitsValue_one, Nat.pow_add]
    exact congrArg _ (by ring)

theorem rcdiBody_eq (hs : s.InputOk) : rcdiBody s = .ok (0#32, { s with
    rcLow := 0#32, rcHigh := word Config.rcTop, rcValue := word (bitsValue s.inBit 0 32), ibp := 32#32, symcnt := 0#32,
    sess := .rcDec }) := by
  rw [rcdiBody, List.range_eq_range', loadWindow_range' hs, Nat.zero_mul, Nat.zero_add]
  rfl

/-- Settles O42: the window is the number of the first 32 stream bits. -/
theorem rcdiLoadsTheWindow : Obligations.RcdiLoadsTheWindow := by
  intro s hs hidle hf
  refine ⟨_, exec_done (.inl (ne_fault_of_idle hidle)) ⟨hidle, hf⟩ (rcdiBody_eq hs), fun j hj => ?_⟩
  have hbit := testBit_bitsValue s.inBit 0 hj
  rw [Nat.zero_add] at hbit
  rw [word, BitVec.getLsbD_ofNat, ← hbit]
  simp only [show 31 - j < 32 by omega, decide_true, Bool.true_and]

end

end Sys2Proof.Machine
end

section
/-! SUPPORT. `RenormE` (spec R154, R155) pass by pass: which of its three cases an interval is in, what each pass leaves and
emits, how many passes there are, and how the pending count it starts with shows in its result. -/

namespace Sys2Proof.Machine

/-! ### The cases of a pass -/

/-- Where the half of `[0, 2^32)` starts whose numbers have the top bit `b`. -/
def halfOf (b : Bool) : Nat := if b then Config.rcHalf else 0

@[simp] theorem halfOf_false : halfOf false = 0 := rfl
@[simp] theorem halfOf_true : halfOf true = 0x80000000 := rfl

/-- The interval lies in one half: the next stream bit is decided (R154, the first two cases). -/
def Decides (b : Bool) (nl nh : Nat) : Prop := halfOf b ≤ nl ∧ nh < halfOf b + Config.rcHalf

/-- The interval lies in the middle half around `2^31` (R154, the third case). -/
def Straddles (nl nh : Nat) : Prop :=
  nl < Config.rcHalf ∧ Config.rcHalf ≤ nh ∧ Config.rcQtr ≤ nl ∧ nh < Config.rc3Qtr

theorem pass_cases (nl : Nat) {nh : Nat} (h : nh < 2 ^ 32) : (∃ b, Decides b nl nh) ∨ Straddles nl nh ∨ Settled nl nh := by
  simp only [Bool.exists_bool, Decides, Straddles, Settled, halfOf_false, halfOf_true, Config.rcHalf, Config.rcQtr,
    Config.rc3Qtr]
  omega

section
variable {nl nh : Nat} {b : Bool}

theorem Decides.next (h : Decides b nl nh) (hle : nl ≤ nh) :
    2 * (nl - halfOf b) ≤ 2 * (nh - halfOf b) + 1 ∧ 2 * (nh - halfOf b) + 1 < 2 ^ 32 := by
  unfold Decides Config.rcHalf at h
  omega

theorem Straddles.next (h : Straddles nl nh) :
    2 * (nl - Config.rcQtr) < Config.rcHalf ∧ Config.rcHalf ≤ 2 * (nh - Config.rcQtr) + 1 ∧
      2 * (nh - Config.rcQtr) + 1 < 2 ^ 32 := by
  simp only [Straddles, Config.rcHalf, Config.rcQtr, Config.rc3Qtr] at *
  omega

theorem Straddles.qtr_le (h : Straddles nl nh) : Config.rcQtr ≤ nl := by
  obtain ⟨-, -, hq, -⟩ := h
  exact hq

end

/-! ### What a pass does -/

/-- A result with bits emitted before it. -/
def Renormed.after (bits : List Bool) (r : Renormed) : Renormed := { r with out := bits ++ r.out }

/-- The bits emitted earlier do not show in what the later passes do. -/
theorem renormE_out (tests nl nh pend : Nat) (out : List Bool) :
    renormE tests nl nh pend out = (renormE tests nl nh pend []).map (Renormed.after out) := by
  induction tests generalizing nl nh pend out with
  | zero => rfl
  | succ tests ih =>
    have hemit (bits : List Bool) (nl nh : Nat) : renormE tests nl nh 0 (out ++ bits) =
        (renormE tests nl nh 0 ([] ++ bits)).map (Renormed.after out) := by
      rw [ih _ _ _ (out ++ bits), ih _ _ _ ([] ++ bits)]
      cases renormE tests nl nh 0 [] <;> simp [Except.map, Renormed.after]
    unfold renormE
    split
    · exact hemit _ _ _
    · split
      · exact hemit _ _ _
      · split
        · split
          · rfl
          · exact ih _ _ _ _
        · simp [Except.map, Renormed.after]

section
variable {tests nl nh pend : Nat} {b : Bool}

/-- R154, R155: a decided bit goes out with the pending bits, and its half is doubled. -/
theorem renormE_of_decides (hle : nl ≤ nh) (h : Decides b nl nh) : renormE (tests + 1) nl nh pend [] =
    (renormE tests (2 * (nl - halfOf b)) (2 * (nh - halfOf b) + 1) 0 []).map (Renormed.after (emit b pend)) := by
  rw [← renormE_out, renormE]
  unfold Decides at h
  simp only [Config.rcHalf] at *
  cases b with
  | false =>
    rw [halfOf_false] at h
    rw [if_pos (by omega)]
    rfl
  | true =>
    rw [halfOf_true] at h
    rw [if_neg (by omega), if_pos (by omega)]
    rfl

/-- R154: a straddle pass doubles the middle half and leaves one more bit pending. -/
theorem renormE_of_straddles (h : Straddles nl nh) : renormE (tests + 1) nl nh pend [] =
    if 0xFFFFFFFF < pend + 1 then raised .capacity
    else renormE tests (2 * (nl - Config.rcQtr)) (2 * (nh - Config.rcQtr) + 1) (pend + 1) [] := by
  obtain ⟨h1, h2, h3⟩ := h
  rw [renormE, if_neg (Nat.not_lt.2 h2), if_neg (Nat.not_le.2 h1), if_pos h3]

theorem renormE_of_settled (h : Settled nl nh) : renormE (tests + 1) nl nh pend [] = .ok ⟨nl, nh, pend, []⟩ := by
  obtain ⟨h1, h2, h3⟩ := h
  rw [renormE, if_neg h1, if_neg h2, if_neg h3]

end

/-! ### What all passes do -/

section
variable {tests nl nh pend : Nat} {r : Renormed}

/-- A pass that decides a bit, in a run that ends with a result. -/
theorem renormE_ok_of_decides {b : Bool} (hle : nl ≤ nh) (hd : Decides b nl nh)
    (h : renormE (tests + 1) nl nh pend [] = .ok r) :
    ∃ r', renormE tests (2 * (nl - halfOf b)) (2 * (nh - halfOf b) + 1) 0 [] = .ok r' ∧ r = r'.after (emit b pend) := by
  rw [renormE_of_decides hle hd] at h
  cases hr : renormE tests (2 * (nl - halfOf b)) (2 * (nh - halfOf b) + 1) 0 [] with
  | error e => rw [hr] at h; cases h
  | ok r' => rw [hr] at h; exact ⟨r', rfl, (Except.ok.inj h).symm⟩

/-- A straddle pass, in a run that ends with a result. -/
theorem renormE_ok_of_straddles (hs : Straddles nl nh) (h : renormE (tests + 1) nl nh pend [] = .ok r) :
    renormE tests (2 * (nl - Config.rcQtr)) (2 * (nh - Config.rcQtr) + 1) (pend + 1) [] = .ok r := by
  rw [renormE_of_straddles hs] at h
  split at h
  · cases h
  · exact h

theorem after_length (bits : List Bool) (r : Renormed) : (r.after bits).out.length = bits.length + r.out.length :=
  List.length_append

/-- No pending bit is lost. -/
theorem renormE_grows (h1 : nl ≤ nh) (h2 : nh < 2 ^ 32) (h : renormE tests nl nh pend [] = .ok r) :
    pend ≤ r.out.length + r.pend := by
  induction tests generalizing nl nh pend r with
  | zero => cases h
  | succ tests ih =>
    rcases pass_cases nl h2 with ⟨b, hd⟩ | hs | hs
    · obtain ⟨r', -, rfl⟩ := renormE_ok_of_decides h1 hd h
      rw [after_length, emit_length]
      omega
    · obtain ⟨g1, g2, g3⟩ := hs.next
      have := ih (by omega) g3 (renormE_ok_of_straddles hs h)
      omega
    · rw [renormE_of_settled hs] at h
      cases h
      exact Nat.le_add_left _ _

/-- The width doubles every pass, so `n` passes do for an interval of width `2^(32 - n)`, and each makes one bit more,
emitted or pending. -/
theorem renormE_within {n : Nat} (h1 : nl ≤ nh) (h2 : nh < 2 ^ 32) (hw : 2 ^ 32 ≤ (nh - nl + 1) * 2 ^ n) (hn : n < tests)
    (hp : pend + n < 2 ^ 32) : ∃ r, renormE tests nl nh pend [] = .ok r ∧ r.out.length + r.pend ≤ pend + n := by
  obtain ⟨tests, rfl⟩ := Nat.exists_eq_succ_of_ne_zero (Nat.ne_zero_of_lt hn)
  induction n generalizing tests nl nh pend with
  | zero =>
    have hs : Settled nl nh := by
      unfold Settled Config.rcHalf Config.rcQtr Config.rc3Qtr
      omega
    exact ⟨_, renormE_of_settled hs, by simp⟩
  | succ n ih =>
    obtain ⟨tests, rfl⟩ := Nat.exists_eq_succ_of_ne_zero (n := tests) (by omega)
    have hdouble (a c : Nat) (ha : a = 2 * (nh - nl) + 1) (hc : c = a + 1) : 2 ^ 32 ≤ c * 2 ^ n := by
      rw [hc, ha, show 2 * (nh - nl) + 1 + 1 = (nh - nl + 1) * 2 by ring, Nat.mul_assoc, ← Nat.pow_succ']
      exact hw
    rcases pass_cases nl h2 with ⟨b, hd⟩ | hs | hs
    · obtain ⟨g1, g2⟩ := hd.next h1
      have hb := hd.1
      obtain ⟨r, hr, hlen⟩ := ih (pend := 0) g1 g2 (hdouble _ _ rfl (by omega)) (by omega) tests (by omega)
      rw [renormE_of_decides h1 hd, hr]
      refine ⟨_, rfl, ?_⟩
      rw [after_length, emit_length]
      simp only [Renormed.after]
      omega
    · obtain ⟨g1, g2, g3⟩ := hs.next
      have hb := hs.qtr_le
      obtain ⟨r, hr, hlen⟩ := ih (nl := 2 * (nl - Config.rcQtr)) (pend := pend + 1) (by omega) g3
        (hdouble _ _ rfl (by omega)) (by omega) tests (by omega)
      rw [renormE_of_straddles hs, if_neg (by omega)]
      exact ⟨r, hr, by omega⟩
    · exact ⟨_, renormE_of_settled hs, by simp⟩

/-! ### The pending count at the start -/

/-- An interval with `2^31` inside keeps it inside, so no pass emits a bit; `p` more bits pending at the start are `p` more
at the end, or too many for `RC_PEND`. -/
theorem renormE_of_around_half {q : Renormed} (p : Nat) (h1 : nl < Config.rcHalf) (h2 : Config.rcHalf ≤ nh)
    (h3 : nh < 2 ^ 32) (hq : renormE tests nl nh pend [] = .ok q) :
    q.out = [] ∧ pend ≤ q.pend ∧
    (q.pend + p < 2 ^ 32 → renormE tests nl nh (pend + p) [] = .ok { q with pend := q.pend + p }) ∧
    (2 ^ 32 ≤ q.pend + p → pend + p < 2 ^ 32 → renormE tests nl nh (pend + p) [] = raised .capacity) := by
  induction tests generalizing nl nh pend with
  | zero => cases hq
  | succ tests ih =>
    rcases pass_cases nl h3 with ⟨b, hd⟩ | hs | hs
    · unfold Decides Config.rcHalf at *
      cases b <;> simp only [halfOf_false, halfOf_true] at hd <;> omega
    · obtain ⟨g1, g2, g3⟩ := hs.next
      obtain ⟨hout, hle, hok, hraise⟩ := ih g1 g2 g3 (renormE_ok_of_straddles hs hq)
      rw [Nat.add_right_comm] at hok hraise
      rw [renormE_of_straddles hs]
      refine ⟨hout, by omega, fun hlt => ?_, fun hge hlt => ?_⟩
      · rw [if_neg (by omega)]; exact hok hlt
      · split
        · rfl
        · exact hraise hge (by omega)
    · rw [renormE_of_settled hs] at hq
      cases hq
      exact ⟨rfl, le_rfl, fun _ => renormE_of_settled hs, fun hge hlt => absurd hlt (Nat.not_lt.2 hge)⟩

/-- R154: the pending count overflows only where no bit is emitted, and otherwise adds at most itself to the bits. -/
theorem renormE_of_pend {q : Renormed} (h1 : nl ≤ nh) (h2 : nh < 2 ^ 32) (hp : pend < 2 ^ 32)
    (hq : renormE tests nl nh 0 [] = .ok q) :
    (q.out = [] → 2 ^ 32 ≤ pend + q.pend → renormE tests nl nh pend [] = raised .capacity) ∧
    (q.out ≠ [] ∨ pend + q.pend < 2 ^ 32 →
      ∃ r, renormE tests nl nh pend [] = .ok r ∧ r.out.length ≤ pend + q.out.length) := by
  by_cases hh : nl < Config.rcHalf ∧ Config.rcHalf ≤ nh
  · obtain ⟨hout, -, hok, hraise⟩ := renormE_of_around_half pend hh.1 hh.2 h2 hq
    rw [Nat.zero_add] at hok hraise
    refine ⟨fun _ hge => hraise (by omega) hp, fun hor => ⟨_, hok ?_, by simp [hout]⟩⟩
    have := hor.resolve_left (· hout)
    omega
  · cases tests with
    | zero => cases hq
    | succ tests =>
      obtain ⟨b, hd⟩ : ∃ b, Decides b nl nh := by
        rcases pass_cases nl h2 with h | h | h
        · exact h
        · obtain ⟨hlt, hle, -⟩ := h
          exact absurd ⟨hlt, hle⟩ hh
        · obtain ⟨hle, hlt, -⟩ := h
          exact absurd ⟨Nat.lt_of_not_le hlt, Nat.le_of_not_lt hle⟩ hh
      obtain ⟨r', hr, rfl⟩ := renormE_ok_of_decides h1 hd hq
      refine ⟨fun h => by simp [Renormed.after, emit] at h, fun _ => ⟨r'.after (emit b pend), ?_, ?_⟩⟩
      · rw [renormE_of_decides h1 hd, hr]; rfl
      · simp only [after_length, emit_length]; omega

end

end Sys2Proof.Machine
end

section
/-! SUPPORT. `RCE` on a symbol of the model (spec R152 to R154, obligation O40), and the capacity errors of the commands that
write the output stream (R152, R154, R156, R172, R175, R195, obligation O37). -/

namespace Sys2Proof.Machine

section
variable {s : State}

/-! ### The renormalisation of `RCE` -/

theorem State.Inv.modelOk (h : s.Inv) : s.ModelOk := by
  obtain ⟨-, -, -, -, hm, -⟩ := h
  exact hm

theorem State.Inv.outputOk (h : s.Inv) : s.OutputOk := by
  obtain ⟨-, -, ho, -⟩ := h
  exact ho

theorem State.Inv.inputOk (h : s.Inv) : s.InputOk := by
  obtain ⟨-, -, -, hi, -⟩ := h
  exact hi

theorem State.Inv.rangeOk (h : s.Inv) : s.RangeOk := by
  obtain ⟨-, -, -, -, -, -, hr, -⟩ := h
  exact hr

theorem State.Inv.openInterval (h : s.Inv) (hs : s.sess = .rcEnc ∨ s.sess = .rcDec) :
    OpenInterval s.rcLow.toNat s.rcHigh.toNat := (rangeOk_iff.1 h.rangeOk).1 hs

theorem State.Inv.frozen_of_range (h : s.Inv) (hs : s.sess = .rcEnc ∨ s.sess = .rcDec) : s.mstate = .frozen := by
  rcases hs with hs | hs <;> exact h.frozen_of_open (by simp [hs]) (by simp [hs])

/-- R153, R154: a sub-interval is at least `2^14` wide, because the interval is wider than `2^30` and the total below
`2^16`. -/
theorem narrow_width {low r t cl ch : Nat} (ht : 0 < t) (ht16 : t < 2 ^ 16) (hr : 2 ^ 30 ≤ r) (hlt : cl < ch) :
    (narrow low r t cl ch).1 + 2 ^ 14 ≤ (narrow low r t cl ch).2 + 1 := by
  have hceil : ¬ cdiv (r * ch) t ≤ cdiv (r * cl) t + (2 ^ 14 - 1) := by
    rw [cdiv_le_iff ht, Nat.add_mul]
    have h1 := cdiv_mul_lt (a := r * cl) ht
    have h2 : r * cl + r ≤ r * ch := by
      rw [← Nat.mul_succ]; exact Nat.mul_le_mul_left r hlt
    omega
  rw [narrow_fst, narrow_snd]
  omega

theorem OpenInterval.range_ge (h : OpenInterval s.rcLow.toNat s.rcHigh.toNat) : 2 ^ 30 ≤ s.rcRange := by
  obtain ⟨-, h⟩ := h
  simp only [State.rcRange, Config.rcHalf, Config.rcQtr, Config.rc3Qtr] at *
  omega

theorem lowOf_lt_highOf (hm : s.ModelOk) (hf : s.mstate = .frozen) {k : Nat} (hk : k < s.mn.toNat) :
    s.lowOf k < s.highOf k := Nat.lt_add_of_pos_right (cntOf_pos hm hf hk)

/-- R154: started with no pending bit the renormalisation of a symbol ends within 18 passes. -/
theorem rceRenorm_zero (hm : s.ModelOk) (hf : s.mstate = .frozen) (ho : OpenInterval s.rcLow.toNat s.rcHigh.toNat)
    {k : Nat} (hk : k < s.mn.toNat) : ∃ q, s.rceRenorm k 0 = .ok q ∧ q.out.length + q.pend ≤ 18 := by
  obtain ⟨h1, h2⟩ := narrow_bounds hm hf ho hk
  have hwide := narrow_width (low := s.rcLow.toNat) (total_pos hm hf) s.mtotal.isLt ho.range_ge
    (lowOf_lt_highOf hm hf hk)
  have hpow : 2 ^ 32 ≤ ((narrow s.rcLow.toNat s.rcRange s.total (s.lowOf k) (s.highOf k)).2 -
      (narrow s.rcLow.toNat s.rcRange s.total (s.lowOf k) (s.highOf k)).1 + 1) * 2 ^ 18 := by omega
  exact renormE_within (pend := 0) (n := 18) h1 (lt_of_le_of_lt h2 s.rcHigh.isLt) hpow (by decide) (by decide)

/-- The body of `RCE` for the symbol of ordinal `k`: the renormalisation, then the checked write. -/
theorem rceBody_symOf (hm : s.ModelOk) (hf : s.mstate = .frozen) {k : Nat} (hk : k < s.mn.toNat) :
    rceBody (s.symOf k) s = (do
      let r ← s.rceRenorm k s.rcPend.toNat
      raiseIf (s.room r.out.length = false) .capacity
      let t ← putBits r.out s
      .ok (0#32, countSymbol { t with rcLow := word r.nl, rcHigh := word r.nh, rcPend := word r.pend })) := by
  rw [rceBody, ordinal_symOf hm hf hk, Comp.bind_ok]
  rfl

/-- Settles O40: the renormalisation ends by its width, and appending its bits is all that `RCE` does to the stream. -/
theorem rceNarrowsRenormalisesAndAppends : Obligations.RceNarrowsRenormalisesAndAppends := by
  intro s k hinv hsess hk
  have hm := hinv.modelOk
  have hf := hinv.frozen_of_range (.inl hsess)
  have ho := hinv.openInterval (.inl hsess)
  obtain ⟨h1, h2⟩ := narrow_bounds hm hf ho hk
  have h3 := lt_of_le_of_lt h2 s.rcHigh.isLt
  have hp := s.rcPend.isLt
  refine ⟨fun r hr hroom => ?completes, ?ends⟩
  case completes =>
    obtain ⟨t, ht, hupd, hbits, hframe⟩ := putBits_appends hinv.outputOk hroom
    have hbody : rceBody (s.symOf k) s =
        .ok (0#32, countSymbol { t with rcLow := word r.nl, rcHigh := word r.nh, rcPend := word r.pend }) := by
      rw [rceBody_symOf hm hf hk, hr, Comp.bind_ok, raiseIf_ok (u := ()).2 (by simpa using hroom), Comp.bind_ok, ht,
        Comp.bind_ok]
    obtain ⟨g1, g2, -, g4, -⟩ := renormE_ok h1 h3 hr
    exact ⟨_, exec_done (.inl (by simp [hsess])) hsess hbody, by rw [hupd]; rfl, by omega, g2, by omega, hbits, hframe,
      rceBody_keeps_range hm hf hinv.rangeOk hsess hbody⟩
  case ends =>
    obtain ⟨q, hq, hlen⟩ := rceRenorm_zero hm hf ho hk
    refine ⟨q, hq, hlen, fun hor => ?_⟩
    obtain ⟨r, hr, hle⟩ := (renormE_of_pend h1 h3 hp hq).2 hor
    exact ⟨r, hr, by omega⟩

/-! ### Commands whose bits do not fit -/

/-- The capacity check fails, and what would follow it is not done (R219). -/
theorem raiseIf_room_bind {α : Type} {n : Nat} (h : 8 * Config.bufCap < s.obitlen.toNat + n) (f : Unit → Comp α) :
    (raiseIf (s.room n = false) .capacity >>= f) = .error (.raised .capacity) :=
  Comp.bind_eq_error.2 (.inl (raiseIf_error.2 ⟨by simpa using h, rfl⟩))

/-- In STREAM mode an encode step stays below `2^64`, so the capacity check is the first to fail. -/
theorem raeBody_of_full (hm : s.ModelOk) (hf : s.mstate = .frozen) (hrans : s.RansOpen) (hmode : s.raMode = .stream)
    {k y : Nat} {bytes : List Byte} (hk : k < s.mn.toNat)
    (hshift : renormRE (s.cntOf k * 2 ^ 40) Config.raTests s.raState.toNat [] = .ok (y, bytes))
    (hfull : 8 * Config.bufCap < s.obitlen.toNat + 8 * bytes.length) :
    raeBody (s.symOf k) s = .error (.raised .capacity) := by
  have hhigh := highOf_le_total hm hf hk
  unfold State.highOf at hhigh
  have hx : ransShift s ⟨k, s.symOf k, s.cntOf k, s.lowOf k⟩ = .ok (y, bytes) := by rw [ransShift, hmode]; exact hshift
  obtain ⟨hy1, hy2⟩ := ransShift_bounds hrans hmode (by simp only; omega) hx
  obtain ⟨-, hC⟩ := ransC_bounds (cntOf_pos hm hf hk) hhigh hy1 hy2
  have hfits : ransC y (s.cntOf k) (s.lowOf k) s.total < 2 ^ 64 := by
    have := s.mtotal.isLt
    unfold ransLow State.total Config.raK at *
    omega
  rw [raeBody, ordinal_symOf hm hf hk, Comp.bind_ok, hx, Comp.bind_ok]
  exact Comp.bind_eq_error.2 (.inr ⟨(), raiseIf_ok.2 (Nat.not_le.2 hfits), raiseIf_room_bind hfull _⟩)

/-- Settles O37: in each body the capacity error is the first that can be raised, by the check before the write or, in `RCE`,
by the renormalisation. -/
theorem fullOutputBufferRaisesCapacity : Obligations.FullOutputBufferRaisesCapacity := by
  intro s
  refine ⟨fun hsess hfull => ?rcef, fun hsess hfull => ?raef, fun hinv hsess k hk bits hcode hfull => ?he,
    fun hinv hsess k hk => ?rce, fun hinv hsess hmode k hk y bytes hshift hfull => ?rae⟩
  case rcef =>
    exact exec_failed (by simp [hsess]) hsess (raiseIf_room_bind (by rw [flushBits_length]; omega) _)
  case raef => exact exec_failed (by simp [hsess]) hsess (raiseIf_room_bind hfull _)
  case he =>
    have hf := hinv.frozen_of_open (by simp [hsess]) (by simp [hsess])
    refine exec_failed (by simp [hsess]) hsess ?_
    change heBody (s.symOf k) s = _
    rw [heBody, ordinal_symOf hinv.modelOk hf hk, Comp.bind_ok, hcode, Comp.bind_ok]
    exact raiseIf_room_bind hfull _
  case rce =>
    have hm := hinv.modelOk
    have hf := hinv.frozen_of_range (.inl hsess)
    obtain ⟨h1, h2⟩ := narrow_bounds hm hf (hinv.openInterval (.inl hsess)) hk
    have hbody := rceBody_symOf hm hf hk
    refine ⟨fun r hr hfull => ?_, fun q hq hout hover => ?_⟩
    · rw [hr, Comp.bind_ok, raiseIf_room_bind hfull] at hbody
      exact exec_failed (by simp [hsess]) hsess hbody
    · have hraise : s.rceRenorm k s.rcPend.toNat = raised .capacity :=
        (renormE_of_pend h1 (lt_of_le_of_lt h2 s.rcHigh.isLt) s.rcPend.isLt hq).1 hout hover
      rw [hraise] at hbody
      exact exec_failed (by simp [hsess]) hsess hbody
  case rae =>
    have hf := hinv.frozen_of_open (by simp [hsess]) (by simp [hsess])
    obtain ⟨-, -, -, -, hm, -, -, hrans, -⟩ := hinv
    exact exec_failed (by simp [hsess]) hsess (raeBody_of_full hm hf (hrans hsess) hmode hk hshift hfull)

end

end Sys2Proof.Machine
end

section
/-! SUPPORT. `RCD` (spec R158, R159): it always decodes the symbol whose interval holds the target (obligation O43), and that
is the symbol just encoded when the window lies in its sub-interval (R162, obligation O44). -/

namespace Sys2Proof.Machine

/-- The sub-interval of ordinal `k` in the interval of `s` (R153). -/
def State.subinterval (s : State) (k : Nat) : Nat × Nat := narrow s.rcLow.toNat s.rcRange s.total (s.lowOf k) (s.highOf k)

section
variable {s : State}

/-! ### The target -/

/-- R158: a window inside the interval gives a target below the total. -/
theorem rcTarget_lt_total (ht : 0 < s.total) (h1 : s.rcLow.toNat ≤ s.rcValue.toNat)
    (h2 : s.rcValue.toNat ≤ s.rcHigh.toNat) : rcTarget s < s.total := by
  have hr : 0 < s.rcRange := Nat.succ_pos _
  rw [rcTarget, Nat.div_lt_iff_lt_mul hr, Nat.mul_comm]
  exact Nat.mul_lt_mul_of_pos_left (by unfold State.rcRange; omega) ht

/-- R153, R158: a window in a sub-interval gives a target in the interval it was narrowed by. -/
theorem target_of_window {low v r t cl ch : Nat} (ht : 0 < t) (hr : t ≤ r) (hlt : cl < ch)
    (h1 : (narrow low r t cl ch).1 ≤ v) (h2 : v ≤ (narrow low r t cl ch).2) :
    cl ≤ (v - low) * t / r ∧ (v - low) * t / r < ch := by
  have hrise := cdiv_lt_cdiv ht hr hlt
  rw [narrow_fst] at h1
  rw [narrow_snd] at h2
  exact (ceilingNarrowingInvertsTheTarget r t cl ch (v - low) (by omega) ht).2 ⟨by omega, by omega⟩

/-! ### The body of `RCD` -/

/-- The body of `RCD` with the target in the interval of ordinal `k`. -/
theorem rcdBody_of_target (hin : s.InputOk) (hm : s.ModelOk) (hf : s.mstate = .frozen)
    (ho : OpenInterval s.rcLow.toNat s.rcHigh.toNat) {k : Nat} (hk : k < s.mn.toNat) (h1 : s.lowOf k ≤ rcTarget s)
    (h2 : rcTarget s < s.highOf k) :
    ∃ q, renormD s Config.rcTests (s.subinterval k).1 (s.subinterval k).2 s.rcValue.toNat s.ibp.toNat = .ok q ∧
      rcdBody s = .ok (sext32 (s.symOf k), countSymbol { s with
        rcLow := word q.nl, rcHigh := word q.nh, rcValue := word q.v, ibp := word (min q.bp 0xFFFFFFFF) }) := by
  obtain ⟨h3, h4⟩ := narrow_bounds hm hf ho hk
  obtain ⟨q, hq⟩ := renormD_total (getBit_total hin) (tests := 32) (v := s.rcValue.toNat) (bp := s.ibp.toNat) h3
    (lt_of_le_of_lt h4 s.rcHigh.isLt) (Nat.le_mul_of_pos_left _ (Nat.succ_pos _))
  refine ⟨q, hq, ?_⟩
  rw [rcdBody, symbolAt_of_interval hm hf hk h1 h2, Comp.bind_ok]
  exact Comp.bind_eq_ok.2 ⟨q, hq, rfl⟩

/-- Settles O43: the intervals cover every target, so C7's check never fails; what `RenormD` leaves holds the window. -/
theorem rcdAlwaysDecodesASymbol : Obligations.RcdAlwaysDecodesASymbol := by
  intro s hinv hsess
  have hm := hinv.modelOk
  have hf := hinv.frozen_of_range (.inr hsess)
  have ho := hinv.openInterval (.inr hsess)
  obtain ⟨hv1, hv2⟩ := (rangeOk_iff.1 hinv.rangeOk).2 hsess
  have ht := total_pos hm hf
  obtain ⟨k, hk, hlow, hhigh⟩ := exists_interval hm hf (rcTarget_lt_total ht hv1 hv2)
  obtain ⟨q, hq, hbody⟩ := rcdBody_of_target hinv.inputOk hm hf ho hk hlow hhigh
  obtain ⟨-, hle⟩ := narrow_bounds hm hf ho hk
  obtain ⟨h1, h2⟩ := narrow_holds_window ht (Nat.succ_pos _) hv1 hlow hhigh
  obtain ⟨g1, g2, g3, -⟩ := renormD_ok h1 h2 (lt_of_le_of_lt hle s.rcHigh.isLt) hq
  exact ⟨k, q, _, hk, hlow, hhigh, hq, exec_done (.inl (by simp [hsess])) hsess hbody, rfl, by omega, g3, by omega,
    rcdBody_keeps_range hm hf hinv.rangeOk hsess hbody⟩

end

/-! ### Following the encoder -/

theorem State.SameModel.symm {s t : State} (h : s.SameModel t) : t.SameModel s := by
  obtain ⟨h1, h2, h3, h4, h5, h6, h7, h8⟩ := h
  exact ⟨h1.symm, h2.symm, h3.symm, h4.symm, h5.symm, h6.symm, h7.symm, h8.symm⟩

theorem State.SameModel.trans {s t u : State} (h : s.SameModel t) (g : t.SameModel u) : s.SameModel u := by
  obtain ⟨h1, h2, h3, h4, h5, h6, h7, h8⟩ := h
  obtain ⟨g1, g2, g3, g4, g5, g6, g7, g8⟩ := g
  exact ⟨h1.trans g1, h2.trans g2, h3.trans g3, h4.trans g4, h5.trans g5, h6.trans g6, h7.trans g7, h8.trans g8⟩

theorem State.SameModel.mn {s t : State} (h : s.SameModel t) : s.mn = t.mn := by
  obtain ⟨-, hmn, -⟩ := h
  exact hmn

section
variable {e d : State}

/-- A range encoder and a range decoder in step: both meet the invariants, with the same model and the same interval. -/
structure RcPair (e d : State) : Prop where
  encInv : e.Inv
  decInv : d.Inv
  enc : e.sess = .rcEnc
  dec : d.sess = .rcDec
  model : e.SameModel d
  low : d.rcLow = e.rcLow
  high : d.rcHigh = e.rcHigh

theorem RcPair.subinterval (h : RcPair e d) (k : Nat) : d.subinterval k = e.subinterval k := by
  rw [State.subinterval, State.subinterval, State.rcRange, State.rcRange, h.low, h.high, h.model.total, h.model.lowOf,
    h.model.highOf]

/-- All that `RCE` can end with for the symbol of ordinal `k`. -/
theorem rceBody_symOf_ok (hm : e.ModelOk) (hf : e.mstate = .frozen) {k : Nat} (hk : k < e.mn.toNat) {u : State} {w : Word}
    (h : rceBody (e.symOf k) e = .ok (w, u)) :
    ∃ r t, e.rceRenorm k e.rcPend.toNat = .ok r ∧ e.obitlen.toNat + r.out.length ≤ 8 * Config.bufCap ∧
      putBits r.out e = .ok t ∧ w = 0#32 ∧
      u = countSymbol { t with rcLow := word r.nl, rcHigh := word r.nh, rcPend := word r.pend } := by
  obtain ⟨x, r, t, hx, hr, hroom, ht, hw, hu⟩ := rceBody_ok h
  rw [ordinal_symOf hm hf hk] at hx
  cases hx
  exact ⟨r, t, hr, hroom, ht, hw, hu⟩

/-- R159, R162: with its window in the sub-interval of the encoded symbol the decoder answers with that symbol, by the same
passes as the encoder's. -/
theorem RcPair.rcdBody_of_rceBody (h : RcPair e d) {k : Nat} (hk : k < e.mn.toNat)
    (h1 : (e.subinterval k).1 ≤ d.rcValue.toNat) (h2 : d.rcValue.toNat ≤ (e.subinterval k).2) {r : Renormed}
    (hr : e.rceRenorm k e.rcPend.toNat = .ok r) :
    ∃ q, renormD d Config.rcTests (e.subinterval k).1 (e.subinterval k).2 d.rcValue.toNat d.ibp.toNat = .ok q ∧
      rcdBody d = .ok (sext32 (e.symOf k), countSymbol { d with
        rcLow := word r.nl, rcHigh := word r.nh, rcValue := word q.v, ibp := word (min q.bp 0xFFFFFFFF) }) ∧
      q.bp + e.rcPend.toNat = d.ibp.toNat + (r.out.length + r.pend) := by
  have hm := h.decInv.modelOk
  have hf := h.decInv.frozen_of_range (.inr h.dec)
  have ho := h.decInv.openInterval (.inr h.dec)
  have hkd : k < d.mn.toNat := by rwa [← h.model.mn]
  rw [← h.subinterval] at h1 h2
  obtain ⟨hlow, hhigh⟩ := target_of_window (total_pos hm hf) ho.total_le_range (lowOf_lt_highOf hm hf hkd) h1 h2
  obtain ⟨q, hq, hbody⟩ := rcdBody_of_target h.decInv.inputOk hm hf ho hkd hlow hhigh
  rw [h.subinterval] at hq
  obtain ⟨g1, g2, g3⟩ := renormD_follows_renormE hr hq
  rw [g1, g2, ← h.model.symOf] at hbody
  refine ⟨q, hq, hbody, ?_⟩
  simpa using g3

/-- Settles O44: the window picks the encoder's ordinal, and from there the two renormalisations run in step. -/
theorem rcdFollowsRce : Obligations.RcdFollowsRce := by
  intro e d e' k he hd hesess hdsess hmodel hlow hhigh hk h1 h2 hrce
  have h : RcPair e d := ⟨he, hd, hesess, hdsess, hmodel, hlow, hhigh⟩
  have hf := he.frozen_of_range (.inl hesess)
  obtain ⟨-, hbody⟩ := exec_eq_done hrce
  obtain ⟨r, t, hr, -, -, -, hu⟩ := rceBody_symOf_ok he.modelOk hf hk hbody
  obtain ⟨q, -, hrcd, -⟩ := h.rcdBody_of_rceBody hk h1 h2 hr
  have hl := congrArg State.rcLow hu
  have hh := congrArg State.rcHigh hu
  exact ⟨_, exec_done (.inl (by simp [hdsess])) hdsess hrcd, hl.symm, hh.symm⟩

end

end Sys2Proof.Machine
end

section
/-! SUPPORT. The window of the range decoder as a number read off the stream (spec R155, R159, R162): forwards, `RenormD` keeps
the window equal to that number; backwards, a stream that carries the bits `RenormE` emits and has its window in the interval
that is left has its window in the interval there was. -/

namespace Sys2Proof.Machine

/-! ### Bits carried by a stream -/

/-- The stream `f` has the listed bits from `p` on. -/
def Carries (f : Nat → Bool) (p : Nat) (l : List Bool) : Prop := ∀ j < l.length, l[j]? = some (f (p + j))

section
variable {f : Nat → Bool} {p : Nat}

theorem carries_append {a b : List Bool} : Carries f p (a ++ b) ↔ Carries f p a ∧ Carries f (p + a.length) b := by
  constructor
  · intro h
    refine ⟨fun j hj => ?_, fun j hj => ?_⟩
    · rw [← h j (by rw [List.length_append]; omega), List.getElem?_append_left hj]
    · rw [Nat.add_assoc, ← h (a.length + j) (by rw [List.length_append]; omega),
        List.getElem?_append_right (Nat.le_add_right _ _), Nat.add_sub_cancel_left]
  · rintro ⟨ha, hb⟩ j hj
    rcases Nat.lt_or_ge j a.length with hlt | hge
    · rw [List.getElem?_append_left hlt, ha j hlt]
    · rw [List.length_append] at hj
      rw [List.getElem?_append_right hge, hb (j - a.length) (by omega), Nat.add_assoc, Nat.add_sub_cancel' hge]

theorem carries_singleton {b : Bool} : Carries f p [b] ↔ f p = b := by
  simp [Carries, eq_comm]

theorem emit_succ (b : Bool) (c : Nat) : emit b (c + 1) = emit b c ++ [!b] := by
  rw [emit, List.replicate_succ', ← List.cons_append, ← emit]

/-- A decided bit and its complements, as a number: `2^c` or `2^c - 1` (R155). -/
theorem bitsValue_of_emit {b : Bool} {c : Nat} (h : Carries f p (emit b c)) :
    bitsValue f p (c + 1) + 1 = 2 ^ c + b.toNat := by
  induction c with
  | zero =>
    rw [bitsValue_one, carries_singleton.1 h, Nat.pow_zero, Nat.add_comm]
  | succ c ih =>
    rw [emit_succ, carries_append, carries_singleton, emit_length] at h
    obtain ⟨hinit, hlast⟩ := h
    have := ih hinit
    have hcompl : (!b).toNat + b.toNat = 1 := by cases b <;> rfl
    rw [bitsValue_succ, hlast, Nat.pow_succ]
    omega

/-! ### The window -/

/-- `v` is the decoder's window on the stream at bit `p` when `c` bits are pending there: the `32 + c` bits from `p` on, less
what the `c` straddle passes have taken off, `2^31 * (2^c - 1)` in all (R159). -/
def IsWindow (f : Nat → Bool) (p c v : Nat) : Prop := v + 2 ^ 31 * 2 ^ c = bitsValue f p (32 + c) + 2 ^ 31

/-- The window at bit `p` with `c` bits pending lies in the interval (R162). -/
def WindowIn (f : Nat → Bool) (p c nl nh : Nat) : Prop := ∃ v, IsWindow f p c v ∧ nl ≤ v ∧ v ≤ nh

theorem IsWindow.unique {c v w : Nat} (hv : IsWindow f p c v) (hw : IsWindow f p c w) : v = w := by
  unfold IsWindow at hv hw
  omega

theorem isWindow_zero {v : Nat} : IsWindow f p 0 v ↔ v = bitsValue f p 32 := by
  simp [IsWindow]

theorem WindowIn.mono {c nl nh ml mh : Nat} (h : WindowIn f p c nl nh) (hl : ml ≤ nl) (hh : nh ≤ mh) :
    WindowIn f p c ml mh := by
  obtain ⟨v, hv, h1, h2⟩ := h
  exact ⟨v, hv, hl.trans h1, h2.trans hh⟩

/-- The bits of a window, cut after the pending ones. -/
theorem bitsValue_window (c : Nat) :
    bitsValue f p (32 + c) = bitsValue f p (c + 1) * 2 ^ 31 + bitsValue f (p + (c + 1)) 31 := by
  rw [show 32 + c = c + 1 + 31 by omega, bitsValue_add]

/-- The window after a decided bit. -/
theorem IsWindow.after_bit {b : Bool} {c v : Nat} (h : IsWindow f p c v) (h1 : halfOf b ≤ v)
    (h2 : v < halfOf b + Config.rcHalf) :
    IsWindow f (p + (c + 1)) 0 (2 * (v - halfOf b) + (f (p + (32 + c))).toNat) := by
  rw [isWindow_zero, bitsValue_succ, show p + (c + 1) + 31 = p + (32 + c) by omega]
  have hlt := bitsValue_lt f (p + (c + 1)) 31
  unfold IsWindow at h
  rw [bitsValue_window] at h
  unfold Config.rcHalf at h2
  cases b <;> simp only [halfOf_false, halfOf_true] at * <;> omega

/-- The window after a straddle pass. -/
theorem IsWindow.after_straddle {c v : Nat} (h : IsWindow f p c v) (h1 : Config.rcQtr ≤ v) :
    IsWindow f p (c + 1) (2 * (v - Config.rcQtr) + (f (p + (32 + c))).toNat) := by
  unfold IsWindow Config.rcQtr at *
  rw [← Nat.add_assoc 32, bitsValue_succ, Nat.pow_succ]
  omega

/-- The window before a decided bit that the stream carries with its pending bits. -/
theorem IsWindow.before_bit {b : Bool} {c v : Nat} (hc : Carries f p (emit b c)) (h : IsWindow f (p + (c + 1)) 0 v) :
    IsWindow f p c (halfOf b + v / 2) := by
  have hval := bitsValue_of_emit hc
  have hbit := Bool.toNat_le (f (p + (c + 1) + 31))
  rw [isWindow_zero, bitsValue_succ] at h
  unfold IsWindow
  rw [bitsValue_window]
  cases b <;> simp only [halfOf_false, halfOf_true, Bool.toNat_false, Bool.toNat_true] at * <;> omega

/-- The window before a straddle pass. -/
theorem IsWindow.before_straddle {c v : Nat} (h : IsWindow f p (c + 1) v) : IsWindow f p c (Config.rcQtr + v / 2) := by
  have hbit := Bool.toNat_le (f (p + (32 + c)))
  unfold IsWindow Config.rcQtr at *
  rw [← Nat.add_assoc, bitsValue_succ, Nat.pow_succ] at h
  omega

end

/-! ### Backwards over the encoder's passes -/

/-- R162: the stream that carries the emitted bits and has its window in the interval left has it in the interval there
was. -/
theorem windowIn_of_renormE {f : Nat → Bool} {tests p nl nh pend : Nat} {r : Renormed} (h1 : nl ≤ nh) (h2 : nh < 2 ^ 32)
    (hr : renormE tests nl nh pend [] = .ok r) (hc : Carries f p r.out)
    (hw : WindowIn f (p + r.out.length) r.pend r.nl r.nh) : WindowIn f p pend nl nh := by
  induction tests generalizing nl nh pend p r with
  | zero => cases hr
  | succ tests ih =>
    rcases pass_cases nl h2 with ⟨b, hd⟩ | hs | hs
    · obtain ⟨r', hr', rfl⟩ := renormE_ok_of_decides h1 hd hr
      obtain ⟨g1, g2⟩ := hd.next h1
      obtain ⟨hemit, hrest⟩ := carries_append.1 hc
      rw [emit_length] at hrest
      rw [after_length, emit_length, ← Nat.add_assoc] at hw
      obtain ⟨v, hv, hl, hh⟩ := ih g1 g2 hr' hrest hw
      have hlow := hd.1
      exact ⟨_, hv.before_bit hemit, by omega, by omega⟩
    · obtain ⟨g1, g2, g3⟩ := hs.next
      obtain ⟨v, hv, hl, hh⟩ := ih (by omega) g3 (renormE_ok_of_straddles hs hr) hc hw
      have hlow := hs.qtr_le
      exact ⟨_, hv.before_straddle, by omega, by omega⟩
    · rw [renormE_of_settled hs] at hr
      cases hr
      exact hw

/-- R156, R162: whatever follows the flush bits, the window lies in the interval that was flushed. -/
theorem windowIn_of_flush {f : Nat → Bool} {p : Nat} {s : State} (ho : OpenInterval s.rcLow.toNat s.rcHigh.toNat)
    (hc : Carries f p (flushBits s)) : WindowIn f p s.rcPend.toNat s.rcLow.toNat s.rcHigh.toNat := by
  rw [flushBits, emit_succ, carries_append, carries_singleton, emit_length] at hc
  obtain ⟨hemit, hlast⟩ := hc
  have hsplit : bitsValue f (p + (s.rcPend.toNat + 1)) 32 = _ := bitsValue_add f (p + (s.rcPend.toNat + 1)) 1 31
  have hrest := bitsValue_lt f (p + (s.rcPend.toNat + 1) + 1) 31
  rw [bitsValue_one, hlast] at hsplit
  refine ⟨_, (isWindow_zero.2 rfl).before_bit hemit, ?_⟩
  clear hemit hlast
  simp only [OpenInterval, Config.rcHalf, Config.rcQtr, Config.rc3Qtr] at *
  generalize hb : decide (0x40000000 ≤ s.rcLow.toNat) = b at *
  cases b with
  | true =>
    have hq := of_decide_eq_true hb
    simp only [halfOf_true, Bool.not_true, Bool.toNat_false] at *
    omega
  | false =>
    have hq := of_decide_eq_false hb
    simp only [halfOf_false, Bool.not_false, Bool.toNat_true] at *
    omega

/-! ### Forwards over the decoder's passes -/

section
variable {s : State} {tests nl nh v bp : Nat}

theorem renormD_of_decides (hin : s.InputOk) {b : Bool} (hle : nl ≤ nh) (h : Decides b nl nh) :
    renormD s (tests + 1) nl nh v bp = renormD s tests (2 * (nl - halfOf b)) (2 * (nh - halfOf b) + 1)
      (2 * (v - halfOf b) + (s.inBit bp).toNat) (bp + 1) := by
  rw [renormD, getBit_eq_inBit hin]
  unfold Decides at h
  simp only [Config.rcHalf] at *
  cases b with
  | false =>
    rw [halfOf_false] at h
    rw [if_pos (by omega)]
    rfl
  | true =>
    rw [halfOf_true] at h
    rw [if_neg (by omega), if_pos (by omega)]
    rfl

theorem renormD_of_straddles (hin : s.InputOk) (h : Straddles nl nh) :
    renormD s (tests + 1) nl nh v bp = renormD s tests (2 * (nl - Config.rcQtr)) (2 * (nh - Config.rcQtr) + 1)
      (2 * (v - Config.rcQtr) + (s.inBit bp).toNat) (bp + 1) := by
  obtain ⟨h1, h2, h3⟩ := h
  rw [renormD, getBit_eq_inBit hin, if_neg (Nat.not_lt.2 h2), if_neg (Nat.not_le.2 h1), if_pos h3]
  rfl

theorem renormD_of_settled (h : Settled nl nh) : renormD s (tests + 1) nl nh v bp = .ok ⟨nl, nh, v, bp⟩ := by
  obtain ⟨h1, h2, h3⟩ := h
  rw [renormD, if_neg h1, if_neg h2, if_neg h3]

/-- R159: in step with `RenormE`, which tells where the bits emitted end and how many are pending, `RenormD` keeps its window
the window on the input stream. -/
theorem renormD_keeps_window (hin : s.InputOk) {p pend : Nat} {r : Renormed} {q : RenormedD} (h1 : nl ≤ v) (h2 : v ≤ nh)
    (h3 : nh < 2 ^ 32) (hr : renormE tests nl nh pend [] = .ok r)
    (hq : renormD s tests nl nh v (p + (32 + pend)) = .ok q) (hw : IsWindow s.inBit p pend v) :
    IsWindow s.inBit (p + r.out.length) r.pend q.v := by
  induction tests generalizing nl nh pend p v r with
  | zero => cases hr
  | succ tests ih =>
    have hbit := Bool.toNat_le (s.inBit (p + (32 + pend)))
    rcases pass_cases nl h3 with ⟨b, hd⟩ | hs | hs
    · obtain ⟨r', hr', rfl⟩ := renormE_ok_of_decides (h1.trans h2) hd hr
      obtain ⟨-, g2⟩ := hd.next (h1.trans h2)
      rw [renormD_of_decides hin (h1.trans h2) hd, show p + (32 + pend) + 1 = p + (pend + 1) + (32 + 0) by omega] at hq
      obtain ⟨hlow, hhigh⟩ := hd
      rw [after_length, emit_length, ← Nat.add_assoc]
      exact ih (by omega) (by omega) g2 hr' hq (hw.after_bit (hlow.trans h1) (lt_of_le_of_lt h2 hhigh))
    · obtain ⟨-, -, g3⟩ := hs.next
      rw [renormD_of_straddles hin hs, show p + (32 + pend) + 1 = p + (32 + (pend + 1)) by omega] at hq
      have hlow := hs.qtr_le
      exact ih (by omega) (by omega) g3 (renormE_ok_of_straddles hs hr) hq (hw.after_straddle (hlow.trans h1))
    · rw [renormE_of_settled hs] at hr
      rw [renormD_of_settled hs] at hq
      cases hr
      cases hq
      exact hw

end

end Sys2Proof.Machine
end

section
/-! SUPPORT. The range coder's round trip (spec R162, obligation O45). The stream written in the end fixes the decoder's window at
every symbol. Backwards from the flush, that window lies in the sub-interval of each symbol encoded; forwards from `RCDI`, the
decoder's `RC_VALUE` is that window; so each `RCD` follows the `RCE` of its symbol. -/

namespace Sys2Proof.Machine

/-! ### Runs of commands -/

section
variable {s u e : State} {i : Instr} {is : List Instr} {d : Word}

/-- A command that completes takes a run one response further. -/
theorem runAll_cons_of_ok (hs : s.sess ≠ .fault) (hl : s.Legal i) (hb : bodyOf i s = .ok (d, u)) :
    runAll (i :: is) s = (runAll is (respond none d u)).map fun r => (d :: r.1, r.2) := by
  rw [runAll, exec_of_ok (.inl hs) hl hb]
  simp

/-- Every command of a run that completes was legal, and its body ended with the data of its response. -/
theorem runAll_cons_eq_some {data : List Word} (h : runAll (i :: is) s = some (data, e)) :
    s.Legal i ∧ ∃ d u rest, bodyOf i s = .ok (d, u) ∧ runAll is (respond none d u) = some (rest, e) ∧ data = d :: rest := by
  unfold runAll at h
  split at h
  · next t ht =>
    rcases exec_next ht with ⟨-, -, rfl⟩ | ⟨x, rfl⟩ | ⟨hl, d, u, hb, rfl⟩
    · simp at h
    · simp [raiseError_outbox] at h
    · simp only [respond_outbox, List.getLast?_append, List.getLast?_singleton, Option.some_or, Option.map_eq_some_iff] at h
      obtain ⟨⟨rest, e'⟩, hrest, heq⟩ := h
      cases heq
      exact ⟨hl, d, u, rest, hb, hrest, rfl⟩
  · cases h

/-- A command that completes keeps the invariants, its response included. -/
theorem State.Inv.respond_of_ok (h : s.Inv) (hl : s.Legal i) (hb : bodyOf i s = .ok (d, u)) : (respond none d u).Inv :=
  inv_stepFrame.respond _ _ _ (bodyOf_keeps_inv h hl hb)

end

/-! ### Backwards from the flush -/

/-- The stream `f` goes on as the encoder's output will: it carries the bits written so far, its window lies in the interval,
and there is room for the flush. -/
structure Foretells (f : Nat → Bool) (e : State) : Prop where
  carried : Carries f 0 e.outBits
  window : WindowIn f e.obitlen.toNat e.rcPend.toNat e.rcLow.toNat e.rcHigh.toNat
  room : e.obitlen.toNat + e.rcPend.toNat + 2 ≤ 8 * Config.bufCap

theorem Foretells.of_respond {f : Nat → Bool} {x : Option Err} {w : Word} {u : State} (h : Foretells f (respond x w u)) :
    Foretells f u := ⟨h.carried, h.window, h.room⟩

@[simp] theorem outBits_length (s : State) : s.outBits.length = s.obitlen.toNat := by simp [State.outBits]

section
variable {f : Nat → Bool} {e u : State} {w : Word} {k : Nat}

/-- What `RCE` of the symbol of ordinal `k` leaves, as numbers and stream bits. -/
theorem rceBody_symOf_effect (hinv : e.Inv) (hsess : e.sess = .rcEnc) (hk : k < e.mn.toNat)
    (h : rceBody (e.symOf k) e = .ok (w, u)) :
    ∃ r, e.rceRenorm k e.rcPend.toNat = .ok r ∧ u.outBits = e.outBits ++ r.out ∧
      u.obitlen.toNat = e.obitlen.toNat + r.out.length ∧ u.rcLow = word r.nl ∧ u.rcHigh = word r.nh ∧
      u.rcLow.toNat = r.nl ∧ u.rcHigh.toNat = r.nh ∧ u.rcPend.toNat = r.pend := by
  have hm := hinv.modelOk
  have hf := hinv.frozen_of_range (.inl hsess)
  obtain ⟨r, t, hr, hroom, ht, -, rfl⟩ := rceBody_symOf_ok hm hf hk h
  obtain ⟨h1, h2⟩ := narrow_bounds hm hf (hinv.openInterval (.inl hsess)) hk
  obtain ⟨g1, g2, -, g4, -⟩ := renormE_ok h1 (lt_of_le_of_lt h2 e.rcHigh.isLt) hr
  have hp := e.rcPend.isLt
  have hbits := putBits_outBits hroom ht
  have hlen := putBits_obitlen hroom ht
  exact ⟨r, hr, hbits, hlen, rfl, rfl, toNat_word (by omega), toNat_word g2,
    toNat_word (by omega)⟩

/-- R162: before `RCE` the window lay in the sub-interval of its symbol. -/
theorem Foretells.before_rce (hu : Foretells f u) (hinv : e.Inv) (hsess : e.sess = .rcEnc) (hk : k < e.mn.toNat)
    (h : rceBody (e.symOf k) e = .ok (w, u)) :
    Foretells f e ∧ WindowIn f e.obitlen.toNat e.rcPend.toNat (e.subinterval k).1 (e.subinterval k).2 := by
  have hm := hinv.modelOk
  have hf := hinv.frozen_of_range (.inl hsess)
  obtain ⟨h1, h2⟩ := narrow_bounds hm hf (hinv.openInterval (.inl hsess)) hk
  have h3 := lt_of_le_of_lt h2 e.rcHigh.isLt
  obtain ⟨r, hr, hbits, hlen, -, -, hnl, hnh, hpend⟩ := rceBody_symOf_effect hinv hsess hk h
  obtain ⟨hcar, hwin, hroom⟩ := hu
  rw [hlen, hpend] at hroom
  rw [hlen, hpend, hnl, hnh] at hwin
  rw [hbits, carries_append, outBits_length, Nat.zero_add] at hcar
  have hsub := windowIn_of_renormE h1 h3 hr hcar.2 hwin
  have hgrow := renormE_grows h1 h3 hr
  exact ⟨⟨hcar.1, hsub.mono (by rw [narrow_fst]; omega) h2, by omega⟩, hsub⟩

/-- R156: the container written by `RCEF` goes on as the encoder's output does. -/
theorem foretells_of_rcef (hinv : e.Inv) (hsess : e.sess = .rcEnc) (h : rcefBody e = .ok (w, u))
    (hc : Carries f 0 u.outBits) : Foretells f e := by
  obtain ⟨t, hroom, ht, -, rfl⟩ := rcefBody_ok h
  have hbits : t.outBits = e.outBits ++ flushBits e := putBits_outBits hroom ht
  change Carries f 0 t.outBits at hc
  rw [hbits, carries_append, outBits_length, Nat.zero_add] at hc
  rw [flushBits_length] at hroom
  exact ⟨hc.1, windowIn_of_flush (hinv.openInterval (.inl hsess)) hc.2, by omega⟩

/-- R162: the container foretells every encoder state on the way to it. -/
theorem foretells_of_run {s e' : State} {ks : List Nat} {data : List Word} (hinv : e.Inv) (hsess : e.sess = .rcEnc)
    (hmodel : s.SameModel e) (hks : ∀ k ∈ ks, k < s.mn.toNat)
    (hrun : runAll (ks.map (fun k => .rce (s.symOf k)) ++ [.rcef]) e = some (data, e')) (hc : Carries f 0 e'.outBits) :
    Foretells f e := by
  induction ks generalizing e data with
  | nil =>
    obtain ⟨-, w, u, rest, hb, hrest, -⟩ := runAll_cons_eq_some hrun
    cases hrest
    exact foretells_of_rcef hinv hsess hb hc
  | cons k ks ih =>
    obtain ⟨hl, w, u, rest, hb, hrest, -⟩ := runAll_cons_eq_some hrun
    have F := bodyOf_frame hb
    have hu := ih (hinv.respond_of_ok hl hb) (F.sess.trans hsess) (hmodel.trans (F.model rfl))
      (fun j hj => hks j (List.mem_cons_of_mem _ hj)) hrest
    have hbe : rceBody (e.symOf k) e = .ok (w, u) := hmodel.symOf ▸ hb
    exact (hu.of_respond.before_rce hinv hsess (hmodel.mn ▸ hks k List.mem_cons_self) hbe).1

end

/-! ### Forwards from `RCDI` -/

/-- The decoder follows the encoder on its input stream: `RC_VALUE` is the window where the encoder stands, and `IBP` is
behind it. -/
structure InStep (e d : State) : Prop extends RcPair e d where
  window : IsWindow d.inBit e.obitlen.toNat e.rcPend.toNat d.rcValue.toNat
  cursor : d.ibp.toNat = e.obitlen.toNat + (32 + e.rcPend.toNat)

section
variable {e d u : State} {w : Word} {k : Nat}

/-- R162: one `RCE`, followed by one `RCD`. -/
theorem InStep.rcd_of_rce (h : InStep e d) (hk : k < e.mn.toNat) (hb : rceBody (e.symOf k) e = .ok (w, u))
    (hu : Foretells d.inBit u) :
    ∃ v, rcdBody d = .ok (sext32 (e.symOf k), v) ∧ v.inBit = d.inBit ∧
      InStep (respond none w u) (respond none (sext32 (e.symOf k)) v) := by
  obtain ⟨-, x, hx, hx1, hx2⟩ := hu.before_rce h.encInv h.enc hk hb
  obtain rfl := hx.unique h.window
  obtain ⟨r, hr, -, hlen, hrl, hrh, -, -, hpend⟩ := rceBody_symOf_effect h.encInv h.enc hk hb
  obtain ⟨q, hq, hrcd, hbp⟩ := h.rcdBody_of_rceBody hk hx1 hx2 hr
  have hroom := hu.room
  have hf := h.encInv.frozen_of_range (.inl h.enc)
  obtain ⟨-, hle⟩ := narrow_bounds h.encInv.modelOk hf (h.encInv.openInterval (.inl h.enc)) hk
  have hlt := lt_of_le_of_lt hle e.rcHigh.isLt
  rw [h.cursor] at hq hbp
  have hwin := renormD_keeps_window h.decInv.inputOk hx1 hx2 hlt hr hq h.window
  obtain ⟨-, g2, g3, -⟩ := renormD_ok hx1 hx2 hlt hq
  have hqv : (word q.v).toNat = q.v := toNat_word (by omega)
  have hqbp : (word (min q.bp 0xFFFFFFFF)).toNat = q.bp := by
    unfold Config.bufCap at hroom
    rw [toNat_word (by omega)]
    omega
  have hb : bodyOf (.rce (e.symOf k)) e = .ok (w, u) := hb
  have hdb : bodyOf .rcd d = .ok (sext32 (e.symOf k), _) := hrcd
  have hl : e.Legal (.rce (e.symOf k)) := h.enc
  have hdl : d.Legal .rcd := h.dec
  have Fe := bodyOf_frame hb
  have Fd := bodyOf_frame hdb
  refine ⟨_, hrcd, ((Fd.input rfl).inBit).symm, ⟨h.encInv.respond_of_ok hl hb, h.decInv.respond_of_ok hdl hdb,
    Fe.sess.trans h.enc, Fd.sess.trans h.dec, ((Fe.model rfl).symm.trans h.model).trans (Fd.model rfl), hrl.symm, hrh.symm⟩,
    ?_, ?_⟩
  · rw [respond_obitlen, respond_rcPend, hlen, hpend]
    change IsWindow _ _ _ (word q.v).toNat
    rw [hqv]
    exact hwin
  · rw [respond_obitlen, respond_rcPend, hlen, hpend]
    change (word (min q.bp 0xFFFFFFFF)).toNat = _
    omega

/-- R162, from a pair in step on: after `n` symbols of the sequence both have the same interval again. -/
theorem InStep.follows {s e' : State} {ks : List Nat} {data : List Word} (h : InStep e d) (hmodel : s.SameModel e)
    (hks : ∀ k ∈ ks, k < s.mn.toNat)
    (hrun : runAll (ks.map (fun k => .rce (s.symOf k)) ++ [.rcef]) e = some (data, e')) (hc : Carries d.inBit 0 e'.outBits)
    {n : Nat} (hn : n ≤ ks.length) :
    ∃ sent en dn, runAll ((ks.take n).map fun k => .rce (s.symOf k)) e = some (sent, en) ∧
      runAll (List.replicate n .rcd) d = some (s.responses (ks.take n), dn) ∧ dn.rcLow = en.rcLow ∧
      dn.rcHigh = en.rcHigh := by
  induction n generalizing ks e d data with
  | zero => exact ⟨[], e, d, rfl, rfl, h.low, h.high⟩
  | succ n ih =>
    cases ks with
    | nil => simp at hn
    | cons k ks =>
      have hks' : ∀ j ∈ ks, j < s.mn.toNat := fun j hj => hks j (List.mem_cons_of_mem _ hj)
      obtain ⟨hl, w, u, rest, hb, hrest, -⟩ := runAll_cons_eq_some hrun
      have F := bodyOf_frame hb
      have hmu : s.SameModel (respond none w u) := hmodel.trans (F.model rfl)
      have hfore := foretells_of_run (h.encInv.respond_of_ok hl hb) (F.sess.trans h.enc) hmu hks' hrest hc
      have hbe : rceBody (e.symOf k) e = .ok (w, u) := hmodel.symOf ▸ hb
      obtain ⟨v, hrcd, hin, hstep⟩ := h.rcd_of_rce (hmodel.mn ▸ hks k List.mem_cons_self) hbe
        hfore.of_respond
      rw [← hmodel.symOf] at hrcd hstep
      obtain ⟨sent, en, dn, hsent, hresp, hlow, hhigh⟩ := ih hstep hmu hks' hrest (by rw [← hin] at hc; exact hc)
        (Nat.le_of_succ_le_succ hn)
      refine ⟨w :: sent, en, dn, ?_, ?_, hlow, hhigh⟩
      · rw [List.take_succ_cons, List.map_cons, runAll_cons_of_ok (by simp [h.enc]) hl hb, hsent]
        rfl
      · rw [List.replicate_succ, runAll_cons_of_ok (i := .rcd) (by simp [h.dec]) h.dec hrcd, hresp]
        rfl

/-! ### The whole round trip -/

/-- R62: a presented container has the bits that were written. -/
theorem State.Presents.carries (h : e.Presents d) : Carries d.inBit 0 e.outBits := by
  obtain ⟨hlen, hpad, hbytes⟩ := h
  intro j hj
  rw [outBits_length] at hj
  have hbits := obitlen_add_opad e
  have hin : j < d.ibitlen := by unfold State.ibitlen; omega
  have hbyte := hbytes (j / 8) (by omega)
  rw [State.inByte] at hbyte
  simp [State.outBits, hj, State.inBit, hin, hbyte, State.outBit]

/-- `RCEI` and `RCDI` of the same model leave a pair in step. -/
theorem inStep_of_init {s : State} (hs : s.Inv) (hd : d.Inv) (hidle : s.sess = .idle) (hdidle : d.sess = .idle)
    (hf : s.mstate = .frozen) (hmodel : s.SameModel d) :
    ∃ e v, rceiBody s = .ok (0#32, e) ∧ rcdiBody d = .ok (0#32, v) ∧ s.SameModel (respond none 0#32 e) ∧
      v.inBit = d.inBit ∧ InStep (respond none 0#32 e) (respond none 0#32 v) := by
  have hl : s.Legal .rcei := ⟨hidle, hf⟩
  have hdl : d.Legal .rcdi := ⟨hdidle, hmodel.1 ▸ hf⟩
  have hb : bodyOf .rcei s = .ok (0#32, _) := rfl
  have hdb : bodyOf .rcdi d = .ok (0#32, _) := rcdiBody_eq hd.inputOk
  have Fs := bodyOf_frame hb
  have Fd := bodyOf_frame hdb
  refine ⟨_, _, hb, hdb, Fs.model rfl, ((Fd.input rfl).inBit).symm, ⟨hs.respond_of_ok hl hb, hd.respond_of_ok hdl hdb,
    Fs.sess, Fd.sess, ((Fs.model rfl).symm.trans hmodel).trans (Fd.model rfl), rfl, rfl⟩, ?_, rfl⟩
  exact isWindow_zero.2 (toNat_word (bitsValue_lt _ 0 32))

/-- Settles O45: `RCEI` and `RCDI` leave a pair in step on the presented container, and each symbol keeps it so. -/
theorem rangeCoderRoundTrip : Obligations.RangeCoderRoundTrip := by
  intro s e d ks data hs hidle hf hks hrun hd hdidle hmodel hpres n hn
  obtain ⟨e0, v, hb, hdb, hme, hin, hstep⟩ := inStep_of_init hs hd hidle hdidle hf hmodel
  obtain ⟨hl, w, u, rest, hu, hrest, -⟩ := runAll_cons_eq_some hrun
  obtain ⟨rfl, rfl⟩ : w = 0#32 ∧ u = e0 := by
    have := Except.ok.inj (hu.symm.trans hb)
    exact ⟨congrArg Prod.fst this, congrArg Prod.snd this⟩
  have hc : Carries (respond none 0#32 v).inBit 0 e.outBits := by
    change Carries v.inBit 0 e.outBits
    rw [hin]
    exact hpres.carries
  obtain ⟨sent, en, dn, hsent, hresp, hlow, hhigh⟩ := hstep.follows hme hks hrest hc hn
  refine ⟨0#32 :: sent, en, dn, ?_, ?_, hlow, hhigh⟩
  · rw [runAll_cons_of_ok (by simp [hidle]) hl hu, hsent]
    rfl
  · rw [runAll_cons_of_ok (i := .rcdi) (by simp [hdidle]) ⟨hdidle, hmodel.1 ▸ hf⟩ hdb, hresp]
    rfl

end

end Sys2Proof.Machine
end

section
/-! SUPPORT. The encode step of the rANS coder (spec R172 to R174, R178, R181): its arithmetic (obligation O46), and `RAE`
on a symbol of the model in both modes (obligations O47 and O48). -/

namespace Sys2Proof.Machine

/-! ### `C` and `D` -/

section
variable {x c cum t : Nat}

/-- The slot of an encoded state is the place in the symbol's interval that the encode step took it to. -/
theorem ransC_mod (hc : 0 < c) (ht : cum + c ≤ t) : ransC x c cum t % t = cum + x % c := by
  have hr := Nat.mod_lt x hc
  rw [ransC, Nat.add_assoc, Nat.mul_comm, Nat.mul_add_mod, Nat.mod_eq_of_lt (by omega)]

theorem ransC_div (hc : 0 < c) (ht : cum + c ≤ t) : ransC x c cum t / t = x / c := by
  have hr := Nat.mod_lt x hc
  have h0 : (cum + x % c) / t = 0 := Nat.div_eq_of_lt (by omega)
  rw [ransC, Nat.add_assoc, Nat.mul_comm, Nat.mul_add_div (by omega), h0, Nat.add_zero]

/-- R178: quotient and slot of an encoded state give the state back. -/
theorem ransD_ransC (hc : 0 < c) (ht : cum + c ≤ t) : ransD (ransC x c cum t) c cum t = x := by
  rw [ransD, ransC_div hc ht, ransC_mod hc ht, Nat.add_left_comm, Nat.add_sub_cancel_left, Nat.div_add_mod']

theorem le_ransC (hct : c ≤ t) : x ≤ ransC x c cum t := by
  calc x = x / c * c + x % c := (Nat.div_add_mod' x c).symm
    _ ≤ x / c * t + cum + x % c := by have := Nat.mul_le_mul_left (x / c) hct; omega

end

/-- Settles O46. -/
theorem ransDecodeStepInvertsEncodeStep : Obligations.RansDecodeStepInvertsEncodeStep := by
  intro x c cum t hc ht
  have hr := Nat.mod_lt x hc
  rw [ransC_mod hc ht]
  exact ⟨by omega, by omega, ransD_ransC hc ht, le_ransC (by omega)⟩

section
variable {s : State}

/-! ### The body of `RAE` -/

theorem State.Inv.ransOpen (h : s.Inv) (hs : s.sess = .raEnc) : s.RansOpen := by
  obtain ⟨-, -, -, -, -, -, -, hr, -⟩ := h
  exact hr hs

theorem State.Inv.frozen_of_rans (h : s.Inv) (hs : s.sess = .raEnc ∨ s.sess = .raDec) : s.mstate = .frozen := by
  rcases hs with hs | hs <;> exact h.frozen_of_open (by simp [hs]) (by simp [hs])

theorem low_add_cnt_le_total (hm : s.ModelOk) (hf : s.mstate = .frozen) {k : Nat} (hk : k < s.mn.toNat) :
    s.lowOf k + s.cntOf k ≤ s.total := highOf_le_total hm hf hk

/-- On a byte boundary `OLEN` is `OBITLEN / 8`. -/
theorem olen_of_aligned (h8 : s.obitlen.toNat % 8 = 0) : s.olen = s.obitlen.toNat / 8 := by
  unfold State.olen; omega

/-- The entry that `ordinal` answers for the symbol of ordinal `k` (R130). -/
def State.entryOf (s : State) (k : Nat) : Entry := ⟨k, s.symOf k, s.cntOf k, s.lowOf k⟩

/-- The body of `RAE` for the symbol of ordinal `k`, where the step stays in 64 bits and the shifted bytes fit. -/
theorem raeBody_of_shift (hm : s.ModelOk) (hf : s.mstate = .frozen) {k x : Nat} {out : List Byte} {t : State}
    (hk : k < s.mn.toNat) (hx : ransShift s (s.entryOf k) = .ok (x, out))
    (hlim : ransC x (s.cntOf k) (s.lowOf k) s.total < 2 ^ 64) (hr : s.obitlen.toNat + 8 * out.length ≤ 8 * Config.bufCap)
    (ht : putBytes out s = .ok t) :
    raeBody (s.symOf k) s =
      .ok (0#32, countSymbol { t with raState := BitVec.ofNat 64 (ransC x (s.cntOf k) (s.lowOf k) s.total) }) := by
  refine Comp.bind_eq_ok.2 ⟨s.entryOf k, ordinal_symOf hm hf hk, Comp.bind_eq_ok.2 ⟨(x, out), hx, ?_⟩⟩
  exact Comp.bind_eq_ok.2 ⟨(), raiseIf_ok.2 (Nat.not_le.2 hlim),
    Comp.bind_eq_ok.2 ⟨(), raiseIf_ok.2 (by simpa using hr), Comp.bind_eq_ok.2 ⟨t, ht, rfl⟩⟩⟩

/-- The body of `RAE` where the step would leave 64 bits. -/
theorem raeBody_of_overflow (hm : s.ModelOk) (hf : s.mstate = .frozen) {k x : Nat} {out : List Byte}
    (hk : k < s.mn.toNat) (hx : ransShift s (s.entryOf k) = .ok (x, out))
    (hlim : 2 ^ 64 ≤ ransC x (s.cntOf k) (s.lowOf k) s.total) :
    raeBody (s.symOf k) s = .error (.raised .stateOverflow) := by
  refine Comp.bind_eq_error.2 (.inr ⟨s.entryOf k, ordinal_symOf hm hf hk, ?_⟩)
  exact Comp.bind_eq_error.2 (.inr ⟨(x, out), hx, Comp.bind_eq_error.2 (.inl (raiseIf_error.2 ⟨hlim, rfl⟩))⟩)

/-! ### RAW mode -/

theorem ransShift_of_raw (hmode : s.raMode = .raw) (e : Entry) : ransShift s e = .ok (s.raState.toNat, []) := by
  rw [ransShift, hmode]

/-- Settles O47: nothing is shifted out, so `C` of the state is the next state if it fits. -/
theorem raeRawStepsTheState : Obligations.RaeRawStepsTheState := by
  intro s k hinv hsess hmode hk
  have hm := hinv.modelOk
  have hf := hinv.frozen_of_rans (.inl hsess)
  have hnf : s.sess ≠ .fault := by simp [hsess]
  have hx := ransShift_of_raw hmode (s.entryOf k)
  obtain ⟨hcap, -⟩ := hinv.outputOk
  exact ⟨fun hfits => exec_done (.inl hnf) hsess (raeBody_of_shift hm hf hk hx hfits hcap rfl),
    fun hover => exec_failed hnf hsess (raeBody_of_overflow hm hf hk hx hover)⟩

/-! ### STREAM mode -/

theorem ransShift_of_stream (hmode : s.raMode = .stream) (e : Entry) :
    ransShift s e = renormRE (e.cnt * 2 ^ 40) Config.raTests s.raState.toNat [] := by
  rw [ransShift, hmode]

/-- R174: a state below `256 * L` is shifted by at most two bytes to one that is at least `2^32`. -/
theorem shift_length_le_two {t x y n : Nat} (ht : t < 2 ^ 16) (hx : x < 256 * ransLow t) (hy : 2 ^ 32 ≤ y)
    (hyx : y = x / 256 ^ n) : n ≤ 2 := by
  by_contra hn
  have hpow : 256 ^ 3 ≤ 256 ^ n := Nat.pow_le_pow_right (by decide) (by omega)
  have hdiv : y ≤ x / 256 ^ 3 := hyx ▸ Nat.div_le_div_left hpow (by decide)
  unfold ransLow Config.raK at hx
  omega

/-- R174, R181: in an open STREAM session the renormalisation ends, in the range that `C` takes to `[L, 256 L)`. -/
theorem renormRE_of_open (hm : s.ModelOk) (hf : s.mstate = .frozen) (hrans : s.RansOpen) (hmode : s.raMode = .stream)
    {k : Nat} (hk : k < s.mn.toNat) :
    ∃ y bytes, renormRE (s.cntOf k * 2 ^ 40) Config.raTests s.raState.toNat [] = .ok (y, bytes) ∧ bytes.length ≤ 2 ∧
      s.cntOf k * 2 ^ 32 ≤ y ∧ y < s.cntOf k * 2 ^ 40 := by
  have hc := cntOf_pos hm hf hk
  have hct := low_add_cnt_le_total hm hf hk
  obtain ⟨⟨y, bytes⟩, hy⟩ := renormRE_total (xmax := s.cntOf k * 2 ^ 40) (tests := 8) (x := s.raState.toNat) (out := [])
    (by have := s.raState.isLt; omega)
  have hx : ransShift s (s.entryOf k) = .ok (y, bytes) := (ransShift_of_stream hmode _).trans hy
  obtain ⟨h1, h2⟩ := ransShift_bounds hrans hmode (show s.cntOf k ≤ s.total by omega) hx
  obtain ⟨-, _, rfl, hyx⟩ := renormRE_ok hy
  obtain ⟨-, hrans⟩ := hrans
  obtain ⟨-, hlt⟩ := hrans hmode
  change s.cntOf k * 2 ^ 32 ≤ y at h1
  exact ⟨y, _, hy, shift_length_le_two s.mtotal.isLt hlt (by omega) hyx, h1, h2⟩

/-- Settles O48: the renormalised state is in the range that `C` takes to `[L, 256 L)`, below `2^64`. -/
theorem raeStreamStaysNormalised : Obligations.RaeStreamStaysNormalised := by
  intro s k hinv hsess hmode hk
  have hm := hinv.modelOk
  have hf := hinv.frozen_of_rans (.inl hsess)
  have hrans := hinv.ransOpen hsess
  obtain ⟨y, bytes, hy, hlen, h1, h2⟩ := renormRE_of_open hm hf hrans hmode hk
  refine ⟨y, bytes, hy, hlen, h1, h2, fun hroom => ?_⟩
  obtain ⟨h8, -⟩ := hrans
  obtain ⟨hC1, hC2⟩ := ransC_bounds (cntOf_pos hm hf hk) (low_add_cnt_le_total hm hf hk) h1 h2
  have hlim : ransC y (s.cntOf k) (s.lowOf k) s.total < 2 ^ 64 := by
    have := s.mtotal.isLt
    unfold ransLow State.total Config.raK at *
    omega
  obtain ⟨t, ht⟩ := putBytes_total bytes h8 hroom
  obtain ⟨hupd, hbytes, hframe⟩ := putBytes_ok hroom ht
  have hbody := raeBody_of_shift hm hf hk ((ransShift_of_stream hmode (s.entryOf k)).trans hy) hlim hroom ht
  have hstate : (BitVec.ofNat 64 (ransC y (s.cntOf k) (s.lowOf k) s.total)).toNat =
      ransC y (s.cntOf k) (s.lowOf k) s.total := by rw [BitVec.toNat_ofNat, Nat.mod_eq_of_lt hlim]
  have hbits : t.obitlen.toNat = s.obitlen.toNat + 8 * bytes.length := by rw [hupd]; exact obitlen_add rfl hroom
  have holen : t.olen = s.obitlen.toNat / 8 + bytes.length := by unfold State.olen; omega
  refine ⟨_, exec_done (.inl (by simp [hsess])) hsess hbody, by rw [hupd]; rfl, hstate, hC1.trans_eq hstate.symm,
    hstate.trans_lt hC2, hbits, ?_, ?_⟩
  · rw [olen_of_aligned h8]
    exact hbytes
  · rw [olen_of_aligned h8]
    exact ⟨by rw [← holen] at hframe; exact hframe, by rw [hupd]; rfl⟩

end

end Sys2Proof.Machine
end

section
/-! SUPPORT. The eight bytes of the rANS state (spec R63): `RAEF` writes them (R175, obligation O50) and `RADI` takes them
back (R176, obligation O51). -/

namespace Sys2Proof.Machine

section
variable {s : State}

/-! ### `RAEF` -/

theorem stateBytes_getElem? (x : BitVec 64) {j : Nat} (hj : j < 8) :
    (stateBytes x)[j]? = some (x.extractLsb' (8 * j) 8) := by
  have hbyte : BitVec.ofNat 8 (x.toNat / 2 ^ (8 * j) % 256) = x.extractLsb' (8 * j) 8 := by
    refine BitVec.eq_of_toNat_eq ?_
    rw [BitVec.toNat_ofNat, BitVec.extractLsb'_toNat, Nat.shiftRight_eq_div_pow]
    exact Nat.mod_mod _ _
  simp [stateBytes, hj, hbyte]

/-- Settles O50: `RAEF` is eight `PutByte` calls from a byte boundary on. -/
theorem raefWritesTheState : Obligations.RaefWritesTheState := by
  intro s hsess h8 hr
  obtain ⟨t, ht⟩ := putBytes_total (stateBytes s.raState) h8 (by simpa using hr)
  obtain ⟨hupd, hbytes, hframe⟩ := putBytes_ok (by simpa using hr) ht
  simp only [stateBytes_length] at hupd hbytes hframe
  have hbody : raefBody s = .ok (0#32, { t with sess := .idle }) :=
    Comp.bind_eq_ok.2 ⟨(), raiseIf_ok.2 (by simpa using hr), Comp.bind_eq_ok.2 ⟨t, ht, rfl⟩⟩
  rw [olen_of_aligned h8]
  refine ⟨{ t with sess := .idle }, exec_done (.inl (by simp [hsess])) hsess hbody, by rw [hupd], fun j hj => ?_, hframe,
    by rw [hupd]⟩
  rw [← stateBytes_getElem? _ hj]
  exact hbytes j hj

/-! ### `RADI` -/

/-- An input byte below `ILEN` holds the value that `inByte` reads. -/
theorem ibuf_find_of_lt (hs : s.InputOk) {i : Nat} (hi : i < s.ilen.toNat) : s.ibuf.find i = some (s.inByte i) := by
  obtain ⟨-, -, -, hsome⟩ := hs
  obtain ⟨v, hv⟩ := Option.isSome_iff_exists.1 (hsome i hi)
  rw [State.inByte, hv]
  rfl

/-- R69: `GetByteBack` above an input byte reads it. -/
theorem getByteBack_of_lt (hs : s.InputOk) {i : Nat} (hi : i < s.ilen.toNat) :
    getByteBack s (i + 1) = .ok (s.inByte i, i) := by
  obtain ⟨hcap, -⟩ := id hs
  exact getByteBack_ok.2 ⟨rfl, by omega, ibuf_find_of_lt hs hi⟩

/-- R176: the bytes loaded are the low bytes of the result, in the order of the stream, and `x` stands above them. -/
theorem loadBack_bytes (hs : s.InputOk) (n x p : Nat) (h : p + n ≤ s.ilen.toNat) :
    ∃ y, loadBack s n x (p + n) = .ok (y, p) ∧ y / 256 ^ n = x ∧
      ∀ j < n, y / 256 ^ j % 256 = (s.inByte (p + j)).toNat := by
  induction n generalizing x with
  | zero => exact ⟨x, rfl, by simp, by simp⟩
  | succ n ih =>
    have hb := (s.inByte (p + n)).isLt
    obtain ⟨y, hy, hdiv, hbytes⟩ := ih (x * 256 + (s.inByte (p + n)).toNat) (by omega)
    refine ⟨y, ?_, ?_, fun j hj => ?_⟩
    · rw [loadBack, ← Nat.add_assoc, getByteBack_of_lt hs (by omega)]
      exact hy
    · rw [Nat.pow_succ, ← Nat.div_div_eq_div_mul, hdiv]
      omega
    · rcases Nat.lt_succ_iff_lt_or_eq.1 hj with hj | rfl
      · exact hbytes j hj
      · rw [hdiv]
        omega

/-- The body of `RADI` with the eight state bytes in the stream: the state is the word that has them, in order. -/
theorem radiBody_of_le (hs : s.InputOk) (m : RaMode) (h8 : 8 ≤ s.ilen.toNat) : ∃ x : BitVec 64,
    radiBody m s = .ok (0#32, { s with
      irp := s.ilen - 8#32, raState := x, raMode := m, symcnt := 0#32, sess := .raDec }) ∧
    ∀ j < 8, x.extractLsb' (8 * j) 8 = s.inByte (s.ilen.toNat - 8 + j) := by
  obtain ⟨y, hy, hdiv, hbytes⟩ := loadBack_bytes hs 8 0 (s.ilen.toNat - 8) (by omega)
  rw [Nat.sub_add_cancel h8] at hy
  have hcur : word (s.ilen.toNat - 8) = s.ilen - 8#32 := by
    refine BitVec.eq_of_toNat_eq ?_
    rw [toNat_word (by omega), BitVec.toNat_sub_of_le h8]
    rfl
  refine ⟨BitVec.ofNat 64 y, ?_, fun j hj => BitVec.eq_of_toNat_eq ?_⟩
  · rw [← hcur]
    exact Comp.bind_eq_ok.2 ⟨(), raiseIf_ok.2 (Nat.not_lt.2 h8), Comp.bind_eq_ok.2 ⟨_, hy, rfl⟩⟩
  · have hy64 : y < 2 ^ 64 := by omega
    rw [BitVec.extractLsb'_toNat, BitVec.toNat_ofNat, Nat.mod_eq_of_lt hy64, Nat.shiftRight_eq_div_pow, Nat.pow_mul,
      ← hbytes j hj]

/-- Settles O51: the eight loads read the last eight bytes, the last of them into the high end. -/
theorem radiLoadsTheState : Obligations.RadiLoadsTheState := by
  intro s m hs hidle hf
  have hnf := ne_fault_of_idle hidle
  refine ⟨fun h8 => ?_, fun hshort => ?_⟩
  · obtain ⟨x, hbody, hbytes⟩ := radiBody_of_le hs m h8
    exact ⟨x, exec_done (.inl hnf) ⟨hidle, hf⟩ hbody, hbytes⟩
  · exact exec_failed hnf ⟨hidle, hf⟩ (Comp.bind_eq_error.2 (.inl (raiseIf_error.2 ⟨hshort, rfl⟩)))

end

end Sys2Proof.Machine
end

section
/-! SUPPORT. The decode step of the rANS coder (spec R177 to R179): the refill and how it undoes the encoder's shift
(obligation O49), and `RAD` (obligation O52). -/

namespace Sys2Proof.Machine

section
variable {s : State}

/-! ### The refill -/

/-- R174, R179: from the state `RenormRE` leaves, a refill first reads the shifted bytes back, the last one first, and goes
on from the state before the shift. No earlier test stops it: a state below `256 * L` is below `L` once shifted. -/
theorem replenish_after_renormRE {l xmax tests x y n : Nat} {out bytes : List Byte} (hx : x < 256 * l)
    (h : renormRE xmax tests x out = .ok (y, out ++ bytes)) (hread : ∀ j < bytes.length, s.ibuf.find (n + j) = bytes[j]?)
    (hcap : n + bytes.length ≤ Config.bufCap) : replenish s l y (n + bytes.length) = replenish s l x n := by
  induction tests generalizing x n out bytes with
  | zero => cases h
  | succ tests ih =>
    unfold renormRE at h
    split at h
    · obtain ⟨-, w, hw, -⟩ := renormRE_ok h
      rw [List.append_assoc, List.append_cancel_left_eq] at hw
      subst hw
      rw [List.singleton_append, List.length_cons] at hcap hread
      have hdiv : x / Config.raB < l := by unfold Config.raB; omega
      have hfirst := hread 0 (Nat.succ_pos _)
      have hrest := ih (n := n + 1) (bytes := w) (hdiv.trans_le (by omega)) (by rw [List.append_assoc]; exact h)
        (fun j hj => by
          have := hread (j + 1) (by omega)
          rwa [← Nat.add_assoc, Nat.add_right_comm] at this)
        (by omega)
      have hback : x / Config.raB * 256 + (BitVec.ofNat 8 (x % Config.raB)).toNat = x := by
        rw [BitVec.toNat_ofNat]
        unfold Config.raB
        omega
      rw [List.singleton_append, List.length_cons, Nat.add_comm w.length, ← Nat.add_assoc, hrest,
        replenish_succ hdiv (by omega) hfirst, hback, Nat.add_zero]
    · have hout := congrArg Prod.snd (Except.ok.inj h)
      have hy := congrArg Prod.fst (Except.ok.inj h)
      obtain rfl : bytes = [] := by simpa using hout
      subst hy
      rfl

/-- Settles O49: after the shifted bytes the state is `L` or more, and the refill ends there. -/
theorem replenishUndoesTheShift : Obligations.ReplenishUndoesTheShift := by
  intro s t c x y n out _ _ _ hlow hhigh hshift hread hcap
  rw [replenish_after_renormRE (out := []) hhigh hshift hread hcap, replenish_of_le hlow]

/-- The refill reads nothing of the state but the input bytes. -/
theorem replenish_congr {u : State} (h : s.ibuf = u.ibuf) (l x rp : Nat) : replenish s l x rp = replenish u l x rp := by
  have hbyte (rp : Nat) : getByteBack s rp = getByteBack u rp := by
    cases rp <;> simp only [getByteBack, h]
  induction rp generalizing x with
  | zero => rfl
  | succ rp ih => simp only [replenish, hbyte, ih]

theorem ransRefill_of_raw (hmode : s.raMode = .raw) : ransRefill s = .ok (s.raState.toNat, s.irp.toNat) := by
  rw [ransRefill, hmode]

theorem ransRefill_of_stream (hmode : s.raMode = .stream) :
    ransRefill s = replenish s (ransLow s.total) s.raState.toNat s.irp.toNat := by
  rw [ransRefill, hmode]

/-- R177, R179: from `L` up, and in RAW mode, nothing is read back. -/
theorem ransRefill_of_full (h : s.raMode = .raw ∨ ransLow s.total ≤ s.raState.toNat) :
    ransRefill s = .ok (s.raState.toNat, s.irp.toNat) := by
  cases hmode : s.raMode with
  | raw => exact ransRefill_of_raw hmode
  | stream => rw [ransRefill_of_stream hmode, replenish_of_le (h.resolve_left (by simp [hmode]))]

/-- R179: a refill gives a state or runs out of bytes. -/
theorem ransRefill_cases (hs : s.InputOk) :
    (∃ x rp, ransRefill s = .ok (x, rp)) ∨ ransRefill s = raised .corruptStream := by
  cases h : ransRefill s with
  | ok xr => exact .inl ⟨xr.1, xr.2, rfl⟩
  | error stop =>
    cases stop with
    | stopped f => exact absurd h (ransRefill_runs hs f)
    | raised e =>
      by_cases he : e = .corruptStream
      · exact .inr (by rw [he]; rfl)
      · exact absurd h (ransRefill_avoids (Ne.symm he))

theorem toNat_irp_pred (h : 1 ≤ s.irp.toNat) : (s.irp - 1#32).toNat = s.irp.toNat - 1 := BitVec.toNat_sub_of_le h

/-- R179: a refill below `L` takes one byte and goes on. -/
theorem ransRefill_takes_byte (hs : s.InputOk) (hmode : s.raMode = .stream) (hlow : s.raState.toNat < ransLow s.total)
    (hirp : 1 ≤ s.irp.toNat) : ransRefill s = ransRefill { s with
      raState := BitVec.ofNat 64 (s.raState.toNat * 256 + (s.inByte (s.irp.toNat - 1)).toNat), irp := s.irp - 1#32 } := by
  obtain ⟨hcap, -, hle, -⟩ := id hs
  have hbyte := (s.inByte (s.irp.toNat - 1)).isLt
  have hfits : s.raState.toNat * 256 + (s.inByte (s.irp.toNat - 1)).toNat < 2 ^ 64 := by
    have := s.mtotal.isLt
    unfold ransLow State.total Config.raK at hlow
    omega
  rw [ransRefill_of_stream hmode, ransRefill_of_stream (by exact hmode)]
  simp only [BitVec.toNat_ofNat, Nat.mod_eq_of_lt hfits, toNat_irp_pred hirp]
  obtain ⟨rp, hrp⟩ := Nat.exists_eq_add_of_le' hirp
  rw [hrp, Nat.add_sub_cancel, replenish_succ hlow (by omega) (ibuf_find_of_lt hs (by omega))]
  exact replenish_congr (by rfl) _ _ _

/-! ### `RAD` -/

/-- The body of `RAD` where the slot of the refilled state lies in the interval of ordinal `k`. -/
theorem radBody_of_slot (hm : s.ModelOk) (hf : s.mstate = .frozen) {x rp k : Nat} (hx : ransRefill s = .ok (x, rp))
    (hk : k < s.mn.toNat) (h1 : s.lowOf k ≤ x % s.total) (h2 : x % s.total < s.highOf k) :
    radBody s = .ok (sext32 (s.symOf k), countSymbol { s with
      raState := BitVec.ofNat 64 (ransD x (s.cntOf k) (s.lowOf k) s.total), irp := word rp }) :=
  Comp.bind_eq_ok.2 ⟨_, hx, Comp.bind_eq_ok.2 ⟨_, symbolAt_of_interval hm hf hk h1 h2, rfl⟩⟩

theorem exec_rad_of_dry (hsess : s.sess = .raDec) (h : ransRefill s = raised .corruptStream) :
    exec .rad s = s.failed .corruptStream .rad :=
  exec_failed (by simp [hsess]) hsess (Comp.bind_eq_error.2 (.inl h))

/-- Settles O52: the intervals cover every slot, so after the refill `D` finds its ordinal. -/
theorem radDecodesOneSymbol : Obligations.RadDecodesOneSymbol := by
  intro s hinv hsess
  have hm := hinv.modelOk
  have hf := hinv.frozen_of_rans (.inr hsess)
  have hin := hinv.inputOk
  refine ⟨fun x rp hx => ?decodes, exec_rad_of_dry hsess, ransRefill_cases hin, ransRefill_of_full,
    fun hmode hlow hirp => ?dry, ransRefill_takes_byte hin⟩
  case decodes =>
    obtain ⟨k, hk, h1, h2⟩ := exists_interval hm hf (Nat.mod_lt x (total_pos hm hf))
    exact ⟨k, hk, h1, h2, exec_done (.inl (by simp [hsess])) hsess (radBody_of_slot hm hf hx hk h1 h2)⟩
  case dry =>
    have hempty : ransRefill s = raised .corruptStream := by
      rw [ransRefill_of_stream hmode, hirp]
      exact replenish_zero hlow
    exact ⟨hempty, exec_rad_of_dry hsess hempty⟩

end

end Sys2Proof.Machine
end

section
/-! SUPPORT. The rANS round trip (spec R182, obligation O53). The decoder mirrors the encoder: its refill gives the encoder's
state and the number of bytes written by then. `RADI` on the written container mirrors the encoder before `RAEF`, and each
`RAD` goes back over one `RAE`, from the last to the first. -/

namespace Sys2Proof.Machine

/-- A run of commands in two parts. -/
theorem runAll_append (is js : List Instr) (s : State) :
    runAll (is ++ js) s = (runAll is s).bind fun r => (runAll js r.2).map fun q => (r.1 ++ q.1, q.2) := by
  induction is generalizing s with
  | nil => simp [runAll]
  | cons i is ih =>
    rw [List.cons_append, runAll, runAll]
    cases exec i s with
    | fault _ | refused _ => rfl
    | next t =>
      simp only [ih]
      split
      · cases runAll is t <;> simp [Function.comp_def]
      · rfl

/-- A command that completes takes a run one response further at its end. -/
theorem runAll_concat_of_ok {is : List Instr} {i : Instr} {s v u : State} {data : List Word} {d : Word}
    (h : runAll is s = some (data, v)) (hs : v.sess ≠ .fault) (hl : v.Legal i) (hb : bodyOf i v = .ok (d, u)) :
    runAll (is ++ [i]) s = some (data ++ [d], respond none d u) := by
  rw [runAll_append, h, Option.bind_some, runAll_cons_of_ok hs hl hb]
  rfl

/-- A rANS decoder that is about to undo what the encoder did last: its refill gives the encoder's state with the cursor at
the end of the encoder's bytes, which its input stream starts with. In RAW mode the cursor stays below the state bytes. -/
structure RansMirror (e d : State) : Prop where
  decInv : d.Inv
  dec : d.sess = .raDec
  model : e.SameModel d
  mode : d.raMode = e.raMode
  refill : ransRefill d = .ok (e.raState.toNat, e.obitlen.toNat / 8)
  bytes : ∀ i < e.obitlen.toNat / 8, d.ibuf.find i = e.obuf.find i
  raw : d.raMode = .raw → d.irp = d.ilen - 8#32

section
variable {e d u : State} {w : Word} {k : Nat}

/-! ### Back over one `RAE` -/

/-- What `RAE` of the symbol of ordinal `k` leaves: the state `C` of the shifted one, and the shifted bytes after those
there were. -/
theorem raeBody_symOf_effect (hinv : e.Inv) (hsess : e.sess = .raEnc) (hk : k < e.mn.toNat)
    (h : raeBody (e.symOf k) e = .ok (w, u)) :
    ∃ x out, ransShift e (e.entryOf k) = .ok (x, out) ∧ u.raState.toNat = ransC x (e.cntOf k) (e.lowOf k) e.total ∧
      u.raMode = e.raMode ∧ u.obitlen.toNat / 8 = e.obitlen.toNat / 8 + out.length ∧ u.obitlen.toNat ≤ 8 * Config.bufCap ∧
      (∀ j < out.length, u.obuf.find (e.obitlen.toNat / 8 + j) = out[j]?) ∧
      ∀ i < e.obitlen.toNat / 8, u.obuf.find i = e.obuf.find i := by
  have hf := hinv.frozen_of_rans (.inl hsess)
  obtain ⟨en, x, out, t, hen, hx, hlim, hr, ht, -, rfl⟩ := raeBody_ok h
  rw [ordinal_symOf hinv.modelOk hf hk] at hen
  cases hen
  obtain ⟨hupd, hbytes, hframe⟩ := putBytes_ok hr ht
  have hbits : t.obitlen.toNat = e.obitlen.toNat + 8 * out.length := by rw [hupd]; exact obitlen_add rfl hr
  refine ⟨x, out, hx, ?_, by rw [hupd]; rfl, ?_, ?_, hbytes, fun i hi => hframe i (.inl hi)⟩
  · rw [countSymbol_raState, BitVec.toNat_ofNat, Nat.mod_eq_of_lt hlim]
  · rw [countSymbol_obitlen, hbits, Nat.add_mul_div_left _ _ (by decide)]
  · rw [countSymbol_obitlen, hbits]
    exact hr

/-- R179: the refill takes a decoder at the shifted state back to the encoder's state before the shift, in both modes. -/
theorem ransRefill_after_ransShift {n x : Nat} {out : List Byte} {en : Entry} (hrans : e.RansOpen)
    (hmode : d.raMode = e.raMode) (htotal : d.total = e.total) (hshift : ransShift e en = .ok (x, out))
    (hstate : d.raState.toNat = x) (hcursor : d.irp.toNat = n + out.length)
    (hread : ∀ j < out.length, d.ibuf.find (n + j) = out[j]?) (hcap : n + out.length ≤ Config.bufCap) :
    ransRefill d = .ok (e.raState.toNat, n) := by
  obtain ⟨-, hrans⟩ := hrans
  cases hm : e.raMode with
  | raw =>
    rw [ransShift_of_raw hm] at hshift
    cases hshift
    rw [ransRefill_of_raw (hmode.trans hm), hstate, hcursor]
    rfl
  | stream =>
    obtain ⟨hlow, hhigh⟩ := hrans hm
    rw [ransShift_of_stream hm] at hshift
    rw [ransRefill_of_stream (hmode.trans hm), hstate, hcursor, htotal,
      replenish_after_renormRE (out := []) hhigh hshift hread hcap, replenish_of_le hlow]

/-- R178: from the state that an encode step of ordinal `k` made of `x`, `RAD` goes back to `x` and responds the symbol. -/
theorem radBody_of_encoded (hm : d.ModelOk) (hf : d.mstate = .frozen) {x rp : Nat} (hk : k < d.mn.toNat)
    (hrefill : ransRefill d = .ok (ransC x (d.cntOf k) (d.lowOf k) d.total, rp)) :
    radBody d = .ok (sext32 (d.symOf k), countSymbol { d with raState := BitVec.ofNat 64 x, irp := word rp }) := by
  have hc := cntOf_pos hm hf hk
  have hct := low_add_cnt_le_total hm hf hk
  have hslot := ransC_mod (x := x) hc hct
  have hmod := Nat.mod_lt x hc
  have hrad := radBody_of_slot hm hf hrefill hk (by omega) (by unfold State.highOf; omega)
  rwa [ransD_ransC hc hct] at hrad

/-- R178, R182: where the decoder mirrors the encoder after `RAE`, `RAD` responds its symbol and the decoder mirrors the
encoder before it. -/
theorem RansMirror.rad_of_rae (h : RansMirror (respond none w u) d) (hinv : e.Inv) (hsess : e.sess = .raEnc)
    (hk : k < e.mn.toNat) (hb : raeBody (e.symOf k) e = .ok (w, u)) :
    ∃ v, radBody d = .ok (sext32 (e.symOf k), v) ∧ RansMirror e (respond none (sext32 (e.symOf k)) v) ∧
      (e.raMode = .stream → e.cntOf k * 2 ^ 32 ≤ v.raState.toNat) := by
  have hm := hinv.modelOk
  have hf := hinv.frozen_of_rans (.inl hsess)
  have hrans := hinv.ransOpen hsess
  have hct := low_add_cnt_le_total hm hf hk
  obtain ⟨x, out, hx, hstate, hmode, hlen, hcap, hnew, hold⟩ := raeBody_symOf_effect hinv hsess hk hb
  have hmodel : e.SameModel d := ((bodyOf_frame (i := .rae (e.symOf k)) hb).model rfl).trans h.model
  have hrefill := h.refill
  rw [respond_raState, respond_obitlen, hstate, hlen] at hrefill
  have hrad := radBody_of_encoded (x := x) (hmodel.modelOk hm) (hmodel.1 ▸ hf) (hmodel.mn ▸ hk)
    (by rwa [← hmodel.cntOf, ← hmodel.lowOf, ← hmodel.total])
  rw [← hmodel.symOf] at hrad
  have hdb : bodyOf .rad d = .ok (sext32 (e.symOf k), _) := hrad
  have hdl : d.Legal .rad := h.dec
  have hxv : (BitVec.ofNat 64 x).toNat = x := by
    have hle : x ≤ u.raState.toNat := hstate ▸ le_ransC (by omega)
    rw [BitVec.toNat_ofNat, Nat.mod_eq_of_lt (hle.trans_lt u.raState.isLt)]
  have hirp : (word (e.obitlen.toNat / 8 + out.length)).toNat = e.obitlen.toNat / 8 + out.length := by
    unfold Config.bufCap at hcap
    exact toNat_word (by omega)
  have hread (i : Nat) (hi : i < e.obitlen.toNat / 8 + out.length) : d.ibuf.find i = u.obuf.find i :=
    h.bytes i (by rwa [respond_obitlen, hlen])
  refine ⟨_, hrad, ⟨h.decInv.respond_of_ok hdl hdb, h.dec, hmodel, h.mode.trans hmode, ?refill, ?bytes, ?raw⟩,
    fun hst => ?shifted⟩
  case refill =>
    exact ransRefill_after_ransShift hrans (h.mode.trans hmode) hmodel.total.symm hx hxv hirp
      (fun j hj => (hread _ (by omega)).trans (hnew j hj)) (by omega)
  case bytes => exact fun i hi => (hread i (by omega)).trans (hold i hi)
  case raw =>
    intro (hraw : d.raMode = .raw)
    rw [ransRefill_of_raw hraw] at hrefill
    have hcur := congrArg Prod.snd (Except.ok.inj hrefill)
    exact (BitVec.eq_of_toNat_eq (hirp.trans hcur.symm)).trans (h.raw hraw)
  case shifted =>
    obtain ⟨h1, -⟩ := ransShift_bounds hrans hst (show e.cntOf k ≤ e.total by omega) hx
    exact h1.trans_eq hxv.symm

/-! ### `RADI` on the container -/

/-- A 64-bit word is its eight bytes. -/
theorem eq_of_stateBytes {x y : BitVec 64} (h : ∀ j < 8, x.extractLsb' (8 * j) 8 = y.extractLsb' (8 * j) 8) : x = y := by
  refine BitVec.eq_of_getLsbD_eq fun i hi => ?_
  have hbit := congrArg (·.getLsbD (i % 8)) (h (i / 8) (by omega))
  have hlt : i % 8 < 8 := Nat.mod_lt _ (by decide)
  simpa [BitVec.getLsbD_extractLsb', hlt, Nat.div_add_mod] using hbit

/-- R182: on the container that `RAEF` completes, `RADI` in the encoder's mode leaves a decoder that mirrors it. -/
theorem ransMirror_of_radi (hinv : e.Inv) (hsess : e.sess = .raEnc) (hb : raefBody e = .ok (w, u)) (hd : d.Inv)
    (hidle : d.sess = .idle) (hmodel : e.SameModel d) (hpres : u.Presents d) :
    ∃ v, radiBody e.raMode d = .ok (0#32, v) ∧ RansMirror e (respond none 0#32 v) := by
  have hf := hinv.frozen_of_rans (.inl hsess)
  have hrans := hinv.ransOpen hsess
  obtain ⟨h8, hbounds⟩ := id hrans
  obtain ⟨t, hr, ht, -, rfl⟩ := raefBody_ok hb
  obtain ⟨hupd, hbytes, hframe⟩ := putBytes_ok (by simpa using hr) ht
  simp only [stateBytes_length] at hupd hbytes hframe
  have hbits : t.obitlen.toNat = e.obitlen.toNat + 64 := by rw [hupd]; exact obitlen_add (k := 64) rfl hr
  obtain ⟨hlen, -, hin⟩ := hpres
  have holen : t.olen = e.obitlen.toNat / 8 + 8 := by unfold State.olen; omega
  have hilen : d.ilen.toNat = e.obitlen.toNat / 8 + 8 := hlen.trans holen
  have hin (i : Nat) (hi : i < e.obitlen.toNat / 8 + 8) : d.inByte i = (t.obuf.find i).getD 0#8 :=
    hin i (hi.trans_eq holen.symm)
  obtain ⟨x, hradi, hx⟩ := radiBody_of_le hd.inputOk e.raMode (by omega)
  obtain rfl : x = e.raState := eq_of_stateBytes fun j hj => by
    rw [hx j hj, hilen, Nat.add_sub_cancel, hin _ (by omega), hbytes j hj, stateBytes_getElem? _ hj]
    rfl
  have hdb : bodyOf (.radi e.raMode) d = .ok (0#32, _) := hradi
  have hdl : d.Legal (.radi e.raMode) := ⟨hidle, hmodel.1 ▸ hf⟩
  have hcur : (d.ilen - 8#32).toNat = e.obitlen.toNat / 8 := by
    have h8 : (8#32).toNat ≤ d.ilen.toNat := hilen ▸ Nat.le_add_left 8 _
    rw [BitVec.toNat_sub_of_le h8, hilen]
    rfl
  refine ⟨_, hradi, hd.respond_of_ok hdl hdb, rfl, hmodel, rfl, ?refill, fun i hi => ?bytes, fun _ => rfl⟩
  case refill =>
    rw [← hcur]
    refine ransRefill_of_full ?_
    change e.raMode = .raw ∨ ransLow d.total ≤ e.raState.toNat
    rw [← hmodel.total]
    cases hmode : e.raMode with
    | raw => exact .inl rfl
    | stream =>
      obtain ⟨hlow, -⟩ := hbounds hmode
      exact .inr hlow
  case bytes =>
    have hold := hframe i (.inl hi)
    obtain ⟨-, -, hsome, -⟩ := hinv.outputOk
    obtain ⟨v, hv⟩ := Option.isSome_iff_exists.1 (hsome i (by rwa [olen_of_aligned h8]))
    change d.ibuf.find i = e.obuf.find i
    rw [ibuf_find_of_lt hd.inputOk (by omega), hin i (by omega), hold, hv]
    rfl

/-! ### The whole round trip -/

/-- R182: back over all of a run of `RAE`, to the encoder's state at its start. -/
theorem ransMirror_of_run {s e' : State} {js : List Nat} {data : List Word} (hinv : e.Inv) (hsess : e.sess = .raEnc)
    (hmodel : s.SameModel e) (hjs : ∀ j ∈ js, j < s.mn.toNat)
    (hrun : runAll (js.map (fun k => .rae (s.symOf k)) ++ [.raef]) e = some (data, e')) (hd : d.Inv)
    (hidle : d.sess = .idle) (hdmodel : s.SameModel d) (hpres : e'.Presents d) :
    ∃ v, runAll (.radi e.raMode :: List.replicate js.length .rad) d = some (0#32 :: s.responses js.reverse, v) ∧
      RansMirror e v ∧ (e.raMode = .stream → ∀ j, js.head? = some j → s.cntOf j * 2 ^ 32 ≤ v.raState.toNat) := by
  induction js generalizing e data with
  | nil =>
    obtain ⟨-, w, u, rest, hb, hrest, -⟩ := runAll_cons_eq_some hrun
    cases hrest
    obtain ⟨v, hradi, hmirror⟩ := ransMirror_of_radi hinv hsess hb hd hidle (hmodel.symm.trans hdmodel) hpres
    have hf := hinv.frozen_of_rans (.inl hsess)
    have hdl : d.Legal (.radi e.raMode) := ⟨hidle, (hmodel.symm.trans hdmodel).1 ▸ hf⟩
    refine ⟨_, ?_, hmirror, nofun⟩
    rw [runAll_cons_of_ok (i := .radi e.raMode) (ne_fault_of_idle hidle) hdl hradi]
    rfl
  | cons j js ih =>
    obtain ⟨hl, w, u, rest, hb, hrest, -⟩ := runAll_cons_eq_some hrun
    have F := bodyOf_frame hb
    have hj : j < e.mn.toNat := hmodel.mn ▸ hjs j List.mem_cons_self
    have hbe : raeBody (e.symOf j) e = .ok (w, u) := hmodel.symOf ▸ hb
    obtain ⟨v, hv, hmirror, -⟩ := ih (hinv.respond_of_ok hl hb) (F.sess.trans hsess) (hmodel.trans (F.model rfl))
      (fun i hi => hjs i (List.mem_cons_of_mem _ hi)) hrest
    obtain ⟨x, hrad, hback, hshifted⟩ := hmirror.rad_of_rae hinv hsess hj hbe
    obtain ⟨-, -, -, -, hmode, -⟩ := raeBody_symOf_effect hinv hsess hj hbe
    rw [respond_raMode, hmode] at hv
    refine ⟨_, ?_, hback, fun hst i hi => ?_⟩
    · rw [List.length_cons, List.replicate_succ', ← List.cons_append,
        runAll_concat_of_ok (i := .rad) hv (by simp [hmirror.dec]) hmirror.dec hrad, ← hmodel.symOf, List.reverse_cons,
        State.responses, State.responses, List.map_append]
      rfl
    · cases hi
      rw [hmodel.cntOf]
      exact hshifted hst

/-- R171: what `RAEI` leaves, as numbers. -/
theorem raeiBody_effect {s : State} {m : RaMode} (h : raeiBody m s = .ok (w, u)) :
    u.raMode = m ∧ u.raState.toNat = ransInit m s.total ∧ u.obitlen.toNat = 0 := by
  cases h
  have hlt : ransInit m s.total < 2 ^ 64 := by
    have := s.mtotal.isLt
    cases m with
    | raw => exact Nat.two_pow_pos 64
    | stream => change s.mtotal.toNat * 2 ^ 32 < 2 ^ 64; omega
  exact ⟨rfl, Nat.mod_eq_of_lt hlt, rfl⟩

/-- R182: where the first symbol encoded needs no shift out of `L`, a refill to `(L, 0)` reads nothing. -/
theorem replenish_end_of_large {l c x rp : Nat} (h : replenish d l x rp = .ok (l, 0)) (hx : c * 2 ^ 32 ≤ x)
    (hl : l < c * 2 ^ 40) : x = l ∧ rp = 0 := by
  obtain ⟨-, -, h1, h2⟩ := replenish_ok h
  rw [Nat.sub_zero] at h1 h2
  obtain rfl : rp = 0 := by
    by_contra hne
    have hpow : 256 ^ 1 ≤ 256 ^ rp := Nat.pow_le_pow_right (by decide) (Nat.pos_of_ne_zero hne)
    have := Nat.mul_le_mul_left x hpow
    omega
  exact ⟨by omega, rfl⟩

/-- Settles O53: `RADI` and the `RAD`s go back over the encoder's run to the state that `RAEI` left. -/
theorem ransRoundTrip : Obligations.RansRoundTrip := by
  intro s e d m ks data hs hidle hf hks hrun hd hdidle hmodel hpres
  obtain ⟨hl, w, u, rest, hb, hrest, -⟩ := runAll_cons_eq_some hrun
  have F := bodyOf_frame hb
  have hmu : s.SameModel (respond none w u) := F.model rfl
  obtain ⟨hmode, hstate, hlen⟩ := raeiBody_effect hb
  obtain ⟨v, hv, hmirror, hshifted⟩ := ransMirror_of_run (hs.respond_of_ok hl hb) F.sess hmu
    (fun j hj => hks j (List.mem_reverse.1 hj)) hrest hd hdidle hmodel hpres
  have hvmode := hmirror.mode
  have hrefill := hmirror.refill
  rw [respond_raState, respond_obitlen, hstate, hlen] at hrefill
  rw [respond_raMode, hmode] at hvmode
  rw [respond_raMode, hmode, List.reverse_reverse, List.length_reverse] at hv
  rw [respond_raMode, hmode, List.head?_reverse] at hshifted
  refine ⟨v, hv, fun hraw => ?raw, fun hst => ?stream⟩
  case raw =>
    subst hraw
    rw [ransRefill_of_raw hvmode] at hrefill
    have hzero := congrArg Prod.fst (Except.ok.inj hrefill)
    exact ⟨BitVec.eq_of_toNat_eq hzero, hmirror.raw hvmode⟩
  case stream =>
    subst hst
    rw [ransRefill_of_stream hvmode, ← hmirror.model.total, ← hmu.total] at hrefill
    refine ⟨hrefill, fun k hk hlarge => ?_⟩
    obtain ⟨h1, h2⟩ := replenish_end_of_large hrefill (hshifted rfl k hk) (by unfold ransLow Config.raK; omega)
    exact ⟨h1, BitVec.eq_of_toNat_eq h2⟩

end

end Sys2Proof.Machine
end

section
/-! SUPPORT. The selection of `HBLD` (spec R191) takes the node of least key (obligation O54), so that every internal node of
the tree it builds joins the two live nodes of least key (obligation O55). -/

namespace Sys2Proof.Machine

/-! ### The key -/

section
variable {s : State} {a b c : Nat}

theorem State.KeyLe.refl (s : State) (a : Nat) : s.KeyLe a a := .inr ⟨rfl, le_rfl⟩

theorem State.KeyLe.trans (hab : s.KeyLe a b) (hbc : s.KeyLe b c) : s.KeyLe a c := by
  unfold State.KeyLe at *
  omega

/-- One comparison of the selection: it goes on with the node of lesser key. -/
theorem minNode_cons_ok {best n m : Nat} {ns : List Nat} (h : minNode s best (n :: ns) = .ok m) :
    ∃ c, s.KeyLe c n ∧ s.KeyLe c best ∧ minNode s c ns = .ok m := by
  obtain ⟨fb, hfb, h⟩ := Comp.bind_eq_ok.1 h
  obtain ⟨fn, hfn, h⟩ := Comp.bind_eq_ok.1 h
  have hb := freqOf_of_find (readCell_ok.1 hfb).2
  have hn := freqOf_of_find (readCell_ok.1 hfn).2
  simp only [← BitVec.toNat_inj, ← hb, ← hn] at h
  split at h
  · next hlt => exact ⟨n, .refl s n, by unfold State.KeyLe; omega, h⟩
  · next hge => exact ⟨best, by unfold State.KeyLe; omega, .refl s best, h⟩

/-- R191: the node selected has the least key of all that were looked at. -/
theorem minNode_keyLe {best m : Nat} {ns : List Nat} (h : minNode s best ns = .ok m) :
    ∀ n ∈ best :: ns, s.KeyLe m n := by
  induction ns generalizing best with
  | nil =>
    cases h
    exact fun n hn => List.mem_singleton.1 hn ▸ .refl s n
  | cons k ns ih =>
    obtain ⟨c, hck, hcb, h⟩ := minNode_cons_ok h
    have hmc := ih h c List.mem_cons_self
    intro n hn
    rcases List.mem_cons.1 hn with rfl | hn
    · exact hmc.trans hcb
    · rcases List.mem_cons.1 hn with rfl | hn
      · exact hmc.trans hck
      · exact ih h n (List.mem_cons_of_mem _ hn)

end

/-- Settles O54: the node with the least key is one of those looked at. -/
theorem minNodePicksTheLeastKey : Obligations.MinNodePicksTheLeastKey :=
  fun _ _ _ _ h => ⟨minNode_mem h, fun n hn _ => minNode_keyLe h n hn⟩

/-! ### One merge -/

/-- What R191 asks of the children of internal node `n`: they are live then, the left one has the least key and the right
one the least of the others. -/
def State.SelectsAt (s : State) (n : Nat) : Prop :=
  s.LiveAt n (s.leftOf n) ∧ s.LiveAt n (s.rightOf n) ∧ s.rightOf n ≠ s.leftOf n ∧
    ∀ m, s.LiveAt n m → s.KeyLe (s.leftOf n) m ∧ (m ≠ s.leftOf n → s.KeyLe (s.rightOf n) m)

/-- `MergesLeast` is the selection at every internal node. -/
theorem mergesLeast_iff {s : State} : s.MergesLeast ↔ ∀ n < s.htNn.toNat, s.mn.toNat ≤ n → s.SelectsAt n := Iff.rfl

section
variable {s t u : State} {a b n : Nat}

theorem State.Makes.keyLe_iff (hM : s.Makes t a b n) {i j : Nat} (hi : i < n) (hj : j < n) : t.KeyLe i j ↔ s.KeyLe i j := by
  rw [State.KeyLe, State.KeyLe, hM.freqOf_old hi, hM.freqOf_old hj]

/-- Making node `n` does not change which nodes were live when it and the earlier ones were made. -/
theorem State.Makes.liveAt_old_iff (hM : s.Makes t a b n) {j : Nat} (hj : j ≤ n) (m : Nat) :
    t.LiveAt j m ↔ s.LiveAt j m := by
  rw [State.LiveAt, State.LiveAt, hM.mn_eq]
  refine and_congr_right fun _ => forall_congr' fun i => forall_congr' fun hi => ?_
  rw [hM.leftOf_old (hi.trans_le hj), hM.rightOf_old (hi.trans_le hj)]

theorem State.Makes.selectsAt_old (hM : s.Makes t a b n) {j : Nat} (hj : j < n) (h : s.SelectsAt j) : t.SelectsAt j := by
  obtain ⟨hl, hr, hne, hleast⟩ := h
  have hln := hl.1.trans hj
  have hrn := hr.1.trans hj
  unfold State.SelectsAt
  simp only [hM.leftOf_old hj, hM.rightOf_old hj, hM.liveAt_old_iff hj.le]
  refine ⟨hl, hr, hne, fun m hm => ?_⟩
  rw [hM.keyLe_iff hln (hm.1.trans hj), hM.keyLe_iff hrn (hm.1.trans hj)]
  exact hleast m hm

/-- The node made over the least live node and the least of the others. -/
theorem State.Makes.selectsAt_new (hM : s.Makes t a b n) (ha : s.LiveAt n a) (hb : s.LiveAt n b) (hba : b ≠ a)
    (hleast : ∀ m, s.LiveAt n m → s.KeyLe a m ∧ (m ≠ a → s.KeyLe b m)) : t.SelectsAt n := by
  unfold State.SelectsAt
  simp only [hM.left.2, hM.right.2, hM.liveAt_old_iff le_rfl]
  refine ⟨ha, hb, hba, fun m hm => ?_⟩
  rw [hM.keyLe_iff ha.1 hm.1, hM.keyLe_iff hb.1 hm.1]
  exact hleast m hm

/-- The node that a merge of two live nodes writes is made as R191 says, nothing cut. -/
theorem State.Building.makes {live : List Nat} (hB : s.Building live n) (ha : a ∈ live) (hb : b ∈ live.erase a)
    (h : writeInternal a b n s = .ok t) : s.Makes t a b n := by
  have hcap := hB.cap
  have hcount := hB.count
  have hsum := hB.sum_erase ha hb
  have htot : s.total < 2 ^ 16 := s.mtotal.isLt
  have han := hB.lt_of_mem ha
  have hbn := hB.lt_of_mem (List.mem_of_mem_erase hb)
  have hpos := List.length_pos_of_mem ha
  unfold Config.aMax at hcap
  exact writeInternal_makes (by omega) (by omega) (by omega) h

/-! ### The whole tree -/

/-- R191: each pass of the merge loop selects the least of the live nodes and the least of the others. -/
theorem mergeNodes_selects {tests m : Nat} {live : List Nat} (hB : s.Building live n)
    (hs : ∀ j < n, s.mn.toNat ≤ j → s.SelectsAt j) (h : mergeNodes tests live n s = .ok (u, m)) :
    ∀ j < m, u.mn.toNat ≤ j → u.SelectsAt j := by
  induction tests generalizing live n s with
  | zero =>
    match live, h with
    | [], h | [_], h => cases h; exact hs
    | _ :: _ :: _, h => cases h
  | succ tests ih =>
    match live, h with
    | [], h | [_], h => cases h; exact hs
    | x :: y :: rest, h =>
      obtain ⟨a, b, z, others, t, ha, he, hb, ht, h⟩ := mergeNodes_pass h
      have ham := minNode_mem ha
      have hbm : b ∈ (x :: y :: rest).erase a := he ▸ minNode_mem hb
      obtain ⟨hba, hbl⟩ := hB.nodup.mem_erase_iff.1 hbm
      have hM := hB.makes ham hbm ht
      refine ih (hB.merge ham hbm ht) (fun j hj hmj => ?_) h
      rw [hM.mn_eq] at hmj
      rcases Nat.lt_succ_iff_lt_or_eq.1 hj with hj | rfl
      · exact hM.selectsAt_old hj (hs j hj hmj)
      · refine hM.selectsAt_new ((hB.live_iff a).1 ham) ((hB.live_iff b).1 hbl) hba fun m hm => ?_
        have hml := (hB.live_iff m).2 hm
        exact ⟨minNode_keyLe ha m hml, fun hma => minNode_keyLe hb m (he ▸ hB.nodup.mem_erase_iff.2 ⟨hma, hml⟩)⟩

/-- The one live node left is the last one made, and its frequency is the sum of all. -/
theorem State.Building.freqOf_last {r : Nat} (hB : s.Building [r] n) (hn : 1 ≤ n) : s.freqOf (n - 1) = s.total := by
  have hr := List.mem_singleton.1 (hB.last_mem hn)
  rw [hr, ← hB.sum, List.map_singleton, List.sum_singleton]

/-- R193: on a consistent frozen model `HBLD` leaves the finished arena that the merge loop made, its size and its root. -/
theorem hbldBody_merges (hm : s.ModelOk) (hf : s.mstate = .frozen) :
    ∃ (v : State) (r n : Nat), v.Building [r] n ∧ (∀ j < n, v.mn.toNat ≤ j → v.SelectsAt j) ∧ 1 ≤ v.mn.toNat ∧
      hbldBody s = .ok (0#32, { v with
        htNn := BitVec.ofNat 10 n, htRoot := BitVec.ofNat 10 (n - 1), htValid := true }) ∧
      v = { s with
        hnLeaf := v.hnLeaf, hnOrd := v.hnOrd, hnFreq := v.hnFreq, hnLeft := v.hnLeft, hnRight := v.hnRight } := by
  obtain ⟨u, hu, -⟩ := hbldBody_builds hm hf
  obtain ⟨t, v, n, ht, hv, -, -⟩ := hbldBody_ok hu
  have hmn := mn_pos hm hf
  have hB := writeLeaves_building hm hf ht
  obtain ⟨leaf, ord, freq, rfl⟩ := writeLeaves_update ht
  obtain ⟨w, r, hw, hwmn, hBw⟩ := mergeNodes_builds (tests := s.mn.toNat) hB (by simpa using hmn) (by simp)
  rw [hv] at hw
  cases hw
  refine ⟨v, r, _, hBw, mergeNodes_selects hB (fun j hj hmj => absurd hj (Nat.not_lt.2 hmj)) hv, hwmn ▸ hmn, ?_, ?_⟩
  · unfold hbldBody
    simp only [ht, Comp.bind_ok, hv]
  · obtain ⟨_, _, _, _, rfl⟩ := mergeNodes_update hv
    rfl

end

/-- Settles O55: the loop keeps the arena in order and selects at each node, and what is left is the root. -/
theorem hbldBuildsTheTree : Obligations.HbldBuildsTheTree := by
  intro s hinv hidle hf
  obtain ⟨v, r, n, hB, hsel, hmn, hbody, hv⟩ := hbldBody_merges hinv.modelOk hf
  have hcap := hB.cap
  have hcount := hB.count
  unfold Config.aMax at hcap
  rw [List.length_singleton] at hcount
  have hnn : (BitVec.ofNat 10 n).toNat = n := by rw [BitVec.toNat_ofNat]; omega
  have hroot : (BitVec.ofNat 10 (n - 1)).toNat = n - 1 := by rw [BitVec.toNat_ofNat]; omega
  refine ⟨_, exec_done (.inl (ne_fault_of_idle hidle)) ⟨hidle, hf⟩ hbody, by rw [hv],
    treeOk_of_building hB hmn, mergesLeast_iff.2 fun j hj => hsel j (hnn ▸ hj), ?_⟩
  have hfreq := hB.freqOf_last (by omega)
  have htotal : v.total = s.total := by rw [hv]; rfl
  simp only [hroot]
  exact hfreq.trans htotal

end Sys2Proof.Machine
end

section
/-! SUPPORT. The codes of a valid tree are the paths from its root to the leaves (spec R192): their lengths and what `HE` does
with them (R195, obligation O56), and that none begins another (R200, obligation O57). -/

namespace Sys2Proof.Machine

theorem State.Inv.treeOk {s : State} (h : s.Inv) : s.TreeOk := by
  obtain ⟨-, -, -, -, -, -, -, -, ht⟩ := h
  exact ht

theorem State.Inv.frozen_of_tree {s : State} (h : s.Inv) (hv : s.htValid = true) : s.mstate = .frozen := by
  obtain ⟨-, -, -, -, -, ⟨-, -, hf, -⟩, -⟩ := h
  exact hf hv

/-- A path in two parts. -/
theorem leads_append {s : State} {n m : Nat} {p q : List Bool} :
    Leads s n (p ++ q) m ↔ ∃ c, Leads s n p c ∧ Leads s c q m := by
  induction p generalizing n with
  | nil => simp [Leads]
  | cons b p ih =>
    simp only [List.cons_append, Leads, ih]
    constructor
    · rintro ⟨h1, c, hc, d, hd, hm⟩
      exact ⟨d, ⟨h1, c, hc, hd⟩, hm⟩
    · rintro ⟨d, ⟨h1, c, hc, hd⟩, hm⟩
      exact ⟨h1, c, hc, d, hd, hm⟩

/-! ### Paths of a valid tree -/

section
variable {s : State} (ht : s.TreeOk) (hv : s.htValid = true)
include ht hv

/-- R44: a path goes on from an internal node alone, to an earlier node. -/
theorem Leads.step {n m : Nat} {b : Bool} {p : List Bool} (hn : n < s.htNn.toNat) (h : Leads s n (b :: p) m) :
    s.mn.toNat ≤ n ∧ s.hnLeaf.find n = some false ∧
      ∃ c : BitVec 10, (if b then s.hnRight else s.hnLeft).find n = some c ∧ c.toNat < n ∧ Leads s c.toNat p m := by
  obtain ⟨hleaf, c, hc, hp⟩ := h
  have hmn : s.mn.toNat ≤ n := by
    by_contra hlt
    obtain ⟨htrue, -⟩ := leafNode_of_lt ht hv (Nat.lt_of_not_le hlt)
    rw [hleaf] at htrue
    cases htrue
  obtain ⟨-, -, -, -, hl, hr, -⟩ := internalNode_of_le ht hv hn hmn
  refine ⟨hmn, hleaf, c, hc, ?_, hp⟩
  cases b with
  | false => rwa [leftOf_of_find hc] at hl
  | true => rwa [rightOf_of_find hc] at hr

/-- R192: each edge of a path leaves another internal node, and these are the nodes from `MN` on. -/
theorem Leads.length_le {n m : Nat} {p : List Bool} (hn : n < s.htNn.toNat) (h : Leads s n p m) :
    p.length ≤ n + 1 - s.mn.toNat := by
  induction p generalizing n with
  | nil => exact Nat.zero_le _
  | cons b p ih =>
    obtain ⟨hmn, -, c, -, hlt, hp⟩ := h.step ht hv hn
    have hrest := ih (hlt.trans hn) hp
    rw [List.length_cons]
    omega

end

/-! ### Codes -/

section
variable {s : State} {k : Nat} {bits : List Bool}

theorem code_of_one (h : s.mn.toNat = 1) (k : Nat) : code s k = .ok [false] := if_pos h

variable (hm : s.ModelOk) (hf : s.mstate = .frozen) (ht : s.TreeOk) (hv : s.htValid = true)
include hm hf ht hv

/-- R192: with more than one symbol `CODE(k)` is the path from the root to node `k`. -/
theorem leads_of_code (h1 : s.mn.toNat ≠ 1) (h : code s k = .ok bits) : Leads s s.htRoot.toNat bits k := by
  rw [code, if_neg h1] at h
  obtain ⟨r, hr, h⟩ := Comp.bind_eq_ok.1 h
  cases r with
  | none => cases h
  | some p =>
    cases h
    obtain ⟨-, m, hp, hleaf, o, ho, rfl⟩ := pathTo_some hr
    have hroot := htNn_pos ht hv (mn_pos hm hf)
    obtain ⟨hlt, -, hord⟩ | ⟨hfalse, -⟩ := node_cases ht hv ((hp.le ht hv hroot).trans_lt hroot)
    · obtain ⟨⟨hcap, -⟩, -⟩ := hm
      rw [ho] at hord
      cases hord
      unfold Config.aMax at hcap
      rwa [BitVec.toNat_ofNat, Nat.mod_eq_of_lt (by omega)]
    · rw [hleaf] at hfalse
      cases hfalse

/-- R192: a code has at least one bit and, with more than one symbol, at most `MN - 1`. -/
theorem code_length (hk : k < s.mn.toNat) (h : code s k = .ok bits) :
    bits ≠ [] ∧ bits.length ≤ max 1 (s.mn.toNat - 1) := by
  by_cases h1 : s.mn.toNat = 1
  · rw [code_of_one h1] at h
    cases h
    exact ⟨by simp, le_max_left _ _⟩
  · have hp := leads_of_code hm hf ht hv h1 h
    have hlen := hp.length_le ht hv (htNn_pos ht hv (mn_pos hm hf))
    obtain ⟨hnn, hroot, -⟩ := ht hv
    refine ⟨?_, le_max_of_le_right (by omega)⟩
    rintro rfl
    have hrk : s.htRoot.toNat = k := hp
    omega

end

/-- Settles O57: no path goes on below a leaf, and a path leads to one node. -/
theorem huffmanCodesArePrefixFree : Obligations.HuffmanCodesArePrefixFree := by
  intro s j k a b hinv hv hj hk hjk ha hb hpre
  have hm := hinv.modelOk
  have hf := hinv.frozen_of_tree hv
  have ht := hinv.treeOk
  have h1 : s.mn.toNat ≠ 1 := by omega
  have hpj := leads_of_code hm hf ht hv h1 ha
  have hpk := leads_of_code hm hf ht hv h1 hb
  obtain ⟨hleaf, -⟩ := leafNode_of_lt ht hv hj
  rw [← hpj.prefix_eq hleaf hpk hpre] at hpk
  exact hjk (hpj.unique hpk)

/-- The body of `HE` for the symbol of ordinal `k`, where its code fits. -/
theorem heBody_symOf {s t : State} {k : Nat} {bits : List Bool} (hm : s.ModelOk) (hf : s.mstate = .frozen)
    (hk : k < s.mn.toNat) (hcode : code s k = .ok bits) (hroom : s.obitlen.toNat + bits.length ≤ 8 * Config.bufCap)
    (ht : putBits bits s = .ok t) : heBody (s.symOf k) s = .ok (0#32, countSymbol t) :=
  Comp.bind_eq_ok.2 ⟨s.entryOf k, ordinal_symOf hm hf hk, Comp.bind_eq_ok.2 ⟨bits, hcode,
    Comp.bind_eq_ok.2 ⟨(), raiseIf_ok.2 (by simpa using hroom), Comp.bind_eq_ok.2 ⟨t, ht, rfl⟩⟩⟩⟩

/-- Settles O56: the code is a path of the tree, and `HE` writes it bit by bit. -/
theorem heAppendsTheCode : Obligations.HeAppendsTheCode := by
  intro s k hinv hsess hk
  have hm := hinv.modelOk
  have hv := hinv.htValid_of_huffman (.inl hsess)
  have hf := hinv.frozen_of_tree hv
  obtain ⟨bits, hcode⟩ := code_total hm hf hinv.treeOk hv hk
  obtain ⟨hne, hlen⟩ := code_length hm hf hinv.treeOk hv hk hcode
  refine ⟨bits, hcode, hne, hlen, fun hroom => ?_⟩
  obtain ⟨t, ht, hupd, hbits, hframe⟩ := putBits_appends hinv.outputOk hroom
  exact ⟨_, exec_done (.inl (by simp [hsess])) hsess (heBody_symOf hm hf hk hcode hroom ht), by rw [hupd]; rfl, hbits,
    hframe⟩

end Sys2Proof.Machine
end

section
/-! SUPPORT. `HD` follows the code that its input goes on with (spec R198, R200): to the leaf, if the whole code is there
(obligation O58), and into `CorruptStreamError`, if the stream ends inside it (obligation O60). -/

namespace Sys2Proof.Machine

section
variable {s : State} {k : Nat} {bits : List Bool}

/-! ### The walk -/

/-- The walk has no bit left to read at an internal node. -/
theorem walk_of_end {n bp : Nat} (hn : n < s.htNn.toNat) (hleaf : s.hnLeaf.find n = some false) :
    walk s 0 n bp = raised .corruptStream := by
  rw [walk, readCell_of_find (nodes_lt_arenaCap hn) hleaf]
  rfl

theorem walk_of_leaf {left n bp : Nat} (hn : n < s.htNn.toNat) (hleaf : s.hnLeaf.find n = some true) :
    walk s left n bp = .ok (n, bp) := by
  cases left <;> rw [walk, readCell_of_find (nodes_lt_arenaCap hn) hleaf] <;> rfl

/-- R198: at an internal node the walk takes one bit and goes on at the child it selects. -/
theorem walk_succ (hin : s.InputOk) {left n bp : Nat} {c : BitVec 10} (hn : n < s.htNn.toNat)
    (hleaf : s.hnLeaf.find n = some false) (hc : (if s.inBit bp then s.hnRight else s.hnLeft).find n = some c) :
    walk s (left + 1) n bp = walk s left c.toNat (bp + 1) := by
  have hcap := nodes_lt_arenaCap hn
  rw [walk, readCell_of_find hcap hleaf, Comp.bind_ok, getBit_eq_inBit hin, Comp.bind_ok, readCell_of_find hcap hc]
  rfl

/-- R198: the walk goes along a path that the input carries. -/
theorem walk_of_leads (hin : s.InputOk) (ht : s.TreeOk) (hv : s.htValid = true) {left n m bp : Nat} {p : List Bool}
    (hn : n < s.htNn.toNat) (h : Leads s n p m) (hp : Carries s.inBit bp p) :
    walk s (p.length + left) n bp = walk s left m (bp + p.length) := by
  induction p generalizing n bp with
  | nil =>
    obtain rfl : n = m := h
    simp
  | cons b p ih =>
    obtain ⟨-, hleaf, c, hc, hlt, hrest⟩ := h.step ht hv hn
    obtain ⟨hb, hp⟩ := carries_append (a := [b]).1 hp
    rw [← carries_singleton.1 hb] at hc
    rw [List.length_cons, Nat.add_right_comm, walk_succ hin hn hleaf hc, Nat.add_comm p.length 1, ← Nat.add_assoc bp]
    exact ih (hlt.trans hn) hrest hp

/-! ### The leaf `HD` reaches -/

variable (hm : s.ModelOk) (hf : s.mstate = .frozen) (ht : s.TreeOk) (hv : s.htValid = true)
include hm hf ht hv

omit hm hf in
/-- With one symbol the root is its leaf, and `HD` takes one bit, which has to be 0 (R198). -/
theorem decodePath_of_one (hin : s.InputOk) (h1 : s.mn.toNat = 1) : decodePath s =
    if s.ibitlen ≤ s.ibp.toNat ∨ s.inBit s.ibp.toNat = true then raised .corruptStream else .ok (0, s.ibp.toNat + 1) := by
  obtain ⟨hnn, hrt, -⟩ := ht hv
  have hroot : s.htRoot.toNat = 0 := by omega
  obtain ⟨hleaf, -⟩ := leafNode_of_lt ht hv (show 0 < s.mn.toNat by omega)
  rw [decodePath, hroot, readCell_of_find (by decide) hleaf]
  simp only [Comp.bind_ok, if_true, getBit_eq_inBit hin, raiseIf]
  by_cases hend : s.ibitlen ≤ s.ibp.toNat
  · rw [if_pos hend, if_pos (Or.inl hend)]
    rfl
  · rw [if_neg hend, Comp.bind_ok]
    simp only [hend, false_or]
    split <;> rfl

/-- With more than one symbol `HD` walks from the root over the bits that are left (R198). -/
theorem decodePath_of_many (h1 : s.mn.toNat ≠ 1) :
    decodePath s = walk s (s.ibitlen - s.ibp.toNat) s.htRoot.toNat s.ibp.toNat := by
  have hmn := mn_pos hm hf
  have hroot := htNn_pos ht hv hmn
  obtain ⟨hnn, hrt, -⟩ := id (ht hv)
  obtain ⟨hleaf, -⟩ := internalNode_of_le ht hv hroot (by omega)
  simp only [decodePath, readCell_of_find (nodes_lt_arenaCap hroot) hleaf, Comp.bind_ok]
  rfl

/-- R198, R200: on an input that goes on with the code of ordinal `k`, `HD` reaches leaf `k` and takes the code. -/
theorem decodePath_of_code (hin : s.InputOk) (hk : k < s.mn.toNat) (hcode : code s k = .ok bits)
    (hlen : s.ibp.toNat + bits.length ≤ s.ibitlen) (hbits : Carries s.inBit s.ibp.toNat bits) :
    decodePath s = .ok (k, s.ibp.toNat + bits.length) := by
  by_cases h1 : s.mn.toNat = 1
  · rw [code_of_one h1] at hcode
    cases hcode
    rw [List.length_singleton] at hlen
    rw [decodePath_of_one ht hv hin h1, carries_singleton.1 hbits, if_neg (by simp; omega)]
    obtain rfl : k = 0 := by omega
    rfl
  · have hroot := htNn_pos ht hv (mn_pos hm hf)
    have hp := leads_of_code hm hf ht hv h1 hcode
    obtain ⟨hleaf, -⟩ := leafNode_of_lt ht hv hk
    obtain ⟨left, hleft⟩ := Nat.exists_eq_add_of_le (show bits.length ≤ s.ibitlen - s.ibp.toNat by omega)
    rw [decodePath_of_many hm hf ht hv h1, hleft, walk_of_leads hin ht hv hroot hp hbits,
      walk_of_leaf ((hp.le ht hv hroot).trans_lt hroot) hleaf]

/-- R198, R200: on an input that ends inside a code, agreeing with it as far as it goes, `HD` raises
`CorruptStreamError`. -/
theorem decodePath_of_truncated (hin : s.InputOk) (hk : k < s.mn.toNat) (hcode : code s k = .ok bits)
    (hlen : s.ibitlen < s.ibp.toNat + bits.length)
    (hbits : ∀ j, s.ibp.toNat + j < s.ibitlen → bits[j]? = some (s.inBit (s.ibp.toNat + j))) :
    decodePath s = raised .corruptStream := by
  by_cases h1 : s.mn.toNat = 1
  · rw [code_of_one h1] at hcode
    cases hcode
    rw [List.length_singleton] at hlen
    rw [decodePath_of_one ht hv hin h1, if_pos (.inl (by omega))]
  · have hroot := htNn_pos ht hv (mn_pos hm hf)
    have hp := leads_of_code hm hf ht hv h1 hcode
    rw [decodePath_of_many hm hf ht hv h1]
    generalize hleft : s.ibitlen - s.ibp.toNat = left
    obtain ⟨hne, -⟩ := code_length hm hf ht hv hk hcode
    have hpos := List.length_pos_of_ne_nil hne
    have hlt : left < bits.length := by omega
    rw [← List.take_append_drop left bits, leads_append] at hp
    obtain ⟨c, hp, hq⟩ := hp
    have htake : (bits.take left).length = left := List.length_take_of_le hlt.le
    have hcar : Carries s.inBit s.ibp.toNat (bits.take left) := fun j hj => by
      rw [htake] at hj
      rw [List.getElem?_take_of_lt hj, hbits j (by omega)]
    have hc := (hp.le ht hv hroot).trans_lt hroot
    rw [List.drop_eq_getElem_cons hlt] at hq
    obtain ⟨-, hleaf, -⟩ := hq.step ht hv hc
    have hwalk := walk_of_leads (left := 0) hin ht hv hroot hp hcar
    rw [htake, Nat.add_zero] at hwalk
    rw [hwalk, walk_of_end hc hleaf]

/-! ### `HD` -/

/-- R198: where `HD` reaches leaf `k`, it responds the symbol of `k` and moves the cursor. -/
theorem hdBody_of_leaf {bp : Nat} (hk : k < s.mn.toNat) (h : decodePath s = .ok (k, bp)) :
    hdBody s = .ok (sext32 (s.symOf k), countSymbol { s with ibp := word bp }) := by
  obtain ⟨⟨hcap, -⟩, -⟩ := id hm
  obtain ⟨-, hord, -⟩ := leafNode_of_lt ht hv hk
  unfold Config.aMax at hcap
  have hko : (BitVec.ofNat 9 k).toNat = k := by rw [BitVec.toNat_ofNat]; omega
  refine Comp.bind_eq_ok.2 ⟨(k, bp), h, Comp.bind_eq_ok.2 ⟨_, readCell_of_find ?_ hord, ?_⟩⟩
  · unfold Config.arenaCap; omega
  · rw [hko, entry_of_lt hm hf hk]
    rfl

omit hm hf ht hv in
theorem hdBody_of_raised {e : Err} (h : decodePath s = raised e) : hdBody s = .error (.raised e) :=
  Comp.bind_eq_error.2 (.inl h)

/-- R198, R200: `HD` on an input that goes on with the code of ordinal `k`. -/
theorem hdBody_of_code (hin : s.InputOk) (hk : k < s.mn.toNat) (hcode : code s k = .ok bits)
    (hlen : s.ibp.toNat + bits.length ≤ s.ibitlen) (hbits : Carries s.inBit s.ibp.toNat bits) :
    hdBody s = .ok (sext32 (s.symOf k), countSymbol { s with ibp := word (s.ibp.toNat + bits.length) }) :=
  hdBody_of_leaf hm hf ht hv hk (decodePath_of_code hm hf ht hv hin hk hcode hlen hbits)

end

/-- Settles O58: the walk goes along the code to the leaf of its ordinal. -/
theorem hdDecodesACode : Obligations.HdDecodesACode := by
  intro s k bits hinv hsess hk hcode hlen hbits
  have hv := hinv.htValid_of_huffman (.inr hsess)
  exact exec_done (.inl (by simp [hsess])) hsess
    (hdBody_of_code hinv.modelOk (hinv.frozen_of_tree hv) hinv.treeOk hv hinv.inputOk hk hcode hlen hbits)

/-- Settles O60: the walk goes along the bits that are there to an internal node, where none is left. -/
theorem hdOnATruncatedStreamIsCorrupt : Obligations.HdOnATruncatedStreamIsCorrupt := by
  intro s k bits hinv hsess hk hcode
  have hv := hinv.htValid_of_huffman (.inr hsess)
  have hf := hinv.frozen_of_tree hv
  have hfails (h : decodePath s = raised .corruptStream) : exec .hd s = s.failed .corruptStream .hd :=
    exec_failed (by simp [hsess]) hsess (hdBody_of_raised h)
  refine ⟨fun hlen hbits => hfails ?ends, fun h1 _ hbit => hfails ?one⟩
  case ends => exact decodePath_of_truncated hinv.modelOk hf hinv.treeOk hv hinv.inputOk hk hcode hlen hbits
  case one =>
    rw [decodePath_of_one hinv.treeOk hv hinv.inputOk (by rw [h1]; rfl), if_pos (.inr hbit)]

end Sys2Proof.Machine
end

section
/-! SUPPORT. The Huffman round trip (spec R200, obligation O59). The container holds the codes of the symbols one after the
other; a decoder with the same model and the same tree takes them off it one by one, and ends with the stream. -/

namespace Sys2Proof.Machine

/-! ### The same tree, the same codes -/

theorem State.SameTree.trans {s t u : State} (h : s.SameTree t) (g : t.SameTree u) : s.SameTree u := by
  obtain ⟨h1, h2, h3, h4, h5, h6, h7, h8⟩ := h
  obtain ⟨g1, g2, g3, g4, g5, g6, g7, g8⟩ := g
  exact ⟨h1.trans g1, h2.trans g2, h3.trans g3, h4.trans g4, h5.trans g5, h6.trans g6, h7.trans g7, h8.trans g8⟩

theorem pathTo_congr {s t : State} (h : s.SameTree t) (k depth n : Nat) : pathTo s k depth n = pathTo t k depth n := by
  obtain ⟨-, -, -, -, hl, hr, hleaf, hord⟩ := h
  induction depth generalizing n with
  | zero => rfl
  | succ depth ih => simp only [pathTo, ih, hl, hr, hleaf, hord]

/-- The two states hold the same frequency model and the same code tree. -/
def State.SameCode (s t : State) : Prop := s.SameModel t ∧ s.SameTree t

section
variable {s t u : State}

theorem State.SameCode.trans (h : s.SameCode t) (g : t.SameCode u) : s.SameCode u := ⟨h.1.trans g.1, h.2.trans g.2⟩

/-- R192: the code of an ordinal depends on nothing but the model and the tree. -/
theorem State.SameCode.code_eq (h : s.SameCode t) (k : Nat) : code s k = code t k := by
  obtain ⟨hm, ht⟩ := h
  have hpath := pathTo_congr ht k
  obtain ⟨-, hroot, hnn, -⟩ := ht
  simp only [code, hm.mn, hroot, hnn, hpath]

/-- A command that writes neither leaves both as they are. -/
theorem sameCode_of_ok {i : Instr} {w : Word} (hm : writesModel i = false) (ht : writesTree i = false)
    (h : bodyOf i s = .ok (w, u)) : s.SameCode (respond none w u) :=
  ⟨(bodyOf_frame h).model hm, (bodyOf_frame h).tree ht⟩

end

/-- The listed codes are those of the listed ordinals. -/
def State.Codes (s : State) (ks : List Nat) (codes : List (List Bool)) : Prop :=
  List.Forall₂ (fun k bits => code s k = .ok bits) ks codes

/-! ### The encoder -/

section
variable {s e e' u : State} {w : Word} {k : Nat} {ks : List Nat} {data : List Word}

/-- R195: `HE` of the symbol of ordinal `k` has appended its code. -/
theorem heBody_symOf_effect (hm : e.ModelOk) (hf : e.mstate = .frozen) (hk : k < e.mn.toNat)
    (h : heBody (e.symOf k) e = .ok (w, u)) : ∃ bits, code e k = .ok bits ∧ u.outBits = e.outBits ++ bits := by
  obtain ⟨x, bits, t, hx, hcode, hroom, ht, -, rfl⟩ := heBody_ok h
  rw [ordinal_symOf hm hf hk] at hx
  cases hx
  have hout : t.outBits = e.outBits ++ bits := putBits_outBits hroom ht
  exact ⟨bits, hcode, hout⟩

/-- R195, R196: a run of `HE` and `HEF` appends the codes of its symbols, in order. -/
theorem outBits_of_run (hinv : e.Inv) (hsess : e.sess = .hfEnc) (hcode : s.SameCode e) (hks : ∀ k ∈ ks, k < s.mn.toNat)
    (hrun : runAll (ks.map (fun k => .he (s.symOf k)) ++ [.hef]) e = some (data, e')) :
    ∃ codes, s.Codes ks codes ∧ e'.outBits = e.outBits ++ codes.flatten := by
  induction ks generalizing e data with
  | nil =>
    obtain ⟨-, w, u, rest, hb, hrest, -⟩ := runAll_cons_eq_some hrun
    cases hb
    cases hrest
    exact ⟨[], .nil, by rw [List.flatten_nil, List.append_nil]; rfl⟩
  | cons k ks ih =>
    obtain ⟨hl, w, u, rest, hb, hrest, -⟩ := runAll_cons_eq_some hrun
    have hf := hinv.frozen_of_tree (hinv.htValid_of_huffman (.inl hsess))
    have hk : k < e.mn.toNat := hcode.1.mn ▸ hks k List.mem_cons_self
    obtain ⟨bits, hbits, hout⟩ := heBody_symOf_effect hinv.modelOk hf hk (hcode.1.symOf ▸ hb)
    obtain ⟨codes, hcodes, hall⟩ := ih (hinv.respond_of_ok hl hb) ((bodyOf_frame hb).sess.trans hsess)
      (hcode.trans (sameCode_of_ok rfl rfl hb)) (fun j hj => hks j (List.mem_cons_of_mem _ hj)) hrest
    refine ⟨bits :: codes, .cons ((hcode.code_eq k).trans hbits) hcodes, ?_⟩
    rw [hall, List.flatten_cons, ← List.append_assoc, ← hout]
    rfl

end

/-! ### The decoder -/

section
variable {s d v : State} {k : Nat} {bits : List Bool} {ks : List Nat} {codes : List (List Bool)}

/-- A Huffman decoder for the codes of `s`, with the bits `rest` left of its input. -/
structure HdReads (s d : State) (rest : List Bool) : Prop where
  inv : d.Inv
  dec : d.sess = .hfDec
  sameCode : s.SameCode d
  carried : Carries d.inBit d.ibp.toNat rest
  length : d.ibp.toNat + rest.length = d.ibitlen

theorem State.SameInput.ibitlen (h : d.SameInput v) : d.ibitlen = v.ibitlen := by
  obtain ⟨-, hlen, hpad, -⟩ := h
  rw [State.ibitlen, State.ibitlen, hlen, hpad]

/-- The input stream has fewer than `2^32` bits (R49, R50). -/
theorem ibitlen_lt (h : d.InputOk) : d.ibitlen < 2 ^ 32 := by
  obtain ⟨hcap, -⟩ := h
  unfold State.ibitlen
  unfold Config.bufCap at hcap
  omega

/-- R198: one `HD` takes the code at the front. -/
theorem HdReads.hd {rest : List Bool} (h : HdReads s d (bits ++ rest)) (hk : k < s.mn.toNat)
    (hbits : code s k = .ok bits) :
    ∃ v, hdBody d = .ok (sext32 (s.symOf k), v) ∧ HdReads s (respond none (sext32 (s.symOf k)) v) rest := by
  have hv := h.inv.htValid_of_huffman (.inr h.dec)
  have hlen := h.length
  obtain ⟨hfront, hback⟩ := carries_append.1 h.carried
  rw [List.length_append] at hlen
  rw [h.sameCode.1.mn] at hk
  rw [h.sameCode.code_eq] at hbits
  have hbody := hdBody_of_code h.inv.modelOk (h.inv.frozen_of_tree hv) h.inv.treeOk hv h.inv.inputOk hk hbits (by omega)
    hfront
  rw [← h.sameCode.1.symOf] at hbody
  have hb : bodyOf .hd d = .ok (sext32 (s.symOf k), _) := hbody
  have F := bodyOf_frame hb
  have hcursor : (word (d.ibp.toNat + bits.length)).toNat = d.ibp.toNat + bits.length := by
    have := ibitlen_lt h.inv.inputOk
    exact toNat_word (by omega)
  refine ⟨_, hbody, h.inv.respond_of_ok (i := .hd) h.dec hb, F.sess.trans h.dec,
    h.sameCode.trans (sameCode_of_ok rfl rfl hb), ?carried, ?length⟩
  case carried =>
    change Carries _ (word (d.ibp.toNat + bits.length)).toNat rest
    rw [hcursor]
    exact hback
  case length =>
    change (word (d.ibp.toNat + bits.length)).toNat + rest.length = d.ibitlen
    omega

/-- R200: as many `HD` as there are codes left respond their symbols and take them all. -/
theorem HdReads.run (h : HdReads s d codes.flatten) (hks : ∀ k ∈ ks, k < s.mn.toNat) (hcodes : s.Codes ks codes) :
    ∃ v, runAll (List.replicate ks.length .hd) d = some (s.responses ks, v) ∧ HdReads s v [] := by
  induction hcodes generalizing d with
  | nil => exact ⟨d, rfl, h⟩
  | cons hcode _ ih =>
    obtain ⟨v, hbody, hv⟩ := HdReads.hd h (hks _ List.mem_cons_self) hcode
    obtain ⟨x, hrun, hx⟩ := ih hv fun j hj => hks j (List.mem_cons_of_mem _ hj)
    refine ⟨x, ?_, hx⟩
    rw [List.length_cons, List.replicate_succ, runAll_cons_of_ok (i := .hd) (by simp [h.dec]) h.dec hbody, hrun]
    rfl

/-- R198: at the end of the stream `HD` raises `CorruptStreamError`, because a code has at least one bit. -/
theorem HdReads.hd_at_end (h : HdReads s d []) : exec .hd d = d.failed .corruptStream .hd := by
  have hv := h.inv.htValid_of_huffman (.inr h.dec)
  have hm := h.inv.modelOk
  have hf := h.inv.frozen_of_tree hv
  have hmn := mn_pos hm hf
  obtain ⟨bits, hbits⟩ := code_total hm hf h.inv.treeOk hv hmn
  obtain ⟨hne, -⟩ := code_length hm hf h.inv.treeOk hv hmn hbits
  have hpos := List.length_pos_of_ne_nil hne
  have hend : d.ibp.toNat = d.ibitlen := h.length
  obtain ⟨htrunc, -⟩ := hdOnATruncatedStreamIsCorrupt d 0 bits h.inv h.dec hmn hbits
  exact htrunc (by omega) fun j hj => by omega

/-- R62: a presented container has as many bits as were written. -/
theorem State.Presents.ibitlen (h : s.Presents d) : d.ibitlen = s.obitlen.toNat := by
  obtain ⟨hlen, hpad, -⟩ := h
  have hbits := obitlen_add_opad s
  unfold State.ibitlen
  omega

/-- R197: `HDI` on the container that holds the bits `rest`. -/
theorem hdReads_of_hdi {e : State} (hd : d.Inv) (hl : d.Legal .hdi) (hcode : s.SameCode d) (hpres : e.Presents d) :
    ∃ v, bodyOf .hdi d = .ok (0#32, v) ∧ HdReads s (respond none 0#32 v) e.outBits := by
  have hb : bodyOf .hdi d = .ok (0#32, _) := rfl
  refine ⟨_, hb, hd.respond_of_ok hl hb, rfl, hcode.trans (sameCode_of_ok rfl rfl hb), hpres.carries, ?_⟩
  rw [outBits_length, ← hpres.ibitlen]
  exact Nat.zero_add _

end

/-- Settles O59: the container is the codes of the symbols, and the `HD`s take them off it. -/
theorem huffmanRoundTrip : Obligations.HuffmanRoundTrip := by
  intro s e d ks data hs hidle hf hv hks hrun hd hdidle hmodel htree hpres
  have hcode : s.SameCode d := ⟨hmodel, htree⟩
  obtain ⟨hl, w, u, rest, hb, hrest, -⟩ := runAll_cons_eq_some hrun
  obtain ⟨codes, hcodes, hout⟩ := outBits_of_run (hs.respond_of_ok hl hb) (bodyOf_frame hb).sess
    (sameCode_of_ok rfl rfl hb) hks hrest
  have hempty : (respond none w u).outBits = [] := by cases hb; rfl
  have hdl : d.Legal .hdi := ⟨hdidle, hmodel.1 ▸ hf, htree.1 ▸ hv⟩
  obtain ⟨v, hbody, hreads⟩ := hdReads_of_hdi hd hdl hcode hpres
  rw [hout, hempty, List.nil_append] at hreads
  obtain ⟨x, hx, hend⟩ := hreads.run hks hcodes
  refine ⟨x, ?_, hend.length, hend.hd_at_end⟩
  rw [runAll_cons_of_ok (ne_fault_of_idle hdidle) hdl hbody, hx]
  rfl

end Sys2Proof.Machine
end

section
/-! SUPPORT. The error mechanism of 60_exceptions.md: an error response is the fault entry or, in `FAULT`, the answer `(6, 0)`
(spec R214 to R216, obligation O9), and what the commands accepted in `FAULT` write (R216 to R218, obligation O10). -/

namespace Sys2Proof.Machine

variable {i : Instr} {s t u : State} {d : Word}

/-! ### Error responses -/

/-- A command that completes does not answer with an error (R97). -/
theorem respond_of_ok_not_error {e : Err} {d' : Word} (hb : bodyOf i s = .ok (d, u)) :
    (respond none d u).outbox ≠ s.outbox ++ [⟨some e, d'⟩] := by
  simp [(bodyOf_frame hb).outbox]

/-- A command answered with the error `e` has raised it and done nothing else; in `FAULT` it is `IllegalCommandError`. -/
theorem exec_error {e : Err} (h : exec i s = .next t) (ho : t.outbox = s.outbox ++ [⟨some e, d⟩]) :
    d = 0#32 ∧ t = raiseError e (encode i) s ∧ (s.sess = .fault → e = .illegalCommand) := by
  rcases exec_next h with ⟨hs, -, rfl⟩ | ⟨e', rfl⟩ | ⟨-, d', u, hb, rfl⟩
  case inl =>
    obtain ⟨rfl, rfl⟩ : .illegalCommand = e ∧ 0#32 = d := by simpa using ho
    exact ⟨rfl, (raiseError_of_fault hs _ _).symm, fun _ => rfl⟩
  case inr.inl =>
    obtain ⟨he, rfl⟩ : (if s.sess = .fault then .illegalCommand else e') = e ∧ 0#32 = d := by
      simpa [raiseError_outbox] using ho
    by_cases hs : s.sess = .fault
    · exact ⟨rfl, by rw [raiseError_of_fault hs, raiseError_of_fault hs], fun _ => by rw [← he, if_pos hs]⟩
    · exact ⟨rfl, by rw [← he, if_neg hs], fun h => absurd h hs⟩
  case inr.inr => exact absurd ho (respond_of_ok_not_error hb)

/-- Settles O9: the state is the one `raise e` leaves, in `FAULT` and outside it. -/
theorem errorResponseMeansFaultEntryAlone : Obligations.ErrorResponseMeansFaultEntryAlone := by
  intro i s t e d h ho
  obtain ⟨rfl, rfl, he⟩ := exec_error h ho
  by_cases hs : s.sess = .fault
  · rw [raiseError_of_fault hs]
    exact ⟨rfl, by simp [State.faultO, hs], fun hn => absurd hs hn, fun _ => ⟨he hs, rfl⟩⟩
  · rw [raiseError_of_not_fault hs]
    exact ⟨rfl, by simp [State.faultO, faultEntry, hs], fun _ => rfl, fun hf => absurd hf hs⟩

/-! ### The commands accepted in `FAULT` -/

/-- In `FAULT` a command is answered `(6, 0)`, whatever error it raises (R219), or it is one of the six that are accepted and
completes (R216). -/
theorem exec_next_in_fault (hs : s.sess = .fault) (h : exec i s = .next t) :
    t = respond (some .illegalCommand) 0#32 s ∨
    acceptedInFault i = true ∧ ∃ d u, bodyOf i s = .ok (d, u) ∧ t = respond none d u := by
  rw [exec_eq_command] at h
  rcases command_next h with ⟨-, -, h⟩ | ⟨-, -, h⟩ | ⟨-, -, e, -, h⟩ | ⟨ha, -, h⟩
  · exact .inl h
  · exact .inl (h.trans (raiseError_of_fault hs _ _))
  · exact .inl (h.trans (raiseError_of_fault hs _ _))
  · exact .inr ⟨ha.resolve_left (not_not.2 hs), h⟩

/-- What the six accepted commands write: `SRST` and `ECLR` reset or clear, `OREAD` and `ORWD` move the read cursor, `NOP`
and `RDCSR` write nothing. -/
theorem bodyOf_ok_of_acceptedInFault (ha : acceptedInFault i = true) (hb : bodyOf i s = .ok (d, u)) :
    i ∈ [.srst, .eclr] ∨ (i ∈ [.oread, .orwd] ∧ ∃ p, u = { s with ordp := p }) ∨ u = s := by
  cases i with
  | srst | eclr => exact .inl (by simp)
  | oread =>
    obtain ⟨_, -, -, rfl⟩ := oreadBody_ok hb
    exact .inr (.inl ⟨by simp, _, rfl⟩)
  | orwd => cases hb; exact .inr (.inl ⟨by simp, _, rfl⟩)
  | nop | rdcsr => cases hb; exact .inr (.inr rfl)
  | _ => cases ha

/-- Settles O10: what is not turned away is one of the six, and of these only `SRST` and `ECLR` write more than the cursor. -/
theorem faultStateIsLeftOnlyByEclrAndSrst : Obligations.FaultStateIsLeftOnlyByEclrAndSrst := by
  intro i s t hs h
  rcases exec_next_in_fault hs h with rfl | ⟨ha, d, u, hb, rfl⟩
  · exact ⟨fun hne => absurd rfl hne, by simp [hs]⟩
  rcases bodyOf_ok_of_acceptedInFault ha hb with hi | ⟨hi, p, rfl⟩ | rfl
  · exact ⟨fun _ => by simp only [List.mem_cons] at hi ⊢; tauto, fun _ => hi⟩
  · exact ⟨fun _ => by simp only [List.mem_cons] at hi ⊢; tauto, by simp [hs]⟩
  · exact ⟨fun hne => absurd rfl hne, by simp [hs]⟩

end Sys2Proof.Machine
end

section
/-! SUPPORT. A step with nothing at the inputs, and a step at the pin `rst` (spec R223, R240; obligation O6). -/

namespace Sys2Proof.Machine

/-- An idle ECE waits (R223; log entry 1). -/
theorem step_of_inbox_nil {s : State} (h : s.inbox = []) : step s = .next s := by
  unfold step
  rw [h]

/-- `rst` is taken from the inbox and writes the reset registers, whatever it abandons (R240; log entry 2). -/
theorem step_of_rst {s : State} {abandoned : Option Word} {rest : List HostEvent} (h : s.inbox = .rst abandoned :: rest) :
    step s = .next (resetRegisters { s with inbox := rest }) := by
  unfold step
  rw [h]
  rfl

/-- Settles O6: what `resetRegisters` leaves is the reset state but for the port lists. -/
theorem idleStepWaitsAndResetPinResets : Obligations.IdleStepWaitsAndResetPinResets := by
  intro s
  refine ⟨step_of_inbox_nil, fun abandoned rest hin => ?_⟩
  calc step s = .next (resetRegisters { s with inbox := rest }) := step_of_rst hin
    _ = .next { State.reset with inbox := rest, outbox := s.outbox } := by rw [resetRegisters]

end Sys2Proof.Machine
end

section
/-! SUPPORT. Why the decoder rejects a word (spec R91, R93, R94), and the step at a well-formed word (spec R90; obligations O3
and O4). -/

namespace Sys2Proof

/-! ### The three reasons to reject a word -/

section

variable {w : Word} {a : BitVec 16} {f : Format} {op : Nat}

theorem decode_of_rsv_eq_zero (hr : rsvField w = 0#8) : decode w = decodeOp (opField w).toNat (argField w) := if_pos hr

theorem decode_of_rsv_ne_zero (hr : rsvField w ≠ 0#8) : decode w = .error .rsvNotZero := if_neg hr

/-- An opcode that R93 does not list is reserved. -/
theorem decodeOp_of_formatOf_none (hf : formatOf op = none) : decodeOp op a = .error .reservedOpcode := by
  unfold decodeOp
  split
  case h_38 => rfl
  all_goals cases hf

/-- What each format with an operand narrower than the field rejects. -/
theorem decodeOperand_error {n : Nat} (hn : n ≤ 16) (ha : ¬ Holds n a) (g : BitVec n → Instr) :
    (if a.extractLsb' n (16 - n) = 0#(16 - n) then .ok (g (a.extractLsb' 0 n)) else .error .operandBitsNotZero :
      Except IllFormed Instr) = .error .operandBitsNotZero :=
  if_neg (mt (extractLsb'_high_eq_zero_iff hn).1 ha)

/-- A listed opcode is rejected for the must-be-zero bits alone. The cases are in the order of the tests of `formatOf`:
formats `B`, `U`, `S`, `O`, `T`, `M`, `N`; with `U` and `S` every field holds an operand. -/
theorem decodeOp_of_not_holds (hf : formatOf op = some f) (ha : ¬ Holds f.width a) :
    decodeOp op a = .error .operandBitsNotZero := by
  unfold formatOf at hf
  split_ifs at hf with hop hop hop hop hop hop hop <;> cases hf
  · fin_cases hop <;> exact decodeOperand_error (n := 8) (by decide) ha _
  · exact absurd ⟨a, a.setWidth_eq⟩ ha
  · exact absurd ⟨a, a.setWidth_eq⟩ ha
  · cases hop
    exact decodeOperand_error (n := 2) (by decide) ha fun b => .mfin (ordOfBits b)
  · cases hop
    exact decodeOperand_error (n := 3) (by decide) ha _
  · fin_cases hop
    · exact decodeOperand_error (n := 1) (by decide) ha fun b => .raei (modeOfBits b)
    · exact decodeOperand_error (n := 1) (by decide) ha fun b => .radi (modeOfBits b)
  · have hne : a ≠ 0#16 := fun h => ha ⟨0#0, h.symm⟩
    fin_cases hop <;> exact if_neg hne

end

/-- Settles O3: seven words are the words of their commands, and three meet one reason of R94 each. -/
theorem exampleWordsDecode : Obligations.ExampleWordsDecode := by
  refine ⟨decode_ok_iff.2 rfl, decode_ok_iff.2 rfl, decode_ok_iff.2 rfl, decode_ok_iff.2 rfl, decode_ok_iff.2 rfl,
    decode_ok_iff.2 rfl, decode_ok_iff.2 rfl, ?reserved, decode_of_rsv_ne_zero (by decide), ?operand⟩
  case reserved => exact (decode_of_rsv_eq_zero rfl).trans (decodeOp_of_formatOf_none rfl)
  case operand =>
    have hbits : ¬ Holds 3 (argField 0x22000008#32) := mt (holds_iff_lt (by decide)).1 (by decide)
    exact (decode_of_rsv_eq_zero rfl).trans (decodeOp_of_not_holds (f := .t) rfl hbits)

end Sys2Proof

namespace Sys2Proof.Machine

theorem execWord_of_decode {w : Word} {i : Instr} (h : decode w = .ok i) (s : State) : execWord w s = exec i s := by
  rw [execWord, h]

/-- Settles O4: the word is taken from the port, and the decoder selects the command that is executed. -/
theorem stepRunsTheDecodedCommand : Obligations.StepRunsTheDecodedCommand := by
  intro s w rest i hin hdec
  calc step s = execWord w { s with inbox := rest } := step_of_command hin
    _ = exec i { s with inbox := rest } := execWord_of_decode hdec _

end Sys2Proof.Machine
end
